-- ==== Sys2Proof/Word.lean ====
section
/-! DEFINITION. The two word types of the machine: the byte and the 16-bit word (00_scope.md R6, 10_state.md R20). -/

namespace Sys2Proof

/-- An 8-bit value: a memory byte, an 8-bit register, a byte of an instruction (00_scope.md R6). -/
abbrev Byte := BitVec 8

/-- A 16-bit value: an address or a 16-bit register (00_scope.md R6). -/
abbrev Word := BitVec 16

end Sys2Proof
end

