-- ==== Sys2Proof/Machine/Bits.lean ====
section
/-! DEFINITION. Bit fields, byte order and sign extension (00_scope.md R6, 20_memory.md R90). -/

namespace Sys2Proof

/-- The high byte `v[15:8]` of a word (00_scope.md R6). -/
def hiByte (w : Word) : Byte := w.extractLsb' 8 8

/-- The low byte `v[7:0]` of a word (00_scope.md R6). -/
def loByte (w : Word) : Byte := w.extractLsb' 0 8

/-- `h:l`, the word whose high byte is `h` (00_scope.md R6). -/
def joinBytes (h l : Byte) : Word := h ++ l

/-- `sext_8` (00_scope.md R6). -/
def sext8 (b : Byte) : Word := b.signExtend 16

/-- `sext_5` (00_scope.md R6). -/
def sext5 (n : BitVec 5) : Word := n.signExtend 16

/-- `zext_8` (00_scope.md R6). -/
def zext8 (b : Byte) : Word := b.setWidth 16

/-- The byte `b` with bit `i` set to `v`. -/
def putBit (b : Byte) (i : Nat) (v : Bool) : Byte :=
  if v then b ||| (1#8 <<< i) else b &&& ~~~(1#8 <<< i)

/-- The bytes of the number `w`, least significant first, `n` of them. -/
def bytesLE : Nat → Nat → List Byte
  | 0, _ => []
  | n + 1, w => BitVec.ofNat 8 w :: bytesLE n (w / 256)

end Sys2Proof
end

