-- ==== Sys2Proof/Machine/Flags.lean ====
section
/-! DEFINITION. The condition codes and every flag computation (10_state.md R26 to R29, 42_alu8.md R220 to R222,
43_alu16.md R260 to R262, 44_unary.md R282 to R290, 45_misc.md R341 to R343). An operation answers its result and the
CC byte after it. The argument `h` of an operation is the drawn value of a flag that the spec leaves at any value. -/

namespace Sys2Proof.Machine

/-! ## The CC byte -/

/-- The flags of CC (10_state.md R26). -/
inductive Flag
  | c | v | z | n | i | h | f | e
deriving DecidableEq, Repr

/-- The bit of CC that a flag is (10_state.md R26). -/
def Flag.index : Flag → Nat
  | .c => 0
  | .v => 1
  | .z => 2
  | .n => 3
  | .i => 4
  | .h => 5
  | .f => 6
  | .e => 7

/-- Reading a flag of a CC byte. -/
def getFlag (cc : Byte) (fl : Flag) : Bool := cc.getLsbD fl.index

/-- A CC byte with one flag written; the other seven bits are kept. -/
def putFlag (cc : Byte) (fl : Flag) (b : Bool) : Byte := putBit cc fl.index b

/-! ## Shared flag effects -/

/-- `NZ8(r)` (41_load_store.md R180). -/
def nz8 (r : Byte) (cc : Byte) : Byte := putFlag (putFlag cc .n r.msb) .z (r == 0)

/-- `NZ16(r)` (41_load_store.md R180). -/
def nz16 (r : Word) (cc : Byte) : Byte := putFlag (putFlag cc .n r.msb) .z (r == 0)

/-- The flags of a load, a store or a logical result of 8 bits (41_load_store.md R181, 42_alu8.md R222). -/
def logic8 (r : Byte) (cc : Byte) : Byte := putFlag (nz8 r cc) .v false

/-- The flags of a load or a store of 16 bits (41_load_store.md R181). -/
def logic16 (r : Word) (cc : Byte) : Byte := putFlag (nz16 r cc) .v false

/-! ## 8-bit arithmetic (42_alu8.md) -/

/-- `add8(a, m, cin)` (42_alu8.md R220). -/
def add8 (a m : Byte) (cin : Bool) (cc : Byte) : Byte × Byte :=
  let t := a.toNat + m.toNat + cin.toNat
  let r := BitVec.ofNat 8 t
  let cc := putFlag cc .h (decide (0x10 ≤ a.toNat % 16 + m.toNat % 16 + cin.toNat))
  let cc := putFlag (nz8 r cc) .v ((a ^^^ r) &&& (m ^^^ r)).msb
  (r, putFlag cc .c (t.testBit 8))

/-- `sub8(a, m, bin)`; `h` is the drawn H (42_alu8.md R221). -/
def sub8 (a m : Byte) (bin : Bool) (h : Bool) (cc : Byte) : Byte × Byte :=
  let t : Int := (a.toNat : Int) - m.toNat - bin.toNat
  let r := BitVec.ofInt 8 t
  let cc := putFlag (nz8 r cc) .v ((a ^^^ m) &&& (a ^^^ r)).msb
  let cc := putFlag cc .c (decide (t < 0))
  (r, putFlag cc .h h)

/-! ## 16-bit arithmetic (43_alu16.md) -/

/-- `add16(a, m)` (43_alu16.md R260). -/
def add16 (a m : Word) (cc : Byte) : Word × Byte :=
  let t := a.toNat + m.toNat
  let r := BitVec.ofNat 16 t
  let cc := putFlag (nz16 r cc) .v ((a ^^^ r) &&& (m ^^^ r)).msb
  (r, putFlag cc .c (t.testBit 16))

/-- `sub16(a, m)` (43_alu16.md R261). -/
def sub16 (a m : Word) (cc : Byte) : Word × Byte :=
  let t : Int := (a.toNat : Int) - m.toNat
  let r := BitVec.ofInt 16 t
  let cc := putFlag (nz16 r cc) .v ((a ^^^ m) &&& (a ^^^ r)).msb
  (r, putFlag cc .c (decide (t < 0)))

/-! ## Unary operations, shifts and rotates (44_unary.md) -/

/-- `neg8(m)`; `h` is the drawn H (44_unary.md R282). -/
def neg8 (m : Byte) (h : Bool) (cc : Byte) : Byte × Byte :=
  let r := 0 - m
  let cc := putFlag (nz8 r cc) .v (m == 0x80)
  let cc := putFlag cc .c (m != 0x00)
  (r, putFlag cc .h h)

/-- `com8(m)` (44_unary.md R283). -/
def com8 (m : Byte) (cc : Byte) : Byte × Byte :=
  let r := m ^^^ 0xFF
  (r, putFlag (putFlag (nz8 r cc) .v false) .c true)

/-- `lsr8(m)` (44_unary.md R284). -/
def lsr8 (m : Byte) (cc : Byte) : Byte × Byte :=
  let r := m >>> 1
  let cc := putFlag cc .c (m.getLsbD 0)
  (r, putFlag (putFlag cc .n false) .z (r == 0))

/-- `ror8(m)`, with C from before the instruction (44_unary.md R285). -/
def ror8 (m : Byte) (cc : Byte) : Byte × Byte :=
  let r := putBit (m >>> 1) 7 (getFlag cc .c)
  (r, nz8 r (putFlag cc .c (m.getLsbD 0)))

/-- `asr8(m)`; `h` is the drawn H (44_unary.md R286). -/
def asr8 (m : Byte) (h : Bool) (cc : Byte) : Byte × Byte :=
  let r := (m &&& 0x80) ||| (m >>> 1)
  (r, putFlag (nz8 r (putFlag cc .c (m.getLsbD 0))) .h h)

/-- `asl8(m)`, also LSL; `h` is the drawn H (44_unary.md R287). -/
def asl8 (m : Byte) (h : Bool) (cc : Byte) : Byte × Byte :=
  let r := m <<< 1
  let cc := putFlag cc .c (m.getLsbD 7)
  let cc := putFlag cc .v (m.getLsbD 7 != m.getLsbD 6)
  (r, putFlag (nz8 r cc) .h h)

/-- `rol8(m)`, with C from before the instruction (44_unary.md R288). -/
def rol8 (m : Byte) (cc : Byte) : Byte × Byte :=
  let r := putBit (m <<< 1) 0 (getFlag cc .c)
  let cc := putFlag cc .c (m.getLsbD 7)
  (r, nz8 r (putFlag cc .v (m.getLsbD 7 != m.getLsbD 6)))

/-- `dec8(m)` (44_unary.md R289). -/
def dec8 (m : Byte) (cc : Byte) : Byte × Byte :=
  let r := m - 1
  (r, putFlag (nz8 r cc) .v (m == 0x80))

/-- `inc8(m)` (44_unary.md R289). -/
def inc8 (m : Byte) (cc : Byte) : Byte × Byte :=
  let r := m + 1
  (r, putFlag (nz8 r cc) .v (m == 0x7F))

/-- `tst8(m)`: flags only (44_unary.md R290). -/
def tst8 (m : Byte) (cc : Byte) : Byte := putFlag (nz8 m cc) .v false

/-- `clr8(_)` (44_unary.md R290). -/
def clr8 (cc : Byte) : Byte × Byte :=
  let cc := putFlag (putFlag cc .n false) .z true
  (0x00, putFlag (putFlag cc .v false) .c false)

/-! ## MUL, SEX and DAA (45_misc.md) -/

/-- MUL's product and flags: Z and C = D[7] (45_misc.md R341). -/
def mul8 (a b : Byte) (cc : Byte) : Word × Byte :=
  let r := BitVec.ofNat 16 (a.toNat * b.toNat)
  (r, putFlag (putFlag cc .z (r == 0)) .c (r.getLsbD 7))

/-- DAA's correction of A; `v` is the drawn V (45_misc.md R343). -/
def daa8 (a : Byte) (v : Bool) (cc : Byte) : Byte × Byte :=
  let lsn := a.toNat % 16
  let msn := a.toNat / 16
  let low := if getFlag cc .h || decide (9 < lsn) then 0x06 else 0x00
  let high := if getFlag cc .c || decide (9 < msn) || (decide (8 < msn) && decide (9 < lsn)) then 0x60 else 0x00
  let t := a.toNat + (low + high)
  let r := BitVec.ofNat 8 t
  let cc := putFlag (nz8 r cc) .c (getFlag cc .c || t.testBit 8)
  (r, putFlag cc .v v)

/-! ## Branch conditions (47_control.md R372) -/

/-- The 16 branch conditions, in the order of the low nibble of the opcode, 0x0 to 0xF (47_control.md R372). -/
inductive Cond
  | always | never | hi | ls | cc | cs | ne | eq | vc | vs | pl | mi | ge | lt | gt | le
deriving DecidableEq, Repr

/-- `cond(c)`: whether a condition holds of a CC byte (47_control.md R372). -/
def branchCond (c : Cond) (cc : Byte) : Bool :=
  let C := getFlag cc .c
  let Z := getFlag cc .z
  let V := getFlag cc .v
  let N := getFlag cc .n
  match c with
  | .always => true
  | .never => false
  | .hi => !C && !Z
  | .ls => C || Z
  | .cc => !C
  | .cs => C
  | .ne => !Z
  | .eq => Z
  | .vc => !V
  | .vs => V
  | .pl => !N
  | .mi => N
  | .ge => N == V
  | .lt => N != V
  | .gt => !Z && N == V
  | .le => Z || N != V

/-! ## The fast-CC form (10_state.md R28, R29), optional and not part of the state (log 22) -/

/-- The fast-CC fields (10_state.md R28); `res` holds the nine-bit result. -/
structure FastCc where
  res : BitVec 9
  m1 : Byte
  m2 : Byte
  sign : Byte
  ovfl : Byte
  h1 : Byte
  h2 : Byte
  rest : Byte
deriving DecidableEq, Repr

/-- `getcc()` (10_state.md R28). -/
def getcc (f : FastCc) : Byte :=
  ((((f.h1 &&& 0xF) + (f.h2 &&& 0xF)) &&& 0x10) <<< 1)
    ||| ((f.sign &&& 0x80) >>> 4)
    ||| (if f.res &&& 0xFF = 0 then 0x04 else 0)
    ||| (((~~~(f.m1 ^^^ f.m2) &&& (f.m1 ^^^ f.ovfl)) &&& 0x80) >>> 6)
    ||| ((f.res &&& 0x100) >>> 8).setWidth 8
    ||| f.rest

/-- `setcc(v)` (10_state.md R29). -/
def setcc (v : Byte) : FastCc where
  res := ((v &&& 0x01).setWidth 9 <<< 8) ||| (4 - (v &&& 0x04).setWidth 9)
  m1 := 0
  m2 := 0
  sign := (v &&& 0x08) <<< 4
  ovfl := (v &&& 0x02) <<< 6
  h1 := (v &&& 0x20) >>> 2
  h2 := (v &&& 0x20) >>> 2
  rest := v &&& 0xD0

end Sys2Proof.Machine
end

