-- ==== Sys2Proof/Config.lean ====
section
/-! DEFINITION. What the spec leaves open for the whole machine: the OPEN parameters of 00_scope.md R5 and the draws of
00_scope.md R9. Each is an opaque constant without a body, so no proof can rest on a value of it; the constraints
that the spec puts on a parameter are built into its type (logs 4 to 9). -/

namespace Sys2Proof.Config

/-! ## Free values, one for each draw (00_scope.md R9, 93_implementation_defined.md section 1) -/

/-- The k-th drawn flag bit: H after an 8-bit subtract, compare, NEG, ASR or ASL (U1 to U3), V after DAA (U4).
DESIGN CHOICE, safe: log 4 and log 5. -/
opaque freeBit : Nat → Bool

/-- The k-th drawn byte: what TapeRead returns at the end of the tape or with no tape loaded
(49_periph_tape.md R434, U8). DESIGN CHOICE, safe: log 6. -/
opaque freeByte : Nat → Byte

/-- Whether the k-th attempt to create the output file succeeds (49_periph_tape.md R438, U15).
DESIGN CHOICE, safe: log 7. -/
opaque outputCreated : Nat → Bool

/-! ## OPEN parameters (00_scope.md R5). DESIGN CHOICE, safe: logs 8 and 9 -/

/-- P_CYC_ILLEGAL less one: the parameter is at least 1 (92_eei_decisions.md D53). -/
opaque cycIllegalLessOne : Nat

/-- P_CYC_PERIPH less one: the parameter is at least 1 (92_eei_decisions.md D53). -/
opaque cycPeriphLessOne : Nat

/-- Which of the 33 unassigned page-0 bytes, in the order of 30_encoding.md R129, is P_PERIPH_OPCODE
(49_periph_tape.md R430). -/
opaque periphIndex : Fin 33

/-- The four trap addresses are at the offsets from 0xC000 that are the images of 0, 1, 2 and 3: any four pairwise distinct
addresses (49_periph_tape.md R431), each of them in ROM (70_reset_and_hazards.md R503). -/
opaque trapPlacement : Equiv.Perm (Fin 16384)

/-- P_TAPE_BIT_ADDR: a CPU address outside ROM, that is, below 0xC000 (49_periph_tape.md R436, U20). -/
opaque tapeBitIndex : Fin 49152

/-- P_MOTOR_OFFSET: an offset from S (49_periph_tape.md R440). -/
opaque motorOffset : Word

/-- Which bit P_MOTOR_MASK has: a single-bit mask (49_periph_tape.md R440). -/
opaque motorBit : Fin 8

/-- P_LP_OFFSET: an offset from S (49_periph_tape.md R441). -/
opaque lightPenOffset : Word

/-- P_TAPE_MAX less one: the parameter is at least 1 (49_periph_tape.md R432, 93_implementation_defined.md section 2). -/
opaque tapeMaxLessOne : Nat

/-- P_HARD_RESET_RANGE: the RAM bytes that a hard reset zeroes (70_reset_and_hazards.md R506), counted from 0x0000 upwards
without the four PIA shadow bytes, which a hard reset leaves unchanged, as it leaves the ROM pages (10_state.md R36). -/
opaque hardResetIndices : List (Fin 49148)

end Sys2Proof.Config
end

