-- ==== Sys2Proof/Syntax.lean ====
section
/-! DEFINITION. The instructions of the machine: one constructor for each mnemonic of the opcode table, with its
operand forms (30_encoding.md R120 to R133, 40_addressing.md R150 to R166). -/

namespace Sys2Proof

/-- The base register that bits 6-5 of an indexed post-byte select (40_addressing.md R155). -/
inductive IdxReg
  | x | y | u | s
deriving DecidableEq, Repr

/-- The assigned sub-modes of an indexed post-byte of the mode form, with the extra operand bytes of R157
(40_addressing.md R158 to R162). -/
inductive SubMode
  | inc1               -- ,R+
  | inc2               -- ,R++
  | dec1               -- ,-R
  | dec2               -- ,--R
  | zero               -- ,R
  | accB               -- B,R
  | accA               -- A,R
  | off8 (n : Byte)    -- n8,R
  | off16 (n : Word)   -- n16,R
  | accD               -- D,R
  | pcr8 (n : Byte)    -- n8,PCR
  | pcr16 (n : Word)   -- n16,PCR
deriving DecidableEq, Repr

/-- An indexed operand: a post-byte with its extra bytes (40_addressing.md R155 to R166). -/
inductive Indexed
  /-- The 5-bit offset form (R156). -/
  | off5 (r : IdxReg) (n : BitVec 5)
  /-- The mode form: base register, indirect bit, sub-mode. The PC-relative sub-modes ignore the base register field,
  which is kept so that no bit of the post-byte is dropped (R162). -/
  | mode (r : IdxReg) (indirect : Bool) (m : SubMode)
  /-- Extended indirect, post-byte 0x9F only (R163). -/
  | extIndirect (n : Word)
  /-- One of the 39 unassigned post-bytes, which resolve to EA 0 (R164). -/
  | unassigned (pb : Byte)
deriving DecidableEq, Repr

/-- A memory operand: direct, extended or indexed (40_addressing.md R150). -/
inductive MemOp
  | dir (dd : Byte)
  | ext (hhll : Word)
  | idx (ix : Indexed)
deriving DecidableEq, Repr

/-- An 8-bit source operand: immediate or memory (40_addressing.md R151). -/
inductive Op8
  | imm (ii : Byte)
  | mem (m : MemOp)
deriving DecidableEq, Repr

/-- A 16-bit source operand: immediate or memory (40_addressing.md R151). -/
inductive Op16
  | imm (jjkk : Word)
  | mem (m : MemOp)
deriving DecidableEq, Repr

/-- The 4-bit register-select codes of EXG and TFR (30_encoding.md R132): the ten registers and the six undefined
codes, 0x6 and 0x7 of 16 bits and 0xC to 0xF of 8 bits. -/
inductive RegCode
  | d | x | y | u | s | pc
  | undef16 (k : BitVec 1)
  | a | b | cc | dp
  | undef8 (k : BitVec 2)
deriving DecidableEq, Repr

/-- The instructions of spec/opcode_table.json, one constructor for each mnemonic. -/
inductive Instr
  | lda (o : Op8)  -- LDA, load A (R182)
  | ldb (o : Op8)  -- LDB, load B (R183)
  | ldd (o : Op16)  -- LDD, load D (R184)
  | ldx (o : Op16)  -- LDX, load X (R185)
  | ldy (o : Op16)  -- LDY, load Y (R186)
  | ldu (o : Op16)  -- LDU, load U (R187)
  | lds (o : Op16)  -- LDS, load S (R188)
  | sta (m : MemOp)  -- STA, store A (R189)
  | stb (m : MemOp)  -- STB, store B (R190)
  | std (m : MemOp)  -- STD, store D (R191)
  | stx (m : MemOp)  -- STX, store X (R192)
  | sty (m : MemOp)  -- STY, store Y (R193)
  | stu (m : MemOp)  -- STU, store U (R194)
  | sts (m : MemOp)  -- STS, store S (R195)
  | leax (ix : Indexed)  -- LEAX, load an indexed effective address into X (R197)
  | leay (ix : Indexed)  -- LEAY, load an indexed effective address into Y (R198)
  | leas (ix : Indexed)  -- LEAS, load an indexed effective address into S (R199)
  | leau (ix : Indexed)  -- LEAU, load an indexed effective address into U (R200)
  | suba (o : Op8)  -- SUBA, subtract a byte from A (R225)
  | subb (o : Op8)  -- SUBB, subtract a byte from B (R226)
  | cmpa (o : Op8)  -- CMPA, compare a byte with A (R227)
  | cmpb (o : Op8)  -- CMPB, compare a byte with B (R228)
  | sbca (o : Op8)  -- SBCA, subtract a byte and the borrow from A (R229)
  | sbcb (o : Op8)  -- SBCB, subtract a byte and the borrow from B (R230)
  | anda (o : Op8)  -- ANDA, AND a byte into A (R231)
  | andb (o : Op8)  -- ANDB, AND a byte into B (R232)
  | bita (o : Op8)  -- BITA, bit-test a byte against A (R233)
  | bitb (o : Op8)  -- BITB, bit-test a byte against B (R234)
  | eora (o : Op8)  -- EORA, exclusive-OR a byte into A (R235)
  | eorb (o : Op8)  -- EORB, exclusive-OR a byte into B (R236)
  | adca (o : Op8)  -- ADCA, add a byte and the carry to A (R237)
  | adcb (o : Op8)  -- ADCB, add a byte and the carry to B (R238)
  | ora (o : Op8)  -- ORA, OR a byte into A (R239)
  | orb (o : Op8)  -- ORB, OR a byte into B (R240)
  | adda (o : Op8)  -- ADDA, add a byte to A (R241)
  | addb (o : Op8)  -- ADDB, add a byte to B (R242)
  | addd (o : Op16)  -- ADDD, add a word to D (R263)
  | subd (o : Op16)  -- SUBD, subtract a word from D (R264)
  | cmpx (o : Op16)  -- CMPX, compare a word with X (R265)
  | cmpd (o : Op16)  -- CMPD, compare a word with D (R266)
  | cmpy (o : Op16)  -- CMPY, compare a word with Y (R267)
  | cmpu (o : Op16)  -- CMPU, compare a word with U (R268)
  | cmps (o : Op16)  -- CMPS, compare a word with S (R269)
  | nega  -- NEGA, negate A (R291)
  | negb  -- NEGB, negate B (R292)
  | neg (m : MemOp)  -- NEG, negate a memory byte (R293)
  | coma  -- COMA, complement A (R294)
  | comb  -- COMB, complement B (R295)
  | com (m : MemOp)  -- COM, complement a memory byte (R296)
  | lsra  -- LSRA, logical shift right A (R297)
  | lsrb  -- LSRB, logical shift right B (R298)
  | lsr (m : MemOp)  -- LSR, logical shift right a memory byte (R299)
  | rora  -- RORA, rotate right through carry A (R300)
  | rorb  -- RORB, rotate right through carry B (R301)
  | ror (m : MemOp)  -- ROR, rotate right through carry a memory byte (R302)
  | asra  -- ASRA, arithmetic shift right A (R303)
  | asrb  -- ASRB, arithmetic shift right B (R304)
  | asr (m : MemOp)  -- ASR, arithmetic shift right a memory byte (R305)
  | asla  -- ASLA, arithmetic (logical) shift left A (R306)
  | aslb  -- ASLB, arithmetic (logical) shift left B (R307)
  | asl (m : MemOp)  -- ASL, arithmetic (logical) shift left a memory byte (R308)
  | rola  -- ROLA, rotate left through carry A (R309)
  | rolb  -- ROLB, rotate left through carry B (R310)
  | rol (m : MemOp)  -- ROL, rotate left through carry a memory byte (R311)
  | deca  -- DECA, decrement A (R312)
  | decb  -- DECB, decrement B (R313)
  | dec (m : MemOp)  -- DEC, decrement a memory byte (R314)
  | inca  -- INCA, increment A (R315)
  | incb  -- INCB, increment B (R316)
  | inc (m : MemOp)  -- INC, increment a memory byte (R317)
  | tsta  -- TSTA, test A (R318)
  | tstb  -- TSTB, test B (R319)
  | tst (m : MemOp)  -- TST, test a memory byte (R320)
  | clra  -- CLRA, clear A (R321)
  | clrb  -- CLRB, clear B (R322)
  | clr (m : MemOp)  -- CLR, clear a memory byte (R323)
  | abx  -- ABX, add B, unsigned, to X (R340)
  | mul  -- MUL, multiply A by B into D (R341)
  | sex  -- SEX, sign-extend B into A (R342)
  | daa  -- DAA, decimal-adjust A (R343)
  | exg (r1 r2 : RegCode)  -- EXG, exchange two registers (R346)
  | tfr (r1 r2 : RegCode)  -- TFR, copy one register into another (R347)
  | andcc (ii : Byte)  -- ANDCC, AND an immediate into CC (R348)
  | orcc (ii : Byte)  -- ORCC, OR an immediate into CC (R349)
  | nop  -- NOP, no operation (R350)
  | pshs (mask : Byte)  -- PSHS, push the registers of the mask onto S (R362)
  | puls (mask : Byte)  -- PULS, pull the registers of the mask from S (R363)
  | pshu (mask : Byte)  -- PSHU, push the registers of the mask onto U (R364)
  | pulu (mask : Byte)  -- PULU, pull the registers of the mask from U (R365)
  | bra (o : Byte)  -- BRA, short branch: always (R373)
  | brn (o : Byte)  -- BRN, short branch: never (R374)
  | bhi (o : Byte)  -- BHI, short branch: higher (R375)
  | bls (o : Byte)  -- BLS, short branch: lower or same (R376)
  | bcc (o : Byte)  -- BCC, short branch: carry clear (R377)
  | bcs (o : Byte)  -- BCS, short branch: carry set (R378)
  | bne (o : Byte)  -- BNE, short branch: not equal (R379)
  | beq (o : Byte)  -- BEQ, short branch: equal (R380)
  | bvc (o : Byte)  -- BVC, short branch: overflow clear (R381)
  | bvs (o : Byte)  -- BVS, short branch: overflow set (R382)
  | bpl (o : Byte)  -- BPL, short branch: plus (R383)
  | bmi (o : Byte)  -- BMI, short branch: minus (R384)
  | bge (o : Byte)  -- BGE, short branch: greater or equal (R385)
  | blt (o : Byte)  -- BLT, short branch: less than (R386)
  | bgt (o : Byte)  -- BGT, short branch: greater than (R387)
  | ble (o : Byte)  -- BLE, short branch: less or equal (R388)
  | bsr (o : Byte)  -- BSR, short branch to subroutine (R389)
  | lbra (o : Word)  -- LBRA, long branch always (R390)
  | lbrn (o : Word)  -- LBRN, long branch: never (R391)
  | lbhi (o : Word)  -- LBHI, long branch: higher (R392)
  | lbls (o : Word)  -- LBLS, long branch: lower or same (R393)
  | lbcc (o : Word)  -- LBCC, long branch: carry clear (R394)
  | lbcs (o : Word)  -- LBCS, long branch: carry set (R395)
  | lbne (o : Word)  -- LBNE, long branch: not equal (R396)
  | lbeq (o : Word)  -- LBEQ, long branch: equal (R397)
  | lbvc (o : Word)  -- LBVC, long branch: overflow clear (R398)
  | lbvs (o : Word)  -- LBVS, long branch: overflow set (R399)
  | lbpl (o : Word)  -- LBPL, long branch: plus (R400)
  | lbmi (o : Word)  -- LBMI, long branch: minus (R401)
  | lbge (o : Word)  -- LBGE, long branch: greater or equal (R402)
  | lblt (o : Word)  -- LBLT, long branch: less than (R403)
  | lbgt (o : Word)  -- LBGT, long branch: greater than (R404)
  | lble (o : Word)  -- LBLE, long branch: less or equal (R405)
  | lbsr (o : Word)  -- LBSR, long branch to subroutine (R406)
  | jmp (m : MemOp)  -- JMP, jump (R407)
  | jsr (m : MemOp)  -- JSR, jump to subroutine (R408)
  | rts  -- RTS, return from subroutine (R409)
  | swi  -- SWI, software interrupt (R411)
  | swi2  -- SWI2, software interrupt 2 (R412)
  | swi3  -- SWI3, software interrupt 3 (R413)
  | cwai (ii : Byte)  -- CWAI, AND an immediate into CC and go on (R414)
  | rti  -- RTI, return from interrupt (R415)
  | sync  -- SYNC, no operation on this machine (R416)
  | periph  -- PERIPH, the send-to-periph trap instruction (R430)
deriving DecidableEq, Repr

end Sys2Proof
end

