-- ==== Sys2Proof/WellFormed.lean ====
section
/-! DEFINITION. Which terms of the syntax stand for an encoding: the checks of an indexed operand
(40_addressing.md R158, R163, R164). Every other operand is well formed at every value of its type. -/

namespace Sys2Proof

/-- The 39 unassigned indexed post-bytes (40_addressing.md R164): bit 7 is set and the low five bits are those of a
reserved sub-mode, or the post-byte is 0xBF, 0xDF or 0xFF. -/
def isUnassignedPostByte (pb : Byte) : Bool :=
  pb.getLsbD 7 &&
    ([0x07, 0x0A, 0x0E, 0x0F, 0x10, 0x12, 0x17, 0x1A, 0x1E].contains (pb.toNat % 32)
      || [0xBF, 0xDF, 0xFF].contains pb.toNat)

/-- A sub-mode that has an indirect form: all but `,R+` and `,-R` (40_addressing.md R163). -/
def SubMode.hasIndirect : SubMode → Bool
  | .inc1 | .dec1 => false
  | _ => true

/-- An indexed operand that some post-byte encodes (40_addressing.md R155, R163, R164). -/
def Indexed.wf : Indexed → Bool
  | .off5 _ _ => true
  | .mode _ indirect m => !indirect || m.hasIndirect
  | .extIndirect _ => true
  | .unassigned pb => isUnassignedPostByte pb

/-- A memory operand is well formed when its indexed part is. -/
def MemOp.wf : MemOp → Bool
  | .dir _ => true
  | .ext _ => true
  | .idx ix => ix.wf

/-- An 8-bit source operand is well formed when its memory part is. -/
def Op8.wf : Op8 → Bool
  | .imm _ => true
  | .mem m => m.wf

/-- A 16-bit source operand is well formed when its memory part is. -/
def Op16.wf : Op16 → Bool
  | .imm _ => true
  | .mem m => m.wf

/-- A well-formed instruction: one that an encoding stands for. -/
def Instr.wf : Instr → Bool
  | .lda o | .ldb o | .ldd o | .ldx o | .ldy o | .ldu o | .lds o | .suba o | .subb o | .cmpa o | .cmpb o
  | .sbca o | .sbcb o | .anda o | .andb o | .bita o | .bitb o | .eora o | .eorb o | .adca o | .adcb o | .ora o
  | .orb o | .adda o | .addb o | .addd o | .subd o | .cmpx o | .cmpd o | .cmpy o | .cmpu o | .cmps o => o.wf
  | .sta m | .stb m | .std m | .stx m | .sty m | .stu m | .sts m | .neg m | .com m | .lsr m | .ror m | .asr m
  | .asl m | .rol m | .dec m | .inc m | .tst m | .clr m | .jmp m | .jsr m => m.wf
  | .leax ix | .leay ix | .leas ix | .leau ix => ix.wf
  | .nega | .negb | .coma | .comb | .lsra | .lsrb | .rora | .rorb | .asra | .asrb | .asla | .aslb | .rola
  | .rolb | .deca | .decb | .inca | .incb | .tsta | .tstb | .clra | .clrb | .abx | .mul | .sex | .daa | .nop
  | .rts | .swi | .swi2 | .swi3 | .rti | .sync | .periph => true
  | .exg _ _ | .tfr _ _ => true
  | .andcc _ | .orcc _ | .pshs _ | .puls _ | .pshu _ | .pulu _ | .bra _ | .brn _ | .bhi _ | .bls _ | .bcc _
  | .bcs _ | .bne _ | .beq _ | .bvc _ | .bvs _ | .bpl _ | .bmi _ | .bge _ | .blt _ | .bgt _ | .ble _ | .bsr _
  | .lbra _ | .lbrn _ | .lbhi _ | .lbls _ | .lbcc _ | .lbcs _ | .lbne _ | .lbeq _ | .lbvc _ | .lbvs _ | .lbpl _
  | .lbmi _ | .lbge _ | .lblt _ | .lbgt _ | .lble _ | .lbsr _ | .cwai _ => true

end Sys2Proof
end

