-- ==== Sys2Proof/Decode.lean ====
section
/-! DEFINITION. Decoding instruction bytes and encoding instructions (30_encoding.md, 40_addressing.md R155 to R166). -/

namespace Sys2Proof

/-! ## Post-byte fields -/

/-- The base register of post-byte bits 6-5 (40_addressing.md R155). -/
def IdxReg.ofBits (b : BitVec 2) : IdxReg :=
  if b = 0 then .x else if b = 1 then .y else if b = 2 then .u else .s

/-- Post-byte bits 6-5 of a base register (40_addressing.md R155). -/
def IdxReg.bits : IdxReg → BitVec 2
  | .x => 0
  | .y => 1
  | .u => 2
  | .s => 3

/-- Post-byte bits 3-0 of a sub-mode (40_addressing.md R158). -/
def SubMode.bits : SubMode → BitVec 4
  | .inc1 => 0x0
  | .inc2 => 0x1
  | .dec1 => 0x2
  | .dec2 => 0x3
  | .zero => 0x4
  | .accB => 0x5
  | .accA => 0x6
  | .off8 _ => 0x8
  | .off16 _ => 0x9
  | .accD => 0xB
  | .pcr8 _ => 0xC
  | .pcr16 _ => 0xD

/-- The extra operand bytes of a sub-mode, high byte first (40_addressing.md R157, R162). -/
def SubMode.operandBytes : SubMode → List Byte
  | .off8 n | .pcr8 n => [n]
  | .off16 n | .pcr16 n => [hiByte n, loByte n]
  | _ => []

/-- `idx_extra(pb)`: the extra operand bytes that a post-byte asks for (40_addressing.md R157). -/
def idxExtra (pb : Byte) : Nat :=
  if pb.getLsbD 7 = false then 0
  else if isUnassignedPostByte pb then 0
  else if [0x8, 0xC].contains (pb.toNat % 16) then 1
  else if [0x9, 0xD].contains (pb.toNat % 16) then 2
  else if pb = 0x9F then 2
  else 0

/-- The register of a register-select code (30_encoding.md R132). -/
def RegCode.ofBits (c : BitVec 4) : RegCode :=
  match c.toNat with
  | 0x0 => .d
  | 0x1 => .x
  | 0x2 => .y
  | 0x3 => .u
  | 0x4 => .s
  | 0x5 => .pc
  | 0x6 => .undef16 0
  | 0x7 => .undef16 1
  | 0x8 => .a
  | 0x9 => .b
  | 0xA => .cc
  | 0xB => .dp
  | n => .undef8 (BitVec.ofNat 2 n)

/-- The register-select code of a register (30_encoding.md R132). -/
def RegCode.bits : RegCode → BitVec 4
  | .d => 0x0
  | .x => 0x1
  | .y => 0x2
  | .u => 0x3
  | .s => 0x4
  | .pc => 0x5
  | .undef16 k => 0b011#3 ++ k
  | .a => 0x8
  | .b => 0x9
  | .cc => 0xA
  | .dp => 0xB
  | .undef8 k => 0b11#2 ++ k

/-! ## Operand decoding

Each function reads the operand from the bytes after the opcode and says how many of them it took; `none` where the
list ends too soon. -/

/-- The sub-mode of bits 3-0 with its extra bytes (40_addressing.md R157 to R162); `none` in the first place where the
nibble is no sub-mode of the mode form. -/
def decodeSubMode (nibble : Nat) (rest : List Byte) : Option (SubMode × Nat) :=
  match nibble, rest with
  | 0x0, _ => some (.inc1, 0)
  | 0x1, _ => some (.inc2, 0)
  | 0x2, _ => some (.dec1, 0)
  | 0x3, _ => some (.dec2, 0)
  | 0x4, _ => some (.zero, 0)
  | 0x5, _ => some (.accB, 0)
  | 0x6, _ => some (.accA, 0)
  | 0x8, n :: _ => some (.off8 n, 1)
  | 0x9, h :: l :: _ => some (.off16 (joinBytes h l), 2)
  | 0xB, _ => some (.accD, 0)
  | 0xC, n :: _ => some (.pcr8 n, 1)
  | 0xD, h :: l :: _ => some (.pcr16 (joinBytes h l), 2)
  | _, _ => none

/-- An indexed operand from its post-byte and the bytes after it (40_addressing.md R155 to R166), with the number of
bytes taken, post-byte included. -/
def decodeIndexed : List Byte → Option (Indexed × Nat)
  | [] => none
  | pb :: rest =>
    let r := IdxReg.ofBits (pb.extractLsb' 5 2)
    if pb.getLsbD 7 = false then some (.off5 r (pb.extractLsb' 0 5), 1)
    else if isUnassignedPostByte pb then some (.unassigned pb, 1)
    else if pb = 0x9F then
      match rest with
      | h :: l :: _ => some (.extIndirect (joinBytes h l), 3)
      | _ => none
    else
      match decodeSubMode (pb.toNat % 16) rest with
      | some (m, n) => some (.mode r (pb.getLsbD 4) m, n + 1)
      | none => none

/-- The three memory addressing modes that an opcode selects (30_encoding.md R122). -/
inductive Mode
  | dir | idx | ext
deriving DecidableEq, Repr

/-- A memory operand of the mode that the opcode selects (30_encoding.md R122, R128). -/
def decodeMemOp (mode : Mode) (rest : List Byte) : Option (MemOp × Nat) :=
  match mode, rest with
  | .dir, dd :: _ => some (.dir dd, 1)
  | .ext, h :: l :: _ => some (.ext (joinBytes h l), 2)
  | .idx, rest => (decodeIndexed rest).map (fun p => (.idx p.1, p.2))
  | _, _ => none

/-- One cell of an opcode map: the instruction and how its operand follows the opcode (30_encoding.md R122). -/
inductive Row
  | inh (i : Instr)
  | imm8 (f : Op8 → Instr)
  | imm16 (f : Op16 → Instr)
  | src8 (mode : Mode) (f : Op8 → Instr)
  | src16 (mode : Mode) (f : Op16 → Instr)
  | mem (mode : Mode) (f : MemOp → Instr)
  | lea (f : Indexed → Instr)
  | byte (f : Byte → Instr)      -- imm8 of CC, rel8, pb-mask
  | word (f : Word → Instr)      -- rel16
  | regs (f : RegCode → RegCode → Instr)

/-- The instruction of a cell with the operand read from the bytes after the opcode, and how many bytes the operand
takes (30_encoding.md R122, R126, R128). -/
def Row.decode (row : Row) (rest : List Byte) : Option (Instr × Nat) :=
  match row, rest with
  | .inh i, _ => some (i, 0)
  | .imm8 f, ii :: _ => some (f (.imm ii), 1)
  | .imm16 f, h :: l :: _ => some (f (.imm (joinBytes h l)), 2)
  | .src8 mode f, rest => (decodeMemOp mode rest).map (fun p => (f (.mem p.1), p.2))
  | .src16 mode f, rest => (decodeMemOp mode rest).map (fun p => (f (.mem p.1), p.2))
  | .mem mode f, rest => (decodeMemOp mode rest).map (fun p => (f p.1, p.2))
  | .lea f, rest => (decodeIndexed rest).map (fun p => (f p.1, p.2))
  | .byte f, b :: _ => some (f b, 1)
  | .word f, h :: l :: _ => some (f (joinBytes h l), 2)
  | .regs f, pb :: _ =>
    some (f (RegCode.ofBits (pb.extractLsb' 4 4)) (RegCode.ofBits (pb.extractLsb' 0 4)), 1)
  | _, _ => none

/-! ## The opcode maps -/

/-- Row 0x of the page-0 map (30_encoding.md R123). -/
def page0Row0 : List (Option Row) :=
  [
    some (.mem .dir .neg), none, none, some (.mem .dir .com), some (.mem .dir .lsr), none,
    some (.mem .dir .ror), some (.mem .dir .asr), some (.mem .dir .asl), some (.mem .dir .rol),
    some (.mem .dir .dec), none, some (.mem .dir .inc), some (.mem .dir .tst), some (.mem .dir .jmp),
    some (.mem .dir .clr) ]

/-- Row 1x of the page-0 map (30_encoding.md R123). The prefix bytes 0x10 and 0x11 are no cell. -/
def page0Row1 : List (Option Row) :=
  [
    none, none, some (.inh .nop), some (.inh .sync), none, none, some (.word .lbra), some (.word .lbsr), none,
    some (.inh .daa), some (.byte .orcc), none, some (.byte .andcc), some (.inh .sex), some (.regs .exg),
    some (.regs .tfr) ]

/-- Row 2x of the page-0 map (30_encoding.md R123). -/
def page0Row2 : List (Option Row) :=
  [
    some (.byte .bra), some (.byte .brn), some (.byte .bhi), some (.byte .bls), some (.byte .bcc),
    some (.byte .bcs), some (.byte .bne), some (.byte .beq), some (.byte .bvc), some (.byte .bvs),
    some (.byte .bpl), some (.byte .bmi), some (.byte .bge), some (.byte .blt), some (.byte .bgt),
    some (.byte .ble) ]

/-- Row 3x of the page-0 map (30_encoding.md R123). -/
def page0Row3 : List (Option Row) :=
  [
    some (.lea .leax), some (.lea .leay), some (.lea .leas), some (.lea .leau), some (.byte .pshs),
    some (.byte .puls), some (.byte .pshu), some (.byte .pulu), none, some (.inh .rts), some (.inh .abx),
    some (.inh .rti), some (.byte .cwai), some (.inh .mul), none, some (.inh .swi) ]

/-- Row 4x of the page-0 map (30_encoding.md R123). -/
def page0Row4 : List (Option Row) :=
  [
    some (.inh .nega), none, none, some (.inh .coma), some (.inh .lsra), none, some (.inh .rora),
    some (.inh .asra), some (.inh .asla), some (.inh .rola), some (.inh .deca), none, some (.inh .inca),
    some (.inh .tsta), none, some (.inh .clra) ]

/-- Row 5x of the page-0 map (30_encoding.md R123). -/
def page0Row5 : List (Option Row) :=
  [
    some (.inh .negb), none, none, some (.inh .comb), some (.inh .lsrb), none, some (.inh .rorb),
    some (.inh .asrb), some (.inh .aslb), some (.inh .rolb), some (.inh .decb), none, some (.inh .incb),
    some (.inh .tstb), none, some (.inh .clrb) ]

/-- Row 6x of the page-0 map (30_encoding.md R123). -/
def page0Row6 : List (Option Row) :=
  [
    some (.mem .idx .neg), none, none, some (.mem .idx .com), some (.mem .idx .lsr), none,
    some (.mem .idx .ror), some (.mem .idx .asr), some (.mem .idx .asl), some (.mem .idx .rol),
    some (.mem .idx .dec), none, some (.mem .idx .inc), some (.mem .idx .tst), some (.mem .idx .jmp),
    some (.mem .idx .clr) ]

/-- Row 7x of the page-0 map (30_encoding.md R123). -/
def page0Row7 : List (Option Row) :=
  [
    some (.mem .ext .neg), none, none, some (.mem .ext .com), some (.mem .ext .lsr), none,
    some (.mem .ext .ror), some (.mem .ext .asr), some (.mem .ext .asl), some (.mem .ext .rol),
    some (.mem .ext .dec), none, some (.mem .ext .inc), some (.mem .ext .tst), some (.mem .ext .jmp),
    some (.mem .ext .clr) ]

/-- Row 8x of the page-0 map (30_encoding.md R123). -/
def page0Row8 : List (Option Row) :=
  [
    some (.imm8 .suba), some (.imm8 .cmpa), some (.imm8 .sbca), some (.imm16 .subd), some (.imm8 .anda),
    some (.imm8 .bita), some (.imm8 .lda), none, some (.imm8 .eora), some (.imm8 .adca), some (.imm8 .ora),
    some (.imm8 .adda), some (.imm16 .cmpx), some (.byte .bsr), some (.imm16 .ldx), none ]

/-- Row 9x of the page-0 map (30_encoding.md R123). -/
def page0Row9 : List (Option Row) :=
  [
    some (.src8 .dir .suba), some (.src8 .dir .cmpa), some (.src8 .dir .sbca), some (.src16 .dir .subd),
    some (.src8 .dir .anda), some (.src8 .dir .bita), some (.src8 .dir .lda), some (.mem .dir .sta),
    some (.src8 .dir .eora), some (.src8 .dir .adca), some (.src8 .dir .ora), some (.src8 .dir .adda),
    some (.src16 .dir .cmpx), some (.mem .dir .jsr), some (.src16 .dir .ldx), some (.mem .dir .stx) ]

/-- Row Ax of the page-0 map (30_encoding.md R123). -/
def page0RowA : List (Option Row) :=
  [
    some (.src8 .idx .suba), some (.src8 .idx .cmpa), some (.src8 .idx .sbca), some (.src16 .idx .subd),
    some (.src8 .idx .anda), some (.src8 .idx .bita), some (.src8 .idx .lda), some (.mem .idx .sta),
    some (.src8 .idx .eora), some (.src8 .idx .adca), some (.src8 .idx .ora), some (.src8 .idx .adda),
    some (.src16 .idx .cmpx), some (.mem .idx .jsr), some (.src16 .idx .ldx), some (.mem .idx .stx) ]

/-- Row Bx of the page-0 map (30_encoding.md R123). -/
def page0RowB : List (Option Row) :=
  [
    some (.src8 .ext .suba), some (.src8 .ext .cmpa), some (.src8 .ext .sbca), some (.src16 .ext .subd),
    some (.src8 .ext .anda), some (.src8 .ext .bita), some (.src8 .ext .lda), some (.mem .ext .sta),
    some (.src8 .ext .eora), some (.src8 .ext .adca), some (.src8 .ext .ora), some (.src8 .ext .adda),
    some (.src16 .ext .cmpx), some (.mem .ext .jsr), some (.src16 .ext .ldx), some (.mem .ext .stx) ]

/-- Row Cx of the page-0 map (30_encoding.md R123). -/
def page0RowC : List (Option Row) :=
  [
    some (.imm8 .subb), some (.imm8 .cmpb), some (.imm8 .sbcb), some (.imm16 .addd), some (.imm8 .andb),
    some (.imm8 .bitb), some (.imm8 .ldb), none, some (.imm8 .eorb), some (.imm8 .adcb), some (.imm8 .orb),
    some (.imm8 .addb), some (.imm16 .ldd), none, some (.imm16 .ldu), none ]

/-- Row Dx of the page-0 map (30_encoding.md R123). -/
def page0RowD : List (Option Row) :=
  [
    some (.src8 .dir .subb), some (.src8 .dir .cmpb), some (.src8 .dir .sbcb), some (.src16 .dir .addd),
    some (.src8 .dir .andb), some (.src8 .dir .bitb), some (.src8 .dir .ldb), some (.mem .dir .stb),
    some (.src8 .dir .eorb), some (.src8 .dir .adcb), some (.src8 .dir .orb), some (.src8 .dir .addb),
    some (.src16 .dir .ldd), some (.mem .dir .std), some (.src16 .dir .ldu), some (.mem .dir .stu) ]

/-- Row Ex of the page-0 map (30_encoding.md R123). -/
def page0RowE : List (Option Row) :=
  [
    some (.src8 .idx .subb), some (.src8 .idx .cmpb), some (.src8 .idx .sbcb), some (.src16 .idx .addd),
    some (.src8 .idx .andb), some (.src8 .idx .bitb), some (.src8 .idx .ldb), some (.mem .idx .stb),
    some (.src8 .idx .eorb), some (.src8 .idx .adcb), some (.src8 .idx .orb), some (.src8 .idx .addb),
    some (.src16 .idx .ldd), some (.mem .idx .std), some (.src16 .idx .ldu), some (.mem .idx .stu) ]

/-- Row Fx of the page-0 map (30_encoding.md R123). -/
def page0RowF : List (Option Row) :=
  [
    some (.src8 .ext .subb), some (.src8 .ext .cmpb), some (.src8 .ext .sbcb), some (.src16 .ext .addd),
    some (.src8 .ext .andb), some (.src8 .ext .bitb), some (.src8 .ext .ldb), some (.mem .ext .stb),
    some (.src8 .ext .eorb), some (.src8 .ext .adcb), some (.src8 .ext .orb), some (.src8 .ext .addb),
    some (.src16 .ext .ldd), some (.mem .ext .std), some (.src16 .ext .ldu), some (.mem .ext .stu) ]

/-- The page-0 opcode map (30_encoding.md R123), row by row. -/
def page0Map : List (List (Option Row)) :=
  [page0Row0, page0Row1, page0Row2, page0Row3, page0Row4, page0Row5, page0Row6, page0Row7,
    page0Row8, page0Row9, page0RowA, page0RowB, page0RowC, page0RowD, page0RowE, page0RowF]

/-- Page 2, prefix 0x10 (30_encoding.md R125). -/
def page2Table : List (Nat × Row) :=
  [
    (0x21, .word .lbrn), (0x22, .word .lbhi), (0x23, .word .lbls), (0x24, .word .lbcc), (0x25, .word .lbcs),
    (0x26, .word .lbne), (0x27, .word .lbeq), (0x28, .word .lbvc), (0x29, .word .lbvs), (0x2A, .word .lbpl),
    (0x2B, .word .lbmi), (0x2C, .word .lbge), (0x2D, .word .lblt), (0x2E, .word .lbgt), (0x2F, .word .lble),
    (0x3F, .inh .swi2), (0x83, .imm16 .cmpd), (0x8C, .imm16 .cmpy), (0x8E, .imm16 .ldy),
    (0x93, .src16 .dir .cmpd), (0x9C, .src16 .dir .cmpy), (0x9E, .src16 .dir .ldy), (0x9F, .mem .dir .sty),
    (0xA3, .src16 .idx .cmpd), (0xAC, .src16 .idx .cmpy), (0xAE, .src16 .idx .ldy), (0xAF, .mem .idx .sty),
    (0xB3, .src16 .ext .cmpd), (0xBC, .src16 .ext .cmpy), (0xBE, .src16 .ext .ldy), (0xBF, .mem .ext .sty),
    (0xCE, .imm16 .lds), (0xDE, .src16 .dir .lds), (0xDF, .mem .dir .sts), (0xEE, .src16 .idx .lds),
    (0xEF, .mem .idx .sts), (0xFE, .src16 .ext .lds), (0xFF, .mem .ext .sts) ]

/-- Page 3, prefix 0x11 (30_encoding.md R125). -/
def page3Table : List (Nat × Row) :=
  [
    (0x3F, .inh .swi3), (0x83, .imm16 .cmpu), (0x8C, .imm16 .cmps), (0x93, .src16 .dir .cmpu),
    (0x9C, .src16 .dir .cmps), (0xA3, .src16 .idx .cmpu), (0xAC, .src16 .idx .cmps), (0xB3, .src16 .ext .cmpu),
    (0xBC, .src16 .ext .cmps) ]

/-- The cell of a page-0 opcode byte (30_encoding.md R123). -/
def page0 (op : Byte) : Option Row := (page0Map.getD (op.toNat / 16) []).getD (op.toNat % 16) none

/-- The cell of a second byte after the prefix 0x10 (30_encoding.md R125). -/
def page2 (op : Byte) : Option Row := page2Table.lookup op.toNat

/-- The cell of a second byte after the prefix 0x11 (30_encoding.md R125). -/
def page3 (op : Byte) : Option Row := page3Table.lookup op.toNat

/-- The 33 unassigned page-0 bytes, in the order of 30_encoding.md R129. -/
def unassignedPage0 : List Byte :=
  [0x01, 0x02, 0x05, 0x0B, 0x14, 0x15, 0x18, 0x1B, 0x38, 0x3E, 0x41, 0x42, 0x45, 0x4B, 0x4E, 0x51, 0x52,
   0x55, 0x5B, 0x5E, 0x61, 0x62, 0x65, 0x6B, 0x71, 0x72, 0x75, 0x7B, 0x87, 0x8F, 0xC7, 0xCD, 0xCF]

/-- P_PERIPH_OPCODE: one of the unassigned page-0 bytes, which one is OPEN (49_periph_tape.md R430). -/
def periphOpcode : Byte := unassignedPage0.getD Config.periphIndex.val 0x01

/-! ## Decoding -/

/-- What the decoder answers: an instruction with its length in bytes, an unassigned encoding with its opcode bytes
(30_encoding.md R129, R130), or that the list ended before the instruction did. -/
inductive Decoded
  | instr (i : Instr) (length : Nat)
  | unassigned (opcode : List Byte)
  | truncated
deriving DecidableEq, Repr

/-- The answer for a cell whose opcode, with a prefix if any, takes `n` bytes. -/
def finishRow (n : Nat) (row : Row) (rest : List Byte) : Decoded :=
  match row.decode rest with
  | some (i, k) => .instr i (n + k)
  | none => .truncated

/-- The second opcode byte after a prefix, looked up in the prefix's own page (30_encoding.md R125, R130). -/
def decodePrefixed (pre : Byte) (page : Byte → Option Row) : List Byte → Decoded
  | [] => .truncated
  | op :: rest =>
    match page op with
    | some row => finishRow 2 row rest
    | none => .unassigned [pre, op]

/-- Decoding where the PERIPH opcode is `periph` (30_encoding.md R123 to R130, 49_periph_tape.md R430). -/
def decodeWith (periph : Byte) : List Byte → Decoded
  | [] => .truncated
  | op :: rest =>
    if op = 0x10 then decodePrefixed 0x10 page2 rest
    else if op = 0x11 then decodePrefixed 0x11 page3 rest
    else
      match page0 op with
      | some row => finishRow 1 row rest
      | none => if op = periph then .instr .periph 1 else .unassigned [op]

/-- The decoder of the machine: total on any bytes (30_encoding.md R120 to R133). -/
def decode (bytes : List Byte) : Decoded := decodeWith periphOpcode bytes

/-! ## Encoding -/

/-- The post-byte and extra bytes of an indexed operand (40_addressing.md R155 to R166). -/
def encodeIndexed : Indexed → List Byte
  | .off5 r n => [0#1 ++ r.bits ++ n]
  | .mode r indirect m => (1#1 ++ r.bits ++ BitVec.ofBool indirect ++ m.bits) :: m.operandBytes
  | .extIndirect n => [0x9F, hiByte n, loByte n]
  | .unassigned pb => [pb]

/-- A memory operand with the opcode of its mode before it (30_encoding.md R122). -/
def encodeMemOp (dirOp idxOp extOp : Byte) : MemOp → List Byte
  | .dir dd => [dirOp, dd]
  | .idx ix => idxOp :: encodeIndexed ix
  | .ext w => [extOp, hiByte w, loByte w]

/-- An 8-bit source operand with the opcode of its mode before it (30_encoding.md R122). -/
def encodeOp8 (immOp dirOp idxOp extOp : Byte) : Op8 → List Byte
  | .imm ii => [immOp, ii]
  | .mem m => encodeMemOp dirOp idxOp extOp m

/-- A 16-bit source operand with the opcode of its mode before it (30_encoding.md R122). -/
def encodeOp16 (immOp dirOp idxOp extOp : Byte) : Op16 → List Byte
  | .imm w => [immOp, hiByte w, loByte w]
  | .mem m => encodeMemOp dirOp idxOp extOp m

/-- Encoding where the PERIPH opcode is `periph` (30_encoding.md R123, R125). -/
def encodeWith (periph : Byte) : Instr → List Byte
  | .lda o => encodeOp8 0x86 0x96 0xA6 0xB6 o
  | .ldb o => encodeOp8 0xC6 0xD6 0xE6 0xF6 o
  | .ldd o => encodeOp16 0xCC 0xDC 0xEC 0xFC o
  | .ldx o => encodeOp16 0x8E 0x9E 0xAE 0xBE o
  | .ldy o => 0x10 :: encodeOp16 0x8E 0x9E 0xAE 0xBE o
  | .ldu o => encodeOp16 0xCE 0xDE 0xEE 0xFE o
  | .lds o => 0x10 :: encodeOp16 0xCE 0xDE 0xEE 0xFE o
  | .sta m => encodeMemOp 0x97 0xA7 0xB7 m
  | .stb m => encodeMemOp 0xD7 0xE7 0xF7 m
  | .std m => encodeMemOp 0xDD 0xED 0xFD m
  | .stx m => encodeMemOp 0x9F 0xAF 0xBF m
  | .sty m => 0x10 :: encodeMemOp 0x9F 0xAF 0xBF m
  | .stu m => encodeMemOp 0xDF 0xEF 0xFF m
  | .sts m => 0x10 :: encodeMemOp 0xDF 0xEF 0xFF m
  | .leax ix => 0x30 :: encodeIndexed ix
  | .leay ix => 0x31 :: encodeIndexed ix
  | .leas ix => 0x32 :: encodeIndexed ix
  | .leau ix => 0x33 :: encodeIndexed ix
  | .suba o => encodeOp8 0x80 0x90 0xA0 0xB0 o
  | .subb o => encodeOp8 0xC0 0xD0 0xE0 0xF0 o
  | .cmpa o => encodeOp8 0x81 0x91 0xA1 0xB1 o
  | .cmpb o => encodeOp8 0xC1 0xD1 0xE1 0xF1 o
  | .sbca o => encodeOp8 0x82 0x92 0xA2 0xB2 o
  | .sbcb o => encodeOp8 0xC2 0xD2 0xE2 0xF2 o
  | .anda o => encodeOp8 0x84 0x94 0xA4 0xB4 o
  | .andb o => encodeOp8 0xC4 0xD4 0xE4 0xF4 o
  | .bita o => encodeOp8 0x85 0x95 0xA5 0xB5 o
  | .bitb o => encodeOp8 0xC5 0xD5 0xE5 0xF5 o
  | .eora o => encodeOp8 0x88 0x98 0xA8 0xB8 o
  | .eorb o => encodeOp8 0xC8 0xD8 0xE8 0xF8 o
  | .adca o => encodeOp8 0x89 0x99 0xA9 0xB9 o
  | .adcb o => encodeOp8 0xC9 0xD9 0xE9 0xF9 o
  | .ora o => encodeOp8 0x8A 0x9A 0xAA 0xBA o
  | .orb o => encodeOp8 0xCA 0xDA 0xEA 0xFA o
  | .adda o => encodeOp8 0x8B 0x9B 0xAB 0xBB o
  | .addb o => encodeOp8 0xCB 0xDB 0xEB 0xFB o
  | .addd o => encodeOp16 0xC3 0xD3 0xE3 0xF3 o
  | .subd o => encodeOp16 0x83 0x93 0xA3 0xB3 o
  | .cmpx o => encodeOp16 0x8C 0x9C 0xAC 0xBC o
  | .cmpd o => 0x10 :: encodeOp16 0x83 0x93 0xA3 0xB3 o
  | .cmpy o => 0x10 :: encodeOp16 0x8C 0x9C 0xAC 0xBC o
  | .cmpu o => 0x11 :: encodeOp16 0x83 0x93 0xA3 0xB3 o
  | .cmps o => 0x11 :: encodeOp16 0x8C 0x9C 0xAC 0xBC o
  | .nega => [0x40]
  | .negb => [0x50]
  | .neg m => encodeMemOp 0x00 0x60 0x70 m
  | .coma => [0x43]
  | .comb => [0x53]
  | .com m => encodeMemOp 0x03 0x63 0x73 m
  | .lsra => [0x44]
  | .lsrb => [0x54]
  | .lsr m => encodeMemOp 0x04 0x64 0x74 m
  | .rora => [0x46]
  | .rorb => [0x56]
  | .ror m => encodeMemOp 0x06 0x66 0x76 m
  | .asra => [0x47]
  | .asrb => [0x57]
  | .asr m => encodeMemOp 0x07 0x67 0x77 m
  | .asla => [0x48]
  | .aslb => [0x58]
  | .asl m => encodeMemOp 0x08 0x68 0x78 m
  | .rola => [0x49]
  | .rolb => [0x59]
  | .rol m => encodeMemOp 0x09 0x69 0x79 m
  | .deca => [0x4A]
  | .decb => [0x5A]
  | .dec m => encodeMemOp 0x0A 0x6A 0x7A m
  | .inca => [0x4C]
  | .incb => [0x5C]
  | .inc m => encodeMemOp 0x0C 0x6C 0x7C m
  | .tsta => [0x4D]
  | .tstb => [0x5D]
  | .tst m => encodeMemOp 0x0D 0x6D 0x7D m
  | .clra => [0x4F]
  | .clrb => [0x5F]
  | .clr m => encodeMemOp 0x0F 0x6F 0x7F m
  | .abx => [0x3A]
  | .mul => [0x3D]
  | .sex => [0x1D]
  | .daa => [0x19]
  | .exg r1 r2 => [0x1E, r1.bits ++ r2.bits]
  | .tfr r1 r2 => [0x1F, r1.bits ++ r2.bits]
  | .andcc ii => [0x1C, ii]
  | .orcc ii => [0x1A, ii]
  | .nop => [0x12]
  | .pshs mask => [0x34, mask]
  | .puls mask => [0x35, mask]
  | .pshu mask => [0x36, mask]
  | .pulu mask => [0x37, mask]
  | .bra o => [0x20, o]
  | .brn o => [0x21, o]
  | .bhi o => [0x22, o]
  | .bls o => [0x23, o]
  | .bcc o => [0x24, o]
  | .bcs o => [0x25, o]
  | .bne o => [0x26, o]
  | .beq o => [0x27, o]
  | .bvc o => [0x28, o]
  | .bvs o => [0x29, o]
  | .bpl o => [0x2A, o]
  | .bmi o => [0x2B, o]
  | .bge o => [0x2C, o]
  | .blt o => [0x2D, o]
  | .bgt o => [0x2E, o]
  | .ble o => [0x2F, o]
  | .bsr o => [0x8D, o]
  | .lbra o => [0x16, hiByte o, loByte o]
  | .lbrn o => 0x10 :: [0x21, hiByte o, loByte o]
  | .lbhi o => 0x10 :: [0x22, hiByte o, loByte o]
  | .lbls o => 0x10 :: [0x23, hiByte o, loByte o]
  | .lbcc o => 0x10 :: [0x24, hiByte o, loByte o]
  | .lbcs o => 0x10 :: [0x25, hiByte o, loByte o]
  | .lbne o => 0x10 :: [0x26, hiByte o, loByte o]
  | .lbeq o => 0x10 :: [0x27, hiByte o, loByte o]
  | .lbvc o => 0x10 :: [0x28, hiByte o, loByte o]
  | .lbvs o => 0x10 :: [0x29, hiByte o, loByte o]
  | .lbpl o => 0x10 :: [0x2A, hiByte o, loByte o]
  | .lbmi o => 0x10 :: [0x2B, hiByte o, loByte o]
  | .lbge o => 0x10 :: [0x2C, hiByte o, loByte o]
  | .lblt o => 0x10 :: [0x2D, hiByte o, loByte o]
  | .lbgt o => 0x10 :: [0x2E, hiByte o, loByte o]
  | .lble o => 0x10 :: [0x2F, hiByte o, loByte o]
  | .lbsr o => [0x17, hiByte o, loByte o]
  | .jmp m => encodeMemOp 0x0E 0x6E 0x7E m
  | .jsr m => encodeMemOp 0x9D 0xAD 0xBD m
  | .rts => [0x39]
  | .swi => [0x3F]
  | .swi2 => 0x10 :: [0x3F]
  | .swi3 => 0x11 :: [0x3F]
  | .cwai ii => [0x3C, ii]
  | .rti => [0x3B]
  | .sync => [0x13]
  | .periph => [periph]
/-- The bytes of an instruction, in address order (30_encoding.md R120, R123, R125). -/
def encode (i : Instr) : List Byte := encodeWith periphOpcode i

/-- `length` of 30_encoding.md R126: how many bytes the instruction takes. -/
def Instr.length (i : Instr) : Nat := (encode i).length

/-! ## The opcode table's numbers -/

/-- The instruction bytes of a table number: `w` has `nbits` bits and every bit above them is 0. The table writes a
two-byte opcode as one number with the prefix in bits 15-8, so a 16-bit number with a prefix byte there is taken prefix
first. Any other number is taken with its first byte in bits 7-0. DEDUCED: log 15. -/
def tableBytes (nbits w : Nat) : List Byte :=
  let v := w % 2 ^ nbits
  if nbits = 16 ∧ (v / 256 = 0x10 ∨ v / 256 = 0x11) then
    [BitVec.ofNat 8 (v / 256), BitVec.ofNat 8 v, 0, 0, 0]
  else bytesLE 5 v

/-- The instruction that the decoder reads from the table number `w` of `nbits` bits, `none` where it reads none. -/
def decodeTableWord (nbits w : Nat) : Option Instr :=
  match decode (tableBytes nbits w) with
  | .instr i _ => some i
  | _ => none

end Sys2Proof
end

