-- ==== Sys2Proof/Machine/State.lean ====
section
/-! DEFINITION. The state of the machine as plain data, and the state right after power-on (10_state.md R20 to R36). -/

namespace Sys2Proof.Machine

/-- The CPU register file (10_state.md R20). D is the view A:B and has no storage of its own (R21). CC holds the flags
E F H I N Z V C, bit 7 down to bit 0 (R26). -/
structure Cpu where
  a : Byte
  b : Byte
  x : Word
  y : Word
  u : Word
  s : Word
  pc : Word
  dp : Byte
  cc : Byte
deriving DecidableEq, Repr

/-- Physical memory, 18 pages of 4096 bytes (20_memory.md R61): the listed bytes, with the physical page number times
4096 plus the offset as the address. A byte that is not listed reads as `Memory.blank`. -/
structure Memory where
  cells : List Host.Cell
deriving DecidableEq, Repr

/-- What an unlisted byte reads as: the zero-fill of the memory reset (70_reset_and_hazards.md R501). For the ROM pages,
whose image is OPEN (R503), it is a DESIGN CHOICE: log 1. -/
def Memory.blank : Byte := 0x00

/-- The number of bytes of physical memory: 18 pages of 4096 (20_memory.md R61). -/
def Memory.size : Nat := 73728

/-- The cells have strictly rising addresses, all of them at least `from`, inside physical memory, and none is listed with
the value that an unlisted byte reads as. -/
def Memory.wfCells : Nat → List Host.Cell → Bool
  | _, [] => true
  | lo, (k, v) :: rest =>
    decide (lo ≤ k) && decide (k < Memory.size) && decide (v ≠ Memory.blank) && Memory.wfCells (k + 1) rest

/-- The canonical form of memory. -/
def Memory.wf (m : Memory) : Bool := Memory.wfCells 0 m.cells

/-- The PIA registers (20_memory.md R70). -/
structure Pia where
  ora : Byte
  orb : Byte
  ddra : Byte
  ddrb : Byte
  cra : Byte
  crb : Byte
deriving DecidableEq, Repr

/-- The light-pen inputs (20_memory.md R87). -/
structure LightPen where
  button : Bool
  x : Word
  y : Word
deriving DecidableEq, Repr

/-- The tape codec (49_periph_tape.md R433). -/
structure TapeCodec where
  tape : Option (List Byte)
  cursor : Nat
  tb : Byte
  tc : Nat
  out : Option (List Byte)
  outFailed : Bool
  led : Bool
deriving DecidableEq, Repr

/-- The bursts of a field (60_exceptions.md R470). -/
inductive Burst
  | top            -- top border
  | topAfterIrq    -- top border of the field after an IRQ window
  | window         -- visible window
  | bottom         -- bottom border
  | irqWindow      -- IRQ window
deriving DecidableEq, Repr

/-- Where the scheduler is: at the top of an iteration, or inside FetchUntil of a burst (60_exceptions.md R470, R475,
R476). -/
inductive Sched
  | iteration
  | burst (b : Burst)
deriving DecidableEq, Repr

/-- An event that the host hands over at the top of an iteration (60_exceptions.md R477). -/
inductive HostEvent
  | keyDown (codes : List Byte)           -- a key's pattern of key-scan codes
  | keyUp (codes : List Byte)
  | modifier (code : Byte) (pressed : Bool)
  | lightPen (button : Bool) (x y : Word)
  | openTape (file : Option (List Byte))  -- none: the file is missing or unreadable
  | rewindTape
  | start
  | stop
  | softReset
  | hardReset
  | readDirty (line : Fin 200)            -- is_dirty, read-and-clear
  | readLed                               -- the LED flag, read-and-clear
deriving DecidableEq, Repr

/-- Why a tape was not loaded (49_periph_tape.md R432). -/
inductive LoadFailure
  | unreadable
  | zeroLength
  | oversized
deriving DecidableEq, Repr

/-- What a host interaction brings back (60_exceptions.md R477). -/
inductive HostReply
  | tapeLoaded
  | tapeRejected (cause : LoadFailure)
  | dirty (line : Fin 200) (flag : Bool)
  | led (flag : Bool)
deriving DecidableEq, Repr

/-- A record of the diagnostic log (48_system.md R418, 49_periph_tape.md R438). -/
inductive LogEvent
  | unassigned (opcode : List Byte) (pc : Word) (registers : Cpu)
  | outputCreateFailed
deriving DecidableEq, Repr

/-- The machine's state: everything that 10_state.md R20 to R36 gives it, and the model's own `draws`, `inputs` and
`replies` (logs 4, 12 and 13). -/
structure State where
  /-- The CPU registers (10_state.md R20). -/
  cpu : Cpu
  /-- The cycle counter `cyc` (10_state.md R33). -/
  cyc : Nat
  /-- How many values have been drawn; the MODEL's own field (log 4). -/
  draws : Nat
  /-- Physical memory (20_memory.md R61). -/
  mem : Memory
  /-- The page mapper (20_memory.md R62). -/
  mapper : Vector (Fin 18) 16
  /-- The dirty lines (20_memory.md R64). -/
  dirty : Vector Bool 200
  /-- The PIA registers (20_memory.md R70). -/
  pia : Pia
  /-- The sound latch, 0x00 or 0x20 (20_memory.md R84). -/
  snd : Byte
  /-- The key matrix (20_memory.md R88). -/
  keys : Vector Bool 256
  /-- The light-pen inputs (20_memory.md R87). -/
  pen : LightPen
  /-- The tape codec (49_periph_tape.md R433). -/
  tape : TapeCodec
  /-- The field-pattern flag `irq_prev` (60_exceptions.md R470). -/
  irqPrev : Bool
  /-- The scheduler's `running` flag (60_exceptions.md R476). -/
  running : Bool
  /-- Where the scheduler is (60_exceptions.md R470 to R476). -/
  sched : Sched
  /-- The host events of the coming iterations, the next iteration's first; the MODEL's own field (log 12). -/
  inputs : List (List HostEvent)
  /-- What the host's calls brought back, oldest first; the MODEL's own field (log 13). -/
  replies : List HostReply
  /-- The diagnostic log, oldest first (00_scope.md R9, log 20). -/
  log : List LogEvent
deriving DecidableEq, Repr

/-- Why the machine stops with a fault. -/
inductive Fault
  /-- An unassigned opcode under P_ILLEGAL_POLICY = fault (48_system.md R417). Raised by `execUnassigned` with that policy
  only; the machine's policy is nop, so no step raises it. Safe. -/
  | unassigned (opcode : List Byte) (pc : Word)
deriving DecidableEq, Repr

/-- Why the model gives no meaning. -/
inductive Refusal
  /-- An instruction whose meaning is not written: raised by an arm of `exec` and nowhere else. Safe. No arm raises it. -/
  | notModelled (mnemonic : String)
  /-- The decoder saw fewer bytes than the instruction has. The step always gives it five bytes, the longest
  instruction's length (30_encoding.md R120), so no step raises it. Safe. -/
  | fetchWindowTooShort
  /-- A ROM image that is not exactly 16384 bytes long (70_reset_and_hazards.md R503, U18). Raised by `State.powerOn`. Safe. -/
  | romImageSize (size : Nat)
  /-- A list of ROM patches without the pair of a trap address and the PERIPH opcode, for some trap address
  (70_reset_and_hazards.md R503). Raised by `State.powerOn`. Safe. That such a list is refused is a DESIGN CHOICE: log 25. -/
  | romPatchesIncomplete
deriving DecidableEq, Repr

/-- P_INIT_MAPPER (20_memory.md R62). -/
def initMapper : Vector (Fin 18) 16 := #v[0, 1, 4, 5, 6, 7, 8, 9, 10, 11, 12, 13, 14, 15, 16, 17]

/-- The machine right after power-on (70_reset_and_hazards.md R500 to R507), with a blank ROM (so that the RESET vector
reads 0x0000: log 1), with 0 for each power-on draw (logs 2 and 3), and with the scheduler at the top of its first
iteration, running and without host events (logs 11 and 12). `State.powerOn` is the power-on with any ROM and draws. -/
def State.reset : State where
  cpu := { a := 0, b := 0, x := 0, y := 0, u := 0, s := 0x8000, pc := 0x0000, dp := 0x00, cc := 0x00 }
  cyc := 0
  draws := 0
  mem := { cells := [] }
  mapper := initMapper
  dirty := Vector.replicate 200 false
  pia := { ora := 0, orb := 0, ddra := 0, ddrb := 0, cra := 0, crb := 0 }
  snd := 0x00
  keys := Vector.replicate 256 false
  pen := { button := false, x := 0, y := 0 }
  tape := { tape := none, cursor := 0, tb := 0, tc := 0, out := none, outFailed := false, led := false }
  irqPrev := false
  running := true
  sched := .iteration
  inputs := []
  replies := []
  log := []

end Sys2Proof.Machine
end

