-- ==== Sys2Proof/Machine/Params.lean ====
section
/-! DEFINITION. The parameters of 00_scope.md R5: those the spec gives a value for this hardware, at that value (log 19),
and those it leaves OPEN, from Config (logs 8 and 9). -/

namespace Sys2Proof.Machine

/-! ## Memory controller and PIA (20_memory.md) -/

/-- The first ROM page (20_memory.md R63). -/
def romFirstPage : Nat := 14

/-- P_IO_PAGE (20_memory.md R66). -/
def ioPage : Nat := 0xA

/-- P_SCREEN_BYTES (20_memory.md R64). -/
def screenBytes : Nat := 8000

/-- P_PIA_ADDR, ORA and DDRA (20_memory.md R70). -/
def oraAddr : Word := 0xA7C0

/-- P_PIA_ADDR, ORB and DDRB (20_memory.md R70). -/
def orbAddr : Word := 0xA7C1

/-- P_PIA_ADDR, CRA (20_memory.md R70). -/
def craAddr : Word := 0xA7C2

/-- P_PIA_ADDR, CRB (20_memory.md R70). -/
def crbAddr : Word := 0xA7C3

/-- P_DDR_SEL: the bit of CRA and CRB that selects OR (1) or DDR (0) (20_memory.md R71, R80). -/
def ddrSelBit : Nat := 2

/-- P_LP_MASK (20_memory.md R73). -/
def lpMask : Byte := 0x20

/-- P_KEY_INDEX_MASK (20_memory.md R82). -/
def keyIndexMask : Byte := 0x7E

/-- P_KEY_STATUS, ORed in when the key is NOT pressed (20_memory.md R81). -/
def keyStatus : Byte := 0x80

/-! ## Vectors (60_exceptions.md R462) -/

/-- The RESET vector. -/
def resetVector : Word := 0xFFFE

/-- The SWI vector. -/
def swiVector : Word := 0xFFFA

/-- The IRQ vector. -/
def irqVector : Word := 0xFFF8

/-- The SWI2 vector. -/
def swi2Vector : Word := 0xFFF4

/-- The SWI3 vector. -/
def swi3Vector : Word := 0xFFF2

/-! ## The field (60_exceptions.md R470 to R473) -/

/-- The budget of a burst: P_T_TOP, P_T_TOP_AFTER_IRQ, P_T_WINDOW, P_T_BOTTOM, P_T_IRQ (60_exceptions.md R470). -/
def burstBudget : Burst → Nat
  | .top => 4100
  | .topAfterIrq => 3800
  | .window => 13100
  | .bottom => 2800
  | .irqWindow => 300

/-- P_VSIG_ADDR (60_exceptions.md R471). -/
def vsigAddr : Word := 0xA7E7

/-- P_VSIG_MASK (60_exceptions.md R471). -/
def vsigMask : Byte := 0x80

/-- P_IRQ_ENABLE: the bit of CRB (60_exceptions.md R472). -/
def irqEnableBit : Nat := 0

/-- P_IRQ_FLAG: the bit of CRB (60_exceptions.md R472). -/
def irqFlagBit : Nat := 7

/-- The cycles that an IRQ entry charges (60_exceptions.md R464). -/
def irqCycles : Nat := 19

/-! ## Choices with a value for this hardware -/

/-- The two values of P_ILLEGAL_POLICY (48_system.md R417). -/
inductive IllegalPolicy
  | nop
  | fault
deriving DecidableEq, Repr

/-- P_ILLEGAL_POLICY (48_system.md R417): nop, as 00_scope.md R5 has it (log 17). -/
def illegalPolicy : IllegalPolicy := .nop

/-- P_LEASU_Z (41_load_store.md R196): false, as 00_scope.md R5 has it (log 19). -/
def leasuZ : Bool := false

/-! ## OPEN parameters (00_scope.md R5): opaque values of Config -/

/-- P_CYC_ILLEGAL, at least 1 (48_system.md R417). -/
def cycIllegal : Nat := Config.cycIllegalLessOne + 1

/-- P_CYC_PERIPH, at least 1 (49_periph_tape.md R430). -/
def cycPeriph : Nat := Config.cycPeriphLessOne + 1

/-- The CPU address of a byte of the ROM image (70_reset_and_hazards.md R503). -/
def romAddress (i : Fin 16384) : Word := BitVec.ofNat 16 (0xC000 + i.val)

/-- P_TRAP_READBIT (49_periph_tape.md R431). -/
def trapReadBit : Word := romAddress (Config.trapPlacement 0)

/-- P_TRAP_WRITEBYTE (49_periph_tape.md R431). -/
def trapWriteByte : Word := romAddress (Config.trapPlacement 1)

/-- P_TRAP_MOTOR (49_periph_tape.md R431). -/
def trapMotor : Word := romAddress (Config.trapPlacement 2)

/-- P_TRAP_LIGHTPEN (49_periph_tape.md R431). -/
def trapLightPen : Word := romAddress (Config.trapPlacement 3)

/-- P_TAPE_BIT_ADDR (49_periph_tape.md R436). -/
def tapeBitAddr : Word := BitVec.ofNat 16 Config.tapeBitIndex.val

/-- The CPU address of a RAM byte, counted without the four PIA shadow bytes from `oraAddr` to `crbAddr`
(10_state.md R36). -/
def ramAddress (i : Fin 49148) : Word := BitVec.ofNat 16 (if i.val < oraAddr.toNat then i.val else i.val + 4)

/-- P_HARD_RESET_RANGE (70_reset_and_hazards.md R506). -/
def hardResetRange : List Word := Config.hardResetIndices.map ramAddress

/-- P_MOTOR_MASK (49_periph_tape.md R440). -/
def motorMask : Byte := 1#8 <<< Config.motorBit.val

/-- P_TAPE_MAX, at least 1 (49_periph_tape.md R432). -/
def tapeMax : Nat := Config.tapeMaxLessOne + 1

end Sys2Proof.Machine
end

