-- ==== Sys2Proof/Machine/Registers.lean ====
section
/-! DEFINITION. Reading and writing the CPU registers, charging cycles and drawing values (10_state.md R20 to R33,
00_scope.md R7, R9). -/

namespace Sys2Proof.Machine

/-! ## Writing one register (10_state.md R20, R21) -/

/-- `A <- v`. -/
def State.setA (s : State) (v : Byte) : State := { s with cpu := { s.cpu with a := v } }

/-- `B <- v`. -/
def State.setB (s : State) (v : Byte) : State := { s with cpu := { s.cpu with b := v } }

/-- `X <- v`. -/
def State.setX (s : State) (v : Word) : State := { s with cpu := { s.cpu with x := v } }

/-- `Y <- v`. -/
def State.setY (s : State) (v : Word) : State := { s with cpu := { s.cpu with y := v } }

/-- `U <- v`. -/
def State.setU (s : State) (v : Word) : State := { s with cpu := { s.cpu with u := v } }

/-- `S <- v`. -/
def State.setS (s : State) (v : Word) : State := { s with cpu := { s.cpu with s := v } }

/-- `PC <- v`. -/
def State.setPc (s : State) (v : Word) : State := { s with cpu := { s.cpu with pc := v } }

/-- `DP <- v`. -/
def State.setDp (s : State) (v : Byte) : State := { s with cpu := { s.cpu with dp := v } }

/-- `CC <- v`, all eight bits (10_state.md R29). -/
def State.setCc (s : State) (v : Byte) : State := { s with cpu := { s.cpu with cc := v } }

/-- D, the view A:B (10_state.md R21). -/
def State.d (s : State) : Word := joinBytes s.cpu.a s.cpu.b

/-- `D <- v`: A and B in one step (10_state.md R21). -/
def State.setD (s : State) (v : Word) : State :=
  { s with cpu := { s.cpu with a := hiByte v, b := loByte v } }

/-! ## Registers named by an operation -/

/-- The two accumulators. -/
inductive Acc
  | a | b
deriving DecidableEq, Repr

/-- The 16-bit registers that loads, stores, arithmetic and compares name. -/
inductive Reg16
  | d | x | y | u | s
deriving DecidableEq, Repr

/-- The value of an accumulator. -/
def State.acc (s : State) : Acc → Byte
  | .a => s.cpu.a
  | .b => s.cpu.b

/-- Writing an accumulator. -/
def State.setAcc (s : State) (r : Acc) (v : Byte) : State :=
  match r with
  | .a => s.setA v
  | .b => s.setB v

/-- The value of a 16-bit register. -/
def State.reg16 (s : State) : Reg16 → Word
  | .d => s.d
  | .x => s.cpu.x
  | .y => s.cpu.y
  | .u => s.cpu.u
  | .s => s.cpu.s

/-- Writing a 16-bit register. -/
def State.setReg16 (s : State) (r : Reg16) (v : Word) : State :=
  match r with
  | .d => s.setD v
  | .x => s.setX v
  | .y => s.setY v
  | .u => s.setU v
  | .s => s.setS v

/-! ## Cycles and draws -/

/-- `cyc <- cyc + n` (10_state.md R33). -/
def State.charge (s : State) (n : Nat) : State := { s with cyc := s.cyc + n }

/-- `draw(bit)`: the next free bit (00_scope.md R9, log 4). -/
def State.drawBit (s : State) : Bool × State := (Config.freeBit s.draws, { s with draws := s.draws + 1 })

/-- `draw(8 bits)`: the next free byte (00_scope.md R9, log 6). -/
def State.drawByte (s : State) : Byte × State := (Config.freeByte s.draws, { s with draws := s.draws + 1 })

/-- Whether the host can create the output file, drawn (49_periph_tape.md R438, log 7). -/
def State.drawOutputCreated (s : State) : Bool × State :=
  (Config.outputCreated s.draws, { s with draws := s.draws + 1 })

/-- Appending an event to the diagnostic log (00_scope.md R9, log 20). -/
def State.logEvent (s : State) (e : LogEvent) : State := { s with log := s.log ++ [e] }

end Sys2Proof.Machine
end

