-- ==== Sys2Proof/Machine/Memory.lean ====
section
/-! DEFINITION. The memory controller and the PIA register file (20_memory.md). -/

namespace Sys2Proof.Machine

/-! ## Physical memory -/

/-- The value of the cell at physical address `k`, `Memory.blank` where none is listed. -/
def readCells (k : Nat) : List Host.Cell → Byte
  | [] => Memory.blank
  | (j, v) :: rest => if j = k then v else readCells k rest

/-- The cells without those at physical address `k`. -/
def eraseCells (k : Nat) : List Host.Cell → List Host.Cell
  | [] => []
  | (j, v) :: rest => if j = k then eraseCells k rest else (j, v) :: eraseCells k rest

/-- The cells with one more, before the first of a higher address. -/
def insertCells (k : Nat) (v : Byte) : List Host.Cell → List Host.Cell
  | [] => [(k, v)]
  | (j, w) :: rest => if k < j then (k, v) :: (j, w) :: rest else (j, w) :: insertCells k v rest

/-- Reading one physical byte. -/
def Memory.read (m : Memory) (k : Nat) : Byte := readCells k m.cells

/-- Writing one physical byte; the canonical form is kept. -/
def Memory.write (m : Memory) (k : Nat) (v : Byte) : Memory :=
  let rest := eraseCells k m.cells
  { cells := if v = Memory.blank then rest else insertCells k v rest }

/-! ## The page mapper (20_memory.md R60, R62) -/

/-- The page index `addr[15:12]` (20_memory.md R60). -/
def pageIndex (addr : Word) : Fin 16 := (addr.extractLsb' 12 4).toFin

/-- The offset `addr[11:0]` (20_memory.md R60). -/
def pageOffset (addr : Word) : Nat := (addr.extractLsb' 0 12).toNat

/-- The physical page that a CPU address reaches (20_memory.md R62). -/
def State.physPage (s : State) (addr : Word) : Nat := (s.mapper.get (pageIndex addr)).val

/-- The physical address that a CPU address reaches (20_memory.md R62). -/
def State.phys (s : State) (addr : Word) : Nat := s.physPage addr * 4096 + pageOffset addr

/-- Whether a CPU address lies in a ROM page (20_memory.md R63). -/
def State.isRom (s : State) (addr : Word) : Bool := decide (romFirstPage ≤ s.physPage addr)

/-! ## Reading and direct stores (20_memory.md R65, R67, R68) -/

/-- `MemRead(addr, 1)` (20_memory.md R65). -/
def State.memRead (s : State) (addr : Word) : Byte := s.mem.read (s.phys addr)

/-- `MemRead(addr, 2)`, big-endian, wrapping (20_memory.md R68). -/
def State.memRead16 (s : State) (addr : Word) : Word := joinBytes (s.memRead addr) (s.memRead (addr + 1))

/-- `MemSet(addr, v)` (20_memory.md R67). -/
def State.memSet (s : State) (addr : Word) (v : Byte) : State := { s with mem := s.mem.write (s.phys addr) v }

/-! ## Dirty lines (20_memory.md R64, R85) -/

/-- The mark of a write below the screen's end (20_memory.md R64, R66). -/
def State.markDirty (s : State) (addr : Word) : State :=
  if addr.toNat < screenBytes then { s with dirty := s.dirty.setIfInBounds (addr.toNat / 40) true } else s

/-- `set_all_dirty()` (20_memory.md R85). -/
def State.setAllDirty (s : State) : State := { s with dirty := Vector.replicate 200 true }

/-- `is_dirty(line)`: the flag, which the read clears (20_memory.md R85). -/
def State.isDirty (s : State) (line : Fin 200) : Bool × State :=
  (s.dirty.get line, { s with dirty := s.dirty.set line.val false line.isLt })

/-! ## The PIA register file (20_memory.md R70 to R84) -/

/-- The mapper with entries 0 and 1 on the plane that bit 0 of ORA selects (20_memory.md R72). -/
def bankMapper (mapper : Vector (Fin 18) 16) (v : Byte) : Vector (Fin 18) 16 :=
  if v.getLsbD 0 then (mapper.set 0 0).set 1 1 else (mapper.set 0 2).set 1 3

/-- `ORA_write(v)` (20_memory.md R72, R73, R74). -/
def State.oraWrite (s : State) (v : Byte) : State :=
  let s := { s with pia := { s.pia with ora := v }, mapper := bankMapper s.mapper v }
  let s := s.memSet oraAddr (v ||| if s.pen.button then lpMask else 0x00)
  s.setAllDirty

/-- The key-scan code that an ORB value selects (20_memory.md R82). -/
def keyIndex (v : Byte) : Fin 256 := (v &&& keyIndexMask).toFin

/-- `ORB_write(v)` (20_memory.md R81, R82, R84). -/
def State.orbWrite (s : State) (v : Byte) : State :=
  let s := { s with pia := { s.pia with orb := v } }
  let s := s.memSet orbAddr (v ||| if s.keys.get (keyIndex v) then 0x00 else keyStatus)
  { s with snd := (v &&& 0x01) <<< 5 }

/-- A DDRA write (20_memory.md R75). -/
def State.ddraWrite (s : State) (v : Byte) : State :=
  { s with pia := { s.pia with ddra := v } }.memSet oraAddr v

/-- A DDRB write (20_memory.md R83). -/
def State.ddrbWrite (s : State) (v : Byte) : State :=
  { s with pia := { s.pia with ddrb := v } }.memSet orbAddr v

/-- A CRA write (20_memory.md R76). -/
def State.craWrite (s : State) (v : Byte) : State :=
  { s with pia := { s.pia with cra := v } }.memSet craAddr v

/-- A CRB write (20_memory.md R77). -/
def State.crbWrite (s : State) (v : Byte) : State :=
  { s with pia := { s.pia with crb := v } }.memSet crbAddr v

/-- `PIA_write(addr, v)`: the dispatch of a write to the I/O page; other addresses are dropped
(20_memory.md R70, R71, R76, R77, R78, R80). -/
def State.piaWrite (s : State) (addr : Word) (v : Byte) : State :=
  if addr = oraAddr then
    if s.pia.cra.getLsbD ddrSelBit then s.oraWrite v else s.ddraWrite v
  else if addr = orbAddr then
    if s.pia.crb.getLsbD ddrSelBit then s.orbWrite v else s.ddrbWrite v
  else if addr = craAddr then s.craWrite v
  else if addr = crbAddr then s.crbWrite v
  else s

/-! ## Writing through the controller (20_memory.md R66, R69) -/

/-- `MemWrite(addr, 1, v)`: the ROM test, the dirty mark, the I/O dispatch, the store, in this order
(20_memory.md R66). -/
def State.memWrite (s : State) (addr : Word) (v : Byte) : State :=
  if s.isRom addr then s
  else
    let s := s.markDirty addr
    if (pageIndex addr).val = ioPage then s.piaWrite addr v else s.memSet addr v

/-- `MemWrite(addr, 2, v)`: two byte writes, high byte first (20_memory.md R69). -/
def State.memWrite16 (s : State) (addr : Word) (v : Word) : State :=
  (s.memWrite addr (hiByte v)).memWrite (addr + 1) (loByte v)

/-! ## The key matrix (20_memory.md R88) -/

/-- `set_key(i)`. -/
def State.setKey (s : State) (i : Byte) : State := { s with keys := s.keys.setIfInBounds i.toNat true }

/-- `rem_key(i)`. -/
def State.remKey (s : State) (i : Byte) : State := { s with keys := s.keys.setIfInBounds i.toNat false }

/-- `rem_key_slice(start, stop)`: the half-open interval. -/
def State.remKeySlice (s : State) (start stop : Nat) : State :=
  { s with keys := Vector.ofFn (fun i : Fin 256 => s.keys.get i && !(decide (start ≤ i.val) && decide (i.val < stop))) }

end Sys2Proof.Machine
end

