-- ==== Sys2Proof/Machine/Operands.lean ====
section
/-! DEFINITION. Every operand form: the addressing-mode resolvers with their register write-back and extra cycles
(40_addressing.md R150 to R169), the 8-bit and 16-bit source operands (41_load_store.md R180), and the register codes
of EXG and TFR (45_misc.md R344, R345). An operand is resolved with PC already past the whole instruction. -/

namespace Sys2Proof.Machine

/-! ## Indexed mode -/

/-- The base register of an indexed post-byte (40_addressing.md R155). -/
def State.idxReg (s : State) : IdxReg → Word
  | .x => s.cpu.x
  | .y => s.cpu.y
  | .u => s.cpu.u
  | .s => s.cpu.s

/-- The write-back of a base register (40_addressing.md R159, R160). -/
def State.setIdxReg (s : State) (r : IdxReg) (v : Word) : State :=
  match r with
  | .x => s.setX v
  | .y => s.setY v
  | .u => s.setU v
  | .s => s.setS v

/-- The extra cycles of a non-indirect sub-mode (40_addressing.md R158). -/
def subModeCycles : SubMode → Nat
  | .inc1 => 2
  | .inc2 => 3
  | .dec1 => 2
  | .dec2 => 3
  | .zero => 0
  | .accB => 1
  | .accA => 1
  | .off8 _ => 1
  | .off16 _ => 4
  | .accD => 4
  | .pcr8 _ => 1
  | .pcr16 _ => 5

/-- `idx_cyc(pb)`: the extra cycles of an indexed operand; an indirect form costs 3 more than its non-indirect form
(40_addressing.md R156, R158, R163, R164). -/
def indexedCycles : Indexed → Nat
  | .off5 _ _ => 1
  | .mode _ indirect m => if indirect then subModeCycles m + 3 else subModeCycles m
  | .extIndirect _ => 5
  | .unassigned _ => 0

/-- The EA that a non-indirect sub-mode computes with base register `r`, and the state after the write-back of the
auto-increment and auto-decrement modes (40_addressing.md R159 to R162, R169). -/
def subModeEa (r : IdxReg) (m : SubMode) (s : State) : Word × State :=
  match m with
  | .inc1 => (s.idxReg r, s.setIdxReg r (s.idxReg r + 1))
  | .inc2 => (s.idxReg r, s.setIdxReg r (s.idxReg r + 2))
  | .dec1 => (s.idxReg r - 1, s.setIdxReg r (s.idxReg r - 1))
  | .dec2 => (s.idxReg r - 2, s.setIdxReg r (s.idxReg r - 2))
  | .zero => (s.idxReg r, s)
  | .accB => (s.idxReg r + sext8 s.cpu.b, s)
  | .accA => (s.idxReg r + sext8 s.cpu.a, s)
  | .off8 n => (s.idxReg r + sext8 n, s)
  | .off16 n => (s.idxReg r + n, s)
  | .accD => (s.idxReg r + s.d, s)
  | .pcr8 n => (s.cpu.pc + sext8 n, s)
  | .pcr16 n => (s.cpu.pc + n, s)

/-- The EA of an indexed operand, and the state after the resolver: register write-back first, then the pointer read of an
indirect form, with the extra cycles charged (40_addressing.md R155 to R165). -/
def resolveIndexed (ix : Indexed) (s : State) : Word × State :=
  match ix with
  | .off5 r n => (s.idxReg r + sext5 n, s.charge (indexedCycles ix))
  | .mode r indirect m =>
    let t := subModeEa r m s
    (if indirect then t.2.memRead16 t.1 else t.1, t.2.charge (indexedCycles ix))
  | .extIndirect n => (s.memRead16 n, s.charge (indexedCycles ix))
  | .unassigned _ => (0x0000, s)

/-! ## Memory operands -/

/-- `ea(mode)`: the EA of a memory operand, and the state after the resolver (40_addressing.md R152, R153,
41_load_store.md R180). -/
def resolve (m : MemOp) (s : State) : Word × State :=
  match m with
  | .dir dd => (joinBytes s.cpu.dp dd, s)
  | .ext hhll => (hhll, s)
  | .idx ix => resolveIndexed ix s

/-- The base cycles of a memory operand form: `n` for the direct and indexed encodings of an instruction, one more for its
extended encoding, as every row of the opcode table has it (40_addressing.md R154, 70_reset_and_hazards.md R512). -/
def memCycles (n : Nat) : MemOp → Nat
  | .dir _ => n
  | .ext _ => n + 1
  | .idx _ => n

/-- The extra cycles that the resolver of a memory operand charges: those of its post-byte (40_addressing.md R154, R158). -/
def extraCycles : MemOp → Nat
  | .dir _ => 0
  | .ext _ => 0
  | .idx ix => indexedCycles ix

/-! ## Source operands -/

/-- `operand8(mode)` (41_load_store.md R180). -/
def operand8 (o : Op8) (s : State) : Byte × State :=
  match o with
  | .imm ii => (ii, s)
  | .mem m => ((resolve m s).2.memRead (resolve m s).1, (resolve m s).2)

/-- `operand16(mode)` (41_load_store.md R180). -/
def operand16 (o : Op16) (s : State) : Word × State :=
  match o with
  | .imm jjkk => (jjkk, s)
  | .mem m => ((resolve m s).2.memRead16 (resolve m s).1, (resolve m s).2)

/-- The extra cycles of an 8-bit source operand (40_addressing.md R151, R154). -/
def extraCycles8 : Op8 → Nat
  | .imm _ => 0
  | .mem m => extraCycles m

/-- The extra cycles of a 16-bit source operand (40_addressing.md R151, R154). -/
def extraCycles16 : Op16 → Nat
  | .imm _ => 0
  | .mem m => extraCycles m

/-- The base cycles of an 8-bit source operand: 2 for the immediate encoding, 4 for direct and indexed, 5 for extended
(42_alu8.md R224, 41_load_store.md R182). -/
def op8Cycles : Op8 → Nat
  | .imm _ => 2
  | .mem m => memCycles 4 m

/-- The base cycles of a 16-bit source operand: `n` for the immediate encoding, `n + 2` for direct and indexed, `n + 3` for
extended (41_load_store.md R184 to R188, 43_alu16.md R263 to R269). -/
def op16Cycles (n : Nat) : Op16 → Nat
  | .imm _ => n
  | .mem m => memCycles (n + 2) m

/-! ## Register codes (45_misc.md R344, R345) -/

/-- Whether a register code names a 16-bit register; the undefined codes 0x6 and 0x7 count as 16 bits and 0xC to 0xF as
8 bits (30_encoding.md R132, 45_misc.md R345). -/
def regCodeWide : RegCode → Bool
  | .d | .x | .y | .u | .s | .pc | .undef16 _ => true
  | .a | .b | .cc | .dp | .undef8 _ => false

/-- `regget(c)`, an 8-bit value in the low byte (45_misc.md R344; P_TFR_BADREG of R345: log 19). -/
def State.regGet (s : State) : RegCode → Word
  | .d => s.d
  | .x => s.cpu.x
  | .y => s.cpu.y
  | .u => s.cpu.u
  | .s => s.cpu.s
  | .pc => s.cpu.pc
  | .undef16 _ => 0xFFFF
  | .a => zext8 s.cpu.a
  | .b => zext8 s.cpu.b
  | .cc => zext8 s.cpu.cc
  | .dp => zext8 s.cpu.dp
  | .undef8 _ => 0x00FF

/-- `regset(c, v)`; a write to an undefined code is discarded (45_misc.md R344, R345). -/
def State.regSet (s : State) (c : RegCode) (v : Word) : State :=
  match c with
  | .d => s.setD v
  | .x => s.setX v
  | .y => s.setY v
  | .u => s.setU v
  | .s => s.setS v
  | .pc => s.setPc v
  | .undef16 _ => s
  | .a => s.setA (loByte v)
  | .b => s.setB (loByte v)
  | .cc => s.setCc (loByte v)
  | .dp => s.setDp (loByte v)
  | .undef8 _ => s

/-- `conv(v, from, to)` under P_TFR_MIXED (45_misc.md R345: log 19). -/
def regConv (v : Word) (source dest : RegCode) : Word :=
  if regCodeWide source = regCodeWide dest then v
  else if regCodeWide source then zext8 (loByte v)
  else 0xFF00 ||| v

end Sys2Proof.Machine
end

