-- ==== Sys2Proof/Machine/Ops.lean ====
section
/-! DEFINITION. Instruction fetch, the stacks, taking an interrupt and returning from one (30_encoding.md R121,
46_stack.md R360 and R361, 48_system.md R410 to R415, 60_exceptions.md R463 and R464). -/

namespace Sys2Proof.Machine

/-! ## Fetch -/

/-- The five bytes from PC on, the longest instruction's length; PC wraps (30_encoding.md R120, R121, log 16). -/
def State.fetchBytes (s : State) : List Byte :=
  [s.memRead s.cpu.pc, s.memRead (s.cpu.pc + 1), s.memRead (s.cpu.pc + 2), s.memRead (s.cpu.pc + 3),
    s.memRead (s.cpu.pc + 4)]

/-- PC after `n` bytes have been fetched (30_encoding.md R121). -/
def State.advancePc (s : State) (n : Nat) : State := s.setPc (s.cpu.pc + BitVec.ofNat 16 n)

/-! ## The stack primitives (46_stack.md R360) -/

/-- The stack pointer that an operation uses. -/
inductive StackPtr
  | s | u
deriving DecidableEq, Repr

/-- The value of a stack pointer. -/
def State.sp (s : State) : StackPtr → Word
  | .s => s.cpu.s
  | .u => s.cpu.u

/-- Writing a stack pointer. -/
def State.setSp (s : State) (k : StackPtr) (v : Word) : State :=
  match k with
  | .s => s.setS v
  | .u => s.setU v

/-- `push8(sp, v)` (46_stack.md R360). -/
def State.push8 (s : State) (k : StackPtr) (v : Byte) : State :=
  (s.setSp k (s.sp k - 1)).memWrite (s.sp k - 1) v

/-- `push16(sp, v)`: the low byte first, to the higher address (46_stack.md R360). -/
def State.push16 (s : State) (k : StackPtr) (v : Word) : State :=
  (s.push8 k (loByte v)).push8 k (hiByte v)

/-- `pull8(sp)` (46_stack.md R360). -/
def State.pull8 (s : State) (k : StackPtr) : Byte × State :=
  (s.memRead (s.sp k), s.setSp k (s.sp k + 1))

/-- `pull16(sp)`: the high byte first (46_stack.md R360). -/
def State.pull16 (s : State) (k : StackPtr) : Word × State :=
  (joinBytes (s.pull8 k).1 ((s.pull8 k).2.pull8 k).1, ((s.pull8 k).2.pull8 k).2)

/-! ## PSH and PUL (46_stack.md R361) -/

/-- The registers of a PSH/PUL mask; `w` is the stack pointer that the instruction does not use (30_encoding.md R133). -/
inductive StackReg
  | pc | w | y | x | dp | b | a | cc
deriving DecidableEq, Repr

/-- The mask bit of a register (30_encoding.md R133). -/
def StackReg.bit : StackReg → Nat
  | .pc => 7
  | .w => 6
  | .y => 5
  | .x => 4
  | .dp => 3
  | .b => 2
  | .a => 1
  | .cc => 0

/-- The stack pointer that an instruction on the stack `k` does not use (46_stack.md R361). -/
def StackPtr.other : StackPtr → StackPtr
  | .s => .u
  | .u => .s

/-- Pushing one register, with its cycles (46_stack.md R361). -/
def State.pushReg (s : State) (k : StackPtr) : StackReg → State
  | .pc => (s.push16 k s.cpu.pc).charge 2
  | .w => (s.push16 k (s.sp k.other)).charge 2
  | .y => (s.push16 k s.cpu.y).charge 2
  | .x => (s.push16 k s.cpu.x).charge 2
  | .dp => (s.push8 k s.cpu.dp).charge 1
  | .b => (s.push8 k s.cpu.b).charge 1
  | .a => (s.push8 k s.cpu.a).charge 1
  | .cc => (s.push8 k s.cpu.cc).charge 1

/-- Pulling one register, with its cycles (46_stack.md R361). -/
def State.pullReg (s : State) (k : StackPtr) : StackReg → State
  | .pc => ((s.pull16 k).2.setPc (s.pull16 k).1).charge 2
  | .w => ((s.pull16 k).2.setSp k.other (s.pull16 k).1).charge 2
  | .y => ((s.pull16 k).2.setY (s.pull16 k).1).charge 2
  | .x => ((s.pull16 k).2.setX (s.pull16 k).1).charge 2
  | .dp => ((s.pull8 k).2.setDp (s.pull8 k).1).charge 1
  | .b => ((s.pull8 k).2.setB (s.pull8 k).1).charge 1
  | .a => ((s.pull8 k).2.setA (s.pull8 k).1).charge 1
  | .cc => ((s.pull8 k).2.setCc (s.pull8 k).1).charge 1

/-- The registers of a mask in the order of a push: bit 7 first (46_stack.md R361). -/
def pushOrder : List StackReg := [.pc, .w, .y, .x, .dp, .b, .a, .cc]

/-- The registers of a mask in the order of a pull: bit 0 first (46_stack.md R361). -/
def pullOrder : List StackReg := [.cc, .a, .b, .dp, .x, .y, .w, .pc]

/-- Pushing the registers of `rs` that the mask selects, in the order of the list. -/
def pushList (k : StackPtr) (mask : Byte) : List StackReg → State → State
  | [], s => s
  | r :: rs, s => pushList k mask rs (if mask.getLsbD r.bit then s.pushReg k r else s)

/-- Pulling the registers of `rs` that the mask selects, in the order of the list. -/
def pullList (k : StackPtr) (mask : Byte) : List StackReg → State → State
  | [], s => s
  | r :: rs, s => pullList k mask rs (if mask.getLsbD r.bit then s.pullReg k r else s)

/-- `psh(sp, mask)` (46_stack.md R361). -/
def State.psh (s : State) (k : StackPtr) (mask : Byte) : State := pushList k mask pushOrder s

/-- `pul(sp, mask)` (46_stack.md R361). -/
def State.pul (s : State) (k : StackPtr) (mask : Byte) : State := pullList k mask pullOrder s

/-! ## Taking an interrupt and returning from one -/

/-- `push_entire()`: the 12-byte frame, CC at the lowest address (48_system.md R410). -/
def State.pushEntire (s : State) : State :=
  let t := s.push16 .s s.cpu.pc
  let t := t.push16 .s s.cpu.u
  let t := t.push16 .s s.cpu.y
  let t := t.push16 .s s.cpu.x
  let t := t.push8 .s s.cpu.dp
  let t := t.push8 .s s.cpu.b
  let t := t.push8 .s s.cpu.a
  t.push8 .s s.cpu.cc

/-- Every interrupt entry: E is set before the push, then the mask bits of the entry are set in CC and PC takes the vector
(60_exceptions.md R463). -/
def State.interruptEntry (s : State) (maskBits : Byte) (vector : Word) : State :=
  let t := (s.setCc (putFlag s.cpu.cc .e true)).pushEntire
  let t := t.setCc (t.cpu.cc ||| maskBits)
  t.setPc (t.memRead16 vector)

/-- The mask bit I of CC (10_state.md R26). -/
def maskI : Byte := 0x10

/-- The mask bits I and F of CC (10_state.md R26). -/
def maskIF : Byte := 0x50

/-- `irq_entry()` (60_exceptions.md R464). -/
def State.irqEntry (s : State) : State := (s.interruptEntry maskI irqVector).charge irqCycles

/-- The registers that RTI pulls between CC and PC when the pulled CC has E = 1, with their 9 cycles (48_system.md R415). -/
def State.pullEntireRegs (s : State) : State :=
  let t := (s.pull8 .s).2.setA (s.pull8 .s).1
  let t := (t.pull8 .s).2.setB (t.pull8 .s).1
  let t := (t.pull8 .s).2.setDp (t.pull8 .s).1
  let t := (t.pull16 .s).2.setX (t.pull16 .s).1
  let t := (t.pull16 .s).2.setY (t.pull16 .s).1
  let t := (t.pull16 .s).2.setU (t.pull16 .s).1
  t.charge 9

/-- The return from an interrupt: the pulled CC's E says how much of the frame is pulled (48_system.md R415). -/
def State.returnFromInterrupt (s : State) : State :=
  let t := (s.pull8 .s).2.setCc (s.pull8 .s).1
  let t := if getFlag t.cpu.cc .e then t.pullEntireRegs else t
  (t.pull16 .s).2.setPc (t.pull16 .s).1

end Sys2Proof.Machine
end

