-- ==== Sys2Proof/Machine/Alu16.lean ====
section
/-! DEFINITION. 16-bit arithmetic and compare (43_alu16.md R260 to R269). -/

namespace Sys2Proof.Machine

/-! ## Shared operations -/

/-- 16-bit addition to D (43_alu16.md R260, R263). -/
def addD (o : Op16) (s : State) : State :=
  let p := operand16 o (s.charge (op16Cycles 4 o))
  let q := add16 p.2.d p.1 p.2.cpu.cc
  (p.2.setD q.1).setCc q.2

/-- 16-bit subtraction from D (43_alu16.md R261, R264). -/
def subD (o : Op16) (s : State) : State :=
  let p := operand16 o (s.charge (op16Cycles 4 o))
  let q := sub16 p.2.d p.1 p.2.cpu.cc
  (p.2.setD q.1).setCc q.2

/-- 16-bit comparison, `n` base cycles for the immediate encoding; the register is read after the resolver
(43_alu16.md R261, R265 to R269, 40_addressing.md R165). -/
def cmpReg16 (n : Nat) (r : Reg16) (o : Op16) (s : State) : State :=
  let p := operand16 o (s.charge (op16Cycles n o))
  p.2.setCc (sub16 (p.2.reg16 r) p.1 p.2.cpu.cc).2

/-! ## The instructions -/

/-- ADDD (43_alu16.md R263). -/
def execAddd (o : Op16) (s : State) : Host.Outcome State Fault Refusal :=
  .next (addD o s)

/-- SUBD (43_alu16.md R264). -/
def execSubd (o : Op16) (s : State) : Host.Outcome State Fault Refusal :=
  .next (subD o s)

/-- CMPX (43_alu16.md R265). -/
def execCmpx (o : Op16) (s : State) : Host.Outcome State Fault Refusal :=
  .next (cmpReg16 4 .x o s)

/-- CMPD (43_alu16.md R266). -/
def execCmpd (o : Op16) (s : State) : Host.Outcome State Fault Refusal :=
  .next (cmpReg16 5 .d o s)

/-- CMPY (43_alu16.md R267). -/
def execCmpy (o : Op16) (s : State) : Host.Outcome State Fault Refusal :=
  .next (cmpReg16 5 .y o s)

/-- CMPU (43_alu16.md R268). -/
def execCmpu (o : Op16) (s : State) : Host.Outcome State Fault Refusal :=
  .next (cmpReg16 5 .u o s)

/-- CMPS (43_alu16.md R269). -/
def execCmps (o : Op16) (s : State) : Host.Outcome State Fault Refusal :=
  .next (cmpReg16 5 .s o s)

end Sys2Proof.Machine
end

