-- ==== Sys2Proof/Machine/Alu8.lean ====
section
/-! DEFINITION. 8-bit arithmetic and logic (42_alu8.md R220 to R242). -/

namespace Sys2Proof.Machine

/-! ## Shared operations -/

/-- Addition to an accumulator with carry-in (42_alu8.md R220). -/
def addAcc (r : Acc) (cin : Bool) (o : Op8) (s : State) : State :=
  let p := operand8 o (s.charge (op8Cycles o))
  let q := add8 (p.2.acc r) p.1 cin p.2.cpu.cc
  (p.2.setAcc r q.1).setCc q.2

/-- Subtraction from an accumulator with borrow-in; H is drawn (42_alu8.md R221, log 4). -/
def subAcc (r : Acc) (bin : Bool) (o : Op8) (s : State) : State :=
  let p := operand8 o (s.charge (op8Cycles o))
  let h := p.2.drawBit
  let q := sub8 (h.2.acc r) p.1 bin h.1 h.2.cpu.cc
  (h.2.setAcc r q.1).setCc q.2

/-- Comparison with an accumulator: the flags of the subtraction, the result discarded; H is drawn (42_alu8.md R221,
R227, R228, log 4). -/
def cmpAcc (r : Acc) (o : Op8) (s : State) : State :=
  let p := operand8 o (s.charge (op8Cycles o))
  let h := p.2.drawBit
  h.2.setCc (sub8 (h.2.acc r) p.1 false h.1 h.2.cpu.cc).2

/-- A logical operation on an accumulator (42_alu8.md R222). -/
def logicAcc (r : Acc) (f : Byte → Byte → Byte) (o : Op8) (s : State) : State :=
  let p := operand8 o (s.charge (op8Cycles o))
  let v := f (p.2.acc r) p.1
  (p.2.setAcc r v).setCc (logic8 v p.2.cpu.cc)

/-- A bit test of an accumulator: the flags of AND, the result discarded (42_alu8.md R222, R233, R234). -/
def bitAcc (r : Acc) (o : Op8) (s : State) : State :=
  let p := operand8 o (s.charge (op8Cycles o))
  p.2.setCc (logic8 (p.2.acc r &&& p.1) p.2.cpu.cc)

/-! ## The instructions -/

/-- SUBA (42_alu8.md R225). -/
def execSuba (o : Op8) (s : State) : Host.Outcome State Fault Refusal :=
  .next (subAcc .a false o s)

/-- SUBB (42_alu8.md R226). -/
def execSubb (o : Op8) (s : State) : Host.Outcome State Fault Refusal :=
  .next (subAcc .b false o s)

/-- CMPA (42_alu8.md R227). -/
def execCmpa (o : Op8) (s : State) : Host.Outcome State Fault Refusal :=
  .next (cmpAcc .a o s)

/-- CMPB (42_alu8.md R228). -/
def execCmpb (o : Op8) (s : State) : Host.Outcome State Fault Refusal :=
  .next (cmpAcc .b o s)

/-- SBCA (42_alu8.md R229). -/
def execSbca (o : Op8) (s : State) : Host.Outcome State Fault Refusal :=
  .next (subAcc .a (getFlag s.cpu.cc .c) o s)

/-- SBCB (42_alu8.md R230). -/
def execSbcb (o : Op8) (s : State) : Host.Outcome State Fault Refusal :=
  .next (subAcc .b (getFlag s.cpu.cc .c) o s)

/-- ANDA (42_alu8.md R231). -/
def execAnda (o : Op8) (s : State) : Host.Outcome State Fault Refusal :=
  .next (logicAcc .a (fun a m => a &&& m) o s)

/-- ANDB (42_alu8.md R232). -/
def execAndb (o : Op8) (s : State) : Host.Outcome State Fault Refusal :=
  .next (logicAcc .b (fun a m => a &&& m) o s)

/-- BITA (42_alu8.md R233). -/
def execBita (o : Op8) (s : State) : Host.Outcome State Fault Refusal :=
  .next (bitAcc .a o s)

/-- BITB (42_alu8.md R234). -/
def execBitb (o : Op8) (s : State) : Host.Outcome State Fault Refusal :=
  .next (bitAcc .b o s)

/-- EORA (42_alu8.md R235). -/
def execEora (o : Op8) (s : State) : Host.Outcome State Fault Refusal :=
  .next (logicAcc .a (fun a m => a ^^^ m) o s)

/-- EORB (42_alu8.md R236). -/
def execEorb (o : Op8) (s : State) : Host.Outcome State Fault Refusal :=
  .next (logicAcc .b (fun a m => a ^^^ m) o s)

/-- ADCA (42_alu8.md R237). -/
def execAdca (o : Op8) (s : State) : Host.Outcome State Fault Refusal :=
  .next (addAcc .a (getFlag s.cpu.cc .c) o s)

/-- ADCB (42_alu8.md R238). -/
def execAdcb (o : Op8) (s : State) : Host.Outcome State Fault Refusal :=
  .next (addAcc .b (getFlag s.cpu.cc .c) o s)

/-- ORA (42_alu8.md R239). -/
def execOra (o : Op8) (s : State) : Host.Outcome State Fault Refusal :=
  .next (logicAcc .a (fun a m => a ||| m) o s)

/-- ORB (42_alu8.md R240). -/
def execOrb (o : Op8) (s : State) : Host.Outcome State Fault Refusal :=
  .next (logicAcc .b (fun a m => a ||| m) o s)

/-- ADDA (42_alu8.md R241). -/
def execAdda (o : Op8) (s : State) : Host.Outcome State Fault Refusal :=
  .next (addAcc .a false o s)

/-- ADDB (42_alu8.md R242). -/
def execAddb (o : Op8) (s : State) : Host.Outcome State Fault Refusal :=
  .next (addAcc .b false o s)

end Sys2Proof.Machine
end

