-- ==== Sys2Proof/Machine/Control.lean ====
section
/-! DEFINITION. Branches, jumps and subroutine calls (47_control.md R370 to R409). -/

namespace Sys2Proof.Machine

/-! ## Shared operations -/

/-- A branch to an offset from the next instruction, if `taken` (47_control.md R370, R371). -/
def branch (taken : Bool) (offset : Word) (s : State) : State :=
  if taken then s.setPc (s.cpu.pc + offset) else s

/-- A short branch: 3 cycles, taken or not (47_control.md R370, R372). -/
def shortBranch (c : Cond) (o : Byte) (s : State) : State :=
  branch (branchCond c s.cpu.cc) (sext8 o) (s.charge 3)

/-- A long conditional branch: 5 cycles, one more if taken (47_control.md R371, R372, 70_reset_and_hazards.md R512). -/
def longBranch (c : Cond) (o : Word) (s : State) : State :=
  branch (branchCond c s.cpu.cc) o (s.charge (if branchCond c s.cpu.cc then 6 else 5))

/-- A call: the return address, which PC holds, is pushed onto S, and PC takes the target (47_control.md R389, R406,
R408). -/
def callTo (target : Word) (s : State) : State := (s.push16 .s s.cpu.pc).setPc target

/-! ## The instructions -/

/-- BRA (47_control.md R373). -/
def execBra (o : Byte) (s : State) : Host.Outcome State Fault Refusal :=
  .next (shortBranch .always o s)

/-- BRN (47_control.md R374). -/
def execBrn (o : Byte) (s : State) : Host.Outcome State Fault Refusal :=
  .next (shortBranch .never o s)

/-- BHI (47_control.md R375). -/
def execBhi (o : Byte) (s : State) : Host.Outcome State Fault Refusal :=
  .next (shortBranch .hi o s)

/-- BLS (47_control.md R376). -/
def execBls (o : Byte) (s : State) : Host.Outcome State Fault Refusal :=
  .next (shortBranch .ls o s)

/-- BCC (47_control.md R377). -/
def execBcc (o : Byte) (s : State) : Host.Outcome State Fault Refusal :=
  .next (shortBranch .cc o s)

/-- BCS (47_control.md R378). -/
def execBcs (o : Byte) (s : State) : Host.Outcome State Fault Refusal :=
  .next (shortBranch .cs o s)

/-- BNE (47_control.md R379). -/
def execBne (o : Byte) (s : State) : Host.Outcome State Fault Refusal :=
  .next (shortBranch .ne o s)

/-- BEQ (47_control.md R380). -/
def execBeq (o : Byte) (s : State) : Host.Outcome State Fault Refusal :=
  .next (shortBranch .eq o s)

/-- BVC (47_control.md R381). -/
def execBvc (o : Byte) (s : State) : Host.Outcome State Fault Refusal :=
  .next (shortBranch .vc o s)

/-- BVS (47_control.md R382). -/
def execBvs (o : Byte) (s : State) : Host.Outcome State Fault Refusal :=
  .next (shortBranch .vs o s)

/-- BPL (47_control.md R383). -/
def execBpl (o : Byte) (s : State) : Host.Outcome State Fault Refusal :=
  .next (shortBranch .pl o s)

/-- BMI (47_control.md R384). -/
def execBmi (o : Byte) (s : State) : Host.Outcome State Fault Refusal :=
  .next (shortBranch .mi o s)

/-- BGE (47_control.md R385). -/
def execBge (o : Byte) (s : State) : Host.Outcome State Fault Refusal :=
  .next (shortBranch .ge o s)

/-- BLT (47_control.md R386). -/
def execBlt (o : Byte) (s : State) : Host.Outcome State Fault Refusal :=
  .next (shortBranch .lt o s)

/-- BGT (47_control.md R387). -/
def execBgt (o : Byte) (s : State) : Host.Outcome State Fault Refusal :=
  .next (shortBranch .gt o s)

/-- BLE (47_control.md R388). -/
def execBle (o : Byte) (s : State) : Host.Outcome State Fault Refusal :=
  .next (shortBranch .le o s)

/-- BSR (47_control.md R389). -/
def execBsr (o : Byte) (s : State) : Host.Outcome State Fault Refusal :=
  .next (callTo (s.cpu.pc + sext8 o) (s.charge 7))

/-- LBRA (47_control.md R390). -/
def execLbra (o : Word) (s : State) : Host.Outcome State Fault Refusal :=
  .next (branch true o (s.charge 5))

/-- LBRN (47_control.md R391). -/
def execLbrn (o : Word) (s : State) : Host.Outcome State Fault Refusal :=
  .next (longBranch .never o s)

/-- LBHI (47_control.md R392). -/
def execLbhi (o : Word) (s : State) : Host.Outcome State Fault Refusal :=
  .next (longBranch .hi o s)

/-- LBLS (47_control.md R393). -/
def execLbls (o : Word) (s : State) : Host.Outcome State Fault Refusal :=
  .next (longBranch .ls o s)

/-- LBCC (47_control.md R394). -/
def execLbcc (o : Word) (s : State) : Host.Outcome State Fault Refusal :=
  .next (longBranch .cc o s)

/-- LBCS (47_control.md R395). -/
def execLbcs (o : Word) (s : State) : Host.Outcome State Fault Refusal :=
  .next (longBranch .cs o s)

/-- LBNE (47_control.md R396). -/
def execLbne (o : Word) (s : State) : Host.Outcome State Fault Refusal :=
  .next (longBranch .ne o s)

/-- LBEQ (47_control.md R397). -/
def execLbeq (o : Word) (s : State) : Host.Outcome State Fault Refusal :=
  .next (longBranch .eq o s)

/-- LBVC (47_control.md R398). -/
def execLbvc (o : Word) (s : State) : Host.Outcome State Fault Refusal :=
  .next (longBranch .vc o s)

/-- LBVS (47_control.md R399). -/
def execLbvs (o : Word) (s : State) : Host.Outcome State Fault Refusal :=
  .next (longBranch .vs o s)

/-- LBPL (47_control.md R400). -/
def execLbpl (o : Word) (s : State) : Host.Outcome State Fault Refusal :=
  .next (longBranch .pl o s)

/-- LBMI (47_control.md R401). -/
def execLbmi (o : Word) (s : State) : Host.Outcome State Fault Refusal :=
  .next (longBranch .mi o s)

/-- LBGE (47_control.md R402). -/
def execLbge (o : Word) (s : State) : Host.Outcome State Fault Refusal :=
  .next (longBranch .ge o s)

/-- LBLT (47_control.md R403). -/
def execLblt (o : Word) (s : State) : Host.Outcome State Fault Refusal :=
  .next (longBranch .lt o s)

/-- LBGT (47_control.md R404). -/
def execLbgt (o : Word) (s : State) : Host.Outcome State Fault Refusal :=
  .next (longBranch .gt o s)

/-- LBLE (47_control.md R405). -/
def execLble (o : Word) (s : State) : Host.Outcome State Fault Refusal :=
  .next (longBranch .le o s)

/-- LBSR (47_control.md R406). -/
def execLbsr (o : Word) (s : State) : Host.Outcome State Fault Refusal :=
  .next (callTo (s.cpu.pc + o) (s.charge 9))

/-- JMP: no memory is read at EA (47_control.md R407). -/
def jumpTo (m : MemOp) (s : State) : State :=
  let p := resolve m (s.charge (memCycles 3 m))
  p.2.setPc p.1

/-- JMP (47_control.md R407). -/
def execJmp (m : MemOp) (s : State) : Host.Outcome State Fault Refusal :=
  .next (jumpTo m s)

/-- JSR: the resolver first, then the push (47_control.md R408). -/
def jumpToSubroutine (m : MemOp) (s : State) : State :=
  let p := resolve m (s.charge (memCycles 7 m))
  callTo p.1 p.2

/-- JSR (47_control.md R408). -/
def execJsr (m : MemOp) (s : State) : Host.Outcome State Fault Refusal :=
  .next (jumpToSubroutine m s)

/-- RTS (47_control.md R409). -/
def returnFromSubroutine (s : State) : State :=
  let p := (s.charge 5).pull16 .s
  p.2.setPc p.1

/-- RTS (47_control.md R409). -/
def execRts (s : State) : Host.Outcome State Fault Refusal :=
  .next (returnFromSubroutine s)

end Sys2Proof.Machine
end

