-- ==== Sys2Proof/Machine/LoadStore.lean ====
section
/-! DEFINITION. Loads, stores and LEA (41_load_store.md R180 to R200). -/

namespace Sys2Proof.Machine

/-! ## Shared operations -/

/-- An 8-bit load: the operand goes into an accumulator, with the flags of R181 (41_load_store.md R182, R183). -/
def loadAcc (r : Acc) (o : Op8) (s : State) : State :=
  let p := operand8 o (s.charge (op8Cycles o))
  (p.2.setAcc r p.1).setCc (logic8 p.1 p.2.cpu.cc)

/-- A 16-bit load with `n` base cycles for its immediate encoding (41_load_store.md R184 to R188). -/
def loadReg16 (n : Nat) (r : Reg16) (o : Op16) (s : State) : State :=
  let p := operand16 o (s.charge (op16Cycles n o))
  (p.2.setReg16 r p.1).setCc (logic16 p.1 p.2.cpu.cc)

/-- An 8-bit store: the register is read after the resolver, and the flags are set whether or not the write is dropped
(41_load_store.md R181, R189, R190). -/
def storeAcc (r : Acc) (m : MemOp) (s : State) : State :=
  let p := resolve m (s.charge (memCycles 4 m))
  let v := p.2.acc r
  (p.2.memWrite p.1 v).setCc (logic8 v p.2.cpu.cc)

/-- A 16-bit store with `n` base cycles for its direct encoding; the register is read after the resolver
(41_load_store.md R181, R191 to R195, 40_addressing.md R165). -/
def storeReg16 (n : Nat) (r : Reg16) (m : MemOp) (s : State) : State :=
  let p := resolve m (s.charge (memCycles n m))
  let v := p.2.reg16 r
  (p.2.memWrite16 p.1 v).setCc (logic16 v p.2.cpu.cc)

/-- LEA: the EA itself goes into a register after the resolver's write-back; Z is written where `writesZ`
(41_load_store.md R196). -/
def loadEa (r : Reg16) (writesZ : Bool) (ix : Indexed) (s : State) : State :=
  let p := resolveIndexed ix (s.charge 4)
  let t := p.2.setReg16 r p.1
  if writesZ then t.setCc (putFlag t.cpu.cc .z (p.1 == 0)) else t

/-! ## The instructions -/

/-- LDA (41_load_store.md R182). -/
def execLda (o : Op8) (s : State) : Host.Outcome State Fault Refusal :=
  .next (loadAcc .a o s)

/-- LDB (41_load_store.md R183). -/
def execLdb (o : Op8) (s : State) : Host.Outcome State Fault Refusal :=
  .next (loadAcc .b o s)

/-- LDD (41_load_store.md R184). -/
def execLdd (o : Op16) (s : State) : Host.Outcome State Fault Refusal :=
  .next (loadReg16 3 .d o s)

/-- LDX (41_load_store.md R185). -/
def execLdx (o : Op16) (s : State) : Host.Outcome State Fault Refusal :=
  .next (loadReg16 3 .x o s)

/-- LDY (41_load_store.md R186). -/
def execLdy (o : Op16) (s : State) : Host.Outcome State Fault Refusal :=
  .next (loadReg16 4 .y o s)

/-- LDU (41_load_store.md R187). -/
def execLdu (o : Op16) (s : State) : Host.Outcome State Fault Refusal :=
  .next (loadReg16 3 .u o s)

/-- LDS (41_load_store.md R188). -/
def execLds (o : Op16) (s : State) : Host.Outcome State Fault Refusal :=
  .next (loadReg16 4 .s o s)

/-- STA (41_load_store.md R189). -/
def execSta (m : MemOp) (s : State) : Host.Outcome State Fault Refusal :=
  .next (storeAcc .a m s)

/-- STB (41_load_store.md R190). -/
def execStb (m : MemOp) (s : State) : Host.Outcome State Fault Refusal :=
  .next (storeAcc .b m s)

/-- STD (41_load_store.md R191). -/
def execStd (m : MemOp) (s : State) : Host.Outcome State Fault Refusal :=
  .next (storeReg16 5 .d m s)

/-- STX (41_load_store.md R192). -/
def execStx (m : MemOp) (s : State) : Host.Outcome State Fault Refusal :=
  .next (storeReg16 5 .x m s)

/-- STY (41_load_store.md R193). -/
def execSty (m : MemOp) (s : State) : Host.Outcome State Fault Refusal :=
  .next (storeReg16 6 .y m s)

/-- STU (41_load_store.md R194). -/
def execStu (m : MemOp) (s : State) : Host.Outcome State Fault Refusal :=
  .next (storeReg16 5 .u m s)

/-- STS (41_load_store.md R195). -/
def execSts (m : MemOp) (s : State) : Host.Outcome State Fault Refusal :=
  .next (storeReg16 6 .s m s)

/-- LEAX (41_load_store.md R197). -/
def execLeax (ix : Indexed) (s : State) : Host.Outcome State Fault Refusal :=
  .next (loadEa .x true ix s)

/-- LEAY (41_load_store.md R198). -/
def execLeay (ix : Indexed) (s : State) : Host.Outcome State Fault Refusal :=
  .next (loadEa .y true ix s)

/-- LEAS (41_load_store.md R199). -/
def execLeas (ix : Indexed) (s : State) : Host.Outcome State Fault Refusal :=
  .next (loadEa .s leasuZ ix s)

/-- LEAU (41_load_store.md R200). -/
def execLeau (ix : Indexed) (s : State) : Host.Outcome State Fault Refusal :=
  .next (loadEa .u leasuZ ix s)

end Sys2Proof.Machine
end

