-- ==== Sys2Proof/Machine/Misc.lean ====
section
/-! DEFINITION. Register, multiply, BCD and condition-code instructions (45_misc.md R340 to R350). -/

namespace Sys2Proof.Machine

/-! ## Shared operations -/

/-- ABX (45_misc.md R340). -/
def addBToX (s : State) : State :=
  let t := s.charge 3
  t.setX (t.cpu.x + zext8 t.cpu.b)

/-- MUL (45_misc.md R341). -/
def multiply (s : State) : State :=
  let t := s.charge 11
  let q := mul8 t.cpu.a t.cpu.b t.cpu.cc
  (t.setD q.1).setCc q.2

/-- SEX (45_misc.md R342). -/
def signExtendB (s : State) : State :=
  let t := s.charge 2
  let t := t.setA (if t.cpu.b.msb then 0xFF else 0x00)
  t.setCc (nz16 t.d t.cpu.cc)

/-- DAA; V is drawn (45_misc.md R343, log 5). -/
def decimalAdjust (s : State) : State :=
  let v := (s.charge 2).drawBit
  let q := daa8 v.2.cpu.a v.1 v.2.cpu.cc
  (v.2.setA q.1).setCc q.2

/-- EXG: both registers are read before either is written, and r1 is written last (45_misc.md R346). -/
def exchange (r1 r2 : RegCode) (s : State) : State :=
  let t := s.charge 8
  (t.regSet r2 (regConv (t.regGet r1) r1 r2)).regSet r1 (regConv (t.regGet r2) r2 r1)

/-- TFR (45_misc.md R347). -/
def transfer (r1 r2 : RegCode) (s : State) : State :=
  let t := s.charge 6
  t.regSet r2 (regConv (t.regGet r1) r1 r2)

/-- AND of an immediate into all eight bits of CC (45_misc.md R348, 48_system.md R414). -/
def andCc (n : Nat) (ii : Byte) (s : State) : State :=
  let t := s.charge n
  t.setCc (t.cpu.cc &&& ii)

/-- OR of an immediate into all eight bits of CC (45_misc.md R349). -/
def orCc (n : Nat) (ii : Byte) (s : State) : State :=
  let t := s.charge n
  t.setCc (t.cpu.cc ||| ii)

/-! ## The instructions -/

/-- ABX (45_misc.md R340). -/
def execAbx (s : State) : Host.Outcome State Fault Refusal :=
  .next (addBToX s)

/-- MUL (45_misc.md R341). -/
def execMul (s : State) : Host.Outcome State Fault Refusal :=
  .next (multiply s)

/-- SEX (45_misc.md R342). -/
def execSex (s : State) : Host.Outcome State Fault Refusal :=
  .next (signExtendB s)

/-- DAA (45_misc.md R343). -/
def execDaa (s : State) : Host.Outcome State Fault Refusal :=
  .next (decimalAdjust s)

/-- EXG (45_misc.md R346). -/
def execExg (r1 r2 : RegCode) (s : State) : Host.Outcome State Fault Refusal :=
  .next (exchange r1 r2 s)

/-- TFR (45_misc.md R347). -/
def execTfr (r1 r2 : RegCode) (s : State) : Host.Outcome State Fault Refusal :=
  .next (transfer r1 r2 s)

/-- ANDCC (45_misc.md R348). -/
def execAndcc (b : Byte) (s : State) : Host.Outcome State Fault Refusal :=
  .next (andCc 3 b s)

/-- ORCC (45_misc.md R349). -/
def execOrcc (b : Byte) (s : State) : Host.Outcome State Fault Refusal :=
  .next (orCc 3 b s)

/-- NOP (45_misc.md R350). -/
def execNop (s : State) : Host.Outcome State Fault Refusal :=
  .next (s.charge 2)

end Sys2Proof.Machine
end

