-- ==== Sys2Proof/Machine/Periph.lean ====
section
/-! DEFINITION. The send-to-periph instruction, its traps and the tape codec (49_periph_tape.md R430 to R446). -/

namespace Sys2Proof.Machine

/-! ## The tape (49_periph_tape.md R432 to R439) -/

/-- A tape codec field update. -/
def State.setTape (s : State) (t : TapeCodec) : State := { s with tape := t }

/-- `TapeRead()`: at the end of the tape, or with none loaded, a drawn byte (49_periph_tape.md R434, log 6). -/
def State.tapeRead (s : State) : Byte × State :=
  match (s.tape.tape.getD [])[s.tape.cursor]? with
  | some v => (v, s.setTape { s.tape with cursor := s.tape.cursor + 1 })
  | none => s.drawByte

/-- The refill of the shift byte when its eight bits are used up (49_periph_tape.md R435). -/
def State.refillTapeByte (s : State) : State :=
  if s.tape.tc = 0 then s.tapeRead.2.setTape { s.tapeRead.2.tape with tb := s.tapeRead.1, tc := 8 } else s

/-- P_TAPE_BIT_PATTERN (49_periph_tape.md R436). -/
def tapeBitPattern (bit : Bool) : Byte := if bit then 0x00 else 0xFF

/-- `tape_read_bit()`, with the bit byte at `bitAddr` (49_periph_tape.md R435 to R437). -/
def State.tapeReadBit (s : State) (bitAddr : Word) : State :=
  let t := s.refillTapeByte
  let bit := t.tape.tb.msb
  let t := t.setTape { t.tape with tb := t.tape.tb <<< 1, tc := t.tape.tc - 1 }
  let t := t.memSet bitAddr (tapeBitPattern bit)
  t.setTape { t.tape with led := true }

/-- `create_output()`: the host makes an empty output stream, or the creation fails (49_periph_tape.md R438, log 7). -/
def State.createOutput (s : State) : State :=
  let c := s.drawOutputCreated
  if c.1 then c.2.setTape { c.2.tape with out := some [] }
  else (c.2.logEvent .outputCreateFailed).setTape { c.2.tape with outFailed := true }

/-- `append(out, v)` (49_periph_tape.md R438, R439). -/
def State.appendOutput (s : State) (v : Byte) : State :=
  s.setTape { s.tape with out := s.tape.out.map (fun bytes => bytes ++ [v]) }

/-- `tape_write_byte()` (49_periph_tape.md R438). -/
def State.tapeWriteByte (s : State) : State :=
  if s.tape.outFailed then s
  else
    let t := if s.tape.out.isNone then s.createOutput else s
    if t.tape.outFailed then t else t.appendOutput t.cpu.a

/-! ## Motor and light pen -/

/-- `motor_ready()` (49_periph_tape.md R440). -/
def State.motorReady (s : State) (offset : Word) (mask : Byte) : State :=
  s.memSet (s.cpu.s + offset) (s.memRead (s.cpu.s + offset) &&& ~~~mask)

/-- `lightpen_status()` (49_periph_tape.md R441). -/
def State.lightPenStatus (s : State) (offset : Word) : State :=
  let a := s.cpu.s + offset
  let t := s.memSet a (hiByte s.pen.x)
  let t := t.memSet (a + 1) (loByte s.pen.x)
  let t := t.memSet (a + 2) (hiByte s.pen.y)
  t.memSet (a + 3) (loByte s.pen.y)

/-! ## The trap dispatch -/

/-- The parameters of the peripheral traps (49_periph_tape.md R431, R436, R440, R441). -/
structure Traps where
  readBit : Word
  writeByte : Word
  motor : Word
  lightPen : Word
  bitAddr : Word
  motorOffset : Word
  motorMask : Byte
  lightPenOffset : Word
deriving DecidableEq, Repr

/-- The OPEN parameters of this machine (log 8). -/
def machineTraps : Traps where
  readBit := trapReadBit
  writeByte := trapWriteByte
  motor := trapMotor
  lightPen := trapLightPen
  bitAddr := tapeBitAddr
  motorOffset := Config.motorOffset
  motorMask := motorMask
  lightPenOffset := Config.lightPenOffset

/-- `periph(t)` (49_periph_tape.md R431). -/
def State.periph (s : State) (p : Traps) (t : Word) : State :=
  if t = p.readBit then s.tapeReadBit p.bitAddr
  else if t = p.writeByte then s.tapeWriteByte
  else if t = p.motor then s.motorReady p.motorOffset p.motorMask
  else if t = p.lightPen then s.lightPenStatus p.lightPenOffset
  else s

/-! ## The instruction -/

/-- Send-to-periph with `n` cycles: the trap address is that of the opcode byte, which PC has just passed
(49_periph_tape.md R430). -/
def sendToPeriph (p : Traps) (n : Nat) (s : State) : State := (s.charge n).periph p (s.cpu.pc - 1)

/-- PERIPH (49_periph_tape.md R430). -/
def execPeriph (s : State) : Host.Outcome State Fault Refusal :=
  .next (sendToPeriph machineTraps cycPeriph s)

/-! ## Host operations on the tape (49_periph_tape.md R432, R445) -/

/-- Why `load` rejects a file: missing or unreadable, then zero-length, then over `max` bytes; `none` where it does not
(49_periph_tape.md R432, log 23). -/
def loadFailure (max : Nat) : Option (List Byte) → Option LoadFailure
  | none => some .unreadable
  | some bytes =>
    if bytes.length = 0 then some .zeroLength
    else if max < bytes.length then some .oversized
    else none

/-- `load(bytes)` with P_TAPE_MAX = `max`, and its reply (49_periph_tape.md R432). -/
def State.loadTape (s : State) (max : Nat) (file : Option (List Byte)) : State × HostReply :=
  match loadFailure max file with
  | some cause => (s, .tapeRejected cause)
  | none => (s.setTape { s.tape with tape := file, cursor := 0, tc := 0 }, .tapeLoaded)

/-- `rewind()` (49_periph_tape.md R432). -/
def State.rewindTape (s : State) : State :=
  if s.tape.tape.isSome then s.setTape { s.tape with cursor := 0, tc := 0 } else s

/-- The read-and-clear of the LED flag (49_periph_tape.md R437, R445). -/
def State.readLed (s : State) : Bool × State := (s.tape.led, s.setTape { s.tape with led := false })

end Sys2Proof.Machine
end

