-- ==== Sys2Proof/Machine/Stack.lean ====
section
/-! DEFINITION. The stack instructions (46_stack.md R360 to R365). -/

namespace Sys2Proof.Machine

/-- PSHS (46_stack.md R362). -/
def execPshs (mask : Byte) (s : State) : Host.Outcome State Fault Refusal :=
  .next ((s.charge 5).psh .s mask)

/-- PULS (46_stack.md R363). -/
def execPuls (mask : Byte) (s : State) : Host.Outcome State Fault Refusal :=
  .next ((s.charge 5).pul .s mask)

/-- PSHU (46_stack.md R364). -/
def execPshu (mask : Byte) (s : State) : Host.Outcome State Fault Refusal :=
  .next ((s.charge 5).psh .u mask)

/-- PULU (46_stack.md R365). -/
def execPulu (mask : Byte) (s : State) : Host.Outcome State Fault Refusal :=
  .next ((s.charge 5).pul .u mask)

end Sys2Proof.Machine
end

