-- ==== Sys2Proof/Machine/System.lean ====
section
/-! DEFINITION. Software interrupts, return, wait and unassigned opcodes (48_system.md R410 to R419). -/

namespace Sys2Proof.Machine

/-- SWI (48_system.md R411). -/
def execSwi (s : State) : Host.Outcome State Fault Refusal :=
  .next ((s.charge 19).interruptEntry maskIF swiVector)

/-- SWI2 (48_system.md R412). -/
def execSwi2 (s : State) : Host.Outcome State Fault Refusal :=
  .next ((s.charge 20).interruptEntry 0x00 swi2Vector)

/-- SWI3 (48_system.md R413). -/
def execSwi3 (s : State) : Host.Outcome State Fault Refusal :=
  .next ((s.charge 20).interruptEntry 0x00 swi3Vector)

/-- CWAI (48_system.md R414). -/
def execCwai (b : Byte) (s : State) : Host.Outcome State Fault Refusal :=
  .next (andCc 20 b s)

/-- RTI (48_system.md R415). -/
def execRti (s : State) : Host.Outcome State Fault Refusal :=
  .next ((s.charge 6).returnFromInterrupt)

/-- SYNC (48_system.md R416). -/
def execSync (s : State) : Host.Outcome State Fault Refusal :=
  .next (s.charge 4)

/-! ## Unassigned opcodes (48_system.md R417, R418) -/

/-- The register dump of A, B, X, Y, PC, DP, U, S and CC (48_system.md R418, 60_exceptions.md R480). -/
def State.registerDump (s : State) : Cpu := s.cpu

/-- An unassigned opcode whose first byte was at `pc`, with PC past its bytes: under the nop policy it is logged, costs
P_CYC_ILLEGAL and changes nothing else; under the fault policy it stops (48_system.md R417, R418, logs 17 and 18). -/
def execUnassigned (policy : IllegalPolicy) (opcode : List Byte) (pc : Word) (s : State) :
    Host.Outcome State Fault Refusal :=
  match policy with
  | .nop => .next ((s.logEvent (.unassigned opcode pc s.registerDump)).charge cycIllegal)
  | .fault => .fault (.unassigned opcode pc)

end Sys2Proof.Machine
end

