-- ==== Sys2Proof/Machine/Unary.lean ====
section
/-! DEFINITION. Unary, shift and rotate instructions (44_unary.md R280 to R323). -/

namespace Sys2Proof.Machine

/-! ## Shared operations -/

/-- An operation on an accumulator: 2 cycles (44_unary.md R280). -/
def unaryAcc (r : Acc) (f : Byte → Byte → Byte × Byte) (s : State) : State :=
  let t := s.charge 2
  let q := f (t.acc r) t.cpu.cc
  (t.setAcc r q.1).setCc q.2

/-- A read-modify-write of a memory byte: the resolver, one read, the operation with its flags, one controller write
(44_unary.md R280, R281). -/
def unaryMem (m : MemOp) (f : Byte → Byte → Byte × Byte) (s : State) : State :=
  let p := resolve m (s.charge (memCycles 6 m))
  let q := f (p.2.memRead p.1) p.2.cpu.cc
  (p.2.setCc q.2).memWrite p.1 q.1

/-- An operation on an accumulator whose H is drawn (44_unary.md R282, R286, R287, log 4). -/
def unaryAccH (r : Acc) (f : Byte → Bool → Byte → Byte × Byte) (s : State) : State :=
  unaryAcc r (fun m cc => f m s.drawBit.1 cc) s.drawBit.2

/-- A read-modify-write whose H is drawn (44_unary.md R282, R286, R287, log 4). -/
def unaryMemH (m : MemOp) (f : Byte → Bool → Byte → Byte × Byte) (s : State) : State :=
  unaryMem m (fun v cc => f v s.drawBit.1 cc) s.drawBit.2

/-- TST of an accumulator (44_unary.md R290). -/
def testAcc (r : Acc) (s : State) : State :=
  let t := s.charge 2
  t.setCc (tst8 (t.acc r) t.cpu.cc)

/-- TST of a memory byte: one read, no write (44_unary.md R281, R290). -/
def testMem (m : MemOp) (s : State) : State :=
  let p := resolve m (s.charge (memCycles 6 m))
  p.2.setCc (tst8 (p.2.memRead p.1) p.2.cpu.cc)

/-! ## The instructions -/

/-- NEGA (44_unary.md R291). -/
def execNega (s : State) : Host.Outcome State Fault Refusal :=
  .next (unaryAccH .a neg8 s)

/-- NEGB (44_unary.md R292). -/
def execNegb (s : State) : Host.Outcome State Fault Refusal :=
  .next (unaryAccH .b neg8 s)

/-- NEG (44_unary.md R293). -/
def execNeg (m : MemOp) (s : State) : Host.Outcome State Fault Refusal :=
  .next (unaryMemH m neg8 s)

/-- COMA (44_unary.md R294). -/
def execComa (s : State) : Host.Outcome State Fault Refusal :=
  .next (unaryAcc .a com8 s)

/-- COMB (44_unary.md R295). -/
def execComb (s : State) : Host.Outcome State Fault Refusal :=
  .next (unaryAcc .b com8 s)

/-- COM (44_unary.md R296). -/
def execCom (m : MemOp) (s : State) : Host.Outcome State Fault Refusal :=
  .next (unaryMem m com8 s)

/-- LSRA (44_unary.md R297). -/
def execLsra (s : State) : Host.Outcome State Fault Refusal :=
  .next (unaryAcc .a lsr8 s)

/-- LSRB (44_unary.md R298). -/
def execLsrb (s : State) : Host.Outcome State Fault Refusal :=
  .next (unaryAcc .b lsr8 s)

/-- LSR (44_unary.md R299). -/
def execLsr (m : MemOp) (s : State) : Host.Outcome State Fault Refusal :=
  .next (unaryMem m lsr8 s)

/-- RORA (44_unary.md R300). -/
def execRora (s : State) : Host.Outcome State Fault Refusal :=
  .next (unaryAcc .a ror8 s)

/-- RORB (44_unary.md R301). -/
def execRorb (s : State) : Host.Outcome State Fault Refusal :=
  .next (unaryAcc .b ror8 s)

/-- ROR (44_unary.md R302). -/
def execRor (m : MemOp) (s : State) : Host.Outcome State Fault Refusal :=
  .next (unaryMem m ror8 s)

/-- ASRA (44_unary.md R303). -/
def execAsra (s : State) : Host.Outcome State Fault Refusal :=
  .next (unaryAccH .a asr8 s)

/-- ASRB (44_unary.md R304). -/
def execAsrb (s : State) : Host.Outcome State Fault Refusal :=
  .next (unaryAccH .b asr8 s)

/-- ASR (44_unary.md R305). -/
def execAsr (m : MemOp) (s : State) : Host.Outcome State Fault Refusal :=
  .next (unaryMemH m asr8 s)

/-- ASLA (44_unary.md R306). -/
def execAsla (s : State) : Host.Outcome State Fault Refusal :=
  .next (unaryAccH .a asl8 s)

/-- ASLB (44_unary.md R307). -/
def execAslb (s : State) : Host.Outcome State Fault Refusal :=
  .next (unaryAccH .b asl8 s)

/-- ASL (44_unary.md R308). -/
def execAsl (m : MemOp) (s : State) : Host.Outcome State Fault Refusal :=
  .next (unaryMemH m asl8 s)

/-- ROLA (44_unary.md R309). -/
def execRola (s : State) : Host.Outcome State Fault Refusal :=
  .next (unaryAcc .a rol8 s)

/-- ROLB (44_unary.md R310). -/
def execRolb (s : State) : Host.Outcome State Fault Refusal :=
  .next (unaryAcc .b rol8 s)

/-- ROL (44_unary.md R311). -/
def execRol (m : MemOp) (s : State) : Host.Outcome State Fault Refusal :=
  .next (unaryMem m rol8 s)

/-- DECA (44_unary.md R312). -/
def execDeca (s : State) : Host.Outcome State Fault Refusal :=
  .next (unaryAcc .a dec8 s)

/-- DECB (44_unary.md R313). -/
def execDecb (s : State) : Host.Outcome State Fault Refusal :=
  .next (unaryAcc .b dec8 s)

/-- DEC (44_unary.md R314). -/
def execDec (m : MemOp) (s : State) : Host.Outcome State Fault Refusal :=
  .next (unaryMem m dec8 s)

/-- INCA (44_unary.md R315). -/
def execInca (s : State) : Host.Outcome State Fault Refusal :=
  .next (unaryAcc .a inc8 s)

/-- INCB (44_unary.md R316). -/
def execIncb (s : State) : Host.Outcome State Fault Refusal :=
  .next (unaryAcc .b inc8 s)

/-- INC (44_unary.md R317). -/
def execInc (m : MemOp) (s : State) : Host.Outcome State Fault Refusal :=
  .next (unaryMem m inc8 s)

/-- TSTA (44_unary.md R318). -/
def execTsta (s : State) : Host.Outcome State Fault Refusal :=
  .next (testAcc .a s)

/-- TSTB (44_unary.md R319). -/
def execTstb (s : State) : Host.Outcome State Fault Refusal :=
  .next (testAcc .b s)

/-- TST (44_unary.md R320). -/
def execTst (m : MemOp) (s : State) : Host.Outcome State Fault Refusal :=
  .next (testMem m s)

/-- CLRA (44_unary.md R321). -/
def execClra (s : State) : Host.Outcome State Fault Refusal :=
  .next (unaryAcc .a (fun _ cc => clr8 cc) s)

/-- CLRB (44_unary.md R322). -/
def execClrb (s : State) : Host.Outcome State Fault Refusal :=
  .next (unaryAcc .b (fun _ cc => clr8 cc) s)

/-- CLR (44_unary.md R323). -/
def execClr (m : MemOp) (s : State) : Host.Outcome State Fault Refusal :=
  .next (unaryMem m (fun _ cc => clr8 cc) s)

end Sys2Proof.Machine
end

