-- ==== Sys2Proof/Machine/Dispatch.lean ====
section
/-! DEFINITION. The dispatch: each instruction to its meaning. PC is already past the instruction's bytes. -/

namespace Sys2Proof.Machine

def exec (i : Instr) (s : State) : Host.Outcome State Fault Refusal :=
  match i with
  | .lda o => Sys2Proof.Machine.execLda o s
  | .ldb o => Sys2Proof.Machine.execLdb o s
  | .ldd o => Sys2Proof.Machine.execLdd o s
  | .ldx o => Sys2Proof.Machine.execLdx o s
  | .ldy o => Sys2Proof.Machine.execLdy o s
  | .ldu o => Sys2Proof.Machine.execLdu o s
  | .lds o => Sys2Proof.Machine.execLds o s
  | .sta m => Sys2Proof.Machine.execSta m s
  | .stb m => Sys2Proof.Machine.execStb m s
  | .std m => Sys2Proof.Machine.execStd m s
  | .stx m => Sys2Proof.Machine.execStx m s
  | .sty m => Sys2Proof.Machine.execSty m s
  | .stu m => Sys2Proof.Machine.execStu m s
  | .sts m => Sys2Proof.Machine.execSts m s
  | .leax ix => Sys2Proof.Machine.execLeax ix s
  | .leay ix => Sys2Proof.Machine.execLeay ix s
  | .leas ix => Sys2Proof.Machine.execLeas ix s
  | .leau ix => Sys2Proof.Machine.execLeau ix s
  | .suba o => Sys2Proof.Machine.execSuba o s
  | .subb o => Sys2Proof.Machine.execSubb o s
  | .cmpa o => Sys2Proof.Machine.execCmpa o s
  | .cmpb o => Sys2Proof.Machine.execCmpb o s
  | .sbca o => Sys2Proof.Machine.execSbca o s
  | .sbcb o => Sys2Proof.Machine.execSbcb o s
  | .anda o => Sys2Proof.Machine.execAnda o s
  | .andb o => Sys2Proof.Machine.execAndb o s
  | .bita o => Sys2Proof.Machine.execBita o s
  | .bitb o => Sys2Proof.Machine.execBitb o s
  | .eora o => Sys2Proof.Machine.execEora o s
  | .eorb o => Sys2Proof.Machine.execEorb o s
  | .adca o => Sys2Proof.Machine.execAdca o s
  | .adcb o => Sys2Proof.Machine.execAdcb o s
  | .ora o => Sys2Proof.Machine.execOra o s
  | .orb o => Sys2Proof.Machine.execOrb o s
  | .adda o => Sys2Proof.Machine.execAdda o s
  | .addb o => Sys2Proof.Machine.execAddb o s
  | .addd o => Sys2Proof.Machine.execAddd o s
  | .subd o => Sys2Proof.Machine.execSubd o s
  | .cmpx o => Sys2Proof.Machine.execCmpx o s
  | .cmpd o => Sys2Proof.Machine.execCmpd o s
  | .cmpy o => Sys2Proof.Machine.execCmpy o s
  | .cmpu o => Sys2Proof.Machine.execCmpu o s
  | .cmps o => Sys2Proof.Machine.execCmps o s
  | .nega => Sys2Proof.Machine.execNega s
  | .negb => Sys2Proof.Machine.execNegb s
  | .neg m => Sys2Proof.Machine.execNeg m s
  | .coma => Sys2Proof.Machine.execComa s
  | .comb => Sys2Proof.Machine.execComb s
  | .com m => Sys2Proof.Machine.execCom m s
  | .lsra => Sys2Proof.Machine.execLsra s
  | .lsrb => Sys2Proof.Machine.execLsrb s
  | .lsr m => Sys2Proof.Machine.execLsr m s
  | .rora => Sys2Proof.Machine.execRora s
  | .rorb => Sys2Proof.Machine.execRorb s
  | .ror m => Sys2Proof.Machine.execRor m s
  | .asra => Sys2Proof.Machine.execAsra s
  | .asrb => Sys2Proof.Machine.execAsrb s
  | .asr m => Sys2Proof.Machine.execAsr m s
  | .asla => Sys2Proof.Machine.execAsla s
  | .aslb => Sys2Proof.Machine.execAslb s
  | .asl m => Sys2Proof.Machine.execAsl m s
  | .rola => Sys2Proof.Machine.execRola s
  | .rolb => Sys2Proof.Machine.execRolb s
  | .rol m => Sys2Proof.Machine.execRol m s
  | .deca => Sys2Proof.Machine.execDeca s
  | .decb => Sys2Proof.Machine.execDecb s
  | .dec m => Sys2Proof.Machine.execDec m s
  | .inca => Sys2Proof.Machine.execInca s
  | .incb => Sys2Proof.Machine.execIncb s
  | .inc m => Sys2Proof.Machine.execInc m s
  | .tsta => Sys2Proof.Machine.execTsta s
  | .tstb => Sys2Proof.Machine.execTstb s
  | .tst m => Sys2Proof.Machine.execTst m s
  | .clra => Sys2Proof.Machine.execClra s
  | .clrb => Sys2Proof.Machine.execClrb s
  | .clr m => Sys2Proof.Machine.execClr m s
  | .abx => Sys2Proof.Machine.execAbx s
  | .mul => Sys2Proof.Machine.execMul s
  | .sex => Sys2Proof.Machine.execSex s
  | .daa => Sys2Proof.Machine.execDaa s
  | .exg r1 r2 => Sys2Proof.Machine.execExg r1 r2 s
  | .tfr r1 r2 => Sys2Proof.Machine.execTfr r1 r2 s
  | .andcc b => Sys2Proof.Machine.execAndcc b s
  | .orcc b => Sys2Proof.Machine.execOrcc b s
  | .nop => Sys2Proof.Machine.execNop s
  | .pshs mask => Sys2Proof.Machine.execPshs mask s
  | .puls mask => Sys2Proof.Machine.execPuls mask s
  | .pshu mask => Sys2Proof.Machine.execPshu mask s
  | .pulu mask => Sys2Proof.Machine.execPulu mask s
  | .bra o => Sys2Proof.Machine.execBra o s
  | .brn o => Sys2Proof.Machine.execBrn o s
  | .bhi o => Sys2Proof.Machine.execBhi o s
  | .bls o => Sys2Proof.Machine.execBls o s
  | .bcc o => Sys2Proof.Machine.execBcc o s
  | .bcs o => Sys2Proof.Machine.execBcs o s
  | .bne o => Sys2Proof.Machine.execBne o s
  | .beq o => Sys2Proof.Machine.execBeq o s
  | .bvc o => Sys2Proof.Machine.execBvc o s
  | .bvs o => Sys2Proof.Machine.execBvs o s
  | .bpl o => Sys2Proof.Machine.execBpl o s
  | .bmi o => Sys2Proof.Machine.execBmi o s
  | .bge o => Sys2Proof.Machine.execBge o s
  | .blt o => Sys2Proof.Machine.execBlt o s
  | .bgt o => Sys2Proof.Machine.execBgt o s
  | .ble o => Sys2Proof.Machine.execBle o s
  | .bsr o => Sys2Proof.Machine.execBsr o s
  | .lbra o => Sys2Proof.Machine.execLbra o s
  | .lbrn o => Sys2Proof.Machine.execLbrn o s
  | .lbhi o => Sys2Proof.Machine.execLbhi o s
  | .lbls o => Sys2Proof.Machine.execLbls o s
  | .lbcc o => Sys2Proof.Machine.execLbcc o s
  | .lbcs o => Sys2Proof.Machine.execLbcs o s
  | .lbne o => Sys2Proof.Machine.execLbne o s
  | .lbeq o => Sys2Proof.Machine.execLbeq o s
  | .lbvc o => Sys2Proof.Machine.execLbvc o s
  | .lbvs o => Sys2Proof.Machine.execLbvs o s
  | .lbpl o => Sys2Proof.Machine.execLbpl o s
  | .lbmi o => Sys2Proof.Machine.execLbmi o s
  | .lbge o => Sys2Proof.Machine.execLbge o s
  | .lblt o => Sys2Proof.Machine.execLblt o s
  | .lbgt o => Sys2Proof.Machine.execLbgt o s
  | .lble o => Sys2Proof.Machine.execLble o s
  | .lbsr o => Sys2Proof.Machine.execLbsr o s
  | .jmp m => Sys2Proof.Machine.execJmp m s
  | .jsr m => Sys2Proof.Machine.execJsr m s
  | .rts => Sys2Proof.Machine.execRts s
  | .swi => Sys2Proof.Machine.execSwi s
  | .swi2 => Sys2Proof.Machine.execSwi2 s
  | .swi3 => Sys2Proof.Machine.execSwi3 s
  | .cwai b => Sys2Proof.Machine.execCwai b s
  | .rti => Sys2Proof.Machine.execRti s
  | .sync => Sys2Proof.Machine.execSync s
  | .periph => Sys2Proof.Machine.execPeriph s

end Sys2Proof.Machine
end

