-- ==== Sys2Proof/Machine/Reset.lean ====
section
/-! DEFINITION. The reset procedures: CPU reset, memory reset, soft and hard reset, and power-on with the platform's ROM
(70_reset_and_hazards.md R500 to R507). -/

namespace Sys2Proof.Machine

/-- `cpu_reset()`: A, B, X, Y and U are kept, and the RESET vector is read through the current mapper
(70_reset_and_hazards.md R500). -/
def State.cpuReset (s : State) : State :=
  let t := s.setPc (s.memRead16 resetVector)
  ((t.setDp 0x00).setS 0x8000).setCc 0x00

/-- The zeroing of a list of addresses with MemSet (70_reset_and_hazards.md R506). -/
def zeroRange : List Word → State → State
  | [], s => s
  | a :: rest, s => zeroRange rest (s.memSet a 0x00)

/-- A soft reset (70_reset_and_hazards.md R505). -/
def State.softReset (s : State) : State := s.cpuReset

/-- A hard reset with P_HARD_RESET_RANGE = `range` (70_reset_and_hazards.md R506). -/
def State.hardReset (s : State) (range : List Word) : State := (zeroRange range s).cpuReset

/-! ## Power-on -/

/-- P_ROM_IMAGE has exactly this many bytes (70_reset_and_hazards.md R503). -/
def romImageBytes : Nat := 16384

/-- The bytes of the ROM image in their physical pages: byte `i` at physical address 14 * 4096 + `i`
(20_memory.md R63, 70_reset_and_hazards.md R503). -/
def loadRomFrom : Nat → List Byte → Memory → Memory
  | _, [], m => m
  | k, v :: rest, m => loadRomFrom (k + 1) rest (m.write k v)

/-- P_ROM_PATCHES, in list order, with MemSet (70_reset_and_hazards.md R503). -/
def applyPatches : List (Word × Byte) → State → State
  | [], s => s
  | (a, v) :: rest, s => applyPatches rest (s.memSet a v)

/-- The memory reset: zeroed pages, the initial mapper, clear dirty lines, keys and sound latch, the PIA defaults, then the
ROM image and its patches (70_reset_and_hazards.md R501 to R503). -/
def State.memReset (s : State) (rom : List Byte) (patches : List (Word × Byte)) : State :=
  applyPatches patches
    { s with
      mem := loadRomFrom (romFirstPage * 4096) rom { cells := [] }
      mapper := initMapper
      dirty := Vector.replicate 200 false
      keys := Vector.replicate 256 false
      snd := 0x00
      pia := { ora := 0x00, orb := 0x00, ddra := 0x00, ddrb := 0x00, cra := 0x00, crb := 0x00 } }

/-- What power-on draws (10_state.md R36, 49_periph_tape.md R433, 93_implementation_defined.md U6, U7). -/
structure PowerOnDraws where
  a : Byte
  b : Byte
  x : Word
  y : Word
  u : Word
  tb : Byte
deriving DecidableEq, Repr

/-- The machine as created, before the memory reset: everything but the draws at the value of `State.reset`
(70_reset_and_hazards.md R507). -/
def createdState (w : PowerOnDraws) : State :=
  { State.reset with
    cpu := { State.reset.cpu with a := w.a, b := w.b, x := w.x, y := w.y, u := w.u }
    tape := { State.reset.tape with tb := w.tb } }

/-- The four trap addresses (49_periph_tape.md R431). -/
def trapAddresses : List Word := [trapReadBit, trapWriteByte, trapMotor, trapLightPen]

/-- Power-on with a ROM image, its patches and the draws: the memory reset, then the CPU reset (70_reset_and_hazards.md R501,
R503, R507). An image of a wrong size is refused, as R503 says. DESIGN CHOICE (log 25), where R503 says only that the patches
must write the PERIPH opcode at each trap address: a list is refused exactly where some trap address has no pair with that
opcode in it, so a list that has the four pairs is accepted even if a later pair stores another byte at a trap address. -/
def State.powerOn (rom : List Byte) (patches : List (Word × Byte)) (w : PowerOnDraws) :
    Host.Outcome State Fault Refusal :=
  if rom.length ≠ romImageBytes then .refused (.romImageSize rom.length)
  else if trapAddresses.any (fun t => !(patches.contains (t, periphOpcode))) then .refused .romPatchesIncomplete
  else .next ((createdState w).memReset rom patches).cpuReset

end Sys2Proof.Machine
end

