-- ==== Sys2Proof/Machine/Sched.lean ====
section
/-! DEFINITION. The field timing pattern, the IRQ generator, the bursts and the host's interactions
(60_exceptions.md R470 to R480). -/

namespace Sys2Proof.Machine

/-! ## Host events (60_exceptions.md R477) -/

/-- Appending to what the host's calls brought back (60_exceptions.md R477, log 13). -/
def State.reply (s : State) (r : HostReply) : State := { s with replies := s.replies ++ [r] }

/-- `set_key(i)` for each code of a pattern (60_exceptions.md R477, 20_memory.md R88). -/
def setKeys : List Byte → State → State
  | [], s => s
  | i :: rest, s => setKeys rest (s.setKey i)

/-- `rem_key(i)` for each code of a pattern (60_exceptions.md R477, 20_memory.md R88). -/
def remKeys : List Byte → State → State
  | [], s => s
  | i :: rest, s => remKeys rest (s.remKey i)

/-- One host event (60_exceptions.md R477, 20_memory.md R85 to R89, 49_periph_tape.md R432, R437). -/
def State.hostEvent (s : State) : HostEvent → State
  | .keyDown codes => setKeys codes (s.remKeySlice 0 128)
  | .keyUp codes => remKeys codes s
  | .modifier code pressed => if pressed then s.setKey code else s.remKey code
  | .lightPen button x y => { s with pen := { button := button, x := x, y := y } }
  | .openTape file => (s.loadTape tapeMax file).1.reply (s.loadTape tapeMax file).2
  | .rewindTape => s.rewindTape
  | .start => { s with running := true }
  | .stop => { s with running := false }
  | .softReset => s.softReset
  | .hardReset => s.hardReset hardResetRange
  | .readDirty line => (s.isDirty line).2.reply (.dirty line (s.isDirty line).1)
  | .readLed => s.readLed.2.reply (.led s.readLed.1)

/-- Host events in the order they arrived (60_exceptions.md R476). -/
def hostEvents : List HostEvent → State → State
  | [], s => s
  | e :: rest, s => hostEvents rest (s.hostEvent e)

/-- Draining the events of this iteration (60_exceptions.md R476, log 12). -/
def State.drainEvents (s : State) : State :=
  match s.inputs with
  | [] => s
  | events :: later => hostEvents events { s with inputs := later }

/-! ## The field (60_exceptions.md R470 to R473) -/

/-- Entering FetchUntil of a burst. -/
def State.enterBurst (s : State) (b : Burst) : State := { s with sched := .burst b }

/-- The start of a field: the signal of the top border, and its burst, shortened after an IRQ window
(60_exceptions.md R470, R471). -/
def State.beginField (s : State) : State :=
  let t := s.memSet vsigAddr 0x00
  if t.irqPrev then ({ t with irqPrev := false }).enterBurst .topAfterIrq else t.enterBurst .top

/-- CRB with the IRQ flag written, in the register and in the shadow byte (60_exceptions.md R472). -/
def State.setIrqFlag (s : State) (flag : Bool) : State :=
  let v := putBit s.pia.crb irqFlagBit flag
  { s with pia := { s.pia with crb := v } }.memSet crbAddr v

/-- The gate of the IRQ (60_exceptions.md R465). -/
def State.irqGate (s : State) : State := if getFlag s.cpu.cc .i then s else s.irqEntry

/-- The IRQ point: with CRB[0] = 1 the IRQ flag, the gated entry and the IRQ window's burst; otherwise the field is over
(60_exceptions.md R470, R472). -/
def State.irqPoint (s : State) : State :=
  if s.pia.crb.getLsbD irqEnableBit then
    ((({ s with irqPrev := true }).setIrqFlag true).irqGate).enterBurst .irqWindow
  else { s with sched := .iteration }

/-- What follows a burst in the field (60_exceptions.md R470). -/
def State.afterBurst (s : State) : Burst → State
  | .top => (s.memSet vsigAddr vsigMask).enterBurst .window
  | .topAfterIrq => (s.memSet vsigAddr vsigMask).enterBurst .window
  | .window => (s.memSet vsigAddr 0x00).enterBurst .bottom
  | .bottom => s.irqPoint
  | .irqWindow => { s.setIrqFlag false with sched := .iteration }

/-- The end of FetchUntil: the budget is subtracted, the overrun is kept, and the field goes on
(60_exceptions.md R470, R475). -/
def State.endBurst (s : State) (b : Burst) : State :=
  ({ s with cyc := s.cyc - burstBudget b }).afterBurst b

/-- The top of an iteration: the host events, then the field if the scheduler is running (60_exceptions.md R476). -/
def State.iterationTop (s : State) : State :=
  if s.drainEvents.running then s.drainEvents.beginField else s.drainEvents

end Sys2Proof.Machine
end

