-- ==== Sys2Proof/Machine/Step.lean ====
section
/-! DEFINITION. One step: one instruction inside a burst, the end of a burst, or the top of a scheduler iteration
(60_exceptions.md R470, R475, R476; log 10). -/

namespace Sys2Proof.Machine

/-- Fetching, decoding and executing one instruction (30_encoding.md R121, 60_exceptions.md R475). PC is moved past the
instruction's bytes before its meaning runs. -/
def stepInstr (s : State) : Host.Outcome State Fault Refusal :=
  match decode s.fetchBytes with
  | .instr i n => exec i (s.advancePc n)
  | .unassigned opcode => execUnassigned illegalPolicy opcode s.cpu.pc (s.advancePc opcode.length)
  | .truncated => .refused .fetchWindowTooShort

/-- One step of the machine. -/
def step (s : State) : Host.Outcome State Fault Refusal :=
  match s.sched with
  | .iteration => .next s.iterationTop
  | .burst b => if s.cyc < burstBudget b then stepInstr s else .next (s.endBurst b)

/-- Storing bytes at PC and after, without the effects of a CPU write (20_memory.md R67). -/
def storeBytesAt : Word → List Byte → State → State
  | _, [], s => s
  | a, v :: rest, s => storeBytesAt (a + 1) rest (s.memSet a v)

/-- The scheduler inside a burst with cycles left, where it is not already so: the next step is then an instruction. -/
def State.insideBurst (s : State) : State :=
  match s.sched with
  | .iteration => { s with sched := .burst .top, cyc := 0 }
  | .burst b => if s.cyc < burstBudget b then s else { s with cyc := 0 }

/-- The state with the instruction of a table word stored where the step fetches next, and the scheduler inside a burst
(log 14). -/
def State.withFetchWord (s : State) (nbits w : Nat) : State :=
  storeBytesAt s.cpu.pc (tableBytes nbits w) s.insideBurst

end Sys2Proof.Machine
end

