-- ==== Sys2Proof/Safety.lean ====
section
/-! DEFINITION. What claims are stated in: the invariant that every step keeps, and what it means for parts of the machine
to be left alone. -/

namespace Sys2Proof.Machine

/-! ## The invariant -/

/-- A mapper that 20_memory.md R62 and R72 allow: entries 0 and 1 name one video plane, the others never change. -/
def mapperOk (m : Vector (Fin 18) 16) : Prop :=
  ((m.get 0 = 0 ∧ m.get 1 = 1) ∨ (m.get 0 = 2 ∧ m.get 1 = 3)) ∧ ∀ i : Fin 16, 2 ≤ i.val → m.get i = initMapper.get i

/-- A tape codec that 49_periph_tape.md R433 to R438 allow: at most eight bits left, the cursor within the tape, and no output
stream after its creation has failed. -/
def tapeOk (t : TapeCodec) : Prop :=
  t.tc ≤ 8 ∧ t.cursor ≤ (t.tape.getD []).length ∧ (t.outFailed = true → t.out = none)

/-- A scheduler position that 60_exceptions.md R470 and R476 allow: bursts run only while `running`, and `irq_prev` is true
in an IRQ window and false in the earlier bursts of a field. -/
def schedOk (s : State) : Prop :=
  match s.sched with
  | .iteration => True
  | .burst .irqWindow => s.running = true ∧ s.irqPrev = true
  | .burst _ => s.running = true ∧ s.irqPrev = false

/-- The invariant of the machine. -/
structure Inv (s : State) : Prop where
  memory : s.mem.wf = true
  mapper : mapperOk s.mapper
  sound : s.snd = 0x00 ∨ s.snd = 0x20
  tape : tapeOk s.tape
  sched : schedOk s

/-! ## Parts of the machine that are left alone -/

/-- The flags of `flags` read in the CC byte `cc'` as in `cc`. -/
def KeepsFlags (flags : List Flag) (cc cc' : Byte) : Prop := ∀ fl ∈ flags, getFlag cc' fl = getFlag cc fl

/-- The flags of a load, a store or a logical result `r` of 8 bits (41_load_store.md R181, 42_alu8.md R222). -/
def MoveFlags8 (r : Byte) (cc cc' : Byte) : Prop :=
  getFlag cc' .n = r.getLsbD 7 ∧ getFlag cc' .z = decide (r.toNat = 0) ∧ getFlag cc' .v = false ∧
    KeepsFlags [.c, .i, .h, .f, .e] cc cc'

/-- The flags of a load or a store of 16 bits (41_load_store.md R181). -/
def MoveFlags16 (r : Word) (cc cc' : Byte) : Prop :=
  getFlag cc' .n = r.getLsbD 15 ∧ getFlag cc' .z = decide (r.toNat = 0) ∧ getFlag cc' .v = false ∧
    KeepsFlags [.c, .i, .h, .f, .e] cc cc'

/-- What no instruction touches: the host's inputs and the scheduler (60_exceptions.md R475, R477). -/
structure SameHost (s t : State) : Prop where
  keys : t.keys = s.keys
  pen : t.pen = s.pen
  irqPrev : t.irqPrev = s.irqPrev
  running : t.running = s.running
  sched : t.sched = s.sched
  inputs : t.inputs = s.inputs
  replies : t.replies = s.replies

/-- Memory, the memory controller, the PIA, the sound latch, the tape codec, the log and the host's part are as before: only CPU
registers, the cycle counter and the draw counter may differ. -/
structure SameOutside (s t : State) : Prop where
  mem : t.mem = s.mem
  mapper : t.mapper = s.mapper
  dirty : t.dirty = s.dirty
  pia : t.pia = s.pia
  snd : t.snd = s.snd
  tape : t.tape = s.tape
  log : t.log = s.log
  host : SameHost s t

/-- `t` has the memory and the devices of `u`, and the tape codec, the log and the host's part of `s`: an instruction from `s`
to `t` reached the rest of the machine through the controller writes that made `u`, and in no other way. -/
structure WritesAs (s u t : State) : Prop where
  mem : t.mem = u.mem
  mapper : t.mapper = u.mapper
  dirty : t.dirty = u.dirty
  pia : t.pia = u.pia
  snd : t.snd = u.snd
  tape : t.tape = s.tape
  log : t.log = s.log
  host : SameHost s t

/-- An address of plain memory: neither ROM nor the I/O page (20_memory.md R66). -/
def State.plain (s : State) (addr : Word) : Prop := s.isRom addr = false ∧ (pageIndex addr).val ≠ ioPage

/-- Every physical byte outside the list reads in `t` as in `s`. -/
def KeepsMemoryOutside (stored : List Nat) (s t : State) : Prop :=
  ∀ k : Nat, k ∉ stored → t.mem.read k = s.mem.read k

/-- `n` addresses from `base` on, wrapping (10_state.md R24). -/
def addrsFrom (base : Word) (n : Nat) : List Word := (List.range n).map (fun j => base + BitVec.ofNat 16 j)

/-- The `n` bytes from `base` on are plain memory. -/
def State.plainRange (s : State) (base : Word) (n : Nat) : Prop := ∀ a ∈ addrsFrom base n, s.plain a

/-- The bytes of plain memory from `base` on read as the list. -/
def HoldsBytes (s t : State) (base : Word) (bytes : List Byte) : Prop :=
  ∀ j : Nat, ∀ v : Byte, bytes[j]? = some v → t.mem.read (s.phys (base + BitVec.ofNat 16 j)) = v

/-! ## Stack frames -/

/-- The bytes of an entire frame, from the lowest address up, with `cc` as the stacked CC (48_system.md R410). -/
def frameBytes (c : Cpu) (cc : Byte) : List Byte :=
  [cc, c.a, c.b, c.dp, hiByte c.x, loByte c.x, hiByte c.y, loByte c.y, hiByte c.u, loByte c.u, hiByte c.pc, loByte c.pc]

/-- The bytes that a push of one register leaves, from the lower address up (46_stack.md R360, R361). -/
def stackRegBytes (s : State) (k : StackPtr) : StackReg → List Byte
  | .pc => [hiByte s.cpu.pc, loByte s.cpu.pc]
  | .w => [hiByte (s.sp k.other), loByte (s.sp k.other)]
  | .y => [hiByte s.cpu.y, loByte s.cpu.y]
  | .x => [hiByte s.cpu.x, loByte s.cpu.x]
  | .dp => [s.cpu.dp]
  | .b => [s.cpu.b]
  | .a => [s.cpu.a]
  | .cc => [s.cpu.cc]

/-- How many bytes a register takes on the stack (46_stack.md R361). -/
def stackRegWidth : StackReg → Nat
  | .pc | .w | .y | .x => 2
  | .dp | .b | .a | .cc => 1

/-- How many bytes the registers of `rs` that a mask selects take. -/
def maskWidth (mask : Byte) : List StackReg → Nat
  | [] => 0
  | r :: rs => (if mask.getLsbD r.bit then stackRegWidth r else 0) + maskWidth mask rs

/-- The bytes of the registers of `rs` that a mask selects, in the order of the list. -/
def maskBytes (s : State) (k : StackPtr) (mask : Byte) : List StackReg → List Byte
  | [] => []
  | r :: rs => (if mask.getLsbD r.bit then stackRegBytes s k r else []) ++ maskBytes s k mask rs

/-- The registers that a pull takes before a register (46_stack.md R361). -/
def pulledBefore : StackReg → List StackReg
  | .cc => []
  | .a => [.cc]
  | .b => [.cc, .a]
  | .dp => [.cc, .a, .b]
  | .x => [.cc, .a, .b, .dp]
  | .y => [.cc, .a, .b, .dp, .x]
  | .w => [.cc, .a, .b, .dp, .x, .y]
  | .pc => [.cc, .a, .b, .dp, .x, .y, .w]

/-- The byte that a pull with a mask gives an 8-bit register, `old` where the mask does not select it. -/
def pulledByte (s : State) (k : StackPtr) (mask : Byte) (r : StackReg) (old : Byte) : Byte :=
  if mask.getLsbD r.bit then s.memRead (s.sp k + BitVec.ofNat 16 (maskWidth mask (pulledBefore r))) else old

/-- The word that a pull with a mask gives a 16-bit register, `old` where the mask does not select it. -/
def pulledWord (s : State) (k : StackPtr) (mask : Byte) (r : StackReg) (old : Word) : Word :=
  if mask.getLsbD r.bit then s.memRead16 (s.sp k + BitVec.ofNat 16 (maskWidth mask (pulledBefore r))) else old

/-! ## Register codes and decimal digits -/

/-- Two register codes share storage: they are equal, or one is D and the other is A or B (10_state.md R21). -/
def codesOverlap (c c' : RegCode) : Prop :=
  c = c' ∨ (c = .d ∧ (c' = .a ∨ c' = .b)) ∨ (c' = .d ∧ (c = .a ∨ c = .b))

/-- A code that names a register (30_encoding.md R132). -/
def codeNamesRegister : RegCode → Bool
  | .undef16 _ | .undef8 _ => false
  | _ => true

/-- A byte of two decimal digits (45_misc.md R343). -/
def validBcd (v : Byte) : Prop := v.toNat % 16 ≤ 9 ∧ v.toNat / 16 ≤ 9

/-- The number that two decimal digits stand for. -/
def bcdValue (v : Byte) : Nat := v.toNat / 16 * 10 + v.toNat % 16

end Sys2Proof.Machine
end

