-- ==== Sys2Proof/Certificates/Slice0/Obligations.lean ====
section
/-! DEFINITION. The statements for the provers. -/

open Sys2Proof Sys2Proof.Machine

/-- Every well-formed instruction decodes from its own encoding, whatever bytes follow (30_encoding.md R120 to R133,
40_addressing.md R155 to R166). -/
def Obligations.DecodeEncode : Prop :=
  ∀ (i : Instr) (rest : List Byte), i.wf = true → decode (encode i ++ rest) = .instr i i.length

/-- What the decoder reads is well formed, and its encoding is the bytes that were read (30_encoding.md R126,
40_addressing.md R157). -/
def Obligations.EncodeDecode : Prop :=
  ∀ (bytes : List Byte) (i : Instr) (n : Nat), decode bytes = .instr i n →
    i.wf = true ∧ n = i.length ∧ bytes.take n = encode i

/-- The unassigned opcodes (30_encoding.md R125, R129, R130): the decoder refuses these by their bytes and no others. -/
def Obligations.UnassignedEncodings : Prop :=
  (∀ (b : Byte) (rest : List Byte), decode (b :: rest) = .unassigned [b] ↔
    b.toNat ∈ [0x01, 0x02, 0x05, 0x0B, 0x14, 0x15, 0x18, 0x1B, 0x38, 0x3E, 0x41, 0x42, 0x45, 0x4B, 0x4E, 0x51, 0x52,
      0x55, 0x5B, 0x5E, 0x61, 0x62, 0x65, 0x6B, 0x71, 0x72, 0x75, 0x7B, 0x87, 0x8F, 0xC7, 0xCD, 0xCF] ∧
      b ≠ periphOpcode) ∧
  (∀ (b : Byte) (rest : List Byte), decode (0x10 :: b :: rest) = .unassigned [0x10, b] ↔
    b.toNat ∉ [0x21, 0x22, 0x23, 0x24, 0x25, 0x26, 0x27, 0x28, 0x29, 0x2A, 0x2B, 0x2C, 0x2D, 0x2E, 0x2F, 0x3F, 0x83,
      0x8C, 0x8E, 0x93, 0x9C, 0x9E, 0x9F, 0xA3, 0xAC, 0xAE, 0xAF, 0xB3, 0xBC, 0xBE, 0xBF, 0xCE, 0xDE, 0xDF, 0xEE, 0xEF,
      0xFE, 0xFF]) ∧
  ∀ (b : Byte) (rest : List Byte), decode (0x11 :: b :: rest) = .unassigned [0x11, b] ↔
    b.toNat ∉ [0x3F, 0x83, 0x8C, 0x93, 0x9C, 0xA3, 0xAC, 0xB3, 0xBC]

/-- Words written out from the encodings of 30_encoding.md and of the instruction rules. -/
def Obligations.DecodeKnownWords : Prop :=
  decode [0x86, 0x42] = .instr (.lda (.imm 0x42)) 2 ∧
  decode [0xB7, 0x20, 0x00] = .instr (.sta (.ext 0x2000)) 3 ∧
  decode [0xA6, 0x80] = .instr (.lda (.mem (.idx (.mode .x false .inc1)))) 2 ∧
  decode [0x10, 0x8C, 0x12, 0x34] = .instr (.cmpy (.imm 0x1234)) 4 ∧
  decode [0x1F, 0x12] = .instr (.tfr .x .y) 2 ∧
  decode [0x34, 0xFF] = .instr (.pshs 0xFF) 2 ∧
  decode [0x10, 0x27, 0xF0, 0x00] = .instr (.lbeq 0xF000) 4 ∧
  decode [0xA0, 0x1F] = .instr (.suba (.mem (.idx (.off5 .x 0x1F)))) 2 ∧
  decode [0x11, 0x3F] = .instr .swi3 2

/-- Inside a burst with cycles left, the step is `exec` of the instruction that the bytes at PC decode to, with PC moved
past its bytes and nothing else changed (30_encoding.md R121, 60_exceptions.md R475). PC wraps (10_state.md R24). -/
def Obligations.StepRunsDecodedInstruction : Prop :=
  ∀ (s : State) (b : Burst) (i : Instr) (n : Nat),
    s.sched = .burst b → s.cyc < burstBudget b →
    decode [s.memRead s.cpu.pc, s.memRead (s.cpu.pc + 1), s.memRead (s.cpu.pc + 2), s.memRead (s.cpu.pc + 3),
      s.memRead (s.cpu.pc + 4)] = .instr i n →
    step s = exec i { s with cpu := { s.cpu with pc := s.cpu.pc + BitVec.ofNat 16 n } }

/-- An unassigned opcode under the nop policy (48_system.md R417, R418). The PC in the register dump, PC after the
fetch, is the model's choice: log 18. -/
def Obligations.StepUnassignedOpcode : Prop :=
  ∀ (s : State) (b : Burst) (op : List Byte),
    s.sched = .burst b → s.cyc < burstBudget b → decode s.fetchBytes = .unassigned op →
    1 ≤ cycIllegal ∧
    step s = .next { s with
      cpu := { s.cpu with pc := s.cpu.pc + BitVec.ofNat 16 op.length }
      cyc := s.cyc + cycIllegal
      log := s.log ++
        [.unassigned op s.cpu.pc { s.cpu with pc := s.cpu.pc + BitVec.ofNat 16 op.length }] }

/-- No step faults or is refused (48_system.md R419, 60_exceptions.md R461, 49_periph_tape.md R444), under the nop
policy for unassigned opcodes, which 00_scope.md R5 gives. -/
def Obligations.StepAlwaysNext : Prop :=
  ∀ s : State, ∃ t : State, step s = .next t

/-- Every step keeps `Inv`: the canonical memory, the legal mappers (20_memory.md R62, R72), the values of the sound
latch (R84), the tape codec (49_periph_tape.md R433 to R438) and the scheduler (60_exceptions.md R470, R476). -/
def Obligations.StepKeepsInv : Prop :=
  ∀ s t : State, Inv s → step s = .next t → Inv t

/-- The state after reset satisfies `Inv`, and so does the state after power-on with any ROM image, patches and draws
(70_reset_and_hazards.md R500 to R503, R507). That a list which stores another byte at a trap address after the PERIPH
opcode is accepted is the model's choice: log 25. -/
def Obligations.ResetInv : Prop :=
  Inv State.reset ∧
  ∀ (rom : List Byte) (patches : List (Word × Byte)) (w : PowerOnDraws), rom.length = 16384 →
    (∀ a ∈ [trapReadBit, trapWriteByte, trapMotor, trapLightPen], (a, periphOpcode) ∈ patches) →
    ∃ t, State.powerOn rom patches w = .next t ∧ Inv t ∧ t.cyc = 0 ∧ t.irqPrev = false ∧
      t.cpu = {
        a := w.a, b := w.b, x := w.x, y := w.y, u := w.u, s := 0x8000
        pc := t.memRead 0xFFFE ++ t.memRead 0xFFFF, dp := 0x00, cc := 0x00 }

/-- The values that 70_reset_and_hazards.md R500 to R502 and R507 give; the values that the model chose (logs 1 to 3,
11, 12) are left out. -/
def Obligations.ResetValues : Prop :=
  State.reset.cpu.s = 0x8000 ∧ State.reset.cpu.dp = 0x00 ∧ State.reset.cpu.cc = 0x00 ∧
  State.reset.cpu.pc = State.reset.memRead16 0xFFFE ∧ State.reset.cyc = 0 ∧
  (∀ k : Nat, k < 14 * 4096 → State.reset.mem.read k = 0x00) ∧
  State.reset.mapper = #v[0, 1, 4, 5, 6, 7, 8, 9, 10, 11, 12, 13, 14, 15, 16, 17] ∧
  (∀ line : Fin 200, State.reset.dirty.get line = false) ∧ (∀ key : Fin 256, State.reset.keys.get key = false) ∧
  State.reset.pia = { ora := 0, orb := 0, ddra := 0, ddrb := 0, cra := 0, crb := 0 } ∧ State.reset.snd = 0x00 ∧
  State.reset.irqPrev = false ∧ State.reset.tape.tape = none ∧ State.reset.tape.cursor = 0 ∧
  State.reset.tape.tc = 0 ∧ State.reset.tape.out = none ∧ State.reset.tape.outFailed = false ∧
  State.reset.tape.led = false

/-- Each burst ends after finitely many steps, because every instruction costs at least one cycle (60_exceptions.md
R475): a bound on how many. -/
def Obligations.BurstTerminates : Prop :=
  ∀ (s : State) (b : Burst), s.sched = .burst b →
    ∃ (n : Nat) (t : State), n ≤ burstBudget b - s.cyc ∧ Host.Core.run Sys2Proof.core n s = .next t ∧
      t.sched = .burst b ∧ burstBudget b ≤ t.cyc

/-- The end of the bursts other than the bottom border (60_exceptions.md R470, R471, R472, R475), and the budgets of a
field. -/
def Obligations.BurstBoundaries : Prop :=
  (burstBudget .top + burstBudget .window + burstBudget .bottom = 20000 ∧
    burstBudget .topAfterIrq + burstBudget .window + burstBudget .bottom + burstBudget .irqWindow = 20000) ∧
  (∀ (s : State) (b : Burst), (b = .top ∨ b = .topAfterIrq) → s.sched = .burst b → burstBudget b ≤ s.cyc →
    ∃ t, step s = .next t ∧ t.cpu = s.cpu ∧ t.cyc = s.cyc - burstBudget b ∧ t.sched = .burst .window ∧
      t.mem.read (s.phys 0xA7E7) = 0x80 ∧ KeepsMemoryOutside [s.phys 0xA7E7] s t ∧ t.irqPrev = s.irqPrev ∧
      t.pia = s.pia) ∧
  (∀ s : State, s.sched = .burst .window → 13100 ≤ s.cyc →
    ∃ t, step s = .next t ∧ t.cpu = s.cpu ∧ t.cyc = s.cyc - 13100 ∧ t.sched = .burst .bottom ∧
      t.mem.read (s.phys 0xA7E7) = 0x00 ∧ KeepsMemoryOutside [s.phys 0xA7E7] s t ∧ t.irqPrev = s.irqPrev ∧
      t.pia = s.pia) ∧
  ∀ s : State, s.sched = .burst .irqWindow → 300 ≤ s.cyc →
    ∃ t, step s = .next t ∧ t.cpu = s.cpu ∧ t.cyc = s.cyc - 300 ∧ t.sched = .iteration ∧
      t.pia = { s.pia with crb := s.pia.crb &&& 0x7F } ∧ t.mem.read (s.phys 0xA7C3) = s.pia.crb &&& 0x7F ∧
      KeepsMemoryOutside [s.phys 0xA7C3] s t ∧ t.irqPrev = s.irqPrev

/-- The IRQ point (60_exceptions.md R472), the gate (R465) and the entry (R464). -/
def Obligations.IrqPoint : Prop :=
  ∀ s : State, s.sched = .burst .bottom → 2800 ≤ s.cyc →
    (s.pia.crb.getLsbD 0 = false → step s = .next { s with cyc := s.cyc - 2800, sched := .iteration }) ∧
    (s.pia.crb.getLsbD 0 = true →
      ∃ t, step s = .next t ∧ t.sched = .burst .irqWindow ∧ t.irqPrev = true ∧
        (getFlag s.cpu.cc .i = true →
          t.cpu = s.cpu ∧ t.cyc = s.cyc - 2800 ∧ t.pia = { s.pia with crb := s.pia.crb ||| 0x80 } ∧
          t.mem.read (s.phys 0xA7C3) = s.pia.crb ||| 0x80 ∧ KeepsMemoryOutside [s.phys 0xA7C3] s t) ∧
        (getFlag s.cpu.cc .i = false →
          t.cpu = { s.cpu with
            s := s.cpu.s - 12, cc := s.cpu.cc ||| 0x90, pc := t.memRead16 0xFFF8 } ∧
          t.cyc = s.cyc - 2800 + 19 ∧
          (s.plainRange (s.cpu.s - 12) 12 →
            t.pia = { s.pia with crb := s.pia.crb ||| 0x80 } ∧
            (mapperOk s.mapper → t.mem.read (s.phys 0xA7C3) = s.pia.crb ||| 0x80) ∧
            HoldsBytes s t (s.cpu.s - 12) (frameBytes s.cpu (s.cpu.cc ||| 0x80)) ∧
            KeepsMemoryOutside (s.phys 0xA7C3 :: (addrsFrom (s.cpu.s - 12) 12).map s.phys) s t)))

/-- The IRQ gate (60_exceptions.md R465). -/
def Obligations.IrqGate : Prop :=
  ∀ s : State,
    (getFlag s.cpu.cc .i = true → s.irqGate = s) ∧
    (getFlag s.cpu.cc .i = false → s.irqGate = s.irqEntry)

/-- The top of a scheduler iteration (60_exceptions.md R476), its host events (R477) and the start of the field (R470).
The lists `inputs` and `replies` are the model's choice: logs 12 and 13. -/
def Obligations.IterationTop : Prop :=
  (∀ s : State, s.inputs = [] → s.drainEvents = s) ∧
  (∀ (s : State) (events : List HostEvent) (later : List (List HostEvent)), s.inputs = events :: later →
    s.drainEvents = events.foldl State.hostEvent { s with inputs := later }) ∧
  (∀ (s : State) (button : Bool) (x y : Word) (line : Fin 200),
    s.hostEvent .start = { s with running := true } ∧ s.hostEvent .stop = { s with running := false } ∧
    s.hostEvent (.lightPen button x y) = { s with pen := { button := button, x := x, y := y } } ∧
    s.hostEvent .readLed =
      { s with tape := { s.tape with led := false }, replies := s.replies ++ [.led s.tape.led] } ∧
    s.hostEvent (.readDirty line) =
      { s with
        dirty := (s.hostEvent (.readDirty line)).dirty
        replies := s.replies ++ [.dirty line (s.dirty.get line)] } ∧
    ∀ other : Fin 200, (s.hostEvent (.readDirty line)).dirty.get other =
      (s.dirty.get other && !decide (other = line))) ∧
  ∀ s : State, s.sched = .iteration →
    (s.drainEvents.running = false → step s = .next s.drainEvents) ∧
    (s.drainEvents.running = true → s.drainEvents.irqPrev = true →
      step s = .next { s.drainEvents with
        mem := s.drainEvents.mem.write (s.drainEvents.phys 0xA7E7) 0x00, irqPrev := false,
        sched := .burst .topAfterIrq }) ∧
    (s.drainEvents.running = true → s.drainEvents.irqPrev = false →
      step s = .next { s.drainEvents with
        mem := s.drainEvents.mem.write (s.drainEvents.phys 0xA7E7) 0x00, sched := .burst .top })

/-- The ROM write-protection law (20_memory.md R86). -/
def Obligations.RomWriteDropped : Prop :=
  ∀ (s : State) (addr : Word) (v : Byte),
    14 ≤ (s.mapper.get (addr.extractLsb' 12 4).toFin).val → (s.mapper.get (addr.extractLsb' 12 4).toFin).val ≤ 17 →
    s.memWrite addr v = s

/-- Byte and word writes through the controller that are neither ROM nor I/O (20_memory.md R64, R66, R68, R69, R90). -/
def Obligations.PlainWrites : Prop :=
  ∀ (s : State) (addr : Word) (v : Byte) (w : Word),
    (s.plain addr →
      (s.memWrite addr v).memRead addr = v ∧ KeepsMemoryOutside [s.phys addr] s (s.memWrite addr v) ∧
      (∀ line : Fin 200, (s.memWrite addr v).dirty.get line =
        (s.dirty.get line || decide (addr.toNat < 8000 ∧ line.val = addr.toNat / 40))) ∧
      s.memWrite addr v = { s with mem := (s.memWrite addr v).mem, dirty := (s.memWrite addr v).dirty }) ∧
    (s.plain addr → s.plain (addr + 1) →
      (s.memWrite16 addr w).memRead16 addr = w ∧ (s.memWrite16 addr w).memRead addr = w.extractLsb' 8 8 ∧
      (s.memWrite16 addr w).memRead (addr + 1) = w.extractLsb' 0 8 ∧
      KeepsMemoryOutside [s.phys addr, s.phys (addr + 1)] s (s.memWrite16 addr w)) ∧
    (s.isRom addr = true → s.plain (addr + 1) →
      (s.memWrite16 addr w).memRead (addr + 1) = w.extractLsb' 0 8 ∧
      KeepsMemoryOutside [s.phys (addr + 1)] s (s.memWrite16 addr w))

/-- Writes to the PIA (20_memory.md R71 to R77, R80 to R84). -/
def Obligations.PiaWrites : Prop :=
  ∀ (s : State) (v : Byte),
    (s.isRom 0xA7C0 = false → s.pia.cra.getLsbD 2 = true →
      let t := s.memWrite 0xA7C0 v
      t.pia = { s.pia with ora := v } ∧
      (t.mapper.get 0 = if v.getLsbD 0 then 0 else 2) ∧ (t.mapper.get 1 = if v.getLsbD 0 then 1 else 3) ∧
      (∀ p : Fin 16, 2 ≤ p.val → t.mapper.get p = s.mapper.get p) ∧
      t.memRead 0xA7C0 = (v ||| if s.pen.button then 0x20 else 0x00) ∧ KeepsMemoryOutside [s.phys 0xA7C0] s t ∧
      (∀ line : Fin 200, t.dirty.get line = true) ∧
      t = { s with pia := t.pia, mapper := t.mapper, mem := t.mem, dirty := t.dirty }) ∧
    (s.isRom 0xA7C1 = false → s.pia.crb.getLsbD 2 = true →
      let t := s.memWrite 0xA7C1 v
      t.pia = { s.pia with orb := v } ∧
      t.memRead 0xA7C1 = (v ||| if s.keys.get (v &&& 0x7E).toFin then 0x00 else 0x80) ∧
      KeepsMemoryOutside [s.phys 0xA7C1] s t ∧ (t.snd = if v.getLsbD 0 then 0x20 else 0x00) ∧
      t = { s with pia := t.pia, mem := t.mem, snd := t.snd }) ∧
    (s.isRom 0xA7C2 = false →
      s.memWrite 0xA7C2 v = { s with pia := { s.pia with cra := v }, mem := s.mem.write (s.phys 0xA7C2) v }) ∧
    (s.isRom 0xA7C3 = false →
      s.memWrite 0xA7C3 v = { s with pia := { s.pia with crb := v }, mem := s.mem.write (s.phys 0xA7C3) v }) ∧
    (s.isRom 0xA7C0 = false → s.pia.cra.getLsbD 2 = false →
      s.memWrite 0xA7C0 v = { s with pia := { s.pia with ddra := v }, mem := s.mem.write (s.phys 0xA7C0) v }) ∧
    (s.isRom 0xA7C1 = false → s.pia.crb.getLsbD 2 = false →
      s.memWrite 0xA7C1 v = { s with pia := { s.pia with ddrb := v }, mem := s.mem.write (s.phys 0xA7C1) v })

/-- Writes to the I/O page outside the PIA (20_memory.md R78). -/
def Obligations.IoWriteDropped : Prop :=
  ∀ (s : State) (addr : Word) (v : Byte),
    0xA000 ≤ addr.toNat → addr.toNat ≤ 0xAFFF → addr ≠ 0xA7C0 → addr ≠ 0xA7C1 → addr ≠ 0xA7C2 → addr ≠ 0xA7C3 →
    s.memWrite addr v = s

/-- The read-and-clear of the dirty lines (20_memory.md R85). -/
def Obligations.DirtyReadAndClear : Prop :=
  ∀ (s : State) (line : Fin 200),
    (s.isDirty line).1 = s.dirty.get line ∧ ((s.isDirty line).2.isDirty line).1 = false ∧
    (∀ other : Fin 200, other ≠ line → (s.isDirty line).2.dirty.get other = s.dirty.get other) ∧
    ∀ (addr : Word) (v : Byte), s.plain addr → addr.toNat < 8000 → addr.toNat / 40 = line.val →
      ((s.memWrite addr v).isDirty line).1 = true ∧
      (((s.memWrite addr v).isDirty line).2.isDirty line).1 = false

/-- ROM protection over the whole instruction set: only MemSet, which PERIPH alone reaches, can store into pages 14 to
17 (20_memory.md R66, R67). -/
def Obligations.CpuInstructionsKeepRom : Prop :=
  ∀ (i : Instr) (s t : State), i ≠ .periph → exec i s = .next t →
    ∀ k : Nat, 14 * 4096 ≤ k → t.mem.read k = s.mem.read k

/-- No host action and no scheduling happens inside an instruction (60_exceptions.md R475, R477), and only entries 0 and
1 of the mapper ever change (20_memory.md R62). -/
def Obligations.InstructionsKeepHostAndMapper : Prop :=
  ∀ (i : Instr) (s t : State), exec i s = .next t →
    SameHost s t ∧ (∀ p : Fin 16, 2 ≤ p.val → t.mapper.get p = s.mapper.get p) ∧
    (i ≠ .periph → t.tape = s.tape ∧ t.log = s.log)

/-- add8 against the unsigned and signed values of its operands (42_alu8.md R220). -/
def Obligations.Add8Flags : Prop :=
  ∀ (a m cc : Byte) (c : Bool),
    let r := add8 a m c cc
    r.1.toNat = (a.toNat + m.toNat + c.toNat) % 256 ∧
    getFlag r.2 .c = decide (255 < a.toNat + m.toNat + c.toNat) ∧
    getFlag r.2 .v = decide (a.toInt + m.toInt + (c.toNat : Int) < -128 ∨ 127 < a.toInt + m.toInt + (c.toNat : Int)) ∧
    getFlag r.2 .h = decide (15 < a.toNat % 16 + m.toNat % 16 + c.toNat) ∧
    getFlag r.2 .n = decide (r.1.toInt < 0) ∧ getFlag r.2 .z = decide (r.1.toNat = 0) ∧
    KeepsFlags [.i, .f, .e] cc r.2

/-- sub8 against the unsigned and signed values of its operands, for every drawn H (42_alu8.md R221), and NEG as its
special case (44_unary.md R282). -/
def Obligations.Sub8Flags : Prop :=
  ∀ (a m cc : Byte) (b h : Bool),
    let r := sub8 a m b h cc
    (r.1.toNat : Int) = ((a.toNat : Int) - m.toNat - (b.toNat : Int)) % 256 ∧
    getFlag r.2 .c = decide (a.toNat < m.toNat + b.toNat) ∧
    getFlag r.2 .v = decide (a.toInt - m.toInt - (b.toNat : Int) < -128 ∨ 127 < a.toInt - m.toInt - (b.toNat : Int)) ∧
    getFlag r.2 .n = decide (r.1.toInt < 0) ∧ getFlag r.2 .z = decide (r.1.toNat = 0) ∧ getFlag r.2 .h = h ∧
    KeepsFlags [.i, .f, .e] cc r.2 ∧ neg8 m h cc = sub8 0 m false h cc

/-- add16 and sub16 against the unsigned and signed values of their operands (43_alu16.md R260 to R262). -/
def Obligations.Arithmetic16Flags : Prop :=
  ∀ (a m : Word) (cc : Byte),
    (let r := add16 a m cc;
      r.1.toNat = (a.toNat + m.toNat) % 65536 ∧ getFlag r.2 .c = decide (65535 < a.toNat + m.toNat) ∧
      getFlag r.2 .v = decide (a.toInt + m.toInt < -32768 ∨ 32767 < a.toInt + m.toInt) ∧
      getFlag r.2 .n = decide (r.1.toInt < 0) ∧ getFlag r.2 .z = decide (r.1.toNat = 0) ∧
      KeepsFlags [.h, .i, .f, .e] cc r.2) ∧
    (let r := sub16 a m cc;
      (r.1.toNat : Int) = ((a.toNat : Int) - m.toNat) % 65536 ∧ getFlag r.2 .c = decide (a.toNat < m.toNat) ∧
      getFlag r.2 .v = decide (a.toInt - m.toInt < -32768 ∨ 32767 < a.toInt - m.toInt) ∧
      getFlag r.2 .n = decide (r.1.toInt < 0) ∧ getFlag r.2 .z = decide (r.1.toNat = 0) ∧
      KeepsFlags [.h, .i, .f, .e] cc r.2)

/-- The conditions of 47_control.md R372 after a compare (42_alu8.md R227, R228, 43_alu16.md R265), for every drawn H.
-/
def Obligations.CompareThenBranch : Prop :=
  (∀ (a m cc : Byte) (h : Bool),
    let cc' := (sub8 a m false h cc).2
    branchCond .hi cc' = decide (m.toNat < a.toNat) ∧ branchCond .ls cc' = decide (a.toNat ≤ m.toNat) ∧
    branchCond .cc cc' = decide (m.toNat ≤ a.toNat) ∧ branchCond .cs cc' = decide (a.toNat < m.toNat) ∧
    branchCond .ne cc' = decide (a ≠ m) ∧ branchCond .eq cc' = decide (a = m) ∧
    branchCond .ge cc' = decide (m.toInt ≤ a.toInt) ∧ branchCond .lt cc' = decide (a.toInt < m.toInt) ∧
    branchCond .gt cc' = decide (m.toInt < a.toInt) ∧ branchCond .le cc' = decide (a.toInt ≤ m.toInt)) ∧
  ∀ (a m : Word) (cc : Byte),
    let cc' := (sub16 a m cc).2
    branchCond .hi cc' = decide (m.toNat < a.toNat) ∧ branchCond .ls cc' = decide (a.toNat ≤ m.toNat) ∧
    branchCond .cc cc' = decide (m.toNat ≤ a.toNat) ∧ branchCond .cs cc' = decide (a.toNat < m.toNat) ∧
    branchCond .ne cc' = decide (a ≠ m) ∧ branchCond .eq cc' = decide (a = m) ∧
    branchCond .ge cc' = decide (m.toInt ≤ a.toInt) ∧ branchCond .lt cc' = decide (a.toInt < m.toInt) ∧
    branchCond .gt cc' = decide (m.toInt < a.toInt) ∧ branchCond .le cc' = decide (a.toInt ≤ m.toInt)

/-- The operations of 44_unary.md R283 to R290 as arithmetic on the operand. -/
def Obligations.ShiftAndUnaryFlags : Prop :=
  ∀ (m cc : Byte) (h : Bool),
    (let r := com8 m cc;
      r.1.toNat = 255 - m.toNat ∧ getFlag r.2 .n = decide (r.1.toInt < 0) ∧ getFlag r.2 .z = decide (r.1.toNat = 0) ∧
      getFlag r.2 .v = false ∧ getFlag r.2 .c = true ∧ KeepsFlags [.h, .i, .f, .e] cc r.2) ∧
    (let r := lsr8 m cc;
      r.1.toNat = m.toNat / 2 ∧ getFlag r.2 .n = false ∧ getFlag r.2 .z = decide (r.1.toNat = 0) ∧
      getFlag r.2 .c = decide (m.toNat % 2 = 1) ∧ KeepsFlags [.v, .h, .i, .f, .e] cc r.2) ∧
    (let r := ror8 m cc;
      r.1.toNat = m.toNat / 2 + 128 * (getFlag cc .c).toNat ∧ getFlag r.2 .n = decide (r.1.toInt < 0) ∧
      getFlag r.2 .z = decide (r.1.toNat = 0) ∧ getFlag r.2 .c = decide (m.toNat % 2 = 1) ∧
      KeepsFlags [.v, .h, .i, .f, .e] cc r.2) ∧
    (let r := asr8 m h cc;
      r.1.toInt = m.toInt / 2 ∧ getFlag r.2 .n = decide (r.1.toInt < 0) ∧ getFlag r.2 .z = decide (r.1.toNat = 0) ∧
      getFlag r.2 .c = decide (m.toNat % 2 = 1) ∧ getFlag r.2 .h = h ∧ KeepsFlags [.v, .i, .f, .e] cc r.2) ∧
    (let r := asl8 m h cc;
      r.1.toNat = 2 * m.toNat % 256 ∧ getFlag r.2 .n = decide (r.1.toInt < 0) ∧
      getFlag r.2 .z = decide (r.1.toNat = 0) ∧ getFlag r.2 .c = decide (128 ≤ m.toNat) ∧
      getFlag r.2 .v = decide (2 * m.toInt < -128 ∨ 127 < 2 * m.toInt) ∧ getFlag r.2 .h = h ∧
      KeepsFlags [.i, .f, .e] cc r.2) ∧
    (let r := rol8 m cc;
      r.1.toNat = (2 * m.toNat + (getFlag cc .c).toNat) % 256 ∧ getFlag r.2 .n = decide (r.1.toInt < 0) ∧
      getFlag r.2 .z = decide (r.1.toNat = 0) ∧ getFlag r.2 .c = decide (128 ≤ m.toNat) ∧
      getFlag r.2 .v = (m.getLsbD 7 ^^ m.getLsbD 6) ∧ KeepsFlags [.h, .i, .f, .e] cc r.2) ∧
    (let r := dec8 m cc;
      r.1.toNat = (m.toNat + 255) % 256 ∧ getFlag r.2 .n = decide (r.1.toInt < 0) ∧
      getFlag r.2 .z = decide (r.1.toNat = 0) ∧ getFlag r.2 .v = decide (m.toNat = 0x80) ∧
      KeepsFlags [.c, .h, .i, .f, .e] cc r.2) ∧
    (let r := inc8 m cc;
      r.1.toNat = (m.toNat + 1) % 256 ∧ getFlag r.2 .n = decide (r.1.toInt < 0) ∧
      getFlag r.2 .z = decide (r.1.toNat = 0) ∧ getFlag r.2 .v = decide (m.toNat = 0x7F) ∧
      KeepsFlags [.c, .h, .i, .f, .e] cc r.2) ∧
    MoveFlags8 m cc (tst8 m cc) ∧
    (let r := clr8 cc;
      r.1 = 0x00 ∧ getFlag r.2 .n = false ∧ getFlag r.2 .z = true ∧ getFlag r.2 .v = false ∧
      getFlag r.2 .c = false ∧ KeepsFlags [.h, .i, .f, .e] cc r.2)

/-- DAA after ADDA or ADCA of two valid BCD bytes (45_misc.md R343), for every drawn V. -/
def Obligations.DecimalAdjustAfterAdd : Prop :=
  ∀ (a m cc : Byte) (c v : Bool), validBcd a → validBcd m →
    let s := add8 a m c cc
    let r := daa8 s.1 v s.2
    validBcd r.1 ∧ bcdValue r.1 + 100 * (getFlag r.2 .c).toNat = bcdValue a + bcdValue m + c.toNat

/-- The addresses of 40_addressing.md R152 to R164, all modulo 2^16 (R169), over the operands that a post-byte encodes.
PC is past the whole instruction, as in R162. -/
def Obligations.EffectiveAddresses : Prop :=
  ∀ s : State,
    (∀ dd : Byte, (resolve (.dir dd) s).1 = BitVec.ofNat 16 (s.cpu.dp.toNat * 256 + dd.toNat)) ∧
    (∀ w : Word, (resolve (.ext w) s).1 = w) ∧
    (∀ n : Word, (resolve (.idx (.extIndirect n)) s).1 = s.memRead16 n) ∧
    (∀ pb : Byte, (Indexed.unassigned pb).wf = true → resolve (.idx (.unassigned pb)) s = (0x0000, s)) ∧
    ∀ r : IdxReg,
      (∀ n : BitVec 5, (resolve (.idx (.off5 r n)) s).1 = BitVec.ofInt 16 ((s.idxReg r).toInt + n.toInt)) ∧
      (let ea := fun m => (resolve (.idx (.mode r false m)) s).1;
        ea .inc1 = s.idxReg r ∧ ea .inc2 = s.idxReg r ∧ ea .dec1 = s.idxReg r - 1 ∧ ea .dec2 = s.idxReg r - 2 ∧
        ea .zero = s.idxReg r ∧ ea .accB = BitVec.ofInt 16 ((s.idxReg r).toInt + s.cpu.b.toInt) ∧
        ea .accA = BitVec.ofInt 16 ((s.idxReg r).toInt + s.cpu.a.toInt) ∧
        ea .accD = BitVec.ofNat 16 ((s.idxReg r).toNat + (s.cpu.a.toNat * 256 + s.cpu.b.toNat)) ∧
        (∀ n : Byte, ea (.off8 n) = BitVec.ofInt 16 ((s.idxReg r).toInt + n.toInt)) ∧
        (∀ n : Word, ea (.off16 n) = s.idxReg r + n) ∧
        (∀ n : Byte, ea (.pcr8 n) = BitVec.ofInt 16 (s.cpu.pc.toInt + n.toInt)) ∧
        (∀ n : Word, ea (.pcr16 n) = s.cpu.pc + n)) ∧
      ∀ m : SubMode, (Indexed.mode r true m).wf = true →
        (resolve (.idx (.mode r true m)) s).1 = s.memRead16 (resolve (.idx (.mode r false m)) s).1

/-- The only side effects of a resolver (40_addressing.md R150, R158 to R160), over the operands that an encoding stands
for. -/
def Obligations.ResolverEffects : Prop :=
  ∀ (s : State) (m : MemOp), m.wf = true →
    (resolve m s).2 = { s with
      cyc := s.cyc + extraCycles m
      cpu := match m with
        | .idx (.mode r false .inc1) => (s.setIdxReg r (s.idxReg r + 1)).cpu
        | .idx (.mode r _ .inc2) => (s.setIdxReg r (s.idxReg r + 2)).cpu
        | .idx (.mode r false .dec1) => (s.setIdxReg r (s.idxReg r - 1)).cpu
        | .idx (.mode r _ .dec2) => (s.setIdxReg r (s.idxReg r - 2)).cpu
        | _ => s.cpu } ∧
    (∀ (r : IdxReg) (n : BitVec 5), extraCycles (.idx (.off5 r n)) = 1) ∧
    (∀ w : Word, extraCycles (.idx (.extIndirect w)) = 5) ∧
    (∀ pb : Byte, (Indexed.unassigned pb).wf = true → extraCycles (.idx (.unassigned pb)) = 0) ∧
    ∀ (r : IdxReg) (i : Bool),
      let extra := fun sm => extraCycles (.idx (.mode r i sm))
      let more := if i then 3 else 0
      (i = false → extra .inc1 = 2 ∧ extra .dec1 = 2) ∧ extra .inc2 = 3 + more ∧ extra .dec2 = 3 + more ∧
      extra .zero = more ∧ extra .accB = 1 + more ∧ extra .accA = 1 + more ∧ extra .accD = 4 + more ∧
      (∀ n, extra (.off8 n) = 1 + more) ∧ (∀ n, extra (.off16 n) = 4 + more) ∧ (∀ n, extra (.pcr8 n) = 1 + more) ∧
      ∀ n, extra (.pcr16 n) = 5 + more

/-- LDA and LDB (41_load_store.md R181 to R183), and the base cycles of the operand forms (70_reset_and_hazards.md
R512), which the statements about the other instructions with an operand use. -/
def Obligations.LoadAccumulator : Prop :=
  (∀ (n : Nat) (ii dd : Byte) (w : Word) (ix : Indexed),
    (op8Cycles (.imm ii) = 2 ∧ op8Cycles (.mem (.dir dd)) = 4 ∧ op8Cycles (.mem (.ext w)) = 5 ∧
      op8Cycles (.mem (.idx ix)) = 4) ∧
    (op16Cycles n (.imm w) = n ∧ op16Cycles n (.mem (.dir dd)) = n + 2 ∧ op16Cycles n (.mem (.ext w)) = n + 3 ∧
      op16Cycles n (.mem (.idx ix)) = n + 2) ∧
    (memCycles n (.dir dd) = n ∧ memCycles n (.ext w) = n + 1 ∧ memCycles n (.idx ix) = n) ∧
    (extraCycles (.dir dd) = 0 ∧ extraCycles (.ext w) = 0 ∧ extraCycles (.idx ix) = indexedCycles ix ∧
      extraCycles8 (.imm ii) = 0 ∧ extraCycles16 (.imm w) = 0) ∧
    ∀ m : MemOp, extraCycles8 (.mem m) = extraCycles m ∧ extraCycles16 (.mem m) = extraCycles m) ∧
  ∀ (o : Op8) (s : State),
    ∀ e ∈ ([(.lda, fun c m => { c with a := m }), (.ldb, fun c m => { c with b := m })] :
        List ((Op8 → Instr) × (Cpu → Byte → Cpu))),
      ∃ t, exec (e.1 o) s = .next t ∧
        t.cpu = { e.2 (operand8 o s).2.cpu (operand8 o s).1 with cc := t.cpu.cc } ∧
        MoveFlags8 (operand8 o s).1 s.cpu.cc t.cpu.cc ∧
        t.cyc = s.cyc + op8Cycles o + extraCycles8 o ∧ t.draws = s.draws ∧ SameOutside s t

/-- The 16-bit loads (41_load_store.md R181, R184 to R188). The register is written after the resolver (40_addressing.md
R165). -/
def Obligations.LoadRegister16 : Prop :=
  ∀ (o : Op16) (s : State),
    ∀ e ∈ ([(.ldd, 3, fun c m => { c with a := m.extractLsb' 8 8, b := m.extractLsb' 0 8 }),
        (.ldx, 3, fun c m => { c with x := m }), (.ldy, 4, fun c m => { c with y := m }),
        (.ldu, 3, fun c m => { c with u := m }), (.lds, 4, fun c m => { c with s := m })] :
        List ((Op16 → Instr) × Nat × (Cpu → Word → Cpu))),
      ∃ t, exec (e.1 o) s = .next t ∧
        t.cpu = { e.2.2 (operand16 o s).2.cpu (operand16 o s).1 with cc := t.cpu.cc } ∧
        MoveFlags16 (operand16 o s).1 s.cpu.cc t.cpu.cc ∧
        t.cyc = s.cyc + op16Cycles e.2.1 o + extraCycles16 o ∧ t.draws = s.draws ∧ SameOutside s t

/-- STA and STB (41_load_store.md R181, R189, R190). -/
def Obligations.StoreAccumulator : Prop :=
  ∀ (m : MemOp) (s : State),
    ∀ e ∈ ([(.sta, fun c => c.a), (.stb, fun c => c.b)] : List ((MemOp → Instr) × (Cpu → Byte))),
      let ea := (resolve m s).1
      let v := e.2 (resolve m s).2.cpu
      ∃ t, exec (e.1 m) s = .next t ∧
        t.cpu = { (resolve m s).2.cpu with cc := t.cpu.cc } ∧ MoveFlags8 v s.cpu.cc t.cpu.cc ∧
        t.cyc = s.cyc + memCycles 4 m + extraCycles m ∧ t.draws = s.draws ∧
        WritesAs s (s.memWrite ea v) t ∧ KeepsMemoryOutside [s.phys ea] s t ∧
        (s.isRom ea = true → SameOutside s t) ∧ (s.plain ea → t.mem.read (s.phys ea) = v)

/-- The 16-bit stores (41_load_store.md R181, R191 to R195); the stored value is the register after the resolver's
update (40_addressing.md R165). -/
def Obligations.StoreRegister16 : Prop :=
  ∀ (m : MemOp) (s : State),
    ∀ e ∈ ([(.std, 5, fun c => c.a ++ c.b), (.stx, 5, fun c => c.x), (.sty, 6, fun c => c.y),
        (.stu, 5, fun c => c.u), (.sts, 6, fun c => c.s)] : List ((MemOp → Instr) × Nat × (Cpu → Word))),
      let ea := (resolve m s).1
      let v := e.2.2 (resolve m s).2.cpu
      ∃ t, exec (e.1 m) s = .next t ∧
        t.cpu = { (resolve m s).2.cpu with cc := t.cpu.cc } ∧ MoveFlags16 v s.cpu.cc t.cpu.cc ∧
        t.cyc = s.cyc + memCycles e.2.1 m + extraCycles m ∧ t.draws = s.draws ∧
        WritesAs s ((s.memWrite ea (v.extractLsb' 8 8)).memWrite (ea + 1) (v.extractLsb' 0 8)) t ∧
        KeepsMemoryOutside [s.phys ea, s.phys (ea + 1)] s t ∧
        (s.plain ea → s.plain (ea + 1) →
          t.mem.read (s.phys ea) = v.extractLsb' 8 8 ∧ t.mem.read (s.phys (ea + 1)) = v.extractLsb' 0 8)

/-- The LEA instructions (41_load_store.md R196 to R200) with P_LEASU_Z = false. -/
def Obligations.LoadEffectiveAddress : Prop :=
  ∀ (ix : Indexed) (s : State),
    (∀ e ∈ ([(.leax, fun c a => { c with x := a }), (.leay, fun c a => { c with y := a })] :
        List ((Indexed → Instr) × (Cpu → Word → Cpu))),
      ∃ t, exec (e.1 ix) s = .next t ∧
        t.cpu = { e.2 (resolveIndexed ix s).2.cpu (resolveIndexed ix s).1 with cc := t.cpu.cc } ∧
        getFlag t.cpu.cc .z = decide ((resolveIndexed ix s).1.toNat = 0) ∧
        KeepsFlags [.c, .v, .n, .i, .h, .f, .e] s.cpu.cc t.cpu.cc ∧
        t.cyc = s.cyc + 4 + indexedCycles ix ∧ t.draws = s.draws ∧ SameOutside s t) ∧
    ∀ e ∈ ([(.leas, fun c a => { c with s := a }), (.leau, fun c a => { c with u := a })] :
        List ((Indexed → Instr) × (Cpu → Word → Cpu))),
      ∃ t, exec (e.1 ix) s = .next t ∧ t.cpu = e.2 (resolveIndexed ix s).2.cpu (resolveIndexed ix s).1 ∧
        t.cyc = s.cyc + 4 + indexedCycles ix ∧ t.draws = s.draws ∧ SameOutside s t

/-- The 8-bit additions (42_alu8.md R237, R238, R241, R242); add8 is characterised by `Obligations.Add8Flags`. -/
def Obligations.AddAccumulator : Prop :=
  ∀ (o : Op8) (s : State),
    let c := (operand8 o s).2.cpu
    let m := (operand8 o s).1
    (∀ e ∈ ([(.adda, false), (.adca, getFlag s.cpu.cc .c)] : List ((Op8 → Instr) × Bool)),
      ∃ t, exec (e.1 o) s = .next t ∧
        t.cpu = { c with a := (add8 c.a m e.2 s.cpu.cc).1, cc := (add8 c.a m e.2 s.cpu.cc).2 } ∧
        t.cyc = s.cyc + op8Cycles o + extraCycles8 o ∧ t.draws = s.draws ∧ SameOutside s t) ∧
    ∀ e ∈ ([(.addb, false), (.adcb, getFlag s.cpu.cc .c)] : List ((Op8 → Instr) × Bool)),
      ∃ t, exec (e.1 o) s = .next t ∧
        t.cpu = { c with b := (add8 c.b m e.2 s.cpu.cc).1, cc := (add8 c.b m e.2 s.cpu.cc).2 } ∧
        t.cyc = s.cyc + op8Cycles o + extraCycles8 o ∧ t.draws = s.draws ∧ SameOutside s t

/-- The 8-bit subtractions and compares (42_alu8.md R225 to R230); H is any value (R221). sub8 is characterised by
`Obligations.Sub8Flags`. -/
def Obligations.SubtractAndCompareAccumulator : Prop :=
  ∀ (o : Op8) (s : State),
    let c := (operand8 o s).2.cpu
    let m := (operand8 o s).1
    (∀ e ∈ ([(.suba, false), (.sbca, getFlag s.cpu.cc .c)] : List ((Op8 → Instr) × Bool)),
      ∃ t h, exec (e.1 o) s = .next t ∧
        t.cpu = { c with a := (sub8 c.a m e.2 h s.cpu.cc).1, cc := (sub8 c.a m e.2 h s.cpu.cc).2 } ∧
        t.cyc = s.cyc + op8Cycles o + extraCycles8 o ∧ t.draws = s.draws + 1 ∧ SameOutside s t) ∧
    (∀ e ∈ ([(.subb, false), (.sbcb, getFlag s.cpu.cc .c)] : List ((Op8 → Instr) × Bool)),
      ∃ t h, exec (e.1 o) s = .next t ∧
        t.cpu = { c with b := (sub8 c.b m e.2 h s.cpu.cc).1, cc := (sub8 c.b m e.2 h s.cpu.cc).2 } ∧
        t.cyc = s.cyc + op8Cycles o + extraCycles8 o ∧ t.draws = s.draws + 1 ∧ SameOutside s t) ∧
    (∃ t h, exec (.cmpa o) s = .next t ∧ t.cpu = { c with cc := (sub8 c.a m false h s.cpu.cc).2 } ∧
      t.cyc = s.cyc + op8Cycles o + extraCycles8 o ∧ t.draws = s.draws + 1 ∧ SameOutside s t) ∧
    ∃ t h, exec (.cmpb o) s = .next t ∧ t.cpu = { c with cc := (sub8 c.b m false h s.cpu.cc).2 } ∧
      t.cyc = s.cyc + op8Cycles o + extraCycles8 o ∧ t.draws = s.draws + 1 ∧ SameOutside s t

/-- The logical instructions (42_alu8.md R222, R231 to R236, R239, R240). -/
def Obligations.LogicAccumulator : Prop :=
  ∀ (o : Op8) (s : State),
    let c := (operand8 o s).2.cpu
    let m := (operand8 o s).1
    (∀ e ∈ ([(.anda, c.a &&& m, c.a &&& m), (.eora, c.a ^^^ m, c.a ^^^ m), (.ora, c.a ||| m, c.a ||| m),
        (.bita, c.a, c.a &&& m)] : List ((Op8 → Instr) × Byte × Byte)),
      ∃ t, exec (e.1 o) s = .next t ∧ t.cpu = { c with a := e.2.1, cc := t.cpu.cc } ∧
        MoveFlags8 e.2.2 s.cpu.cc t.cpu.cc ∧
        t.cyc = s.cyc + op8Cycles o + extraCycles8 o ∧ t.draws = s.draws ∧ SameOutside s t) ∧
    ∀ e ∈ ([(.andb, c.b &&& m, c.b &&& m), (.eorb, c.b ^^^ m, c.b ^^^ m), (.orb, c.b ||| m, c.b ||| m),
        (.bitb, c.b, c.b &&& m)] : List ((Op8 → Instr) × Byte × Byte)),
      ∃ t, exec (e.1 o) s = .next t ∧ t.cpu = { c with b := e.2.1, cc := t.cpu.cc } ∧
        MoveFlags8 e.2.2 s.cpu.cc t.cpu.cc ∧
        t.cyc = s.cyc + op8Cycles o + extraCycles8 o ∧ t.draws = s.draws ∧ SameOutside s t

/-- 16-bit arithmetic and compares (43_alu16.md R263 to R269); add16 and sub16 are characterised by
`Obligations.Arithmetic16Flags`. -/
def Obligations.Arithmetic16 : Prop :=
  ∀ (o : Op16) (s : State),
    let c := (operand16 o s).2.cpu
    let m := (operand16 o s).1
    (∀ e ∈ ([(.addd, add16 (c.a ++ c.b) m s.cpu.cc), (.subd, sub16 (c.a ++ c.b) m s.cpu.cc)] :
        List ((Op16 → Instr) × Word × Byte)),
      ∃ t, exec (e.1 o) s = .next t ∧
        t.cpu = { c with a := e.2.1.extractLsb' 8 8, b := e.2.1.extractLsb' 0 8, cc := e.2.2 } ∧
        t.cyc = s.cyc + op16Cycles 4 o + extraCycles16 o ∧ t.draws = s.draws ∧ SameOutside s t) ∧
    ∀ e ∈ ([(.cmpx, 4, c.x), (.cmpd, 5, c.a ++ c.b), (.cmpy, 5, c.y), (.cmpu, 5, c.u), (.cmps, 5, c.s)] :
        List ((Op16 → Instr) × Nat × Word)),
      ∃ t, exec (e.1 o) s = .next t ∧ t.cpu = { c with cc := (sub16 e.2.2 m s.cpu.cc).2 } ∧
        t.cyc = s.cyc + op16Cycles e.2.1 o + extraCycles16 o ∧ t.draws = s.draws ∧ SameOutside s t

/-- The inherent unary instructions (44_unary.md R280, R291 to R322); the operations are characterised by
`Obligations.ShiftAndUnaryFlags` and `Obligations.Sub8Flags`. -/
def Obligations.UnaryAccumulator : Prop :=
  ∀ s : State,
    (∀ e ∈ ([(.coma, com8), (.lsra, lsr8), (.rora, ror8), (.rola, rol8), (.deca, dec8), (.inca, inc8),
        (.clra, fun _ cc => clr8 cc), (.tsta, fun m cc => (m, tst8 m cc))] :
        List (Instr × (Byte → Byte → Byte × Byte))),
      exec e.1 s = .next { s with
        cyc := s.cyc + 2
        cpu := { s.cpu with a := (e.2 s.cpu.a s.cpu.cc).1, cc := (e.2 s.cpu.a s.cpu.cc).2 } }) ∧
    (∀ e ∈ ([(.comb, com8), (.lsrb, lsr8), (.rorb, ror8), (.rolb, rol8), (.decb, dec8), (.incb, inc8),
        (.clrb, fun _ cc => clr8 cc), (.tstb, fun m cc => (m, tst8 m cc))] :
        List (Instr × (Byte → Byte → Byte × Byte))),
      exec e.1 s = .next { s with
        cyc := s.cyc + 2
        cpu := { s.cpu with b := (e.2 s.cpu.b s.cpu.cc).1, cc := (e.2 s.cpu.b s.cpu.cc).2 } }) ∧
    (∀ e ∈ ([(.nega, neg8), (.asra, asr8), (.asla, asl8)] : List (Instr × (Byte → Bool → Byte → Byte × Byte))),
      ∃ h, exec e.1 s = .next { s with
        cyc := s.cyc + 2
        draws := s.draws + 1
        cpu := { s.cpu with a := (e.2 s.cpu.a h s.cpu.cc).1, cc := (e.2 s.cpu.a h s.cpu.cc).2 } }) ∧
    ∀ e ∈ ([(.negb, neg8), (.asrb, asr8), (.aslb, asl8)] : List (Instr × (Byte → Bool → Byte → Byte × Byte))),
      ∃ h, exec e.1 s = .next { s with
        cyc := s.cyc + 2
        draws := s.draws + 1
        cpu := { s.cpu with b := (e.2 s.cpu.b h s.cpu.cc).1, cc := (e.2 s.cpu.b h s.cpu.cc).2 } }

/-- The memory forms of the unary instructions (44_unary.md R280, R281). -/
def Obligations.UnaryMemory : Prop :=
  ∀ (m : MemOp) (s : State),
    let ea := (resolve m s).1
    let c := (resolve m s).2.cpu
    let v := s.memRead ea
    (∀ e ∈ ([(.com, com8), (.lsr, lsr8), (.ror, ror8), (.rol, rol8), (.dec, dec8), (.inc, inc8),
        (.clr, fun _ cc => clr8 cc)] : List ((MemOp → Instr) × (Byte → Byte → Byte × Byte))),
      ∃ t, exec (e.1 m) s = .next t ∧ t.cpu = { c with cc := (e.2 v s.cpu.cc).2 } ∧
        t.cyc = s.cyc + memCycles 6 m + extraCycles m ∧ t.draws = s.draws ∧
        WritesAs s (s.memWrite ea (e.2 v s.cpu.cc).1) t ∧ KeepsMemoryOutside [s.phys ea] s t ∧
        (s.isRom ea = true → SameOutside s t) ∧
        (s.plain ea → t.mem.read (s.phys ea) = (e.2 v s.cpu.cc).1)) ∧
    (∀ e ∈ ([(.neg, neg8), (.asr, asr8), (.asl, asl8)] :
        List ((MemOp → Instr) × (Byte → Bool → Byte → Byte × Byte))),
      ∃ t h, exec (e.1 m) s = .next t ∧ t.cpu = { c with cc := (e.2 v h s.cpu.cc).2 } ∧
        t.cyc = s.cyc + memCycles 6 m + extraCycles m ∧ t.draws = s.draws + 1 ∧
        WritesAs s (s.memWrite ea (e.2 v h s.cpu.cc).1) t ∧ KeepsMemoryOutside [s.phys ea] s t ∧
        (s.isRom ea = true → SameOutside s t) ∧
        (s.plain ea → t.mem.read (s.phys ea) = (e.2 v h s.cpu.cc).1)) ∧
    ∃ t, exec (.tst m) s = .next t ∧ t.cpu = { c with cc := tst8 v s.cpu.cc } ∧
      t.cyc = s.cyc + memCycles 6 m + extraCycles m ∧ t.draws = s.draws ∧ SameOutside s t

/-- ABX, MUL, SEX and DAA (45_misc.md R340 to R343). -/
def Obligations.RegisterArithmetic : Prop :=
  ∀ s : State,
    (∃ t, exec .abx s = .next t ∧ t.cpu = { s.cpu with x := t.cpu.x } ∧
      t.cpu.x.toNat = (s.cpu.x.toNat + s.cpu.b.toNat) % 65536 ∧ t.cyc = s.cyc + 3 ∧ t.draws = s.draws ∧
      SameOutside s t) ∧
    (∃ t, exec .mul s = .next t ∧ t.cpu = { s.cpu with a := t.cpu.a, b := t.cpu.b, cc := t.cpu.cc } ∧
      t.cpu.a.toNat * 256 + t.cpu.b.toNat = s.cpu.a.toNat * s.cpu.b.toNat ∧
      getFlag t.cpu.cc .z = decide (s.cpu.a.toNat * s.cpu.b.toNat = 0) ∧ getFlag t.cpu.cc .c = t.cpu.b.getLsbD 7 ∧
      KeepsFlags [.v, .n, .i, .h, .f, .e] s.cpu.cc t.cpu.cc ∧ t.cyc = s.cyc + 11 ∧ t.draws = s.draws ∧
      SameOutside s t) ∧
    (∃ t, exec .sex s = .next t ∧ t.cpu = { s.cpu with a := t.cpu.a, cc := t.cpu.cc } ∧
      (t.cpu.a ++ t.cpu.b : Word).toInt = s.cpu.b.toInt ∧ getFlag t.cpu.cc .n = s.cpu.b.getLsbD 7 ∧
      getFlag t.cpu.cc .z = decide (s.cpu.b.toNat = 0) ∧ KeepsFlags [.c, .v, .i, .h, .f, .e] s.cpu.cc t.cpu.cc ∧
      t.cyc = s.cyc + 2 ∧ t.draws = s.draws ∧ SameOutside s t) ∧
    ∃ t, exec .daa s = .next t ∧ t.cpu = { s.cpu with a := t.cpu.a, cc := t.cpu.cc } ∧
      (let lsn := s.cpu.a.toNat % 16;
        let msn := s.cpu.a.toNat / 16;
        let low := if getFlag s.cpu.cc .h = true ∨ 9 < lsn then 6 else 0;
        let high := if getFlag s.cpu.cc .c = true ∨ 9 < msn ∨ (8 < msn ∧ 9 < lsn) then 96 else 0;
        t.cpu.a.toNat = (s.cpu.a.toNat + low + high) % 256 ∧
        getFlag t.cpu.cc .c = (getFlag s.cpu.cc .c || decide (255 < s.cpu.a.toNat + low + high))) ∧
      getFlag t.cpu.cc .n = t.cpu.a.getLsbD 7 ∧ getFlag t.cpu.cc .z = decide (t.cpu.a.toNat = 0) ∧
      KeepsFlags [.i, .h, .f, .e] s.cpu.cc t.cpu.cc ∧ t.cyc = s.cyc + 2 ∧ t.draws = s.draws + 1 ∧ SameOutside s t

/-- TFR (45_misc.md R347) with the conversions and undefined codes of R345 (P_TFR_MIXED and P_TFR_BADREG at the values
decided there: log 19). -/
def Obligations.TransferRegister : Prop :=
  ∀ (r1 r2 : RegCode) (s : State),
    ∃ t, exec (.tfr r1 r2) s = .next t ∧ t.cyc = s.cyc + 6 ∧ t.draws = s.draws ∧ SameOutside s t ∧
      (codeNamesRegister r2 = false → t.cpu = s.cpu) ∧
      (codeNamesRegister r2 = true → regCodeWide r1 = regCodeWide r2 → t.regGet r2 = s.regGet r1) ∧
      (codeNamesRegister r2 = true → regCodeWide r1 = true → regCodeWide r2 = false →
        t.regGet r2 = s.regGet r1 &&& 0x00FF) ∧
      (codeNamesRegister r2 = true → regCodeWide r1 = false → regCodeWide r2 = true →
        t.regGet r2 = 0xFF00 ||| s.regGet r1) ∧
      (∀ k, s.regGet (.undef16 k) = 0xFFFF) ∧ (∀ k, s.regGet (.undef8 k) = 0x00FF) ∧
      ∀ c : RegCode, ¬ codesOverlap c r2 → t.regGet c = s.regGet c

/-- EXG (45_misc.md R346), both registers read before either is written and the write of r1 last, with P_TFR_MIXED and
P_TFR_BADREG at the values decided in R345 (log 19). -/
def Obligations.ExchangeRegisters : Prop :=
  ∀ (r1 r2 : RegCode) (s : State),
    ∃ t, exec (.exg r1 r2) s = .next t ∧ t.cyc = s.cyc + 8 ∧ t.draws = s.draws ∧ SameOutside s t ∧
      (r1 = r2 → t.cpu = s.cpu) ∧
      (¬ codesOverlap r1 r2 → codeNamesRegister r2 = true → t.regGet r2 = regConv (s.regGet r1) r1 r2) ∧
      (codeNamesRegister r1 = true → t.regGet r1 = regConv (s.regGet r2) r2 r1) ∧
      (r1 = .a → r2 = .d → t.cpu = { s.cpu with a := s.cpu.b, b := s.cpu.a }) ∧
      (r1 = .b → r2 = .d → t.cpu = { s.cpu with a := 0xFF }) ∧
      (r1 = .d → r2 = .a → t.cpu = { s.cpu with a := 0xFF, b := s.cpu.a }) ∧
      (r1 = .d → r2 = .b → t.cpu = { s.cpu with a := 0xFF }) ∧
      (∀ v, regConv v r1 r2 =
        if regCodeWide r1 = regCodeWide r2 then v else if regCodeWide r1 then v &&& 0x00FF else 0xFF00 ||| v) ∧
      (∀ k, s.regGet (.undef16 k) = 0xFFFF) ∧ (∀ k, s.regGet (.undef8 k) = 0x00FF) ∧
      (codeNamesRegister r1 = false → codeNamesRegister r2 = false → t.cpu = s.cpu) ∧
      ∀ c : RegCode, ¬ codesOverlap c r1 → ¬ codesOverlap c r2 → t.regGet c = s.regGet c

/-- The condition-code instructions and the waits that continue at once (45_misc.md R348 to R350, 48_system.md R414,
R416). -/
def Obligations.ConditionCodeInstructions : Prop :=
  ∀ (ii : Byte) (s : State),
    exec (.andcc ii) s = .next { s with cyc := s.cyc + 3, cpu := { s.cpu with cc := s.cpu.cc &&& ii } } ∧
    exec (.orcc ii) s = .next { s with cyc := s.cyc + 3, cpu := { s.cpu with cc := s.cpu.cc ||| ii } } ∧
    exec (.cwai ii) s = .next { s with cyc := s.cyc + 20, cpu := { s.cpu with cc := s.cpu.cc &&& ii } } ∧
    exec .nop s = .next { s with cyc := s.cyc + 2 } ∧ exec .sync s = .next { s with cyc := s.cyc + 4 }

/-- PSHS and PSHU (46_stack.md R360 to R362, R364). -/
def Obligations.PushRegisters : Prop :=
  ∀ (mask : Byte) (s : State),
    ∀ e ∈ ([(.pshs, .s), (.pshu, .u)] : List ((Byte → Instr) × StackPtr)),
      let n := maskWidth mask pullOrder
      let base := s.sp e.2 - BitVec.ofNat 16 n
      ∃ t, exec (e.1 mask) s = .next t ∧ t.cpu = (s.setSp e.2 base).cpu ∧ t.cyc = s.cyc + 5 + n ∧
        t.draws = s.draws ∧ t.tape = s.tape ∧ t.log = s.log ∧ SameHost s t ∧
        KeepsMemoryOutside ((addrsFrom base n).map s.phys) s t ∧
        (s.plainRange base n →
          HoldsBytes s t base (maskBytes s e.2 mask pullOrder) ∧ t.mapper = s.mapper ∧ t.pia = s.pia ∧ t.snd = s.snd)

/-- PULS and PULU (46_stack.md R360, R361, R363, R365). -/
def Obligations.PullRegisters : Prop :=
  ∀ (mask : Byte) (s : State),
    (∃ t, exec (.puls mask) s = .next t ∧
      t.cpu = {
        cc := pulledByte s .s mask .cc s.cpu.cc, a := pulledByte s .s mask .a s.cpu.a,
        b := pulledByte s .s mask .b s.cpu.b, dp := pulledByte s .s mask .dp s.cpu.dp,
        x := pulledWord s .s mask .x s.cpu.x, y := pulledWord s .s mask .y s.cpu.y,
        u := pulledWord s .s mask .w s.cpu.u, pc := pulledWord s .s mask .pc s.cpu.pc,
        s := s.cpu.s + BitVec.ofNat 16 (maskWidth mask pullOrder) } ∧
      t.cyc = s.cyc + 5 + maskWidth mask pullOrder ∧ t.draws = s.draws ∧ SameOutside s t) ∧
    ∃ t, exec (.pulu mask) s = .next t ∧
      t.cpu = {
        cc := pulledByte s .u mask .cc s.cpu.cc, a := pulledByte s .u mask .a s.cpu.a,
        b := pulledByte s .u mask .b s.cpu.b, dp := pulledByte s .u mask .dp s.cpu.dp,
        x := pulledWord s .u mask .x s.cpu.x, y := pulledWord s .u mask .y s.cpu.y,
        s := pulledWord s .u mask .w s.cpu.s, pc := pulledWord s .u mask .pc s.cpu.pc,
        u := s.cpu.u + BitVec.ofNat 16 (maskWidth mask pullOrder) } ∧
      t.cyc = s.cyc + 5 + maskWidth mask pullOrder ∧ t.draws = s.draws ∧ SameOutside s t

/-- A pull with the mask of a push gives every selected register its pushed value and the stack pointer its old value
(46_stack.md R361), whatever happened to the other registers in between. -/
def Obligations.PushPullRoundTrip : Prop :=
  ∀ (mask : Byte) (s t u : State) (c : Cpu),
    (s.plainRange (s.cpu.s - BitVec.ofNat 16 (maskWidth mask pullOrder)) (maskWidth mask pullOrder) →
      exec (.pshs mask) s = .next t → exec (.puls mask) { t with cpu := { c with s := t.cpu.s } } = .next u →
      u.cpu = {
        cc := if mask.getLsbD 0 then s.cpu.cc else c.cc, a := if mask.getLsbD 1 then s.cpu.a else c.a,
        b := if mask.getLsbD 2 then s.cpu.b else c.b, dp := if mask.getLsbD 3 then s.cpu.dp else c.dp,
        x := if mask.getLsbD 4 then s.cpu.x else c.x, y := if mask.getLsbD 5 then s.cpu.y else c.y,
        u := if mask.getLsbD 6 then s.cpu.u else c.u, pc := if mask.getLsbD 7 then s.cpu.pc else c.pc,
        s := s.cpu.s }) ∧
    (s.plainRange (s.cpu.u - BitVec.ofNat 16 (maskWidth mask pullOrder)) (maskWidth mask pullOrder) →
      exec (.pshu mask) s = .next t → exec (.pulu mask) { t with cpu := { c with u := t.cpu.u } } = .next u →
      u.cpu = {
        cc := if mask.getLsbD 0 then s.cpu.cc else c.cc, a := if mask.getLsbD 1 then s.cpu.a else c.a,
        b := if mask.getLsbD 2 then s.cpu.b else c.b, dp := if mask.getLsbD 3 then s.cpu.dp else c.dp,
        x := if mask.getLsbD 4 then s.cpu.x else c.x, y := if mask.getLsbD 5 then s.cpu.y else c.y,
        s := if mask.getLsbD 6 then s.cpu.s else c.s, pc := if mask.getLsbD 7 then s.cpu.pc else c.pc,
        u := s.cpu.u })

/-- The branches (47_control.md R370 to R388, R390 to R405). -/
def Obligations.Branches : Prop :=
  ∀ (o8 : Byte) (o16 : Word) (s : State),
    let c := getFlag s.cpu.cc .c
    let z := getFlag s.cpu.cc .z
    let v := getFlag s.cpu.cc .v
    let n := getFlag s.cpu.cc .n
    (∀ e ∈ ([
        (.bra, true), (.brn, false), (.bhi, !c && !z), (.bls, c || z), (.bcc, !c), (.bcs, c), (.bne, !z),
        (.beq, z), (.bvc, !v), (.bvs, v), (.bpl, !n), (.bmi, n), (.bge, n == v), (.blt, n != v),
        (.bgt, !z && n == v), (.ble, z || n != v)] : List ((Byte → Instr) × Bool)),
      exec (e.1 o8) s = .next { s with
        cyc := s.cyc + 3
        cpu := { s.cpu with pc := if e.2 then BitVec.ofInt 16 (s.cpu.pc.toInt + o8.toInt) else s.cpu.pc } }) ∧
    exec (.lbra o16) s = .next { s with cyc := s.cyc + 5, cpu := { s.cpu with pc := s.cpu.pc + o16 } } ∧
    ∀ e ∈ ([
        (.lbrn, false), (.lbhi, !c && !z), (.lbls, c || z), (.lbcc, !c), (.lbcs, c), (.lbne, !z), (.lbeq, z),
        (.lbvc, !v), (.lbvs, v), (.lbpl, !n), (.lbmi, n), (.lbge, n == v), (.lblt, n != v),
        (.lbgt, !z && n == v), (.lble, z || n != v)] : List ((Word → Instr) × Bool)),
      exec (e.1 o16) s = .next { s with
        cyc := s.cyc + if e.2 then 6 else 5
        cpu := { s.cpu with pc := if e.2 then s.cpu.pc + o16 else s.cpu.pc } }

/-- The calls (47_control.md R389, R406, R408) with the push of 46_stack.md R360. -/
def Obligations.SubroutineCalls : Prop :=
  ∀ (o8 : Byte) (o16 : Word) (m : MemOp) (s : State),
    ∀ e ∈ ([(.bsr o8, s.cpu, BitVec.ofInt 16 (s.cpu.pc.toInt + o8.toInt), 7),
        (.lbsr o16, s.cpu, s.cpu.pc + o16, 9),
        (.jsr m, (resolve m s).2.cpu, (resolve m s).1, memCycles 7 m + extraCycles m)] :
        List (Instr × Cpu × Word × Nat)),
      let base := e.2.1.s - 2
      ∃ t, exec e.1 s = .next t ∧ t.cpu = { e.2.1 with s := base, pc := e.2.2.1 } ∧ t.cyc = s.cyc + e.2.2.2 ∧
        t.draws = s.draws ∧ t.tape = s.tape ∧ t.log = s.log ∧ SameHost s t ∧
        KeepsMemoryOutside ((addrsFrom base 2).map s.phys) s t ∧
        (s.plainRange base 2 →
          HoldsBytes s t base [s.cpu.pc.extractLsb' 8 8, s.cpu.pc.extractLsb' 0 8] ∧ t.mapper = s.mapper ∧
          t.pia = s.pia ∧ t.snd = s.snd)

/-- JMP and RTS (47_control.md R407, R409). -/
def Obligations.JumpAndReturn : Prop :=
  (∀ (m : MemOp) (s : State), exec (.jmp m) s = .next { s with
    cyc := s.cyc + memCycles 3 m + extraCycles m
    cpu := { (resolve m s).2.cpu with pc := (resolve m s).1 } }) ∧
  ∀ s : State, exec .rts s = .next { s with
    cyc := s.cyc + 5
    cpu := { s.cpu with pc := s.memRead s.cpu.s ++ s.memRead (s.cpu.s + 1), s := s.cpu.s + 2 } }

/-- The software interrupts (48_system.md R410 to R413, 60_exceptions.md R462, R463). -/
def Obligations.SoftwareInterrupts : Prop :=
  ∀ s : State,
    ∀ e ∈ ([(.swi, 0x50, 0xFFFA, 19), (.swi2, 0x00, 0xFFF4, 20), (.swi3, 0x00, 0xFFF2, 20)] :
        List (Instr × Byte × Word × Nat)),
      let base := s.cpu.s - 12
      ∃ t, exec e.1 s = .next t ∧
        t.cpu = { s.cpu with
          s := base, cc := s.cpu.cc ||| 0x80 ||| e.2.1, pc := t.memRead e.2.2.1 ++ t.memRead (e.2.2.1 + 1) } ∧
        t.cyc = s.cyc + e.2.2.2 ∧ t.draws = s.draws ∧ t.tape = s.tape ∧ t.log = s.log ∧ SameHost s t ∧
        KeepsMemoryOutside ((addrsFrom base 12).map s.phys) s t ∧
        (s.plainRange base 12 →
          HoldsBytes s t base (frameBytes s.cpu (s.cpu.cc ||| 0x80)) ∧ t.mapper = s.mapper ∧ t.pia = s.pia ∧
          t.snd = s.snd)

/-- RTI (48_system.md R415). -/
def Obligations.ReturnFromInterrupt : Prop :=
  ∀ s : State,
    let byte := fun k : Nat => s.memRead (s.cpu.s + BitVec.ofNat 16 k)
    ((byte 0).getLsbD 7 = true → exec .rti s = .next { s with
      cyc := s.cyc + 15
      cpu := {
        cc := byte 0, a := byte 1, b := byte 2, dp := byte 3, x := byte 4 ++ byte 5, y := byte 6 ++ byte 7,
        u := byte 8 ++ byte 9, pc := byte 10 ++ byte 11, s := s.cpu.s + 12 } }) ∧
    ((byte 0).getLsbD 7 = false → exec .rti s = .next { s with
      cyc := s.cyc + 6
      cpu := { s.cpu with cc := byte 0, pc := byte 1 ++ byte 2, s := s.cpu.s + 3 } })

/-- An interrupt entry (60_exceptions.md R463) followed by RTI (48_system.md R415, 60_exceptions.md R468), for any mask
bits and vector. -/
def Obligations.InterruptReturnRoundTrip : Prop :=
  ∀ (s h t : State) (maskBits : Byte) (vector : Word),
    s.plainRange (s.cpu.s - 12) 12 →
    h.cpu.s = (s.interruptEntry maskBits vector).cpu.s →
    (∀ a ∈ addrsFrom (s.cpu.s - 12) 12, h.memRead a = (s.interruptEntry maskBits vector).memRead a) →
    exec .rti h = .next t →
    t.cpu = { s.cpu with cc := s.cpu.cc ||| 0x80 }

/-- PERIPH (49_periph_tape.md R430, R431) and its handlers (R434, R435, R436, R438, R440, R441). -/
def Obligations.PeripheralTraps : Prop :=
  ∀ s : State,
    ∃ t, exec .periph s = .next t ∧ 1 ≤ cycPeriph ∧ t.cpu = s.cpu ∧ t.cyc = s.cyc + cycPeriph ∧ t.mapper = s.mapper ∧
      t.dirty = s.dirty ∧ t.pia = s.pia ∧ t.snd = s.snd ∧ SameHost s t ∧
      (if s.cpu.pc - 1 = trapReadBit then
        (s.tape.tc ≠ 0 →
          t.tape = { s.tape with tb := s.tape.tb <<< 1, tc := s.tape.tc - 1, led := true } ∧ t.draws = s.draws ∧
          t.mem.read (s.phys tapeBitAddr) = (if s.tape.tb.getLsbD 7 then 0x00 else 0xFF)) ∧
        (s.tape.tc = 0 → t.tape.tc = 7 ∧ t.tape.led = true ∧
          ∀ (bytes : List Byte) (v : Byte), s.tape.tape = some bytes → bytes[s.tape.cursor]? = some v →
            t.tape = { s.tape with cursor := s.tape.cursor + 1, tb := v <<< 1, tc := 7, led := true } ∧
            t.draws = s.draws ∧
            t.mem.read (s.phys tapeBitAddr) = (if v.getLsbD 7 then 0x00 else 0xFF)) ∧
        (s.tape.tc = 0 → (∀ bytes : List Byte, s.tape.tape = some bytes → bytes.length ≤ s.tape.cursor) →
          t.draws = s.draws + 1 ∧
          ∃ d : Byte, t.tape = { s.tape with tb := d <<< 1, tc := 7, led := true } ∧
            t.mem.read (s.phys tapeBitAddr) = (if d.getLsbD 7 then 0x00 else 0xFF)) ∧
        KeepsMemoryOutside [s.phys tapeBitAddr] s t ∧ t.log = s.log
      else if s.cpu.pc - 1 = trapWriteByte then
        t.mem = s.mem ∧ t.tape.tape = s.tape.tape ∧ t.tape.cursor = s.tape.cursor ∧ t.tape.tc = s.tape.tc ∧
        (s.tape.outFailed = true → t.tape = s.tape ∧ t.log = s.log) ∧
        (s.tape.outFailed = false → ∀ bytes : List Byte, s.tape.out = some bytes →
          t.tape = { s.tape with out := some (bytes ++ [s.cpu.a]) } ∧ t.log = s.log) ∧
        (s.tape.outFailed = false → s.tape.out = none →
          (t.tape = { s.tape with out := some [s.cpu.a] } ∧ t.log = s.log) ∨
          (t.tape = { s.tape with outFailed := true } ∧ t.log = s.log ++ [.outputCreateFailed]))
      else if s.cpu.pc - 1 = trapMotor then
        t.mem.read (s.phys (s.cpu.s + Config.motorOffset)) =
          s.memRead (s.cpu.s + Config.motorOffset) &&& ~~~motorMask ∧
        KeepsMemoryOutside [s.phys (s.cpu.s + Config.motorOffset)] s t ∧ t.tape = s.tape ∧ t.log = s.log
      else if s.cpu.pc - 1 = trapLightPen then
        HoldsBytes s t (s.cpu.s + Config.lightPenOffset)
          [s.pen.x.extractLsb' 8 8, s.pen.x.extractLsb' 0 8, s.pen.y.extractLsb' 8 8, s.pen.y.extractLsb' 0 8] ∧
        KeepsMemoryOutside ((addrsFrom (s.cpu.s + Config.lightPenOffset) 4).map s.phys) s t ∧ t.tape = s.tape ∧
        t.log = s.log
      else t = { s with cyc := s.cyc + cycPeriph })

/-- Eight calls of the read-bit trap consume one tape byte (49_periph_tape.md R435). -/
def Obligations.TapeByteMsbFirst : Prop :=
  ∀ (s : State) (addr : Word) (bytes : List Byte) (v : Byte),
    s.tape.tape = some bytes → bytes[s.tape.cursor]? = some v → s.tape.tc = 0 →
    let after := fun n : Nat => (fun u : State => u.tapeReadBit addr)^[n] s
    (∀ k : Nat, k < 8 → (after (k + 1)).memRead addr = if v.getLsbD (7 - k) then 0x00 else 0xFF) ∧
    (after 8).tape.cursor = s.tape.cursor + 1 ∧ (after 8).tape.tc = 0 ∧ (after 8).tape.tape = some bytes ∧
    (after 8).draws = s.draws

/-- The host's tape operations (49_periph_tape.md R432). -/
def Obligations.TapeLoadAndRewind : Prop :=
  ∀ s : State,
    (∀ bytes : List Byte, 0 < bytes.length → bytes.length ≤ tapeMax →
      s.hostEvent (.openTape (some bytes)) = { s with
        tape := { s.tape with tape := some bytes, cursor := 0, tc := 0 }, replies := s.replies ++ [.tapeLoaded] }) ∧
    (∀ file : Option (List Byte), (∀ bytes, file = some bytes → bytes.length = 0 ∨ tapeMax < bytes.length) →
      ∃ cause, s.hostEvent (.openTape file) = { s with replies := s.replies ++ [.tapeRejected cause] }) ∧
    (s.tape.tape.isSome = true →
      s.hostEvent .rewindTape = { s with tape := { s.tape with cursor := 0, tc := 0 } }) ∧
    (s.tape.tape = none → s.hostEvent .rewindTape = s) ∧
    (s.hostEvent .rewindTape).hostEvent .rewindTape = s.hostEvent .rewindTape

/-- CPU reset (70_reset_and_hazards.md R500), soft reset (R505) and hard reset (R506), with what 10_state.md R36 keeps.
-/
def Obligations.CpuResets : Prop :=
  ∀ s : State,
    s.hostEvent .softReset = { s with
      cpu := { s.cpu with pc := s.memRead 0xFFFE ++ s.memRead 0xFFFF, dp := 0x00, s := 0x8000, cc := 0x00 } } ∧
    s.hostEvent .hardReset = s.hardReset hardResetRange ∧
    (mapperOk s.mapper →
      (∀ k : Nat, 14 * 4096 ≤ k → (s.hostEvent .hardReset).mem.read k = s.mem.read k) ∧
      ∀ a ∈ ([0xA7C0, 0xA7C1, 0xA7C2, 0xA7C3] : List Word), (s.hostEvent .hardReset).memRead a = s.memRead a) ∧
    ∀ range : List Word,
      let t := s.hardReset range
      (∀ a ∈ range, t.memRead a = 0x00) ∧ KeepsMemoryOutside (range.map s.phys) s t ∧
      t = { s with
        mem := t.mem
        cpu := { s.cpu with pc := t.memRead 0xFFFE ++ t.memRead 0xFFFF, dp := 0x00, s := 0x8000, cc := 0x00 } }

/-- The memory reset (70_reset_and_hazards.md R501, R503): a patch is stored with MemSet, in list order. -/
def Obligations.RomLoading : Prop :=
  ∀ (s : State) (rom : List Byte) (patches : List (Word × Byte)), rom.length = 16384 →
    let t := s.memReset rom patches
    t.mapper = #v[0, 1, 4, 5, 6, 7, 8, 9, 10, 11, 12, 13, 14, 15, 16, 17] ∧ t.mem.wf = true ∧
    (∀ (i : Nat) (v : Byte), rom[i]? = some v →
      (∀ p ∈ patches, p.1 ≠ BitVec.ofNat 16 (0xC000 + i)) → t.memRead (BitVec.ofNat 16 (0xC000 + i)) = v) ∧
    (∀ (before after : List (Word × Byte)) (a : Word) (v : Byte), patches = before ++ (a, v) :: after →
      (∀ p ∈ after, p.1 ≠ a) → t.memRead a = v) ∧
    ∀ k : Nat, k < 14 * 4096 → (∀ p ∈ patches, t.phys p.1 ≠ k) → t.mem.read k = 0x00

/-- The host's key operations (20_memory.md R88, R89). -/
def Obligations.KeyMatrixEvents : Prop :=
  ∀ (s : State) (codes : List Byte) (code : Byte) (k : Fin 256),
    (s.hostEvent (.keyDown codes)).keys.get k =
      (decide (BitVec.ofNat 8 k.val ∈ codes) || (s.keys.get k && decide (128 ≤ k.val))) ∧
    (s.hostEvent (.keyUp codes)).keys.get k = (s.keys.get k && !decide (BitVec.ofNat 8 k.val ∈ codes)) ∧
    (s.hostEvent (.modifier code true)).keys.get k = (s.keys.get k || decide (BitVec.ofNat 8 k.val = code)) ∧
    (s.hostEvent (.modifier code false)).keys.get k = (s.keys.get k && !decide (BitVec.ofNat 8 k.val = code)) ∧
    ∀ e : HostEvent, e = .keyDown codes ∨ e = .keyUp codes ∨ e = .modifier code true ∨ e = .modifier code false →
      s.hostEvent e = { s with keys := (s.hostEvent e).keys }
end

