-- ==== Sys2Proof/Laws/State.lean ====
section
/-! SUPPORT. Each update of the state, field by field: what each operation that writes a part of State leaves in every
field. All are true by `rfl`, so no later proof unfolds a record update. -/

namespace Sys2Proof.Machine.State

/-! ## `setA` -/

@[simp] theorem setA_a (s : State) (v : Byte) : (s.setA v).cpu.a = v := rfl
@[simp] theorem setA_b (s : State) (v : Byte) : (s.setA v).cpu.b = s.cpu.b := rfl
@[simp] theorem setA_x (s : State) (v : Byte) : (s.setA v).cpu.x = s.cpu.x := rfl
@[simp] theorem setA_y (s : State) (v : Byte) : (s.setA v).cpu.y = s.cpu.y := rfl
@[simp] theorem setA_u (s : State) (v : Byte) : (s.setA v).cpu.u = s.cpu.u := rfl
@[simp] theorem setA_s (s : State) (v : Byte) : (s.setA v).cpu.s = s.cpu.s := rfl
@[simp] theorem setA_pc (s : State) (v : Byte) : (s.setA v).cpu.pc = s.cpu.pc := rfl
@[simp] theorem setA_dp (s : State) (v : Byte) : (s.setA v).cpu.dp = s.cpu.dp := rfl
@[simp] theorem setA_cc (s : State) (v : Byte) : (s.setA v).cpu.cc = s.cpu.cc := rfl
@[simp] theorem setA_cyc (s : State) (v : Byte) : (s.setA v).cyc = s.cyc := rfl
@[simp] theorem setA_draws (s : State) (v : Byte) : (s.setA v).draws = s.draws := rfl
@[simp] theorem setA_mem (s : State) (v : Byte) : (s.setA v).mem = s.mem := rfl
@[simp] theorem setA_mapper (s : State) (v : Byte) : (s.setA v).mapper = s.mapper := rfl
@[simp] theorem setA_dirty (s : State) (v : Byte) : (s.setA v).dirty = s.dirty := rfl
@[simp] theorem setA_pia (s : State) (v : Byte) : (s.setA v).pia = s.pia := rfl
@[simp] theorem setA_snd (s : State) (v : Byte) : (s.setA v).snd = s.snd := rfl
@[simp] theorem setA_keys (s : State) (v : Byte) : (s.setA v).keys = s.keys := rfl
@[simp] theorem setA_pen (s : State) (v : Byte) : (s.setA v).pen = s.pen := rfl
@[simp] theorem setA_tape (s : State) (v : Byte) : (s.setA v).tape = s.tape := rfl
@[simp] theorem setA_irqPrev (s : State) (v : Byte) : (s.setA v).irqPrev = s.irqPrev := rfl
@[simp] theorem setA_running (s : State) (v : Byte) : (s.setA v).running = s.running := rfl
@[simp] theorem setA_sched (s : State) (v : Byte) : (s.setA v).sched = s.sched := rfl
@[simp] theorem setA_inputs (s : State) (v : Byte) : (s.setA v).inputs = s.inputs := rfl
@[simp] theorem setA_replies (s : State) (v : Byte) : (s.setA v).replies = s.replies := rfl
@[simp] theorem setA_log (s : State) (v : Byte) : (s.setA v).log = s.log := rfl

/-! ## `setB` -/

@[simp] theorem setB_a (s : State) (v : Byte) : (s.setB v).cpu.a = s.cpu.a := rfl
@[simp] theorem setB_b (s : State) (v : Byte) : (s.setB v).cpu.b = v := rfl
@[simp] theorem setB_x (s : State) (v : Byte) : (s.setB v).cpu.x = s.cpu.x := rfl
@[simp] theorem setB_y (s : State) (v : Byte) : (s.setB v).cpu.y = s.cpu.y := rfl
@[simp] theorem setB_u (s : State) (v : Byte) : (s.setB v).cpu.u = s.cpu.u := rfl
@[simp] theorem setB_s (s : State) (v : Byte) : (s.setB v).cpu.s = s.cpu.s := rfl
@[simp] theorem setB_pc (s : State) (v : Byte) : (s.setB v).cpu.pc = s.cpu.pc := rfl
@[simp] theorem setB_dp (s : State) (v : Byte) : (s.setB v).cpu.dp = s.cpu.dp := rfl
@[simp] theorem setB_cc (s : State) (v : Byte) : (s.setB v).cpu.cc = s.cpu.cc := rfl
@[simp] theorem setB_cyc (s : State) (v : Byte) : (s.setB v).cyc = s.cyc := rfl
@[simp] theorem setB_draws (s : State) (v : Byte) : (s.setB v).draws = s.draws := rfl
@[simp] theorem setB_mem (s : State) (v : Byte) : (s.setB v).mem = s.mem := rfl
@[simp] theorem setB_mapper (s : State) (v : Byte) : (s.setB v).mapper = s.mapper := rfl
@[simp] theorem setB_dirty (s : State) (v : Byte) : (s.setB v).dirty = s.dirty := rfl
@[simp] theorem setB_pia (s : State) (v : Byte) : (s.setB v).pia = s.pia := rfl
@[simp] theorem setB_snd (s : State) (v : Byte) : (s.setB v).snd = s.snd := rfl
@[simp] theorem setB_keys (s : State) (v : Byte) : (s.setB v).keys = s.keys := rfl
@[simp] theorem setB_pen (s : State) (v : Byte) : (s.setB v).pen = s.pen := rfl
@[simp] theorem setB_tape (s : State) (v : Byte) : (s.setB v).tape = s.tape := rfl
@[simp] theorem setB_irqPrev (s : State) (v : Byte) : (s.setB v).irqPrev = s.irqPrev := rfl
@[simp] theorem setB_running (s : State) (v : Byte) : (s.setB v).running = s.running := rfl
@[simp] theorem setB_sched (s : State) (v : Byte) : (s.setB v).sched = s.sched := rfl
@[simp] theorem setB_inputs (s : State) (v : Byte) : (s.setB v).inputs = s.inputs := rfl
@[simp] theorem setB_replies (s : State) (v : Byte) : (s.setB v).replies = s.replies := rfl
@[simp] theorem setB_log (s : State) (v : Byte) : (s.setB v).log = s.log := rfl

/-! ## `setX` -/

@[simp] theorem setX_a (s : State) (v : Word) : (s.setX v).cpu.a = s.cpu.a := rfl
@[simp] theorem setX_b (s : State) (v : Word) : (s.setX v).cpu.b = s.cpu.b := rfl
@[simp] theorem setX_x (s : State) (v : Word) : (s.setX v).cpu.x = v := rfl
@[simp] theorem setX_y (s : State) (v : Word) : (s.setX v).cpu.y = s.cpu.y := rfl
@[simp] theorem setX_u (s : State) (v : Word) : (s.setX v).cpu.u = s.cpu.u := rfl
@[simp] theorem setX_s (s : State) (v : Word) : (s.setX v).cpu.s = s.cpu.s := rfl
@[simp] theorem setX_pc (s : State) (v : Word) : (s.setX v).cpu.pc = s.cpu.pc := rfl
@[simp] theorem setX_dp (s : State) (v : Word) : (s.setX v).cpu.dp = s.cpu.dp := rfl
@[simp] theorem setX_cc (s : State) (v : Word) : (s.setX v).cpu.cc = s.cpu.cc := rfl
@[simp] theorem setX_cyc (s : State) (v : Word) : (s.setX v).cyc = s.cyc := rfl
@[simp] theorem setX_draws (s : State) (v : Word) : (s.setX v).draws = s.draws := rfl
@[simp] theorem setX_mem (s : State) (v : Word) : (s.setX v).mem = s.mem := rfl
@[simp] theorem setX_mapper (s : State) (v : Word) : (s.setX v).mapper = s.mapper := rfl
@[simp] theorem setX_dirty (s : State) (v : Word) : (s.setX v).dirty = s.dirty := rfl
@[simp] theorem setX_pia (s : State) (v : Word) : (s.setX v).pia = s.pia := rfl
@[simp] theorem setX_snd (s : State) (v : Word) : (s.setX v).snd = s.snd := rfl
@[simp] theorem setX_keys (s : State) (v : Word) : (s.setX v).keys = s.keys := rfl
@[simp] theorem setX_pen (s : State) (v : Word) : (s.setX v).pen = s.pen := rfl
@[simp] theorem setX_tape (s : State) (v : Word) : (s.setX v).tape = s.tape := rfl
@[simp] theorem setX_irqPrev (s : State) (v : Word) : (s.setX v).irqPrev = s.irqPrev := rfl
@[simp] theorem setX_running (s : State) (v : Word) : (s.setX v).running = s.running := rfl
@[simp] theorem setX_sched (s : State) (v : Word) : (s.setX v).sched = s.sched := rfl
@[simp] theorem setX_inputs (s : State) (v : Word) : (s.setX v).inputs = s.inputs := rfl
@[simp] theorem setX_replies (s : State) (v : Word) : (s.setX v).replies = s.replies := rfl
@[simp] theorem setX_log (s : State) (v : Word) : (s.setX v).log = s.log := rfl

/-! ## `setY` -/

@[simp] theorem setY_a (s : State) (v : Word) : (s.setY v).cpu.a = s.cpu.a := rfl
@[simp] theorem setY_b (s : State) (v : Word) : (s.setY v).cpu.b = s.cpu.b := rfl
@[simp] theorem setY_x (s : State) (v : Word) : (s.setY v).cpu.x = s.cpu.x := rfl
@[simp] theorem setY_y (s : State) (v : Word) : (s.setY v).cpu.y = v := rfl
@[simp] theorem setY_u (s : State) (v : Word) : (s.setY v).cpu.u = s.cpu.u := rfl
@[simp] theorem setY_s (s : State) (v : Word) : (s.setY v).cpu.s = s.cpu.s := rfl
@[simp] theorem setY_pc (s : State) (v : Word) : (s.setY v).cpu.pc = s.cpu.pc := rfl
@[simp] theorem setY_dp (s : State) (v : Word) : (s.setY v).cpu.dp = s.cpu.dp := rfl
@[simp] theorem setY_cc (s : State) (v : Word) : (s.setY v).cpu.cc = s.cpu.cc := rfl
@[simp] theorem setY_cyc (s : State) (v : Word) : (s.setY v).cyc = s.cyc := rfl
@[simp] theorem setY_draws (s : State) (v : Word) : (s.setY v).draws = s.draws := rfl
@[simp] theorem setY_mem (s : State) (v : Word) : (s.setY v).mem = s.mem := rfl
@[simp] theorem setY_mapper (s : State) (v : Word) : (s.setY v).mapper = s.mapper := rfl
@[simp] theorem setY_dirty (s : State) (v : Word) : (s.setY v).dirty = s.dirty := rfl
@[simp] theorem setY_pia (s : State) (v : Word) : (s.setY v).pia = s.pia := rfl
@[simp] theorem setY_snd (s : State) (v : Word) : (s.setY v).snd = s.snd := rfl
@[simp] theorem setY_keys (s : State) (v : Word) : (s.setY v).keys = s.keys := rfl
@[simp] theorem setY_pen (s : State) (v : Word) : (s.setY v).pen = s.pen := rfl
@[simp] theorem setY_tape (s : State) (v : Word) : (s.setY v).tape = s.tape := rfl
@[simp] theorem setY_irqPrev (s : State) (v : Word) : (s.setY v).irqPrev = s.irqPrev := rfl
@[simp] theorem setY_running (s : State) (v : Word) : (s.setY v).running = s.running := rfl
@[simp] theorem setY_sched (s : State) (v : Word) : (s.setY v).sched = s.sched := rfl
@[simp] theorem setY_inputs (s : State) (v : Word) : (s.setY v).inputs = s.inputs := rfl
@[simp] theorem setY_replies (s : State) (v : Word) : (s.setY v).replies = s.replies := rfl
@[simp] theorem setY_log (s : State) (v : Word) : (s.setY v).log = s.log := rfl

/-! ## `setU` -/

@[simp] theorem setU_a (s : State) (v : Word) : (s.setU v).cpu.a = s.cpu.a := rfl
@[simp] theorem setU_b (s : State) (v : Word) : (s.setU v).cpu.b = s.cpu.b := rfl
@[simp] theorem setU_x (s : State) (v : Word) : (s.setU v).cpu.x = s.cpu.x := rfl
@[simp] theorem setU_y (s : State) (v : Word) : (s.setU v).cpu.y = s.cpu.y := rfl
@[simp] theorem setU_u (s : State) (v : Word) : (s.setU v).cpu.u = v := rfl
@[simp] theorem setU_s (s : State) (v : Word) : (s.setU v).cpu.s = s.cpu.s := rfl
@[simp] theorem setU_pc (s : State) (v : Word) : (s.setU v).cpu.pc = s.cpu.pc := rfl
@[simp] theorem setU_dp (s : State) (v : Word) : (s.setU v).cpu.dp = s.cpu.dp := rfl
@[simp] theorem setU_cc (s : State) (v : Word) : (s.setU v).cpu.cc = s.cpu.cc := rfl
@[simp] theorem setU_cyc (s : State) (v : Word) : (s.setU v).cyc = s.cyc := rfl
@[simp] theorem setU_draws (s : State) (v : Word) : (s.setU v).draws = s.draws := rfl
@[simp] theorem setU_mem (s : State) (v : Word) : (s.setU v).mem = s.mem := rfl
@[simp] theorem setU_mapper (s : State) (v : Word) : (s.setU v).mapper = s.mapper := rfl
@[simp] theorem setU_dirty (s : State) (v : Word) : (s.setU v).dirty = s.dirty := rfl
@[simp] theorem setU_pia (s : State) (v : Word) : (s.setU v).pia = s.pia := rfl
@[simp] theorem setU_snd (s : State) (v : Word) : (s.setU v).snd = s.snd := rfl
@[simp] theorem setU_keys (s : State) (v : Word) : (s.setU v).keys = s.keys := rfl
@[simp] theorem setU_pen (s : State) (v : Word) : (s.setU v).pen = s.pen := rfl
@[simp] theorem setU_tape (s : State) (v : Word) : (s.setU v).tape = s.tape := rfl
@[simp] theorem setU_irqPrev (s : State) (v : Word) : (s.setU v).irqPrev = s.irqPrev := rfl
@[simp] theorem setU_running (s : State) (v : Word) : (s.setU v).running = s.running := rfl
@[simp] theorem setU_sched (s : State) (v : Word) : (s.setU v).sched = s.sched := rfl
@[simp] theorem setU_inputs (s : State) (v : Word) : (s.setU v).inputs = s.inputs := rfl
@[simp] theorem setU_replies (s : State) (v : Word) : (s.setU v).replies = s.replies := rfl
@[simp] theorem setU_log (s : State) (v : Word) : (s.setU v).log = s.log := rfl

/-! ## `setS` -/

@[simp] theorem setS_a (s : State) (v : Word) : (s.setS v).cpu.a = s.cpu.a := rfl
@[simp] theorem setS_b (s : State) (v : Word) : (s.setS v).cpu.b = s.cpu.b := rfl
@[simp] theorem setS_x (s : State) (v : Word) : (s.setS v).cpu.x = s.cpu.x := rfl
@[simp] theorem setS_y (s : State) (v : Word) : (s.setS v).cpu.y = s.cpu.y := rfl
@[simp] theorem setS_u (s : State) (v : Word) : (s.setS v).cpu.u = s.cpu.u := rfl
@[simp] theorem setS_s (s : State) (v : Word) : (s.setS v).cpu.s = v := rfl
@[simp] theorem setS_pc (s : State) (v : Word) : (s.setS v).cpu.pc = s.cpu.pc := rfl
@[simp] theorem setS_dp (s : State) (v : Word) : (s.setS v).cpu.dp = s.cpu.dp := rfl
@[simp] theorem setS_cc (s : State) (v : Word) : (s.setS v).cpu.cc = s.cpu.cc := rfl
@[simp] theorem setS_cyc (s : State) (v : Word) : (s.setS v).cyc = s.cyc := rfl
@[simp] theorem setS_draws (s : State) (v : Word) : (s.setS v).draws = s.draws := rfl
@[simp] theorem setS_mem (s : State) (v : Word) : (s.setS v).mem = s.mem := rfl
@[simp] theorem setS_mapper (s : State) (v : Word) : (s.setS v).mapper = s.mapper := rfl
@[simp] theorem setS_dirty (s : State) (v : Word) : (s.setS v).dirty = s.dirty := rfl
@[simp] theorem setS_pia (s : State) (v : Word) : (s.setS v).pia = s.pia := rfl
@[simp] theorem setS_snd (s : State) (v : Word) : (s.setS v).snd = s.snd := rfl
@[simp] theorem setS_keys (s : State) (v : Word) : (s.setS v).keys = s.keys := rfl
@[simp] theorem setS_pen (s : State) (v : Word) : (s.setS v).pen = s.pen := rfl
@[simp] theorem setS_tape (s : State) (v : Word) : (s.setS v).tape = s.tape := rfl
@[simp] theorem setS_irqPrev (s : State) (v : Word) : (s.setS v).irqPrev = s.irqPrev := rfl
@[simp] theorem setS_running (s : State) (v : Word) : (s.setS v).running = s.running := rfl
@[simp] theorem setS_sched (s : State) (v : Word) : (s.setS v).sched = s.sched := rfl
@[simp] theorem setS_inputs (s : State) (v : Word) : (s.setS v).inputs = s.inputs := rfl
@[simp] theorem setS_replies (s : State) (v : Word) : (s.setS v).replies = s.replies := rfl
@[simp] theorem setS_log (s : State) (v : Word) : (s.setS v).log = s.log := rfl

/-! ## `setPc` -/

@[simp] theorem setPc_a (s : State) (v : Word) : (s.setPc v).cpu.a = s.cpu.a := rfl
@[simp] theorem setPc_b (s : State) (v : Word) : (s.setPc v).cpu.b = s.cpu.b := rfl
@[simp] theorem setPc_x (s : State) (v : Word) : (s.setPc v).cpu.x = s.cpu.x := rfl
@[simp] theorem setPc_y (s : State) (v : Word) : (s.setPc v).cpu.y = s.cpu.y := rfl
@[simp] theorem setPc_u (s : State) (v : Word) : (s.setPc v).cpu.u = s.cpu.u := rfl
@[simp] theorem setPc_s (s : State) (v : Word) : (s.setPc v).cpu.s = s.cpu.s := rfl
@[simp] theorem setPc_pc (s : State) (v : Word) : (s.setPc v).cpu.pc = v := rfl
@[simp] theorem setPc_dp (s : State) (v : Word) : (s.setPc v).cpu.dp = s.cpu.dp := rfl
@[simp] theorem setPc_cc (s : State) (v : Word) : (s.setPc v).cpu.cc = s.cpu.cc := rfl
@[simp] theorem setPc_cyc (s : State) (v : Word) : (s.setPc v).cyc = s.cyc := rfl
@[simp] theorem setPc_draws (s : State) (v : Word) : (s.setPc v).draws = s.draws := rfl
@[simp] theorem setPc_mem (s : State) (v : Word) : (s.setPc v).mem = s.mem := rfl
@[simp] theorem setPc_mapper (s : State) (v : Word) : (s.setPc v).mapper = s.mapper := rfl
@[simp] theorem setPc_dirty (s : State) (v : Word) : (s.setPc v).dirty = s.dirty := rfl
@[simp] theorem setPc_pia (s : State) (v : Word) : (s.setPc v).pia = s.pia := rfl
@[simp] theorem setPc_snd (s : State) (v : Word) : (s.setPc v).snd = s.snd := rfl
@[simp] theorem setPc_keys (s : State) (v : Word) : (s.setPc v).keys = s.keys := rfl
@[simp] theorem setPc_pen (s : State) (v : Word) : (s.setPc v).pen = s.pen := rfl
@[simp] theorem setPc_tape (s : State) (v : Word) : (s.setPc v).tape = s.tape := rfl
@[simp] theorem setPc_irqPrev (s : State) (v : Word) : (s.setPc v).irqPrev = s.irqPrev := rfl
@[simp] theorem setPc_running (s : State) (v : Word) : (s.setPc v).running = s.running := rfl
@[simp] theorem setPc_sched (s : State) (v : Word) : (s.setPc v).sched = s.sched := rfl
@[simp] theorem setPc_inputs (s : State) (v : Word) : (s.setPc v).inputs = s.inputs := rfl
@[simp] theorem setPc_replies (s : State) (v : Word) : (s.setPc v).replies = s.replies := rfl
@[simp] theorem setPc_log (s : State) (v : Word) : (s.setPc v).log = s.log := rfl

/-! ## `setDp` -/

@[simp] theorem setDp_a (s : State) (v : Byte) : (s.setDp v).cpu.a = s.cpu.a := rfl
@[simp] theorem setDp_b (s : State) (v : Byte) : (s.setDp v).cpu.b = s.cpu.b := rfl
@[simp] theorem setDp_x (s : State) (v : Byte) : (s.setDp v).cpu.x = s.cpu.x := rfl
@[simp] theorem setDp_y (s : State) (v : Byte) : (s.setDp v).cpu.y = s.cpu.y := rfl
@[simp] theorem setDp_u (s : State) (v : Byte) : (s.setDp v).cpu.u = s.cpu.u := rfl
@[simp] theorem setDp_s (s : State) (v : Byte) : (s.setDp v).cpu.s = s.cpu.s := rfl
@[simp] theorem setDp_pc (s : State) (v : Byte) : (s.setDp v).cpu.pc = s.cpu.pc := rfl
@[simp] theorem setDp_dp (s : State) (v : Byte) : (s.setDp v).cpu.dp = v := rfl
@[simp] theorem setDp_cc (s : State) (v : Byte) : (s.setDp v).cpu.cc = s.cpu.cc := rfl
@[simp] theorem setDp_cyc (s : State) (v : Byte) : (s.setDp v).cyc = s.cyc := rfl
@[simp] theorem setDp_draws (s : State) (v : Byte) : (s.setDp v).draws = s.draws := rfl
@[simp] theorem setDp_mem (s : State) (v : Byte) : (s.setDp v).mem = s.mem := rfl
@[simp] theorem setDp_mapper (s : State) (v : Byte) : (s.setDp v).mapper = s.mapper := rfl
@[simp] theorem setDp_dirty (s : State) (v : Byte) : (s.setDp v).dirty = s.dirty := rfl
@[simp] theorem setDp_pia (s : State) (v : Byte) : (s.setDp v).pia = s.pia := rfl
@[simp] theorem setDp_snd (s : State) (v : Byte) : (s.setDp v).snd = s.snd := rfl
@[simp] theorem setDp_keys (s : State) (v : Byte) : (s.setDp v).keys = s.keys := rfl
@[simp] theorem setDp_pen (s : State) (v : Byte) : (s.setDp v).pen = s.pen := rfl
@[simp] theorem setDp_tape (s : State) (v : Byte) : (s.setDp v).tape = s.tape := rfl
@[simp] theorem setDp_irqPrev (s : State) (v : Byte) : (s.setDp v).irqPrev = s.irqPrev := rfl
@[simp] theorem setDp_running (s : State) (v : Byte) : (s.setDp v).running = s.running := rfl
@[simp] theorem setDp_sched (s : State) (v : Byte) : (s.setDp v).sched = s.sched := rfl
@[simp] theorem setDp_inputs (s : State) (v : Byte) : (s.setDp v).inputs = s.inputs := rfl
@[simp] theorem setDp_replies (s : State) (v : Byte) : (s.setDp v).replies = s.replies := rfl
@[simp] theorem setDp_log (s : State) (v : Byte) : (s.setDp v).log = s.log := rfl

/-! ## `setCc` -/

@[simp] theorem setCc_a (s : State) (v : Byte) : (s.setCc v).cpu.a = s.cpu.a := rfl
@[simp] theorem setCc_b (s : State) (v : Byte) : (s.setCc v).cpu.b = s.cpu.b := rfl
@[simp] theorem setCc_x (s : State) (v : Byte) : (s.setCc v).cpu.x = s.cpu.x := rfl
@[simp] theorem setCc_y (s : State) (v : Byte) : (s.setCc v).cpu.y = s.cpu.y := rfl
@[simp] theorem setCc_u (s : State) (v : Byte) : (s.setCc v).cpu.u = s.cpu.u := rfl
@[simp] theorem setCc_s (s : State) (v : Byte) : (s.setCc v).cpu.s = s.cpu.s := rfl
@[simp] theorem setCc_pc (s : State) (v : Byte) : (s.setCc v).cpu.pc = s.cpu.pc := rfl
@[simp] theorem setCc_dp (s : State) (v : Byte) : (s.setCc v).cpu.dp = s.cpu.dp := rfl
@[simp] theorem setCc_cc (s : State) (v : Byte) : (s.setCc v).cpu.cc = v := rfl
@[simp] theorem setCc_cyc (s : State) (v : Byte) : (s.setCc v).cyc = s.cyc := rfl
@[simp] theorem setCc_draws (s : State) (v : Byte) : (s.setCc v).draws = s.draws := rfl
@[simp] theorem setCc_mem (s : State) (v : Byte) : (s.setCc v).mem = s.mem := rfl
@[simp] theorem setCc_mapper (s : State) (v : Byte) : (s.setCc v).mapper = s.mapper := rfl
@[simp] theorem setCc_dirty (s : State) (v : Byte) : (s.setCc v).dirty = s.dirty := rfl
@[simp] theorem setCc_pia (s : State) (v : Byte) : (s.setCc v).pia = s.pia := rfl
@[simp] theorem setCc_snd (s : State) (v : Byte) : (s.setCc v).snd = s.snd := rfl
@[simp] theorem setCc_keys (s : State) (v : Byte) : (s.setCc v).keys = s.keys := rfl
@[simp] theorem setCc_pen (s : State) (v : Byte) : (s.setCc v).pen = s.pen := rfl
@[simp] theorem setCc_tape (s : State) (v : Byte) : (s.setCc v).tape = s.tape := rfl
@[simp] theorem setCc_irqPrev (s : State) (v : Byte) : (s.setCc v).irqPrev = s.irqPrev := rfl
@[simp] theorem setCc_running (s : State) (v : Byte) : (s.setCc v).running = s.running := rfl
@[simp] theorem setCc_sched (s : State) (v : Byte) : (s.setCc v).sched = s.sched := rfl
@[simp] theorem setCc_inputs (s : State) (v : Byte) : (s.setCc v).inputs = s.inputs := rfl
@[simp] theorem setCc_replies (s : State) (v : Byte) : (s.setCc v).replies = s.replies := rfl
@[simp] theorem setCc_log (s : State) (v : Byte) : (s.setCc v).log = s.log := rfl

/-! ## `setD` -/

@[simp] theorem setD_a (s : State) (v : Word) : (s.setD v).cpu.a = hiByte v := rfl
@[simp] theorem setD_b (s : State) (v : Word) : (s.setD v).cpu.b = loByte v := rfl
@[simp] theorem setD_x (s : State) (v : Word) : (s.setD v).cpu.x = s.cpu.x := rfl
@[simp] theorem setD_y (s : State) (v : Word) : (s.setD v).cpu.y = s.cpu.y := rfl
@[simp] theorem setD_u (s : State) (v : Word) : (s.setD v).cpu.u = s.cpu.u := rfl
@[simp] theorem setD_s (s : State) (v : Word) : (s.setD v).cpu.s = s.cpu.s := rfl
@[simp] theorem setD_pc (s : State) (v : Word) : (s.setD v).cpu.pc = s.cpu.pc := rfl
@[simp] theorem setD_dp (s : State) (v : Word) : (s.setD v).cpu.dp = s.cpu.dp := rfl
@[simp] theorem setD_cc (s : State) (v : Word) : (s.setD v).cpu.cc = s.cpu.cc := rfl
@[simp] theorem setD_cyc (s : State) (v : Word) : (s.setD v).cyc = s.cyc := rfl
@[simp] theorem setD_draws (s : State) (v : Word) : (s.setD v).draws = s.draws := rfl
@[simp] theorem setD_mem (s : State) (v : Word) : (s.setD v).mem = s.mem := rfl
@[simp] theorem setD_mapper (s : State) (v : Word) : (s.setD v).mapper = s.mapper := rfl
@[simp] theorem setD_dirty (s : State) (v : Word) : (s.setD v).dirty = s.dirty := rfl
@[simp] theorem setD_pia (s : State) (v : Word) : (s.setD v).pia = s.pia := rfl
@[simp] theorem setD_snd (s : State) (v : Word) : (s.setD v).snd = s.snd := rfl
@[simp] theorem setD_keys (s : State) (v : Word) : (s.setD v).keys = s.keys := rfl
@[simp] theorem setD_pen (s : State) (v : Word) : (s.setD v).pen = s.pen := rfl
@[simp] theorem setD_tape (s : State) (v : Word) : (s.setD v).tape = s.tape := rfl
@[simp] theorem setD_irqPrev (s : State) (v : Word) : (s.setD v).irqPrev = s.irqPrev := rfl
@[simp] theorem setD_running (s : State) (v : Word) : (s.setD v).running = s.running := rfl
@[simp] theorem setD_sched (s : State) (v : Word) : (s.setD v).sched = s.sched := rfl
@[simp] theorem setD_inputs (s : State) (v : Word) : (s.setD v).inputs = s.inputs := rfl
@[simp] theorem setD_replies (s : State) (v : Word) : (s.setD v).replies = s.replies := rfl
@[simp] theorem setD_log (s : State) (v : Word) : (s.setD v).log = s.log := rfl

/-! ## `charge` -/

@[simp] theorem charge_cpu (s : State) (n : Nat) : (s.charge n).cpu = s.cpu := rfl
@[simp] theorem charge_cyc (s : State) (n : Nat) : (s.charge n).cyc = s.cyc + n := rfl
@[simp] theorem charge_draws (s : State) (n : Nat) : (s.charge n).draws = s.draws := rfl
@[simp] theorem charge_mem (s : State) (n : Nat) : (s.charge n).mem = s.mem := rfl
@[simp] theorem charge_mapper (s : State) (n : Nat) : (s.charge n).mapper = s.mapper := rfl
@[simp] theorem charge_dirty (s : State) (n : Nat) : (s.charge n).dirty = s.dirty := rfl
@[simp] theorem charge_pia (s : State) (n : Nat) : (s.charge n).pia = s.pia := rfl
@[simp] theorem charge_snd (s : State) (n : Nat) : (s.charge n).snd = s.snd := rfl
@[simp] theorem charge_keys (s : State) (n : Nat) : (s.charge n).keys = s.keys := rfl
@[simp] theorem charge_pen (s : State) (n : Nat) : (s.charge n).pen = s.pen := rfl
@[simp] theorem charge_tape (s : State) (n : Nat) : (s.charge n).tape = s.tape := rfl
@[simp] theorem charge_irqPrev (s : State) (n : Nat) : (s.charge n).irqPrev = s.irqPrev := rfl
@[simp] theorem charge_running (s : State) (n : Nat) : (s.charge n).running = s.running := rfl
@[simp] theorem charge_sched (s : State) (n : Nat) : (s.charge n).sched = s.sched := rfl
@[simp] theorem charge_inputs (s : State) (n : Nat) : (s.charge n).inputs = s.inputs := rfl
@[simp] theorem charge_replies (s : State) (n : Nat) : (s.charge n).replies = s.replies := rfl
@[simp] theorem charge_log (s : State) (n : Nat) : (s.charge n).log = s.log := rfl

/-! ## `drawBit` -/

@[simp] theorem drawBit_cpu (s : State) : (s.drawBit.2).cpu = s.cpu := rfl
@[simp] theorem drawBit_cyc (s : State) : (s.drawBit.2).cyc = s.cyc := rfl
@[simp] theorem drawBit_draws (s : State) : (s.drawBit.2).draws = s.draws + 1 := rfl
@[simp] theorem drawBit_mem (s : State) : (s.drawBit.2).mem = s.mem := rfl
@[simp] theorem drawBit_mapper (s : State) : (s.drawBit.2).mapper = s.mapper := rfl
@[simp] theorem drawBit_dirty (s : State) : (s.drawBit.2).dirty = s.dirty := rfl
@[simp] theorem drawBit_pia (s : State) : (s.drawBit.2).pia = s.pia := rfl
@[simp] theorem drawBit_snd (s : State) : (s.drawBit.2).snd = s.snd := rfl
@[simp] theorem drawBit_keys (s : State) : (s.drawBit.2).keys = s.keys := rfl
@[simp] theorem drawBit_pen (s : State) : (s.drawBit.2).pen = s.pen := rfl
@[simp] theorem drawBit_tape (s : State) : (s.drawBit.2).tape = s.tape := rfl
@[simp] theorem drawBit_irqPrev (s : State) : (s.drawBit.2).irqPrev = s.irqPrev := rfl
@[simp] theorem drawBit_running (s : State) : (s.drawBit.2).running = s.running := rfl
@[simp] theorem drawBit_sched (s : State) : (s.drawBit.2).sched = s.sched := rfl
@[simp] theorem drawBit_inputs (s : State) : (s.drawBit.2).inputs = s.inputs := rfl
@[simp] theorem drawBit_replies (s : State) : (s.drawBit.2).replies = s.replies := rfl
@[simp] theorem drawBit_log (s : State) : (s.drawBit.2).log = s.log := rfl

/-! ## `drawByte` -/

@[simp] theorem drawByte_cpu (s : State) : (s.drawByte.2).cpu = s.cpu := rfl
@[simp] theorem drawByte_cyc (s : State) : (s.drawByte.2).cyc = s.cyc := rfl
@[simp] theorem drawByte_draws (s : State) : (s.drawByte.2).draws = s.draws + 1 := rfl
@[simp] theorem drawByte_mem (s : State) : (s.drawByte.2).mem = s.mem := rfl
@[simp] theorem drawByte_mapper (s : State) : (s.drawByte.2).mapper = s.mapper := rfl
@[simp] theorem drawByte_dirty (s : State) : (s.drawByte.2).dirty = s.dirty := rfl
@[simp] theorem drawByte_pia (s : State) : (s.drawByte.2).pia = s.pia := rfl
@[simp] theorem drawByte_snd (s : State) : (s.drawByte.2).snd = s.snd := rfl
@[simp] theorem drawByte_keys (s : State) : (s.drawByte.2).keys = s.keys := rfl
@[simp] theorem drawByte_pen (s : State) : (s.drawByte.2).pen = s.pen := rfl
@[simp] theorem drawByte_tape (s : State) : (s.drawByte.2).tape = s.tape := rfl
@[simp] theorem drawByte_irqPrev (s : State) : (s.drawByte.2).irqPrev = s.irqPrev := rfl
@[simp] theorem drawByte_running (s : State) : (s.drawByte.2).running = s.running := rfl
@[simp] theorem drawByte_sched (s : State) : (s.drawByte.2).sched = s.sched := rfl
@[simp] theorem drawByte_inputs (s : State) : (s.drawByte.2).inputs = s.inputs := rfl
@[simp] theorem drawByte_replies (s : State) : (s.drawByte.2).replies = s.replies := rfl
@[simp] theorem drawByte_log (s : State) : (s.drawByte.2).log = s.log := rfl

/-! ## `drawOutputCreated` -/

@[simp] theorem drawOutputCreated_cpu (s : State) : (s.drawOutputCreated.2).cpu = s.cpu := rfl
@[simp] theorem drawOutputCreated_cyc (s : State) : (s.drawOutputCreated.2).cyc = s.cyc := rfl
@[simp] theorem drawOutputCreated_draws (s : State) : (s.drawOutputCreated.2).draws = s.draws + 1 := rfl
@[simp] theorem drawOutputCreated_mem (s : State) : (s.drawOutputCreated.2).mem = s.mem := rfl
@[simp] theorem drawOutputCreated_mapper (s : State) : (s.drawOutputCreated.2).mapper = s.mapper := rfl
@[simp] theorem drawOutputCreated_dirty (s : State) : (s.drawOutputCreated.2).dirty = s.dirty := rfl
@[simp] theorem drawOutputCreated_pia (s : State) : (s.drawOutputCreated.2).pia = s.pia := rfl
@[simp] theorem drawOutputCreated_snd (s : State) : (s.drawOutputCreated.2).snd = s.snd := rfl
@[simp] theorem drawOutputCreated_keys (s : State) : (s.drawOutputCreated.2).keys = s.keys := rfl
@[simp] theorem drawOutputCreated_pen (s : State) : (s.drawOutputCreated.2).pen = s.pen := rfl
@[simp] theorem drawOutputCreated_tape (s : State) : (s.drawOutputCreated.2).tape = s.tape := rfl
@[simp] theorem drawOutputCreated_irqPrev (s : State) : (s.drawOutputCreated.2).irqPrev = s.irqPrev := rfl
@[simp] theorem drawOutputCreated_running (s : State) : (s.drawOutputCreated.2).running = s.running := rfl
@[simp] theorem drawOutputCreated_sched (s : State) : (s.drawOutputCreated.2).sched = s.sched := rfl
@[simp] theorem drawOutputCreated_inputs (s : State) : (s.drawOutputCreated.2).inputs = s.inputs := rfl
@[simp] theorem drawOutputCreated_replies (s : State) : (s.drawOutputCreated.2).replies = s.replies := rfl
@[simp] theorem drawOutputCreated_log (s : State) : (s.drawOutputCreated.2).log = s.log := rfl

/-! ## `logEvent` -/

@[simp] theorem logEvent_cpu (s : State) (e : LogEvent) : (s.logEvent e).cpu = s.cpu := rfl
@[simp] theorem logEvent_cyc (s : State) (e : LogEvent) : (s.logEvent e).cyc = s.cyc := rfl
@[simp] theorem logEvent_draws (s : State) (e : LogEvent) : (s.logEvent e).draws = s.draws := rfl
@[simp] theorem logEvent_mem (s : State) (e : LogEvent) : (s.logEvent e).mem = s.mem := rfl
@[simp] theorem logEvent_mapper (s : State) (e : LogEvent) : (s.logEvent e).mapper = s.mapper := rfl
@[simp] theorem logEvent_dirty (s : State) (e : LogEvent) : (s.logEvent e).dirty = s.dirty := rfl
@[simp] theorem logEvent_pia (s : State) (e : LogEvent) : (s.logEvent e).pia = s.pia := rfl
@[simp] theorem logEvent_snd (s : State) (e : LogEvent) : (s.logEvent e).snd = s.snd := rfl
@[simp] theorem logEvent_keys (s : State) (e : LogEvent) : (s.logEvent e).keys = s.keys := rfl
@[simp] theorem logEvent_pen (s : State) (e : LogEvent) : (s.logEvent e).pen = s.pen := rfl
@[simp] theorem logEvent_tape (s : State) (e : LogEvent) : (s.logEvent e).tape = s.tape := rfl
@[simp] theorem logEvent_irqPrev (s : State) (e : LogEvent) : (s.logEvent e).irqPrev = s.irqPrev := rfl
@[simp] theorem logEvent_running (s : State) (e : LogEvent) : (s.logEvent e).running = s.running := rfl
@[simp] theorem logEvent_sched (s : State) (e : LogEvent) : (s.logEvent e).sched = s.sched := rfl
@[simp] theorem logEvent_inputs (s : State) (e : LogEvent) : (s.logEvent e).inputs = s.inputs := rfl
@[simp] theorem logEvent_replies (s : State) (e : LogEvent) : (s.logEvent e).replies = s.replies := rfl
@[simp] theorem logEvent_log (s : State) (e : LogEvent) : (s.logEvent e).log = s.log ++ [e] := rfl

/-! ## `memSet` -/

@[simp] theorem memSet_cpu (s : State) (a : Word) (v : Byte) : (s.memSet a v).cpu = s.cpu := rfl
@[simp] theorem memSet_cyc (s : State) (a : Word) (v : Byte) : (s.memSet a v).cyc = s.cyc := rfl
@[simp] theorem memSet_draws (s : State) (a : Word) (v : Byte) : (s.memSet a v).draws = s.draws := rfl
@[simp] theorem memSet_mem (s : State) (a : Word) (v : Byte) : (s.memSet a v).mem = s.mem.write (s.phys a) v := rfl
@[simp] theorem memSet_mapper (s : State) (a : Word) (v : Byte) : (s.memSet a v).mapper = s.mapper := rfl
@[simp] theorem memSet_dirty (s : State) (a : Word) (v : Byte) : (s.memSet a v).dirty = s.dirty := rfl
@[simp] theorem memSet_pia (s : State) (a : Word) (v : Byte) : (s.memSet a v).pia = s.pia := rfl
@[simp] theorem memSet_snd (s : State) (a : Word) (v : Byte) : (s.memSet a v).snd = s.snd := rfl
@[simp] theorem memSet_keys (s : State) (a : Word) (v : Byte) : (s.memSet a v).keys = s.keys := rfl
@[simp] theorem memSet_pen (s : State) (a : Word) (v : Byte) : (s.memSet a v).pen = s.pen := rfl
@[simp] theorem memSet_tape (s : State) (a : Word) (v : Byte) : (s.memSet a v).tape = s.tape := rfl
@[simp] theorem memSet_irqPrev (s : State) (a : Word) (v : Byte) : (s.memSet a v).irqPrev = s.irqPrev := rfl
@[simp] theorem memSet_running (s : State) (a : Word) (v : Byte) : (s.memSet a v).running = s.running := rfl
@[simp] theorem memSet_sched (s : State) (a : Word) (v : Byte) : (s.memSet a v).sched = s.sched := rfl
@[simp] theorem memSet_inputs (s : State) (a : Word) (v : Byte) : (s.memSet a v).inputs = s.inputs := rfl
@[simp] theorem memSet_replies (s : State) (a : Word) (v : Byte) : (s.memSet a v).replies = s.replies := rfl
@[simp] theorem memSet_log (s : State) (a : Word) (v : Byte) : (s.memSet a v).log = s.log := rfl

/-! ## `setAllDirty` -/

@[simp] theorem setAllDirty_cpu (s : State) : (s.setAllDirty).cpu = s.cpu := rfl
@[simp] theorem setAllDirty_cyc (s : State) : (s.setAllDirty).cyc = s.cyc := rfl
@[simp] theorem setAllDirty_draws (s : State) : (s.setAllDirty).draws = s.draws := rfl
@[simp] theorem setAllDirty_mem (s : State) : (s.setAllDirty).mem = s.mem := rfl
@[simp] theorem setAllDirty_mapper (s : State) : (s.setAllDirty).mapper = s.mapper := rfl
@[simp] theorem setAllDirty_dirty (s : State) : (s.setAllDirty).dirty = Vector.replicate 200 true := rfl
@[simp] theorem setAllDirty_pia (s : State) : (s.setAllDirty).pia = s.pia := rfl
@[simp] theorem setAllDirty_snd (s : State) : (s.setAllDirty).snd = s.snd := rfl
@[simp] theorem setAllDirty_keys (s : State) : (s.setAllDirty).keys = s.keys := rfl
@[simp] theorem setAllDirty_pen (s : State) : (s.setAllDirty).pen = s.pen := rfl
@[simp] theorem setAllDirty_tape (s : State) : (s.setAllDirty).tape = s.tape := rfl
@[simp] theorem setAllDirty_irqPrev (s : State) : (s.setAllDirty).irqPrev = s.irqPrev := rfl
@[simp] theorem setAllDirty_running (s : State) : (s.setAllDirty).running = s.running := rfl
@[simp] theorem setAllDirty_sched (s : State) : (s.setAllDirty).sched = s.sched := rfl
@[simp] theorem setAllDirty_inputs (s : State) : (s.setAllDirty).inputs = s.inputs := rfl
@[simp] theorem setAllDirty_replies (s : State) : (s.setAllDirty).replies = s.replies := rfl
@[simp] theorem setAllDirty_log (s : State) : (s.setAllDirty).log = s.log := rfl

/-! ## `setTape` -/

@[simp] theorem setTape_cpu (s : State) (t : TapeCodec) : (s.setTape t).cpu = s.cpu := rfl
@[simp] theorem setTape_cyc (s : State) (t : TapeCodec) : (s.setTape t).cyc = s.cyc := rfl
@[simp] theorem setTape_draws (s : State) (t : TapeCodec) : (s.setTape t).draws = s.draws := rfl
@[simp] theorem setTape_mem (s : State) (t : TapeCodec) : (s.setTape t).mem = s.mem := rfl
@[simp] theorem setTape_mapper (s : State) (t : TapeCodec) : (s.setTape t).mapper = s.mapper := rfl
@[simp] theorem setTape_dirty (s : State) (t : TapeCodec) : (s.setTape t).dirty = s.dirty := rfl
@[simp] theorem setTape_pia (s : State) (t : TapeCodec) : (s.setTape t).pia = s.pia := rfl
@[simp] theorem setTape_snd (s : State) (t : TapeCodec) : (s.setTape t).snd = s.snd := rfl
@[simp] theorem setTape_keys (s : State) (t : TapeCodec) : (s.setTape t).keys = s.keys := rfl
@[simp] theorem setTape_pen (s : State) (t : TapeCodec) : (s.setTape t).pen = s.pen := rfl
@[simp] theorem setTape_tape (s : State) (t : TapeCodec) : (s.setTape t).tape = t := rfl
@[simp] theorem setTape_irqPrev (s : State) (t : TapeCodec) : (s.setTape t).irqPrev = s.irqPrev := rfl
@[simp] theorem setTape_running (s : State) (t : TapeCodec) : (s.setTape t).running = s.running := rfl
@[simp] theorem setTape_sched (s : State) (t : TapeCodec) : (s.setTape t).sched = s.sched := rfl
@[simp] theorem setTape_inputs (s : State) (t : TapeCodec) : (s.setTape t).inputs = s.inputs := rfl
@[simp] theorem setTape_replies (s : State) (t : TapeCodec) : (s.setTape t).replies = s.replies := rfl
@[simp] theorem setTape_log (s : State) (t : TapeCodec) : (s.setTape t).log = s.log := rfl

/-! ## `reply` -/

@[simp] theorem reply_cpu (s : State) (r : HostReply) : (s.reply r).cpu = s.cpu := rfl
@[simp] theorem reply_cyc (s : State) (r : HostReply) : (s.reply r).cyc = s.cyc := rfl
@[simp] theorem reply_draws (s : State) (r : HostReply) : (s.reply r).draws = s.draws := rfl
@[simp] theorem reply_mem (s : State) (r : HostReply) : (s.reply r).mem = s.mem := rfl
@[simp] theorem reply_mapper (s : State) (r : HostReply) : (s.reply r).mapper = s.mapper := rfl
@[simp] theorem reply_dirty (s : State) (r : HostReply) : (s.reply r).dirty = s.dirty := rfl
@[simp] theorem reply_pia (s : State) (r : HostReply) : (s.reply r).pia = s.pia := rfl
@[simp] theorem reply_snd (s : State) (r : HostReply) : (s.reply r).snd = s.snd := rfl
@[simp] theorem reply_keys (s : State) (r : HostReply) : (s.reply r).keys = s.keys := rfl
@[simp] theorem reply_pen (s : State) (r : HostReply) : (s.reply r).pen = s.pen := rfl
@[simp] theorem reply_tape (s : State) (r : HostReply) : (s.reply r).tape = s.tape := rfl
@[simp] theorem reply_irqPrev (s : State) (r : HostReply) : (s.reply r).irqPrev = s.irqPrev := rfl
@[simp] theorem reply_running (s : State) (r : HostReply) : (s.reply r).running = s.running := rfl
@[simp] theorem reply_sched (s : State) (r : HostReply) : (s.reply r).sched = s.sched := rfl
@[simp] theorem reply_inputs (s : State) (r : HostReply) : (s.reply r).inputs = s.inputs := rfl
@[simp] theorem reply_replies (s : State) (r : HostReply) : (s.reply r).replies = s.replies ++ [r] := rfl
@[simp] theorem reply_log (s : State) (r : HostReply) : (s.reply r).log = s.log := rfl

/-! ## `enterBurst` -/

@[simp] theorem enterBurst_cpu (s : State) (b : Burst) : (s.enterBurst b).cpu = s.cpu := rfl
@[simp] theorem enterBurst_cyc (s : State) (b : Burst) : (s.enterBurst b).cyc = s.cyc := rfl
@[simp] theorem enterBurst_draws (s : State) (b : Burst) : (s.enterBurst b).draws = s.draws := rfl
@[simp] theorem enterBurst_mem (s : State) (b : Burst) : (s.enterBurst b).mem = s.mem := rfl
@[simp] theorem enterBurst_mapper (s : State) (b : Burst) : (s.enterBurst b).mapper = s.mapper := rfl
@[simp] theorem enterBurst_dirty (s : State) (b : Burst) : (s.enterBurst b).dirty = s.dirty := rfl
@[simp] theorem enterBurst_pia (s : State) (b : Burst) : (s.enterBurst b).pia = s.pia := rfl
@[simp] theorem enterBurst_snd (s : State) (b : Burst) : (s.enterBurst b).snd = s.snd := rfl
@[simp] theorem enterBurst_keys (s : State) (b : Burst) : (s.enterBurst b).keys = s.keys := rfl
@[simp] theorem enterBurst_pen (s : State) (b : Burst) : (s.enterBurst b).pen = s.pen := rfl
@[simp] theorem enterBurst_tape (s : State) (b : Burst) : (s.enterBurst b).tape = s.tape := rfl
@[simp] theorem enterBurst_irqPrev (s : State) (b : Burst) : (s.enterBurst b).irqPrev = s.irqPrev := rfl
@[simp] theorem enterBurst_running (s : State) (b : Burst) : (s.enterBurst b).running = s.running := rfl
@[simp] theorem enterBurst_sched (s : State) (b : Burst) : (s.enterBurst b).sched = .burst b := rfl
@[simp] theorem enterBurst_inputs (s : State) (b : Burst) : (s.enterBurst b).inputs = s.inputs := rfl
@[simp] theorem enterBurst_replies (s : State) (b : Burst) : (s.enterBurst b).replies = s.replies := rfl
@[simp] theorem enterBurst_log (s : State) (b : Burst) : (s.enterBurst b).log = s.log := rfl

/-! ## `oraWrite` -/

@[simp] theorem oraWrite_cpu (s : State) (v : Byte) : (s.oraWrite v).cpu = s.cpu := rfl
@[simp] theorem oraWrite_cyc (s : State) (v : Byte) : (s.oraWrite v).cyc = s.cyc := rfl
@[simp] theorem oraWrite_draws (s : State) (v : Byte) : (s.oraWrite v).draws = s.draws := rfl
@[simp] theorem oraWrite_mem (s : State) (v : Byte) : (s.oraWrite v).mem = s.mem.write (({ s with pia := { s.pia with ora := v }, mapper := bankMapper s.mapper v } : State).phys oraAddr) (v ||| if s.pen.button then lpMask else 0x00) := rfl
@[simp] theorem oraWrite_mapper (s : State) (v : Byte) : (s.oraWrite v).mapper = bankMapper s.mapper v := rfl
@[simp] theorem oraWrite_dirty (s : State) (v : Byte) : (s.oraWrite v).dirty = Vector.replicate 200 true := rfl
@[simp] theorem oraWrite_pia (s : State) (v : Byte) : (s.oraWrite v).pia = { s.pia with ora := v } := rfl
@[simp] theorem oraWrite_snd (s : State) (v : Byte) : (s.oraWrite v).snd = s.snd := rfl
@[simp] theorem oraWrite_keys (s : State) (v : Byte) : (s.oraWrite v).keys = s.keys := rfl
@[simp] theorem oraWrite_pen (s : State) (v : Byte) : (s.oraWrite v).pen = s.pen := rfl
@[simp] theorem oraWrite_tape (s : State) (v : Byte) : (s.oraWrite v).tape = s.tape := rfl
@[simp] theorem oraWrite_irqPrev (s : State) (v : Byte) : (s.oraWrite v).irqPrev = s.irqPrev := rfl
@[simp] theorem oraWrite_running (s : State) (v : Byte) : (s.oraWrite v).running = s.running := rfl
@[simp] theorem oraWrite_sched (s : State) (v : Byte) : (s.oraWrite v).sched = s.sched := rfl
@[simp] theorem oraWrite_inputs (s : State) (v : Byte) : (s.oraWrite v).inputs = s.inputs := rfl
@[simp] theorem oraWrite_replies (s : State) (v : Byte) : (s.oraWrite v).replies = s.replies := rfl
@[simp] theorem oraWrite_log (s : State) (v : Byte) : (s.oraWrite v).log = s.log := rfl

/-! ## `orbWrite` -/

@[simp] theorem orbWrite_cpu (s : State) (v : Byte) : (s.orbWrite v).cpu = s.cpu := rfl
@[simp] theorem orbWrite_cyc (s : State) (v : Byte) : (s.orbWrite v).cyc = s.cyc := rfl
@[simp] theorem orbWrite_draws (s : State) (v : Byte) : (s.orbWrite v).draws = s.draws := rfl
@[simp] theorem orbWrite_mem (s : State) (v : Byte) : (s.orbWrite v).mem = s.mem.write (s.phys orbAddr) (v ||| if s.keys.get (keyIndex v) then 0x00 else keyStatus) := rfl
@[simp] theorem orbWrite_mapper (s : State) (v : Byte) : (s.orbWrite v).mapper = s.mapper := rfl
@[simp] theorem orbWrite_dirty (s : State) (v : Byte) : (s.orbWrite v).dirty = s.dirty := rfl
@[simp] theorem orbWrite_pia (s : State) (v : Byte) : (s.orbWrite v).pia = { s.pia with orb := v } := rfl
@[simp] theorem orbWrite_snd (s : State) (v : Byte) : (s.orbWrite v).snd = (v &&& 0x01) <<< 5 := rfl
@[simp] theorem orbWrite_keys (s : State) (v : Byte) : (s.orbWrite v).keys = s.keys := rfl
@[simp] theorem orbWrite_pen (s : State) (v : Byte) : (s.orbWrite v).pen = s.pen := rfl
@[simp] theorem orbWrite_tape (s : State) (v : Byte) : (s.orbWrite v).tape = s.tape := rfl
@[simp] theorem orbWrite_irqPrev (s : State) (v : Byte) : (s.orbWrite v).irqPrev = s.irqPrev := rfl
@[simp] theorem orbWrite_running (s : State) (v : Byte) : (s.orbWrite v).running = s.running := rfl
@[simp] theorem orbWrite_sched (s : State) (v : Byte) : (s.orbWrite v).sched = s.sched := rfl
@[simp] theorem orbWrite_inputs (s : State) (v : Byte) : (s.orbWrite v).inputs = s.inputs := rfl
@[simp] theorem orbWrite_replies (s : State) (v : Byte) : (s.orbWrite v).replies = s.replies := rfl
@[simp] theorem orbWrite_log (s : State) (v : Byte) : (s.orbWrite v).log = s.log := rfl

/-! ## `ddraWrite` -/

@[simp] theorem ddraWrite_cpu (s : State) (v : Byte) : (s.ddraWrite v).cpu = s.cpu := rfl
@[simp] theorem ddraWrite_cyc (s : State) (v : Byte) : (s.ddraWrite v).cyc = s.cyc := rfl
@[simp] theorem ddraWrite_draws (s : State) (v : Byte) : (s.ddraWrite v).draws = s.draws := rfl
@[simp] theorem ddraWrite_mem (s : State) (v : Byte) : (s.ddraWrite v).mem = s.mem.write (s.phys oraAddr) v := rfl
@[simp] theorem ddraWrite_mapper (s : State) (v : Byte) : (s.ddraWrite v).mapper = s.mapper := rfl
@[simp] theorem ddraWrite_dirty (s : State) (v : Byte) : (s.ddraWrite v).dirty = s.dirty := rfl
@[simp] theorem ddraWrite_pia (s : State) (v : Byte) : (s.ddraWrite v).pia = { s.pia with ddra := v } := rfl
@[simp] theorem ddraWrite_snd (s : State) (v : Byte) : (s.ddraWrite v).snd = s.snd := rfl
@[simp] theorem ddraWrite_keys (s : State) (v : Byte) : (s.ddraWrite v).keys = s.keys := rfl
@[simp] theorem ddraWrite_pen (s : State) (v : Byte) : (s.ddraWrite v).pen = s.pen := rfl
@[simp] theorem ddraWrite_tape (s : State) (v : Byte) : (s.ddraWrite v).tape = s.tape := rfl
@[simp] theorem ddraWrite_irqPrev (s : State) (v : Byte) : (s.ddraWrite v).irqPrev = s.irqPrev := rfl
@[simp] theorem ddraWrite_running (s : State) (v : Byte) : (s.ddraWrite v).running = s.running := rfl
@[simp] theorem ddraWrite_sched (s : State) (v : Byte) : (s.ddraWrite v).sched = s.sched := rfl
@[simp] theorem ddraWrite_inputs (s : State) (v : Byte) : (s.ddraWrite v).inputs = s.inputs := rfl
@[simp] theorem ddraWrite_replies (s : State) (v : Byte) : (s.ddraWrite v).replies = s.replies := rfl
@[simp] theorem ddraWrite_log (s : State) (v : Byte) : (s.ddraWrite v).log = s.log := rfl

/-! ## `ddrbWrite` -/

@[simp] theorem ddrbWrite_cpu (s : State) (v : Byte) : (s.ddrbWrite v).cpu = s.cpu := rfl
@[simp] theorem ddrbWrite_cyc (s : State) (v : Byte) : (s.ddrbWrite v).cyc = s.cyc := rfl
@[simp] theorem ddrbWrite_draws (s : State) (v : Byte) : (s.ddrbWrite v).draws = s.draws := rfl
@[simp] theorem ddrbWrite_mem (s : State) (v : Byte) : (s.ddrbWrite v).mem = s.mem.write (s.phys orbAddr) v := rfl
@[simp] theorem ddrbWrite_mapper (s : State) (v : Byte) : (s.ddrbWrite v).mapper = s.mapper := rfl
@[simp] theorem ddrbWrite_dirty (s : State) (v : Byte) : (s.ddrbWrite v).dirty = s.dirty := rfl
@[simp] theorem ddrbWrite_pia (s : State) (v : Byte) : (s.ddrbWrite v).pia = { s.pia with ddrb := v } := rfl
@[simp] theorem ddrbWrite_snd (s : State) (v : Byte) : (s.ddrbWrite v).snd = s.snd := rfl
@[simp] theorem ddrbWrite_keys (s : State) (v : Byte) : (s.ddrbWrite v).keys = s.keys := rfl
@[simp] theorem ddrbWrite_pen (s : State) (v : Byte) : (s.ddrbWrite v).pen = s.pen := rfl
@[simp] theorem ddrbWrite_tape (s : State) (v : Byte) : (s.ddrbWrite v).tape = s.tape := rfl
@[simp] theorem ddrbWrite_irqPrev (s : State) (v : Byte) : (s.ddrbWrite v).irqPrev = s.irqPrev := rfl
@[simp] theorem ddrbWrite_running (s : State) (v : Byte) : (s.ddrbWrite v).running = s.running := rfl
@[simp] theorem ddrbWrite_sched (s : State) (v : Byte) : (s.ddrbWrite v).sched = s.sched := rfl
@[simp] theorem ddrbWrite_inputs (s : State) (v : Byte) : (s.ddrbWrite v).inputs = s.inputs := rfl
@[simp] theorem ddrbWrite_replies (s : State) (v : Byte) : (s.ddrbWrite v).replies = s.replies := rfl
@[simp] theorem ddrbWrite_log (s : State) (v : Byte) : (s.ddrbWrite v).log = s.log := rfl

/-! ## `craWrite` -/

@[simp] theorem craWrite_cpu (s : State) (v : Byte) : (s.craWrite v).cpu = s.cpu := rfl
@[simp] theorem craWrite_cyc (s : State) (v : Byte) : (s.craWrite v).cyc = s.cyc := rfl
@[simp] theorem craWrite_draws (s : State) (v : Byte) : (s.craWrite v).draws = s.draws := rfl
@[simp] theorem craWrite_mem (s : State) (v : Byte) : (s.craWrite v).mem = s.mem.write (s.phys craAddr) v := rfl
@[simp] theorem craWrite_mapper (s : State) (v : Byte) : (s.craWrite v).mapper = s.mapper := rfl
@[simp] theorem craWrite_dirty (s : State) (v : Byte) : (s.craWrite v).dirty = s.dirty := rfl
@[simp] theorem craWrite_pia (s : State) (v : Byte) : (s.craWrite v).pia = { s.pia with cra := v } := rfl
@[simp] theorem craWrite_snd (s : State) (v : Byte) : (s.craWrite v).snd = s.snd := rfl
@[simp] theorem craWrite_keys (s : State) (v : Byte) : (s.craWrite v).keys = s.keys := rfl
@[simp] theorem craWrite_pen (s : State) (v : Byte) : (s.craWrite v).pen = s.pen := rfl
@[simp] theorem craWrite_tape (s : State) (v : Byte) : (s.craWrite v).tape = s.tape := rfl
@[simp] theorem craWrite_irqPrev (s : State) (v : Byte) : (s.craWrite v).irqPrev = s.irqPrev := rfl
@[simp] theorem craWrite_running (s : State) (v : Byte) : (s.craWrite v).running = s.running := rfl
@[simp] theorem craWrite_sched (s : State) (v : Byte) : (s.craWrite v).sched = s.sched := rfl
@[simp] theorem craWrite_inputs (s : State) (v : Byte) : (s.craWrite v).inputs = s.inputs := rfl
@[simp] theorem craWrite_replies (s : State) (v : Byte) : (s.craWrite v).replies = s.replies := rfl
@[simp] theorem craWrite_log (s : State) (v : Byte) : (s.craWrite v).log = s.log := rfl

/-! ## `crbWrite` -/

@[simp] theorem crbWrite_cpu (s : State) (v : Byte) : (s.crbWrite v).cpu = s.cpu := rfl
@[simp] theorem crbWrite_cyc (s : State) (v : Byte) : (s.crbWrite v).cyc = s.cyc := rfl
@[simp] theorem crbWrite_draws (s : State) (v : Byte) : (s.crbWrite v).draws = s.draws := rfl
@[simp] theorem crbWrite_mem (s : State) (v : Byte) : (s.crbWrite v).mem = s.mem.write (s.phys crbAddr) v := rfl
@[simp] theorem crbWrite_mapper (s : State) (v : Byte) : (s.crbWrite v).mapper = s.mapper := rfl
@[simp] theorem crbWrite_dirty (s : State) (v : Byte) : (s.crbWrite v).dirty = s.dirty := rfl
@[simp] theorem crbWrite_pia (s : State) (v : Byte) : (s.crbWrite v).pia = { s.pia with crb := v } := rfl
@[simp] theorem crbWrite_snd (s : State) (v : Byte) : (s.crbWrite v).snd = s.snd := rfl
@[simp] theorem crbWrite_keys (s : State) (v : Byte) : (s.crbWrite v).keys = s.keys := rfl
@[simp] theorem crbWrite_pen (s : State) (v : Byte) : (s.crbWrite v).pen = s.pen := rfl
@[simp] theorem crbWrite_tape (s : State) (v : Byte) : (s.crbWrite v).tape = s.tape := rfl
@[simp] theorem crbWrite_irqPrev (s : State) (v : Byte) : (s.crbWrite v).irqPrev = s.irqPrev := rfl
@[simp] theorem crbWrite_running (s : State) (v : Byte) : (s.crbWrite v).running = s.running := rfl
@[simp] theorem crbWrite_sched (s : State) (v : Byte) : (s.crbWrite v).sched = s.sched := rfl
@[simp] theorem crbWrite_inputs (s : State) (v : Byte) : (s.crbWrite v).inputs = s.inputs := rfl
@[simp] theorem crbWrite_replies (s : State) (v : Byte) : (s.crbWrite v).replies = s.replies := rfl
@[simp] theorem crbWrite_log (s : State) (v : Byte) : (s.crbWrite v).log = s.log := rfl

end Sys2Proof.Machine.State
end

