-- ==== Sys2Proof/Laws/Memory.lean ====
section
/-! SUPPORT. The laws of memory: a read after a write, the canonical form kept by every memory operation, and what one
write through the controller can do. -/

namespace Sys2Proof.Machine

/-! ## Physical memory -/

theorem readCells_eraseCells (k j : Nat) (cs : List Host.Cell) :
    readCells j (eraseCells k cs) = if j = k then Memory.blank else readCells j cs := by
  induction cs with
  | nil => simp [eraseCells, readCells]
  | cons c cs ih =>
    obtain ⟨i, w⟩ := c
    simp only [eraseCells]
    by_cases h : i = k
    · subst h
      simp only [if_true, ih, readCells]
      by_cases hj : j = i
      · simp [hj]
      · simp [hj, Ne.symm hj]
    · simp only [h, if_false, readCells, ih]
      by_cases hj : j = k
      · subst hj; simp [h]
      · simp [hj]

theorem readCells_insertCells (k j : Nat) (v : Byte) (cs : List Host.Cell) (hk : readCells k cs = Memory.blank)
    (hn : ∀ c ∈ cs, c.1 ≠ k) :
    readCells j (insertCells k v cs) = if j = k then v else readCells j cs := by
  induction cs with
  | nil => simp [insertCells, readCells, eq_comm]
  | cons c cs ih =>
    obtain ⟨i, w⟩ := c
    have hi : i ≠ k := hn (i, w) (by simp)
    have hk' : readCells k cs = Memory.blank := by simpa [readCells, hi] using hk
    have ih' := ih hk' (fun c hc => hn c (by simp [hc]))
    simp only [insertCells]
    split
    · simp [readCells, eq_comm]
    · simp only [readCells, ih']
      by_cases hj : j = k
      · subst hj; simp [hi]
      · simp [hj]

theorem eraseCells_ne (k : Nat) (cs : List Host.Cell) : ∀ c ∈ eraseCells k cs, c.1 ≠ k := by
  induction cs with
  | nil => simp [eraseCells]
  | cons c cs ih =>
    obtain ⟨i, w⟩ := c
    simp only [eraseCells]
    split
    · exact ih
    · intro c hc
      rcases List.mem_cons.1 hc with rfl | hc
      · assumption
      · exact ih c hc

/-- A read after a write: the value at the written address, and every other address as before. -/
@[simp] theorem Memory.read_write (m : Memory) (k j : Nat) (v : Byte) :
    (m.write k v).read j = if j = k then v else m.read j := by
  unfold Memory.write Memory.read
  by_cases hv : v = Memory.blank
  · subst hv; simp [readCells_eraseCells]
  · simp only [hv, if_false]
    rw [readCells_insertCells k j v _ (by simp [readCells_eraseCells]) (eraseCells_ne k _), readCells_eraseCells]
    split <;> rfl

theorem Memory.wfCells_mono {a b : Nat} (h : b ≤ a) (cs : List Host.Cell) (hw : wfCells a cs = true) :
    wfCells b cs = true := by
  cases cs with
  | nil => rfl
  | cons c cs =>
    obtain ⟨i, w⟩ := c
    simp only [wfCells, Bool.and_eq_true, decide_eq_true_eq] at hw ⊢
    exact ⟨⟨⟨by omega, hw.1.1.2⟩, hw.1.2⟩, hw.2⟩

theorem wfCells_eraseCells (k a : Nat) (cs : List Host.Cell) (hw : Memory.wfCells a cs = true) :
    Memory.wfCells a (eraseCells k cs) = true := by
  induction cs generalizing a with
  | nil => rfl
  | cons c cs ih =>
    obtain ⟨i, w⟩ := c
    simp only [Memory.wfCells, Bool.and_eq_true, decide_eq_true_eq] at hw
    simp only [eraseCells]
    split
    · exact Memory.wfCells_mono (by omega) _ (ih _ hw.2)
    · simp only [Memory.wfCells, Bool.and_eq_true, decide_eq_true_eq]
      exact ⟨hw.1, ih _ hw.2⟩

theorem wfCells_insertCells (k a : Nat) (v : Byte) (cs : List Host.Cell) (hk : k < Memory.size) (ha : a ≤ k)
    (hv : v ≠ Memory.blank) (hn : ∀ c ∈ cs, c.1 ≠ k) (hw : Memory.wfCells a cs = true) :
    Memory.wfCells a (insertCells k v cs) = true := by
  induction cs generalizing a with
  | nil => simp [insertCells, Memory.wfCells, hk, ha, hv]
  | cons c cs ih =>
    obtain ⟨i, w⟩ := c
    have hi : i ≠ k := hn (i, w) (by simp)
    simp only [Memory.wfCells, Bool.and_eq_true, decide_eq_true_eq] at hw
    simp only [insertCells]
    split
    · simp only [Memory.wfCells, Bool.and_eq_true, decide_eq_true_eq]
      exact ⟨⟨⟨ha, hk⟩, hv⟩, ⟨⟨by omega, hw.1.1.2⟩, hw.1.2⟩, hw.2⟩
    · simp only [Memory.wfCells, Bool.and_eq_true, decide_eq_true_eq]
      exact ⟨hw.1, ih (i + 1) (by omega) (fun c hc => hn c (by simp [hc])) hw.2⟩

/-- A write inside physical memory keeps the canonical form. -/
theorem Memory.wf_write {m : Memory} (hm : m.wf = true) {k : Nat} (hk : k < Memory.size) (v : Byte) :
    (m.write k v).wf = true := by
  unfold Memory.wf Memory.write at *
  have he := wfCells_eraseCells k 0 m.cells hm
  by_cases hv : v = Memory.blank
  · simpa [hv] using he
  · simp only [hv, if_false]
    exact wfCells_insertCells k 0 v _ hk (Nat.zero_le k) hv (eraseCells_ne k _) he

theorem readCells_lt (j a : Nat) (cs : List Host.Cell) (hw : Memory.wfCells a cs = true) (hj : j < a) :
    readCells j cs = Memory.blank := by
  induction cs generalizing a with
  | nil => rfl
  | cons c cs ih =>
    obtain ⟨i, w⟩ := c
    simp only [Memory.wfCells, Bool.and_eq_true, decide_eq_true_eq] at hw
    have : i ≠ j := by omega
    simp only [readCells, this, if_false]
    exact ih (i + 1) hw.2 (by omega)

theorem cells_ext (cs ds : List Host.Cell) (a : Nat) (hc : Memory.wfCells a cs = true)
    (hd : Memory.wfCells a ds = true) (h : ∀ j, readCells j cs = readCells j ds) : cs = ds := by
  induction cs generalizing ds a with
  | nil =>
    cases ds with
    | nil => rfl
    | cons d ds =>
      obtain ⟨i, w⟩ := d
      simp only [Memory.wfCells, Bool.and_eq_true, decide_eq_true_eq] at hd
      have := h i
      simp only [readCells, if_true] at this
      exact absurd this.symm hd.1.2
  | cons c cs ih =>
    obtain ⟨i, w⟩ := c
    have hc0 := hc
    simp only [Memory.wfCells, Bool.and_eq_true, decide_eq_true_eq] at hc
    cases ds with
    | nil =>
      have := h i
      simp only [readCells, if_true] at this
      exact absurd this hc.1.2
    | cons d ds =>
      obtain ⟨j, u⟩ := d
      have hd0 := hd
      simp only [Memory.wfCells, Bool.and_eq_true, decide_eq_true_eq] at hd
      have hij : i = j := by
        rcases Nat.lt_trichotomy i j with hlt | rfl | hgt
        · exfalso
          have h1 := h i
          have hji : j ≠ i := by omega
          simp only [readCells, if_true, hji, if_false] at h1
          rw [readCells_lt i (j + 1) ds hd.2 (by omega)] at h1
          exact hc.1.2 h1
        · rfl
        · exfalso
          have h1 := h j
          have hji : i ≠ j := by omega
          simp only [readCells, if_true, hji, if_false] at h1
          rw [readCells_lt j (i + 1) cs hc.2 (by omega)] at h1
          exact hd.1.2 h1.symm
      subst hij
      have hw := h i
      simp only [readCells, if_true] at hw
      subst hw
      have hrest : cs = ds := by
        refine ih ds (i + 1) hc.2 hd.2 (fun k => ?_)
        by_cases hk : i = k
        · subst hk
          rw [readCells_lt i (i + 1) cs hc.2 (by omega), readCells_lt i (i + 1) ds hd.2 (by omega)]
        · have := h k
          simpa only [readCells, hk, if_false] using this
      rw [hrest]

/-- Two memories in canonical form that read the same everywhere are the same data. -/
theorem Memory.wf_ext {m n : Memory} (hm : m.wf = true) (hn : n.wf = true) (h : ∀ j, m.read j = n.read j) : m = n := by
  obtain ⟨cs⟩ := m
  obtain ⟨ds⟩ := n
  have : cs = ds := cells_ext cs ds 0 hm hn h
  rw [this]

/-! ## Addresses -/

theorem pageOffset_lt (addr : Word) : pageOffset addr < 4096 := (addr.extractLsb' 0 12).isLt

/-- Every CPU address reaches a byte of physical memory (20_memory.md R60, R62). -/
theorem State.phys_lt (s : State) (addr : Word) : s.phys addr < Memory.size := by
  have h1 : s.physPage addr < 18 := (s.mapper.get (pageIndex addr)).isLt
  have h2 := pageOffset_lt addr
  unfold State.phys Memory.size
  omega

theorem pageOffset_succ_ne (addr : Word) : pageOffset (addr + 1) ≠ pageOffset addr := by
  unfold pageOffset
  have h1 : (1 : Word).toNat = 1 := rfl
  simp only [BitVec.extractLsb'_toNat, Nat.shiftRight_zero, BitVec.toNat_add, h1]
  omega

/-- The two bytes of a word are two bytes of physical memory, whatever the mapper (20_memory.md R68). -/
theorem State.phys_succ_ne (s : State) (addr : Word) : s.phys (addr + 1) ≠ s.phys addr := by
  have h1 := pageOffset_lt addr
  have h2 := pageOffset_lt (addr + 1)
  have h3 := pageOffset_succ_ne addr
  unfold State.phys
  omega

/-- The physical address depends on the mapper only. -/
theorem State.phys_congr {s t : State} (h : t.mapper = s.mapper) (addr : Word) : t.phys addr = s.phys addr := by
  unfold State.phys State.physPage; rw [h]

theorem State.isRom_congr {s t : State} (h : t.mapper = s.mapper) (addr : Word) : t.isRom addr = s.isRom addr := by
  unfold State.isRom State.physPage; rw [h]

theorem State.memRead_congr {s t : State} (h : t.mapper = s.mapper) (hm : t.mem = s.mem) (addr : Word) :
    t.memRead addr = s.memRead addr := by
  unfold State.memRead State.phys State.physPage; rw [h, hm]

theorem State.memRead16_congr {s t : State} (h : t.mapper = s.mapper) (hm : t.mem = s.mem) (addr : Word) :
    t.memRead16 addr = s.memRead16 addr := by
  unfold State.memRead16; rw [State.memRead_congr h hm, State.memRead_congr h hm]

/-- A bank switch keeps every mapper entry from 2 on (20_memory.md R72). -/
theorem bankMapper_get (m : Vector (Fin 18) 16) (v : Byte) (i : Fin 16) (hi : 2 ≤ i.val) :
    (bankMapper m v).get i = m.get i := by
  have h0 : i.val ≠ 0 := by omega
  have h1 : i.val ≠ 1 := by omega
  unfold bankMapper
  split <;> simp [Vector.get_eq_getElem, h0.symm, h1.symm]

/-- A bank switch moves no address from 0x2000 on (20_memory.md R72). -/
theorem phys_bankMapper (s : State) (p : Pia) (v : Byte) (addr : Word) (h : 2 ≤ (pageIndex addr).val) :
    ({ s with pia := p, mapper := bankMapper s.mapper v } : State).phys addr = s.phys addr := by
  unfold State.phys State.physPage
  rw [bankMapper_get _ _ _ h]

/-! ## What one write through the controller can do (20_memory.md R66) -/

theorem memWrite_rom {s : State} {addr : Word} (h : s.isRom addr = true) (v : Byte) : s.memWrite addr v = s := by
  simp [State.memWrite, h]

theorem markDirty_eq (s : State) (addr : Word) :
    s.markDirty addr = { s with dirty := (s.markDirty addr).dirty } := by
  unfold State.markDirty
  split <;> rfl

theorem memWrite_plain {s : State} {addr : Word} (h : s.plain addr) (v : Byte) :
    s.memWrite addr v = { s with mem := s.mem.write (s.phys addr) v, dirty := (s.markDirty addr).dirty } := by
  obtain ⟨h1, h2⟩ := h
  unfold State.memWrite
  simp only [h1, Bool.false_eq_true, if_false, h2]
  rw [markDirty_eq]
  rfl

/-- A write to the I/O page: the ROM test fails and no line is marked, so it is the PIA's dispatch (20_memory.md R66, R78). -/
theorem memWrite_io {s : State} {addr : Word} (h : s.isRom addr = false) (hp : (pageIndex addr).val = ioPage) (v : Byte) :
    s.memWrite addr v = s.piaWrite addr v := by
  have hd : s.markDirty addr = s := by
    unfold State.markDirty
    rw [if_neg]
    unfold pageIndex ioPage at hp
    have h2 : (addr.extractLsb' 12 4).toNat = 10 := hp
    rw [BitVec.extractLsb'_toNat, Nat.shiftRight_eq_div_pow] at h2
    unfold screenBytes
    omega
  unfold State.memWrite
  simp [h, hp, hd]

/-- Every byte of physical memory but the one at the written address is as before, and so is everything outside the memory
controller and the PIA. -/
theorem piaWrite_frame (s : State) (addr : Word) (v : Byte) :
    (∀ k, k ≠ s.phys addr → (s.piaWrite addr v).mem.read k = s.mem.read k) ∧
    (s.piaWrite addr v).cpu = s.cpu ∧ (s.piaWrite addr v).cyc = s.cyc ∧ (s.piaWrite addr v).draws = s.draws ∧
    (s.piaWrite addr v).keys = s.keys ∧ (s.piaWrite addr v).pen = s.pen ∧ (s.piaWrite addr v).tape = s.tape ∧
    (s.piaWrite addr v).irqPrev = s.irqPrev ∧ (s.piaWrite addr v).running = s.running ∧
    (s.piaWrite addr v).sched = s.sched ∧ (s.piaWrite addr v).inputs = s.inputs ∧
    (s.piaWrite addr v).replies = s.replies ∧ (s.piaWrite addr v).log = s.log := by
  unfold State.piaWrite
  split
  · rename_i h
    subst h
    split
    · have hp := phys_bankMapper s { s.pia with ora := v } v oraAddr (by decide)
      refine ⟨fun k hk => ?_, rfl, rfl, rfl, rfl, rfl, rfl, rfl, rfl, rfl, rfl, rfl, rfl⟩
      rw [State.oraWrite_mem, hp, Memory.read_write, if_neg hk]
    · exact ⟨fun k hk => by simp [hk], rfl, rfl, rfl, rfl, rfl, rfl, rfl, rfl, rfl, rfl, rfl, rfl⟩
  · split
    · rename_i h
      subst h
      split <;> exact ⟨fun k hk => by simp [hk], rfl, rfl, rfl, rfl, rfl, rfl, rfl, rfl, rfl, rfl, rfl, rfl⟩
    · split
      · rename_i h
        subst h
        exact ⟨fun k hk => by simp [hk], rfl, rfl, rfl, rfl, rfl, rfl, rfl, rfl, rfl, rfl, rfl, rfl⟩
      · split
        · rename_i h
          subst h
          exact ⟨fun k hk => by simp [hk], rfl, rfl, rfl, rfl, rfl, rfl, rfl, rfl, rfl, rfl, rfl, rfl⟩
        · exact ⟨fun _ _ => rfl, rfl, rfl, rfl, rfl, rfl, rfl, rfl, rfl, rfl, rfl, rfl, rfl⟩

/-- What a write through the controller is: nothing at a ROM address, a store with its dirty mark in plain memory, the PIA's
dispatch in the I/O page. -/
theorem memWrite_cases (s : State) (addr : Word) (v : Byte) :
    (s.isRom addr = true ∧ s.memWrite addr v = s) ∨
    (s.plain addr ∧
      s.memWrite addr v = { s with mem := s.mem.write (s.phys addr) v, dirty := (s.markDirty addr).dirty }) ∨
    (s.isRom addr = false ∧ (pageIndex addr).val = ioPage ∧ s.memWrite addr v = s.piaWrite addr v) := by
  by_cases h : s.isRom addr = true
  · exact .inl ⟨h, memWrite_rom h v⟩
  · have h' : s.isRom addr = false := by simpa using h
    by_cases hp : (pageIndex addr).val = ioPage
    · exact .inr (.inr ⟨h', hp, memWrite_io h' hp v⟩)
    · exact .inr (.inl ⟨⟨h', hp⟩, memWrite_plain ⟨h', hp⟩ v⟩)

theorem memWrite_frame (s : State) (addr : Word) (v : Byte) :
    (∀ k, k ≠ s.phys addr → (s.memWrite addr v).mem.read k = s.mem.read k) ∧
    (s.memWrite addr v).cpu = s.cpu ∧ (s.memWrite addr v).cyc = s.cyc ∧ (s.memWrite addr v).draws = s.draws ∧
    (s.memWrite addr v).keys = s.keys ∧ (s.memWrite addr v).pen = s.pen ∧ (s.memWrite addr v).tape = s.tape ∧
    (s.memWrite addr v).irqPrev = s.irqPrev ∧ (s.memWrite addr v).running = s.running ∧
    (s.memWrite addr v).sched = s.sched ∧ (s.memWrite addr v).inputs = s.inputs ∧
    (s.memWrite addr v).replies = s.replies ∧ (s.memWrite addr v).log = s.log := by
  rcases memWrite_cases s addr v with ⟨_, h⟩ | ⟨_, h⟩ | ⟨_, _, h⟩
  · rw [h]; exact ⟨fun _ _ => rfl, rfl, rfl, rfl, rfl, rfl, rfl, rfl, rfl, rfl, rfl, rfl, rfl⟩
  · rw [h]; exact ⟨fun k hk => by simp [hk], rfl, rfl, rfl, rfl, rfl, rfl, rfl, rfl, rfl, rfl, rfl, rfl⟩
  · rw [h]; exact piaWrite_frame s addr v

/-- Every byte but the written one is as before. -/
theorem memWrite_read (s : State) (addr : Word) (v : Byte) {k : Nat} (hk : k ≠ s.phys addr) :
    (s.memWrite addr v).mem.read k = s.mem.read k := (memWrite_frame s addr v).1 k hk

@[simp] theorem memWrite_cpu (s : State) (addr : Word) (v : Byte) : (s.memWrite addr v).cpu = s.cpu :=
  (memWrite_frame s addr v).2.1

@[simp] theorem memWrite_cyc (s : State) (addr : Word) (v : Byte) : (s.memWrite addr v).cyc = s.cyc :=
  (memWrite_frame s addr v).2.2.1

@[simp] theorem memWrite_draws (s : State) (addr : Word) (v : Byte) : (s.memWrite addr v).draws = s.draws :=
  (memWrite_frame s addr v).2.2.2.1

@[simp] theorem memWrite_keys (s : State) (addr : Word) (v : Byte) : (s.memWrite addr v).keys = s.keys :=
  (memWrite_frame s addr v).2.2.2.2.1

@[simp] theorem memWrite_pen (s : State) (addr : Word) (v : Byte) : (s.memWrite addr v).pen = s.pen :=
  (memWrite_frame s addr v).2.2.2.2.2.1

@[simp] theorem memWrite_tape (s : State) (addr : Word) (v : Byte) : (s.memWrite addr v).tape = s.tape :=
  (memWrite_frame s addr v).2.2.2.2.2.2.1

@[simp] theorem memWrite_irqPrev (s : State) (addr : Word) (v : Byte) : (s.memWrite addr v).irqPrev = s.irqPrev :=
  (memWrite_frame s addr v).2.2.2.2.2.2.2.1

@[simp] theorem memWrite_running (s : State) (addr : Word) (v : Byte) : (s.memWrite addr v).running = s.running :=
  (memWrite_frame s addr v).2.2.2.2.2.2.2.2.1

@[simp] theorem memWrite_sched (s : State) (addr : Word) (v : Byte) : (s.memWrite addr v).sched = s.sched :=
  (memWrite_frame s addr v).2.2.2.2.2.2.2.2.2.1

@[simp] theorem memWrite_inputs (s : State) (addr : Word) (v : Byte) : (s.memWrite addr v).inputs = s.inputs :=
  (memWrite_frame s addr v).2.2.2.2.2.2.2.2.2.2.1

@[simp] theorem memWrite_replies (s : State) (addr : Word) (v : Byte) : (s.memWrite addr v).replies = s.replies :=
  (memWrite_frame s addr v).2.2.2.2.2.2.2.2.2.2.2.1

@[simp] theorem memWrite_log (s : State) (addr : Word) (v : Byte) : (s.memWrite addr v).log = s.log :=
  (memWrite_frame s addr v).2.2.2.2.2.2.2.2.2.2.2.2

/-! ## The canonical form is kept -/

theorem memSet_wf {s : State} (h : s.mem.wf = true) (addr : Word) (v : Byte) : (s.memSet addr v).mem.wf = true :=
  Memory.wf_write h (s.phys_lt addr) v

theorem piaWrite_wf {s : State} (h : s.mem.wf = true) (addr : Word) (v : Byte) : (s.piaWrite addr v).mem.wf = true := by
  unfold State.piaWrite
  split
  · split
    · rw [State.oraWrite_mem]; exact Memory.wf_write h (State.phys_lt _ _) _
    · exact Memory.wf_write h (State.phys_lt _ _) _
  · split
    · split
      · exact Memory.wf_write h (State.phys_lt _ _) _
      · exact Memory.wf_write h (State.phys_lt _ _) _
    · split
      · exact Memory.wf_write h (State.phys_lt _ _) _
      · split
        · exact Memory.wf_write h (State.phys_lt _ _) _
        · exact h

theorem memWrite_wf {s : State} (h : s.mem.wf = true) (addr : Word) (v : Byte) : (s.memWrite addr v).mem.wf = true := by
  rcases memWrite_cases s addr v with ⟨_, e⟩ | ⟨_, e⟩ | ⟨_, _, e⟩ <;> rw [e]
  · exact h
  · exact Memory.wf_write h (s.phys_lt addr) v
  · exact piaWrite_wf h addr v

theorem memWrite16_wf {s : State} (h : s.mem.wf = true) (addr : Word) (v : Word) :
    (s.memWrite16 addr v).mem.wf = true := memWrite_wf (memWrite_wf h _ _) _ _

theorem zeroRange_wf (range : List Word) {s : State} (h : s.mem.wf = true) : (zeroRange range s).mem.wf = true := by
  induction range generalizing s with
  | nil => exact h
  | cons a rest ih => exact ih (memSet_wf h a 0x00)

theorem applyPatches_wf (ps : List (Word × Byte)) {s : State} (h : s.mem.wf = true) :
    (applyPatches ps s).mem.wf = true := by
  induction ps generalizing s with
  | nil => exact h
  | cons p rest ih => exact ih (memSet_wf h p.1 p.2)

theorem loadRomFrom_wf (bytes : List Byte) (k : Nat) {m : Memory} (h : m.wf = true)
    (hk : k + bytes.length ≤ Memory.size) : (loadRomFrom k bytes m).wf = true := by
  induction bytes generalizing k m with
  | nil => exact h
  | cons v rest ih =>
    simp only [List.length_cons] at hk
    exact ih (k + 1) (Memory.wf_write h (by omega) v) (by omega)

theorem storeBytesAt_wf (bytes : List Byte) (a : Word) {s : State} (h : s.mem.wf = true) :
    (storeBytesAt a bytes s).mem.wf = true := by
  induction bytes generalizing a s with
  | nil => exact h
  | cons v rest ih => exact ih (a + 1) (memSet_wf h a v)

/-- Memory after reset is in canonical form. -/
theorem reset_wf : State.reset.mem.wf = true := by decide

/-! ## What each write through the controller is -/

theorem markDirty_low {s : State} {addr : Word} (h : addr.toNat < screenBytes) :
    s.markDirty addr = { s with dirty := s.dirty.setIfInBounds (addr.toNat / 40) true } := by
  unfold State.markDirty; exact if_pos h

theorem markDirty_high {s : State} {addr : Word} (h : ¬ addr.toNat < screenBytes) : s.markDirty addr = s := by
  unfold State.markDirty; exact if_neg h

theorem markDirty_get (s : State) (addr : Word) (line : Fin 200) :
    (s.markDirty addr).dirty.get line =
      (s.dirty.get line || decide (addr.toNat < screenBytes ∧ line.val = addr.toNat / 40)) := by
  by_cases h : addr.toNat < screenBytes
  · rw [markDirty_low h]
    by_cases e : line.val = addr.toNat / 40
    · simp [Vector.get_eq_getElem, h, e]
    · simp [Vector.get_eq_getElem, e, Ne.symm e]
  · rw [markDirty_high h]; simp [h]

theorem piaWrite_ora {s : State} (h : s.pia.cra.getLsbD ddrSelBit = true) (v : Byte) :
    s.piaWrite oraAddr v = s.oraWrite v := by
  unfold State.piaWrite; rw [if_pos rfl]; exact if_pos h

theorem piaWrite_ddra {s : State} (h : s.pia.cra.getLsbD ddrSelBit = false) (v : Byte) :
    s.piaWrite oraAddr v = s.ddraWrite v := by
  unfold State.piaWrite; rw [if_pos rfl, h]; rfl

theorem piaWrite_orb {s : State} (h : s.pia.crb.getLsbD ddrSelBit = true) (v : Byte) :
    s.piaWrite orbAddr v = s.orbWrite v := by
  unfold State.piaWrite; rw [if_neg (by decide), if_pos rfl]; exact if_pos h

theorem piaWrite_ddrb {s : State} (h : s.pia.crb.getLsbD ddrSelBit = false) (v : Byte) :
    s.piaWrite orbAddr v = s.ddrbWrite v := by
  unfold State.piaWrite; rw [if_neg (by decide), if_pos rfl, h]; rfl

theorem piaWrite_cra (s : State) (v : Byte) : s.piaWrite craAddr v = s.craWrite v := rfl

theorem piaWrite_crb (s : State) (v : Byte) : s.piaWrite crbAddr v = s.crbWrite v := rfl

theorem piaWrite_other {s : State} {addr : Word} (h1 : addr ≠ oraAddr) (h2 : addr ≠ orbAddr) (h3 : addr ≠ craAddr)
    (h4 : addr ≠ crbAddr) (v : Byte) : s.piaWrite addr v = s := by
  unfold State.piaWrite; rw [if_neg h1, if_neg h2, if_neg h3, if_neg h4]

/-- A word write where both bytes are plain memory. -/
theorem memWrite16_plain {s : State} {addr : Word} (h1 : s.plain addr) (h2 : s.plain (addr + 1)) (v : Word) :
    (s.memWrite16 addr v).mem = (s.mem.write (s.phys addr) (hiByte v)).write (s.phys (addr + 1)) (loByte v) ∧
    (s.memWrite16 addr v).mapper = s.mapper := by
  have e := memWrite_plain h1 (hiByte v)
  have hm : (s.memWrite addr (hiByte v)).mapper = s.mapper := by rw [e]
  have h2' : (s.memWrite addr (hiByte v)).plain (addr + 1) := ⟨by rw [State.isRom_congr hm]; exact h2.1, h2.2⟩
  have e2 := memWrite_plain h2' (loByte v)
  unfold State.memWrite16
  rw [e2]
  refine ⟨?_, hm⟩
  show (s.memWrite addr (hiByte v)).mem.write ((s.memWrite addr (hiByte v)).phys (addr + 1)) (loByte v) = _
  rw [State.phys_congr hm, e]

theorem readDirty_get (s : State) (line other : Fin 200) :
    (s.isDirty line).2.dirty.get other = if other = line then false else s.dirty.get other := by
  by_cases h : other = line
  · simp [State.isDirty, Vector.get_eq_getElem, h]
  · have h' : line.val ≠ other.val := fun e => h (Fin.ext e.symm)
    simp [State.isDirty, Vector.get_eq_getElem, h, h']

end Sys2Proof.Machine
end

