-- ==== Sys2Proof/Laws/Reach.lean ====
section
/-! SUPPORT. What an instruction can do to the machine, said once: a CPU instruction reaches its next state by changes of
CPU registers, charges, draws and writes through the controller, and by nothing else. -/

namespace Sys2Proof.Machine

/-- The states that an instruction can reach from `s` by register changes, charges and draws, and by writes through the
controller. -/
inductive CpuReach (s : State) : State → Prop
  | start : CpuReach s s
  | regs {t : State} (c : Cpu) (n d : Nat) :
      CpuReach s t → CpuReach s { t with cpu := c, cyc := t.cyc + n, draws := t.draws + d }
  | write {t : State} (a : Word) (v : Byte) : CpuReach s t → CpuReach s (t.memWrite a v)

namespace CpuReach

/-- A property that both kinds of move keep holds of every state reached. -/
theorem keeps {s t : State} (h : CpuReach s t) (P : State → Prop)
    (hr : ∀ (u : State) (c : Cpu) (n d : Nat), P u → P { u with cpu := c, cyc := u.cyc + n, draws := u.draws + d })
    (hw : ∀ (u : State) (a : Word) (v : Byte), P u → P (u.memWrite a v)) (h0 : P s) : P t := by
  induction h with
  | start => exact h0
  | regs c n d _ ih => exact hr _ c n d ih
  | write a v _ ih => exact hw _ a v ih

theorem trans {s t u : State} (h : CpuReach s t) (k : CpuReach t u) : CpuReach s u :=
  k.keeps (CpuReach s) (fun _ c n d h => .regs c n d h) (fun _ a v h => .write a v h) h

/-- The cycle counter never falls. -/
theorem cyc_le {s t : State} (h : CpuReach s t) : s.cyc ≤ t.cyc :=
  h.keeps (fun u => s.cyc ≤ u.cyc) (fun _ _ _ _ hu => Nat.le_add_right_of_le hu)
    (fun u a v hu => by rw [memWrite_cyc]; exact hu) (Nat.le_refl _)

/-- Memory stays in canonical form. -/
theorem mem_wf {s t : State} (h : CpuReach s t) (hs : s.mem.wf = true) : t.mem.wf = true :=
  h.keeps (fun u => u.mem.wf = true) (fun _ _ _ _ hu => hu) (fun _ a v hu => memWrite_wf hu a v) hs

/-! ## The moves of the shared operations -/

section moves

variable {s t : State}

theorem cpu (h : CpuReach s t) (c : Cpu) : CpuReach s { t with cpu := c } := .regs c 0 0 h

theorem charge (h : CpuReach s t) (n : Nat) : CpuReach s (t.charge n) := .regs t.cpu n 0 h

theorem drawBit (h : CpuReach s t) : CpuReach s t.drawBit.2 := .regs t.cpu 0 1 h

theorem setA (h : CpuReach s t) (v : Byte) : CpuReach s (t.setA v) := h.cpu _

theorem setB (h : CpuReach s t) (v : Byte) : CpuReach s (t.setB v) := h.cpu _

theorem setX (h : CpuReach s t) (v : Word) : CpuReach s (t.setX v) := h.cpu _

theorem setY (h : CpuReach s t) (v : Word) : CpuReach s (t.setY v) := h.cpu _

theorem setU (h : CpuReach s t) (v : Word) : CpuReach s (t.setU v) := h.cpu _

theorem setS (h : CpuReach s t) (v : Word) : CpuReach s (t.setS v) := h.cpu _

theorem setPc (h : CpuReach s t) (v : Word) : CpuReach s (t.setPc v) := h.cpu _

theorem setDp (h : CpuReach s t) (v : Byte) : CpuReach s (t.setDp v) := h.cpu _

theorem setCc (h : CpuReach s t) (v : Byte) : CpuReach s (t.setCc v) := h.cpu _

theorem setD (h : CpuReach s t) (v : Word) : CpuReach s (t.setD v) := h.cpu _

theorem setAcc (h : CpuReach s t) (r : Acc) (v : Byte) : CpuReach s (t.setAcc r v) := by cases r <;> exact h.cpu _

theorem setReg16 (h : CpuReach s t) (r : Reg16) (v : Word) : CpuReach s (t.setReg16 r v) := by cases r <;> exact h.cpu _

theorem setIdxReg (h : CpuReach s t) (r : IdxReg) (v : Word) : CpuReach s (t.setIdxReg r v) := by
  cases r <;> exact h.cpu _

theorem setSp (h : CpuReach s t) (k : StackPtr) (v : Word) : CpuReach s (t.setSp k v) := by cases k <;> exact h.cpu _

theorem regSet (h : CpuReach s t) (c : RegCode) (v : Word) : CpuReach s (t.regSet c v) := by
  cases c <;> exact h.cpu _

theorem memWrite16 (h : CpuReach s t) (a : Word) (v : Word) : CpuReach s (t.memWrite16 a v) := .write _ _ (.write _ _ h)

theorem resolveIndexed (h : CpuReach s t) (ix : Indexed) : CpuReach s (Machine.resolveIndexed ix t).2 := by
  cases ix with
  | off5 r n => exact h.charge _
  | mode r i m => cases m <;> first | exact (h.setIdxReg _ _).charge _ | exact h.charge _
  | extIndirect n => exact h.charge _
  | unassigned pb => exact h

theorem resolve (h : CpuReach s t) (m : MemOp) : CpuReach s (Machine.resolve m t).2 := by
  cases m with
  | dir dd => exact h
  | ext w => exact h
  | idx ix => exact h.resolveIndexed ix

theorem operand8 (h : CpuReach s t) (o : Op8) : CpuReach s (Machine.operand8 o t).2 := by
  cases o with
  | imm ii => exact h
  | mem m => exact h.resolve m

theorem operand16 (h : CpuReach s t) (o : Op16) : CpuReach s (Machine.operand16 o t).2 := by
  cases o with
  | imm w => exact h
  | mem m => exact h.resolve m

theorem push8 (h : CpuReach s t) (k : StackPtr) (v : Byte) : CpuReach s (t.push8 k v) := .write _ _ (h.setSp k _)

theorem push16 (h : CpuReach s t) (k : StackPtr) (v : Word) : CpuReach s (t.push16 k v) := (h.push8 k _).push8 k _

theorem pull8 (h : CpuReach s t) (k : StackPtr) : CpuReach s (t.pull8 k).2 := h.setSp k _

theorem pull16 (h : CpuReach s t) (k : StackPtr) : CpuReach s (t.pull16 k).2 := (h.pull8 k).pull8 k

theorem pushReg (h : CpuReach s t) (k : StackPtr) (r : StackReg) : CpuReach s (t.pushReg k r) := by
  cases r with
  | pc => exact (h.push16 k _).charge 2
  | w => exact (h.push16 k _).charge 2
  | y => exact (h.push16 k _).charge 2
  | x => exact (h.push16 k _).charge 2
  | dp => exact (h.push8 k _).charge 1
  | b => exact (h.push8 k _).charge 1
  | a => exact (h.push8 k _).charge 1
  | cc => exact (h.push8 k _).charge 1

theorem pullReg (h : CpuReach s t) (k : StackPtr) (r : StackReg) : CpuReach s (t.pullReg k r) := by
  cases r with
  | pc => exact ((h.pull16 k).setPc _).charge 2
  | w => exact ((h.pull16 k).setSp k.other _).charge 2
  | y => exact ((h.pull16 k).setY _).charge 2
  | x => exact ((h.pull16 k).setX _).charge 2
  | dp => exact ((h.pull8 k).setDp _).charge 1
  | b => exact ((h.pull8 k).setB _).charge 1
  | a => exact ((h.pull8 k).setA _).charge 1
  | cc => exact ((h.pull8 k).setCc _).charge 1

theorem pushList (k : StackPtr) (mask : Byte) (rs : List StackReg) {t : State} (h : CpuReach s t) :
    CpuReach s (Machine.pushList k mask rs t) := by
  induction rs generalizing t with
  | nil => exact h
  | cons r rs ih =>
    refine ih ?_
    split
    · exact h.pushReg k r
    · exact h

theorem pullList (k : StackPtr) (mask : Byte) (rs : List StackReg) {t : State} (h : CpuReach s t) :
    CpuReach s (Machine.pullList k mask rs t) := by
  induction rs generalizing t with
  | nil => exact h
  | cons r rs ih =>
    refine ih ?_
    split
    · exact h.pullReg k r
    · exact h

theorem psh (h : CpuReach s t) (k : StackPtr) (mask : Byte) : CpuReach s (t.psh k mask) := pushList k mask _ h

theorem pul (h : CpuReach s t) (k : StackPtr) (mask : Byte) : CpuReach s (t.pul k mask) := pullList k mask _ h

theorem pushEntire (h : CpuReach s t) : CpuReach s t.pushEntire :=
  (((((((h.push16 _ _).push16 _ _).push16 _ _).push16 _ _).push8 _ _).push8 _ _).push8 _ _).push8 _ _

theorem interruptEntry (h : CpuReach s t) (m : Byte) (v : Word) : CpuReach s (t.interruptEntry m v) :=
  ((h.setCc _).pushEntire.setCc _).setPc _

theorem irqEntry (h : CpuReach s t) : CpuReach s t.irqEntry := (h.interruptEntry _ _).charge _

theorem pullEntireRegs (h : CpuReach s t) : CpuReach s t.pullEntireRegs := by
  unfold State.pullEntireRegs
  extract_lets a b c d e f
  have ha : CpuReach s a := (h.pull8 _).setA _
  have hb : CpuReach s b := (ha.pull8 _).setB _
  have hc : CpuReach s c := (hb.pull8 _).setDp _
  have hd : CpuReach s d := (hc.pull16 _).setX _
  have he : CpuReach s e := (hd.pull16 _).setY _
  have hf : CpuReach s f := (he.pull16 _).setU _
  exact hf.charge 9

theorem returnFromInterrupt (h : CpuReach s t) : CpuReach s t.returnFromInterrupt := by
  unfold State.returnFromInterrupt
  refine (CpuReach.pull16 ?_ _).setPc _
  have h1 := (h.pull8 .s).setCc (t.pull8 .s).1
  split
  · exact h1.pullEntireRegs
  · exact h1

/-! ## The moves of the instructions -/

theorem loadAcc (r : Acc) (o : Op8) (h : CpuReach s (t.charge (op8Cycles o))) : CpuReach s (Machine.loadAcc r o t) :=
  ((h.operand8 o).setAcc r _).setCc _

theorem loadReg16 (n : Nat) (r : Reg16) (o : Op16) (h : CpuReach s (t.charge (op16Cycles n o))) :
    CpuReach s (Machine.loadReg16 n r o t) :=
  ((h.operand16 o).setReg16 r _).setCc _

theorem storeAcc (r : Acc) (m : MemOp) (h : CpuReach s (t.charge (memCycles 4 m))) :
    CpuReach s (Machine.storeAcc r m t) :=
  CpuReach.setCc (.write _ _ (h.resolve m)) _

theorem storeReg16 (n : Nat) (r : Reg16) (m : MemOp) (h : CpuReach s (t.charge (memCycles n m))) :
    CpuReach s (Machine.storeReg16 n r m t) :=
  ((h.resolve m).memWrite16 _ _).setCc _

theorem loadEa (r : Reg16) (z : Bool) (ix : Indexed) (h : CpuReach s (t.charge 4)) :
    CpuReach s (Machine.loadEa r z ix t) := by
  have h1 := (h.resolveIndexed ix).setReg16 r (Machine.resolveIndexed ix (t.charge 4)).1
  unfold Machine.loadEa
  simp only
  split
  · exact h1.setCc _
  · exact h1

theorem addAcc (r : Acc) (c : Bool) (o : Op8) (h : CpuReach s (t.charge (op8Cycles o))) :
    CpuReach s (Machine.addAcc r c o t) :=
  ((h.operand8 o).setAcc r _).setCc _

theorem subAcc (r : Acc) (c : Bool) (o : Op8) (h : CpuReach s (t.charge (op8Cycles o))) :
    CpuReach s (Machine.subAcc r c o t) :=
  ((h.operand8 o).drawBit.setAcc r _).setCc _

theorem cmpAcc (r : Acc) (o : Op8) (h : CpuReach s (t.charge (op8Cycles o))) : CpuReach s (Machine.cmpAcc r o t) :=
  (h.operand8 o).drawBit.setCc _

theorem logicAcc (r : Acc) (f : Byte → Byte → Byte) (o : Op8) (h : CpuReach s (t.charge (op8Cycles o))) :
    CpuReach s (Machine.logicAcc r f o t) := ((h.operand8 o).setAcc r _).setCc _

theorem bitAcc (r : Acc) (o : Op8) (h : CpuReach s (t.charge (op8Cycles o))) : CpuReach s (Machine.bitAcc r o t) :=
  (h.operand8 o).setCc _

theorem addD (o : Op16) (h : CpuReach s (t.charge (op16Cycles 4 o))) : CpuReach s (Machine.addD o t) :=
  ((h.operand16 o).setD _).setCc _

theorem subD (o : Op16) (h : CpuReach s (t.charge (op16Cycles 4 o))) : CpuReach s (Machine.subD o t) :=
  ((h.operand16 o).setD _).setCc _

theorem cmpReg16 (n : Nat) (r : Reg16) (o : Op16) (h : CpuReach s (t.charge (op16Cycles n o))) :
    CpuReach s (Machine.cmpReg16 n r o t) :=
  (h.operand16 o).setCc _

theorem unaryAcc (r : Acc) (f : Byte → Byte → Byte × Byte) (h : CpuReach s (t.charge 2)) :
    CpuReach s (Machine.unaryAcc r f t) :=
  (h.setAcc r _).setCc _

theorem unaryMem (m : MemOp) (f : Byte → Byte → Byte × Byte) (h : CpuReach s (t.charge (memCycles 6 m))) :
    CpuReach s (Machine.unaryMem m f t) := .write _ _ ((h.resolve m).setCc _)

theorem unaryAccH (r : Acc) (f : Byte → Bool → Byte → Byte × Byte) (h : CpuReach s (t.charge 2)) :
    CpuReach s (Machine.unaryAccH r f t) := CpuReach.unaryAcc (t := t.drawBit.2) r _ h.drawBit

theorem unaryMemH (m : MemOp) (f : Byte → Bool → Byte → Byte × Byte) (h : CpuReach s (t.charge (memCycles 6 m))) :
    CpuReach s (Machine.unaryMemH m f t) := CpuReach.unaryMem (t := t.drawBit.2) m _ h.drawBit

theorem testAcc (r : Acc) (h : CpuReach s (t.charge 2)) : CpuReach s (Machine.testAcc r t) := h.setCc _

theorem testMem (m : MemOp) (h : CpuReach s (t.charge (memCycles 6 m))) :
    CpuReach s (Machine.testMem m t) := (h.resolve m).setCc _

theorem addBToX (h : CpuReach s (t.charge 3)) : CpuReach s (Machine.addBToX t) := h.setX _

theorem multiply (h : CpuReach s (t.charge 11)) : CpuReach s (Machine.multiply t) := (h.setD _).setCc _

theorem signExtendB (h : CpuReach s (t.charge 2)) : CpuReach s (Machine.signExtendB t) := (h.setA _).setCc _

theorem decimalAdjust (h : CpuReach s (t.charge 2)) : CpuReach s (Machine.decimalAdjust t) := (h.drawBit.setA _).setCc _

theorem exchange (r1 r2 : RegCode) (h : CpuReach s (t.charge 8)) : CpuReach s (Machine.exchange r1 r2 t) :=
  (h.regSet _ _).regSet _ _

theorem transfer (r1 r2 : RegCode) (h : CpuReach s (t.charge 6)) : CpuReach s (Machine.transfer r1 r2 t) := h.regSet _ _

theorem andCc (n : Nat) (ii : Byte) (h : CpuReach s (t.charge n)) : CpuReach s (Machine.andCc n ii t) := h.setCc _

theorem orCc (n : Nat) (ii : Byte) (h : CpuReach s (t.charge n)) : CpuReach s (Machine.orCc n ii t) := h.setCc _

theorem branch (h : CpuReach s t) (c : Bool) (o : Word) : CpuReach s (Machine.branch c o t) := by
  unfold Machine.branch
  split
  · exact h.setPc _
  · exact h

theorem shortBranch (c : Cond) (o : Byte) (h : CpuReach s (t.charge 3)) : CpuReach s (Machine.shortBranch c o t) :=
  h.branch _ _

theorem longBranch (c : Cond) (o : Word) (h : CpuReach s (t.charge (if branchCond c t.cpu.cc then 6 else 5))) :
    CpuReach s (Machine.longBranch c o t) :=
  h.branch _ _

theorem callTo (h : CpuReach s t) (a : Word) : CpuReach s (Machine.callTo a t) := (h.push16 _ _).setPc _

theorem jumpTo (m : MemOp) (h : CpuReach s (t.charge (memCycles 3 m))) :
    CpuReach s (Machine.jumpTo m t) := (h.resolve m).setPc _

theorem jumpToSubroutine (m : MemOp) (h : CpuReach s (t.charge (memCycles 7 m))) :
    CpuReach s (Machine.jumpToSubroutine m t) :=
  (h.resolve m).callTo _

theorem returnFromSubroutine (h : CpuReach s (t.charge 5)) : CpuReach s (Machine.returnFromSubroutine t) :=
  (h.pull16 _).setPc _

end moves

end CpuReach

theorem memCycles_pos (n : Nat) (m : MemOp) (h : 1 ≤ n) : 1 ≤ memCycles n m := by
  cases m <;> simp only [memCycles] <;> omega

theorem op8Cycles_pos (o : Op8) : 1 ≤ op8Cycles o := by
  cases o with
  | imm ii => exact Nat.le_succ 1
  | mem m => exact memCycles_pos 4 m (by omega)

theorem op16Cycles_pos (n : Nat) (o : Op16) (h : 1 ≤ n) : 1 ≤ op16Cycles n o := by
  cases o with
  | imm w => exact h
  | mem m => exact memCycles_pos (n + 2) m (by omega)

/-- Every instruction but PERIPH answers a next state, which it reaches by the moves of `CpuReach` after it has charged at
least one cycle. -/
theorem exec_reach (i : Instr) (hi : i ≠ .periph) (s : State) : 
    ∃ n t, 1 ≤ n ∧ exec i s = .next t ∧ CpuReach (s.charge n) t := by
  cases i with
  | lda _ => exact ⟨_, _, op8Cycles_pos _, rfl, CpuReach.loadAcc _ _ .start⟩
  | ldb _ => exact ⟨_, _, op8Cycles_pos _, rfl, CpuReach.loadAcc _ _ .start⟩
  | ldd _ => exact ⟨_, _, op16Cycles_pos _ _ (by omega), rfl, CpuReach.loadReg16 _ _ _ .start⟩
  | ldx _ => exact ⟨_, _, op16Cycles_pos _ _ (by omega), rfl, CpuReach.loadReg16 _ _ _ .start⟩
  | ldy _ => exact ⟨_, _, op16Cycles_pos _ _ (by omega), rfl, CpuReach.loadReg16 _ _ _ .start⟩
  | ldu _ => exact ⟨_, _, op16Cycles_pos _ _ (by omega), rfl, CpuReach.loadReg16 _ _ _ .start⟩
  | lds _ => exact ⟨_, _, op16Cycles_pos _ _ (by omega), rfl, CpuReach.loadReg16 _ _ _ .start⟩
  | sta _ => exact ⟨_, _, memCycles_pos _ _ (by omega), rfl, CpuReach.storeAcc _ _ .start⟩
  | stb _ => exact ⟨_, _, memCycles_pos _ _ (by omega), rfl, CpuReach.storeAcc _ _ .start⟩
  | std _ => exact ⟨_, _, memCycles_pos _ _ (by omega), rfl, CpuReach.storeReg16 _ _ _ .start⟩
  | stx _ => exact ⟨_, _, memCycles_pos _ _ (by omega), rfl, CpuReach.storeReg16 _ _ _ .start⟩
  | sty _ => exact ⟨_, _, memCycles_pos _ _ (by omega), rfl, CpuReach.storeReg16 _ _ _ .start⟩
  | stu _ => exact ⟨_, _, memCycles_pos _ _ (by omega), rfl, CpuReach.storeReg16 _ _ _ .start⟩
  | sts _ => exact ⟨_, _, memCycles_pos _ _ (by omega), rfl, CpuReach.storeReg16 _ _ _ .start⟩
  | leax _ => exact ⟨_, _, by omega, rfl, CpuReach.loadEa _ _ _ .start⟩
  | leay _ => exact ⟨_, _, by omega, rfl, CpuReach.loadEa _ _ _ .start⟩
  | leas _ => exact ⟨_, _, by omega, rfl, CpuReach.loadEa _ _ _ .start⟩
  | leau _ => exact ⟨_, _, by omega, rfl, CpuReach.loadEa _ _ _ .start⟩
  | suba _ => exact ⟨_, _, op8Cycles_pos _, rfl, CpuReach.subAcc _ _ _ .start⟩
  | subb _ => exact ⟨_, _, op8Cycles_pos _, rfl, CpuReach.subAcc _ _ _ .start⟩
  | cmpa _ => exact ⟨_, _, op8Cycles_pos _, rfl, CpuReach.cmpAcc _ _ .start⟩
  | cmpb _ => exact ⟨_, _, op8Cycles_pos _, rfl, CpuReach.cmpAcc _ _ .start⟩
  | sbca _ => exact ⟨_, _, op8Cycles_pos _, rfl, CpuReach.subAcc _ _ _ .start⟩
  | sbcb _ => exact ⟨_, _, op8Cycles_pos _, rfl, CpuReach.subAcc _ _ _ .start⟩
  | anda _ => exact ⟨_, _, op8Cycles_pos _, rfl, CpuReach.logicAcc _ _ _ .start⟩
  | andb _ => exact ⟨_, _, op8Cycles_pos _, rfl, CpuReach.logicAcc _ _ _ .start⟩
  | bita _ => exact ⟨_, _, op8Cycles_pos _, rfl, CpuReach.bitAcc _ _ .start⟩
  | bitb _ => exact ⟨_, _, op8Cycles_pos _, rfl, CpuReach.bitAcc _ _ .start⟩
  | eora _ => exact ⟨_, _, op8Cycles_pos _, rfl, CpuReach.logicAcc _ _ _ .start⟩
  | eorb _ => exact ⟨_, _, op8Cycles_pos _, rfl, CpuReach.logicAcc _ _ _ .start⟩
  | adca _ => exact ⟨_, _, op8Cycles_pos _, rfl, CpuReach.addAcc _ _ _ .start⟩
  | adcb _ => exact ⟨_, _, op8Cycles_pos _, rfl, CpuReach.addAcc _ _ _ .start⟩
  | ora _ => exact ⟨_, _, op8Cycles_pos _, rfl, CpuReach.logicAcc _ _ _ .start⟩
  | orb _ => exact ⟨_, _, op8Cycles_pos _, rfl, CpuReach.logicAcc _ _ _ .start⟩
  | adda _ => exact ⟨_, _, op8Cycles_pos _, rfl, CpuReach.addAcc _ _ _ .start⟩
  | addb _ => exact ⟨_, _, op8Cycles_pos _, rfl, CpuReach.addAcc _ _ _ .start⟩
  | addd _ => exact ⟨_, _, op16Cycles_pos _ _ (by omega), rfl, CpuReach.addD _ .start⟩
  | subd _ => exact ⟨_, _, op16Cycles_pos _ _ (by omega), rfl, CpuReach.subD _ .start⟩
  | cmpx _ => exact ⟨_, _, op16Cycles_pos _ _ (by omega), rfl, CpuReach.cmpReg16 _ _ _ .start⟩
  | cmpd _ => exact ⟨_, _, op16Cycles_pos _ _ (by omega), rfl, CpuReach.cmpReg16 _ _ _ .start⟩
  | cmpy _ => exact ⟨_, _, op16Cycles_pos _ _ (by omega), rfl, CpuReach.cmpReg16 _ _ _ .start⟩
  | cmpu _ => exact ⟨_, _, op16Cycles_pos _ _ (by omega), rfl, CpuReach.cmpReg16 _ _ _ .start⟩
  | cmps _ => exact ⟨_, _, op16Cycles_pos _ _ (by omega), rfl, CpuReach.cmpReg16 _ _ _ .start⟩
  | nega => exact ⟨_, _, by omega, rfl, CpuReach.unaryAccH _ _ .start⟩
  | negb => exact ⟨_, _, by omega, rfl, CpuReach.unaryAccH _ _ .start⟩
  | neg _ => exact ⟨_, _, memCycles_pos _ _ (by omega), rfl, CpuReach.unaryMemH _ _ .start⟩
  | coma => exact ⟨_, _, by omega, rfl, CpuReach.unaryAcc _ _ .start⟩
  | comb => exact ⟨_, _, by omega, rfl, CpuReach.unaryAcc _ _ .start⟩
  | com _ => exact ⟨_, _, memCycles_pos _ _ (by omega), rfl, CpuReach.unaryMem _ _ .start⟩
  | lsra => exact ⟨_, _, by omega, rfl, CpuReach.unaryAcc _ _ .start⟩
  | lsrb => exact ⟨_, _, by omega, rfl, CpuReach.unaryAcc _ _ .start⟩
  | lsr _ => exact ⟨_, _, memCycles_pos _ _ (by omega), rfl, CpuReach.unaryMem _ _ .start⟩
  | rora => exact ⟨_, _, by omega, rfl, CpuReach.unaryAcc _ _ .start⟩
  | rorb => exact ⟨_, _, by omega, rfl, CpuReach.unaryAcc _ _ .start⟩
  | ror _ => exact ⟨_, _, memCycles_pos _ _ (by omega), rfl, CpuReach.unaryMem _ _ .start⟩
  | asra => exact ⟨_, _, by omega, rfl, CpuReach.unaryAccH _ _ .start⟩
  | asrb => exact ⟨_, _, by omega, rfl, CpuReach.unaryAccH _ _ .start⟩
  | asr _ => exact ⟨_, _, memCycles_pos _ _ (by omega), rfl, CpuReach.unaryMemH _ _ .start⟩
  | asla => exact ⟨_, _, by omega, rfl, CpuReach.unaryAccH _ _ .start⟩
  | aslb => exact ⟨_, _, by omega, rfl, CpuReach.unaryAccH _ _ .start⟩
  | asl _ => exact ⟨_, _, memCycles_pos _ _ (by omega), rfl, CpuReach.unaryMemH _ _ .start⟩
  | rola => exact ⟨_, _, by omega, rfl, CpuReach.unaryAcc _ _ .start⟩
  | rolb => exact ⟨_, _, by omega, rfl, CpuReach.unaryAcc _ _ .start⟩
  | rol _ => exact ⟨_, _, memCycles_pos _ _ (by omega), rfl, CpuReach.unaryMem _ _ .start⟩
  | deca => exact ⟨_, _, by omega, rfl, CpuReach.unaryAcc _ _ .start⟩
  | decb => exact ⟨_, _, by omega, rfl, CpuReach.unaryAcc _ _ .start⟩
  | dec _ => exact ⟨_, _, memCycles_pos _ _ (by omega), rfl, CpuReach.unaryMem _ _ .start⟩
  | inca => exact ⟨_, _, by omega, rfl, CpuReach.unaryAcc _ _ .start⟩
  | incb => exact ⟨_, _, by omega, rfl, CpuReach.unaryAcc _ _ .start⟩
  | inc _ => exact ⟨_, _, memCycles_pos _ _ (by omega), rfl, CpuReach.unaryMem _ _ .start⟩
  | tsta => exact ⟨_, _, by omega, rfl, CpuReach.testAcc _ .start⟩
  | tstb => exact ⟨_, _, by omega, rfl, CpuReach.testAcc _ .start⟩
  | tst _ => exact ⟨_, _, memCycles_pos _ _ (by omega), rfl, CpuReach.testMem _ .start⟩
  | clra => exact ⟨_, _, by omega, rfl, CpuReach.unaryAcc _ _ .start⟩
  | clrb => exact ⟨_, _, by omega, rfl, CpuReach.unaryAcc _ _ .start⟩
  | clr _ => exact ⟨_, _, memCycles_pos _ _ (by omega), rfl, CpuReach.unaryMem _ _ .start⟩
  | abx => exact ⟨_, _, by omega, rfl, CpuReach.addBToX .start⟩
  | mul => exact ⟨_, _, by omega, rfl, CpuReach.multiply .start⟩
  | sex => exact ⟨_, _, by omega, rfl, CpuReach.signExtendB .start⟩
  | daa => exact ⟨_, _, by omega, rfl, CpuReach.decimalAdjust .start⟩
  | exg _ _ => exact ⟨_, _, by omega, rfl, CpuReach.exchange _ _ .start⟩
  | tfr _ _ => exact ⟨_, _, by omega, rfl, CpuReach.transfer _ _ .start⟩
  | andcc _ => exact ⟨_, _, by omega, rfl, CpuReach.andCc _ _ .start⟩
  | orcc _ => exact ⟨_, _, by omega, rfl, CpuReach.orCc _ _ .start⟩
  | nop => exact ⟨2, _, by omega, rfl, .start⟩
  | pshs _ => exact ⟨_, _, by omega, rfl, CpuReach.start.psh _ _⟩
  | puls _ => exact ⟨_, _, by omega, rfl, CpuReach.start.pul _ _⟩
  | pshu _ => exact ⟨_, _, by omega, rfl, CpuReach.start.psh _ _⟩
  | pulu _ => exact ⟨_, _, by omega, rfl, CpuReach.start.pul _ _⟩
  | bra _ => exact ⟨_, _, by omega, rfl, CpuReach.shortBranch _ _ .start⟩
  | brn _ => exact ⟨_, _, by omega, rfl, CpuReach.shortBranch _ _ .start⟩
  | bhi _ => exact ⟨_, _, by omega, rfl, CpuReach.shortBranch _ _ .start⟩
  | bls _ => exact ⟨_, _, by omega, rfl, CpuReach.shortBranch _ _ .start⟩
  | bcc _ => exact ⟨_, _, by omega, rfl, CpuReach.shortBranch _ _ .start⟩
  | bcs _ => exact ⟨_, _, by omega, rfl, CpuReach.shortBranch _ _ .start⟩
  | bne _ => exact ⟨_, _, by omega, rfl, CpuReach.shortBranch _ _ .start⟩
  | beq _ => exact ⟨_, _, by omega, rfl, CpuReach.shortBranch _ _ .start⟩
  | bvc _ => exact ⟨_, _, by omega, rfl, CpuReach.shortBranch _ _ .start⟩
  | bvs _ => exact ⟨_, _, by omega, rfl, CpuReach.shortBranch _ _ .start⟩
  | bpl _ => exact ⟨_, _, by omega, rfl, CpuReach.shortBranch _ _ .start⟩
  | bmi _ => exact ⟨_, _, by omega, rfl, CpuReach.shortBranch _ _ .start⟩
  | bge _ => exact ⟨_, _, by omega, rfl, CpuReach.shortBranch _ _ .start⟩
  | blt _ => exact ⟨_, _, by omega, rfl, CpuReach.shortBranch _ _ .start⟩
  | bgt _ => exact ⟨_, _, by omega, rfl, CpuReach.shortBranch _ _ .start⟩
  | ble _ => exact ⟨_, _, by omega, rfl, CpuReach.shortBranch _ _ .start⟩
  | bsr _ => exact ⟨_, _, by omega, rfl, CpuReach.start.callTo _⟩
  | lbra _ => exact ⟨_, _, by omega, rfl, CpuReach.start.branch _ _⟩
  | lbrn _ => exact ⟨_, _, by split <;> omega, rfl, CpuReach.longBranch _ _ .start⟩
  | lbhi _ => exact ⟨_, _, by split <;> omega, rfl, CpuReach.longBranch _ _ .start⟩
  | lbls _ => exact ⟨_, _, by split <;> omega, rfl, CpuReach.longBranch _ _ .start⟩
  | lbcc _ => exact ⟨_, _, by split <;> omega, rfl, CpuReach.longBranch _ _ .start⟩
  | lbcs _ => exact ⟨_, _, by split <;> omega, rfl, CpuReach.longBranch _ _ .start⟩
  | lbne _ => exact ⟨_, _, by split <;> omega, rfl, CpuReach.longBranch _ _ .start⟩
  | lbeq _ => exact ⟨_, _, by split <;> omega, rfl, CpuReach.longBranch _ _ .start⟩
  | lbvc _ => exact ⟨_, _, by split <;> omega, rfl, CpuReach.longBranch _ _ .start⟩
  | lbvs _ => exact ⟨_, _, by split <;> omega, rfl, CpuReach.longBranch _ _ .start⟩
  | lbpl _ => exact ⟨_, _, by split <;> omega, rfl, CpuReach.longBranch _ _ .start⟩
  | lbmi _ => exact ⟨_, _, by split <;> omega, rfl, CpuReach.longBranch _ _ .start⟩
  | lbge _ => exact ⟨_, _, by split <;> omega, rfl, CpuReach.longBranch _ _ .start⟩
  | lblt _ => exact ⟨_, _, by split <;> omega, rfl, CpuReach.longBranch _ _ .start⟩
  | lbgt _ => exact ⟨_, _, by split <;> omega, rfl, CpuReach.longBranch _ _ .start⟩
  | lble _ => exact ⟨_, _, by split <;> omega, rfl, CpuReach.longBranch _ _ .start⟩
  | lbsr _ => exact ⟨_, _, by omega, rfl, CpuReach.start.callTo _⟩
  | jmp _ => exact ⟨_, _, memCycles_pos _ _ (by omega), rfl, CpuReach.jumpTo _ .start⟩
  | jsr _ => exact ⟨_, _, memCycles_pos _ _ (by omega), rfl, CpuReach.jumpToSubroutine _ .start⟩
  | rts => exact ⟨_, _, by omega, rfl, CpuReach.returnFromSubroutine .start⟩
  | swi => exact ⟨_, _, by omega, rfl, CpuReach.start.interruptEntry _ _⟩
  | swi2 => exact ⟨_, _, by omega, rfl, CpuReach.start.interruptEntry _ _⟩
  | swi3 => exact ⟨_, _, by omega, rfl, CpuReach.start.interruptEntry _ _⟩
  | cwai _ => exact ⟨_, _, by omega, rfl, CpuReach.andCc _ _ .start⟩
  | rti => exact ⟨_, _, by omega, rfl, CpuReach.start.returnFromInterrupt⟩
  | sync => exact ⟨4, _, by omega, rfl, .start⟩
  | periph => exact absurd rfl hi

end Sys2Proof.Machine
end

