-- ==== Sys2Proof/Laws/Ops.lean ====
section
/-! SUPPORT. What each shared operation of the instructions does: the resolvers and operands, the stacks, taking an interrupt
and the trap handlers. -/

namespace Sys2Proof.Machine

/-! ## Reads do not see a charge, a draw or a register -/

@[simp] theorem charge_phys (s : State) (n : Nat) (a : Word) : (s.charge n).phys a = s.phys a := rfl

@[simp] theorem charge_memRead (s : State) (n : Nat) (a : Word) : (s.charge n).memRead a = s.memRead a := rfl

@[simp] theorem charge_memRead16 (s : State) (n : Nat) (a : Word) : (s.charge n).memRead16 a = s.memRead16 a := rfl

@[simp] theorem charge_charge (s : State) (m n : Nat) : (s.charge m).charge n = s.charge (m + n) := by
  unfold State.charge; simp [Nat.add_assoc]

/-! ## The resolvers (40_addressing.md R150) -/

theorem setIdxReg_eq (s : State) (r : IdxReg) (v : Word) :
    s.setIdxReg r v = { s with cpu := (s.setIdxReg r v).cpu } := by
  cases r <;> rfl

theorem subModeEa_eq (r : IdxReg) (m : SubMode) (s : State) :
    (subModeEa r m s).2 = { s with cpu := (subModeEa r m s).2.cpu } := by
  cases m <;> first | rfl | exact setIdxReg_eq _ _ _

/-- A resolver changes CPU registers and the cycle counter, and nothing else. -/
theorem resolveIndexed_eq (ix : Indexed) (s : State) :
    (resolveIndexed ix s).2 =
      { s with cpu := (resolveIndexed ix s).2.cpu, cyc := s.cyc + indexedCycles ix } := by
  cases ix with
  | off5 r n => rfl
  | mode r i m =>
    have h := subModeEa_eq r m s
    simp only [resolveIndexed]
    rw [h]
    rfl
  | extIndirect n => rfl
  | unassigned pb => rfl

/-- A resolver changes CPU registers and the cycle counter, and nothing else. -/
theorem resolve_eq (m : MemOp) (s : State) :
    (resolve m s).2 = { s with cpu := (resolve m s).2.cpu, cyc := s.cyc + extraCycles m } := by
  cases m with
  | dir dd => rfl
  | ext w => rfl
  | idx ix => exact resolveIndexed_eq ix s

@[simp] theorem resolveIndexed_draws (ix : Indexed) (s : State) : (resolveIndexed ix s).2.draws = s.draws := by
  rw [resolveIndexed_eq]

@[simp] theorem resolveIndexed_mem (ix : Indexed) (s : State) : (resolveIndexed ix s).2.mem = s.mem := by
  rw [resolveIndexed_eq]

@[simp] theorem resolveIndexed_mapper (ix : Indexed) (s : State) : (resolveIndexed ix s).2.mapper = s.mapper := by
  rw [resolveIndexed_eq]

@[simp] theorem resolveIndexed_dirty (ix : Indexed) (s : State) : (resolveIndexed ix s).2.dirty = s.dirty := by
  rw [resolveIndexed_eq]

@[simp] theorem resolveIndexed_pia (ix : Indexed) (s : State) : (resolveIndexed ix s).2.pia = s.pia := by
  rw [resolveIndexed_eq]

@[simp] theorem resolveIndexed_snd (ix : Indexed) (s : State) : (resolveIndexed ix s).2.snd = s.snd := by
  rw [resolveIndexed_eq]

@[simp] theorem resolveIndexed_keys (ix : Indexed) (s : State) : (resolveIndexed ix s).2.keys = s.keys := by
  rw [resolveIndexed_eq]

@[simp] theorem resolveIndexed_pen (ix : Indexed) (s : State) : (resolveIndexed ix s).2.pen = s.pen := by
  rw [resolveIndexed_eq]

@[simp] theorem resolveIndexed_tape (ix : Indexed) (s : State) : (resolveIndexed ix s).2.tape = s.tape := by
  rw [resolveIndexed_eq]

@[simp] theorem resolveIndexed_irqPrev (ix : Indexed) (s : State) : (resolveIndexed ix s).2.irqPrev = s.irqPrev := by
  rw [resolveIndexed_eq]

@[simp] theorem resolveIndexed_running (ix : Indexed) (s : State) : (resolveIndexed ix s).2.running = s.running := by
  rw [resolveIndexed_eq]

@[simp] theorem resolveIndexed_sched (ix : Indexed) (s : State) : (resolveIndexed ix s).2.sched = s.sched := by
  rw [resolveIndexed_eq]

@[simp] theorem resolveIndexed_inputs (ix : Indexed) (s : State) : (resolveIndexed ix s).2.inputs = s.inputs := by
  rw [resolveIndexed_eq]

@[simp] theorem resolveIndexed_replies (ix : Indexed) (s : State) : (resolveIndexed ix s).2.replies = s.replies := by
  rw [resolveIndexed_eq]

@[simp] theorem resolveIndexed_log (ix : Indexed) (s : State) : (resolveIndexed ix s).2.log = s.log := by
  rw [resolveIndexed_eq]

@[simp] theorem resolveIndexed_cyc (ix : Indexed) (s : State) : (resolveIndexed ix s).2.cyc = s.cyc + indexedCycles ix := by
  rw [resolveIndexed_eq]

@[simp] theorem resolve_draws (m : MemOp) (s : State) : (resolve m s).2.draws = s.draws := by rw [resolve_eq]

@[simp] theorem resolve_mem (m : MemOp) (s : State) : (resolve m s).2.mem = s.mem := by rw [resolve_eq]

@[simp] theorem resolve_mapper (m : MemOp) (s : State) : (resolve m s).2.mapper = s.mapper := by rw [resolve_eq]

@[simp] theorem resolve_dirty (m : MemOp) (s : State) : (resolve m s).2.dirty = s.dirty := by rw [resolve_eq]

@[simp] theorem resolve_pia (m : MemOp) (s : State) : (resolve m s).2.pia = s.pia := by rw [resolve_eq]

@[simp] theorem resolve_snd (m : MemOp) (s : State) : (resolve m s).2.snd = s.snd := by rw [resolve_eq]

@[simp] theorem resolve_keys (m : MemOp) (s : State) : (resolve m s).2.keys = s.keys := by rw [resolve_eq]

@[simp] theorem resolve_pen (m : MemOp) (s : State) : (resolve m s).2.pen = s.pen := by rw [resolve_eq]

@[simp] theorem resolve_tape (m : MemOp) (s : State) : (resolve m s).2.tape = s.tape := by rw [resolve_eq]

@[simp] theorem resolve_irqPrev (m : MemOp) (s : State) : (resolve m s).2.irqPrev = s.irqPrev := by rw [resolve_eq]

@[simp] theorem resolve_running (m : MemOp) (s : State) : (resolve m s).2.running = s.running := by rw [resolve_eq]

@[simp] theorem resolve_sched (m : MemOp) (s : State) : (resolve m s).2.sched = s.sched := by rw [resolve_eq]

@[simp] theorem resolve_inputs (m : MemOp) (s : State) : (resolve m s).2.inputs = s.inputs := by rw [resolve_eq]

@[simp] theorem resolve_replies (m : MemOp) (s : State) : (resolve m s).2.replies = s.replies := by rw [resolve_eq]

@[simp] theorem resolve_log (m : MemOp) (s : State) : (resolve m s).2.log = s.log := by rw [resolve_eq]

@[simp] theorem resolve_cyc (m : MemOp) (s : State) : (resolve m s).2.cyc = s.cyc + extraCycles m := by rw [resolve_eq]

/-- A charge before a resolver is a charge after it. -/
@[simp] theorem resolveIndexed_charge (ix : Indexed) (s : State) (n : Nat) :
    resolveIndexed ix (s.charge n) = ((resolveIndexed ix s).1, (resolveIndexed ix s).2.charge n) := by
  cases ix with
  | off5 r k => cases r <;> simp [resolveIndexed, State.charge, State.idxReg, Nat.add_right_comm]
  | mode r i m =>
    cases r <;> cases m <;> simp [resolveIndexed, subModeEa, State.charge, State.idxReg, State.setIdxReg, State.setX,
      State.setY, State.setU, State.setS, State.memRead16, State.memRead, State.phys, State.physPage, State.d,
      Nat.add_right_comm]
  | extIndirect k => simp [resolveIndexed, State.charge, State.memRead16, State.memRead, State.phys, State.physPage,
      Nat.add_right_comm]
  | unassigned pb => rfl

/-- A charge before a resolver is a charge after it. -/
@[simp] theorem resolve_charge (m : MemOp) (s : State) (n : Nat) :
    resolve m (s.charge n) = ((resolve m s).1, (resolve m s).2.charge n) := by
  cases m with
  | dir dd => rfl
  | ext w => rfl
  | idx ix => exact resolveIndexed_charge ix s n

/-! ## Source operands (41_load_store.md R180) -/

theorem operand8_eq (o : Op8) (s : State) :
    (operand8 o s).2 = { s with cpu := (operand8 o s).2.cpu, cyc := s.cyc + extraCycles8 o } := by
  cases o with
  | imm ii => rfl
  | mem m => exact resolve_eq m s

theorem operand16_eq (o : Op16) (s : State) :
    (operand16 o s).2 = { s with cpu := (operand16 o s).2.cpu, cyc := s.cyc + extraCycles16 o } := by
  cases o with
  | imm w => rfl
  | mem m => exact resolve_eq m s

@[simp] theorem operand8_draws (o : Op8) (s : State) : (operand8 o s).2.draws = s.draws := by rw [operand8_eq]

@[simp] theorem operand8_mem (o : Op8) (s : State) : (operand8 o s).2.mem = s.mem := by rw [operand8_eq]

@[simp] theorem operand8_mapper (o : Op8) (s : State) : (operand8 o s).2.mapper = s.mapper := by rw [operand8_eq]

@[simp] theorem operand8_dirty (o : Op8) (s : State) : (operand8 o s).2.dirty = s.dirty := by rw [operand8_eq]

@[simp] theorem operand8_pia (o : Op8) (s : State) : (operand8 o s).2.pia = s.pia := by rw [operand8_eq]

@[simp] theorem operand8_snd (o : Op8) (s : State) : (operand8 o s).2.snd = s.snd := by rw [operand8_eq]

@[simp] theorem operand8_keys (o : Op8) (s : State) : (operand8 o s).2.keys = s.keys := by rw [operand8_eq]

@[simp] theorem operand8_pen (o : Op8) (s : State) : (operand8 o s).2.pen = s.pen := by rw [operand8_eq]

@[simp] theorem operand8_tape (o : Op8) (s : State) : (operand8 o s).2.tape = s.tape := by rw [operand8_eq]

@[simp] theorem operand8_irqPrev (o : Op8) (s : State) : (operand8 o s).2.irqPrev = s.irqPrev := by rw [operand8_eq]

@[simp] theorem operand8_running (o : Op8) (s : State) : (operand8 o s).2.running = s.running := by rw [operand8_eq]

@[simp] theorem operand8_sched (o : Op8) (s : State) : (operand8 o s).2.sched = s.sched := by rw [operand8_eq]

@[simp] theorem operand8_inputs (o : Op8) (s : State) : (operand8 o s).2.inputs = s.inputs := by rw [operand8_eq]

@[simp] theorem operand8_replies (o : Op8) (s : State) : (operand8 o s).2.replies = s.replies := by rw [operand8_eq]

@[simp] theorem operand8_log (o : Op8) (s : State) : (operand8 o s).2.log = s.log := by rw [operand8_eq]

@[simp] theorem operand8_cyc (o : Op8) (s : State) : (operand8 o s).2.cyc = s.cyc + extraCycles8 o := by
  rw [operand8_eq]

@[simp] theorem operand8_charge (o : Op8) (s : State) (n : Nat) :
    operand8 o (s.charge n) = ((operand8 o s).1, (operand8 o s).2.charge n) := by
  cases o with
  | imm v => rfl
  | mem m => simp [operand8]

@[simp] theorem operand16_draws (o : Op16) (s : State) : (operand16 o s).2.draws = s.draws := by rw [operand16_eq]

@[simp] theorem operand16_mem (o : Op16) (s : State) : (operand16 o s).2.mem = s.mem := by rw [operand16_eq]

@[simp] theorem operand16_mapper (o : Op16) (s : State) : (operand16 o s).2.mapper = s.mapper := by rw [operand16_eq]

@[simp] theorem operand16_dirty (o : Op16) (s : State) : (operand16 o s).2.dirty = s.dirty := by rw [operand16_eq]

@[simp] theorem operand16_pia (o : Op16) (s : State) : (operand16 o s).2.pia = s.pia := by rw [operand16_eq]

@[simp] theorem operand16_snd (o : Op16) (s : State) : (operand16 o s).2.snd = s.snd := by rw [operand16_eq]

@[simp] theorem operand16_keys (o : Op16) (s : State) : (operand16 o s).2.keys = s.keys := by rw [operand16_eq]

@[simp] theorem operand16_pen (o : Op16) (s : State) : (operand16 o s).2.pen = s.pen := by rw [operand16_eq]

@[simp] theorem operand16_tape (o : Op16) (s : State) : (operand16 o s).2.tape = s.tape := by rw [operand16_eq]

@[simp] theorem operand16_irqPrev (o : Op16) (s : State) : (operand16 o s).2.irqPrev = s.irqPrev := by rw [operand16_eq]

@[simp] theorem operand16_running (o : Op16) (s : State) : (operand16 o s).2.running = s.running := by rw [operand16_eq]

@[simp] theorem operand16_sched (o : Op16) (s : State) : (operand16 o s).2.sched = s.sched := by rw [operand16_eq]

@[simp] theorem operand16_inputs (o : Op16) (s : State) : (operand16 o s).2.inputs = s.inputs := by rw [operand16_eq]

@[simp] theorem operand16_replies (o : Op16) (s : State) : (operand16 o s).2.replies = s.replies := by rw [operand16_eq]

@[simp] theorem operand16_log (o : Op16) (s : State) : (operand16 o s).2.log = s.log := by rw [operand16_eq]

@[simp] theorem operand16_cyc (o : Op16) (s : State) : (operand16 o s).2.cyc = s.cyc + extraCycles16 o := by
  rw [operand16_eq]

@[simp] theorem operand16_charge (o : Op16) (s : State) (n : Nat) :
    operand16 o (s.charge n) = ((operand16 o s).1, (operand16 o s).2.charge n) := by
  cases o with
  | imm v => rfl
  | mem m => simp [operand16]

/-! ## The stacks (46_stack.md R360) -/

theorem setSp_eq (s : State) (k : StackPtr) (v : Word) : s.setSp k v = { s with cpu := (s.setSp k v).cpu } := by
  cases k <;> rfl

@[simp] theorem setSp_sp (s : State) (k : StackPtr) (v : Word) : (s.setSp k v).sp k = v := by cases k <;> rfl

@[simp] theorem setSp_mem (s : State) (k : StackPtr) (v : Word) : (s.setSp k v).mem = s.mem := by cases k <;> rfl

@[simp] theorem setSp_mapper (s : State) (k : StackPtr) (v : Word) : (s.setSp k v).mapper = s.mapper := by
  cases k <;> rfl

@[simp] theorem setSp_phys (s : State) (k : StackPtr) (v a : Word) : (s.setSp k v).phys a = s.phys a := by
  cases k <;> rfl

@[simp] theorem setSp_memRead (s : State) (k : StackPtr) (v a : Word) : (s.setSp k v).memRead a = s.memRead a := by
  cases k <;> rfl

@[simp] theorem memWrite_sp (s : State) (k : StackPtr) (a : Word) (v : Byte) : (s.memWrite a v).sp k = s.sp k := by
  cases k <;> simp [State.sp]

/-- A push of a byte: the stack pointer is one lower, and no byte but the pushed one has changed. -/
theorem push8_spec (s : State) (k : StackPtr) (v : Byte) :
    (s.push8 k v).cpu = (s.setSp k (s.sp k - 1)).cpu ∧ (s.push8 k v).cyc = s.cyc ∧
    ∀ j, j ≠ s.phys (s.sp k - 1) → (s.push8 k v).mem.read j = s.mem.read j := by
  unfold State.push8
  refine ⟨by simp, ?_, fun j hj => ?_⟩
  · rw [memWrite_cyc, setSp_eq]
  · rw [memWrite_read _ _ _ (by simpa using hj), setSp_mem]

/-- A push of a byte to plain memory stores it. -/
theorem push8_plain {s : State} {k : StackPtr} (h : s.plain (s.sp k - 1)) (v : Byte) :
    (s.push8 k v).mem = s.mem.write (s.phys (s.sp k - 1)) v ∧ (s.push8 k v).mapper = s.mapper := by
  have h' : (s.setSp k (s.sp k - 1)).plain (s.sp k - 1) := by
    cases k <;> exact h
  unfold State.push8
  rw [memWrite_plain h']
  simp

@[simp] theorem pull8_value (s : State) (k : StackPtr) : (s.pull8 k).1 = s.memRead (s.sp k) := rfl

@[simp] theorem pull8_state (s : State) (k : StackPtr) : (s.pull8 k).2 = s.setSp k (s.sp k + 1) := rfl

/-- A pull of a word: big-endian, the stack pointer two higher, nothing else changed. -/
theorem pull16_spec (s : State) (k : StackPtr) :
    (s.pull16 k).1 = s.memRead16 (s.sp k) ∧ (s.pull16 k).2 = s.setSp k (s.sp k + 2) := by
  have h2 : ∀ w : Word, w + 1#16 + 1#16 = w + 2#16 := fun w => by rw [BitVec.add_assoc]; rfl
  cases k
  · exact ⟨rfl, by simp [State.pull16, State.setSp, State.sp, State.setS, h2]⟩
  · exact ⟨rfl, by simp [State.pull16, State.setSp, State.sp, State.setU, h2]⟩

/-! ## The trap handlers (49_periph_tape.md) -/

theorem tapeRead_eq (s : State) :
    s.tapeRead.2 = { s with tape := s.tapeRead.2.tape, draws := s.tapeRead.2.draws } := by
  unfold State.tapeRead
  split <;> rfl

theorem refillTapeByte_eq (s : State) :
    s.refillTapeByte = { s with tape := s.refillTapeByte.tape, draws := s.refillTapeByte.draws } := by
  unfold State.refillTapeByte
  split
  · rw [tapeRead_eq]; rfl
  · rfl

/-- The read-bit trap changes the tape codec, the draws and the bit byte, and nothing else. -/
theorem tapeReadBit_eq (s : State) (a : Word) :
    s.tapeReadBit a = { s with
      tape := (s.tapeReadBit a).tape
      draws := (s.tapeReadBit a).draws
      mem := s.mem.write (s.phys a) (tapeBitPattern s.refillTapeByte.tape.tb.msb) } := by
  unfold State.tapeReadBit
  rw [refillTapeByte_eq]
  rfl

theorem createOutput_eq (s : State) :
    s.createOutput =
      { s with tape := s.createOutput.tape, draws := s.createOutput.draws, log := s.createOutput.log } := by
  unfold State.createOutput
  simp only
  split <;> rfl

/-- The write-byte trap changes the tape codec, the draws and the log, and nothing else. -/
theorem tapeWriteByte_eq (s : State) :
    s.tapeWriteByte =
      { s with tape := s.tapeWriteByte.tape, draws := s.tapeWriteByte.draws, log := s.tapeWriteByte.log } := by
  have hc : ∀ u : State, u = { s with tape := u.tape, draws := u.draws, log := u.log } →
      (if u.tape.outFailed then u else u.appendOutput u.cpu.a) =
        { s with
          tape := (if u.tape.outFailed then u else u.appendOutput u.cpu.a).tape
          draws := (if u.tape.outFailed then u else u.appendOutput u.cpu.a).draws
          log := (if u.tape.outFailed then u else u.appendOutput u.cpu.a).log } := by
    intro u hu
    split
    · exact hu
    · rw [hu]; rfl
  unfold State.tapeWriteByte
  split
  · rfl
  · refine hc _ ?_
    split
    · exact createOutput_eq s
    · rfl

/-- A trap handler changes memory, the tape codec, the draws and the log, and nothing else (49_periph_tape.md R431). -/
theorem periph_eq (s : State) (p : Traps) (t : Word) :
    s.periph p t = { s with
      mem := (s.periph p t).mem
      tape := (s.periph p t).tape
      draws := (s.periph p t).draws
      log := (s.periph p t).log } := by
  unfold State.periph
  split
  · rw [tapeReadBit_eq]
  · split
    · rw [tapeWriteByte_eq]
    · split
      · rfl
      · split <;> rfl

/-- A trap handler keeps the canonical form of memory. -/
theorem periph_wf {s : State} (h : s.mem.wf = true) (p : Traps) (t : Word) : (s.periph p t).mem.wf = true := by
  unfold State.periph
  split
  · rw [tapeReadBit_eq]; exact memSet_wf h _ _
  · split
    · rw [tapeWriteByte_eq]; exact h
    · split
      · exact memSet_wf h _ _
      · split
        · exact memSet_wf (memSet_wf (memSet_wf (memSet_wf h _ _) _ _) _ _) _ _
        · exact h

end Sys2Proof.Machine
end

