-- ==== Sys2Proof/Laws/Step.lean ====
section
/-! SUPPORT. What one step is in each place of the scheduler, so that no later proof unfolds `step`. -/

namespace Sys2Proof.Machine

theorem step_iteration {s : State} (h : s.sched = .iteration) : step s = .next s.iterationTop := by
  unfold step; rw [h]

theorem step_burst {s : State} {b : Burst} (h : s.sched = .burst b) (hc : s.cyc < burstBudget b) :
    step s = stepInstr s := by
  unfold step; rw [h]; exact if_pos hc

theorem step_endBurst {s : State} {b : Burst} (h : s.sched = .burst b) (hc : burstBudget b ≤ s.cyc) :
    step s = .next (s.endBurst b) := by
  unfold step; rw [h]; exact if_neg (Nat.not_lt.mpr hc)

theorem stepInstr_instr {s : State} {i : Instr} {n : Nat} (h : decode s.fetchBytes = .instr i n) :
    stepInstr s = exec i (s.advancePc n) := by
  unfold stepInstr; rw [h]

theorem stepInstr_unassigned {s : State} {op : List Byte} (h : decode s.fetchBytes = .unassigned op) :
    stepInstr s = .next (((s.advancePc op.length).logEvent
      (.unassigned op s.cpu.pc (s.advancePc op.length).cpu)).charge cycIllegal) := by
  unfold stepInstr; rw [h]; rfl

/-- The state after a burst with its budget subtracted (60_exceptions.md R475). -/
def State.subtractBudget (s : State) (b : Burst) : State := { s with cyc := s.cyc - burstBudget b }

@[simp] theorem subtractBudget_cpu (s : State) (b : Burst) : (s.subtractBudget b).cpu = s.cpu := rfl

@[simp] theorem subtractBudget_mem (s : State) (b : Burst) : (s.subtractBudget b).mem = s.mem := rfl

@[simp] theorem subtractBudget_mapper (s : State) (b : Burst) : (s.subtractBudget b).mapper = s.mapper := rfl

@[simp] theorem subtractBudget_pia (s : State) (b : Burst) : (s.subtractBudget b).pia = s.pia := rfl

@[simp] theorem subtractBudget_draws (s : State) (b : Burst) : (s.subtractBudget b).draws = s.draws := rfl

@[simp] theorem enterBurst_cpu (s : State) (b : Burst) : (s.enterBurst b).cpu = s.cpu := rfl

@[simp] theorem enterBurst_mem (s : State) (b : Burst) : (s.enterBurst b).mem = s.mem := rfl

@[simp] theorem enterBurst_mapper (s : State) (b : Burst) : (s.enterBurst b).mapper = s.mapper := rfl

@[simp] theorem enterBurst_pia (s : State) (b : Burst) : (s.enterBurst b).pia = s.pia := rfl

@[simp] theorem enterBurst_cyc (s : State) (b : Burst) : (s.enterBurst b).cyc = s.cyc := rfl

@[simp] theorem burstBudget_top : burstBudget .top = 4100 := rfl

@[simp] theorem burstBudget_topAfterIrq : burstBudget .topAfterIrq = 3800 := rfl

@[simp] theorem burstBudget_window : burstBudget .window = 13100 := rfl

@[simp] theorem burstBudget_bottom : burstBudget .bottom = 2800 := rfl

@[simp] theorem burstBudget_irqWindow : burstBudget .irqWindow = 300 := rfl

theorem endBurst_top (s : State) :
    s.endBurst .top = ((s.subtractBudget .top).memSet vsigAddr vsigMask).enterBurst .window := rfl

theorem endBurst_topAfterIrq (s : State) :
    s.endBurst .topAfterIrq = ((s.subtractBudget .topAfterIrq).memSet vsigAddr vsigMask).enterBurst .window := rfl

theorem endBurst_window (s : State) :
    s.endBurst .window = ((s.subtractBudget .window).memSet vsigAddr 0x00).enterBurst .bottom := rfl

theorem endBurst_bottom (s : State) : s.endBurst .bottom = (s.subtractBudget .bottom).irqPoint := rfl

theorem endBurst_irqWindow (s : State) :
    s.endBurst .irqWindow = { (s.subtractBudget .irqWindow).setIrqFlag false with sched := .iteration } := rfl

/-- Writing the IRQ flag touches CRB and its shadow byte and nothing else (60_exceptions.md R472). -/
theorem setIrqFlag_eq (s : State) (flag : Bool) :
    s.setIrqFlag flag = { s with
      pia := { s.pia with crb := putBit s.pia.crb irqFlagBit flag }
      mem := s.mem.write (s.phys crbAddr) (putBit s.pia.crb irqFlagBit flag) } := rfl

@[simp] theorem setIrqFlag_cpu (s : State) (flag : Bool) : (s.setIrqFlag flag).cpu = s.cpu := rfl

@[simp] theorem setIrqFlag_mapper (s : State) (flag : Bool) : (s.setIrqFlag flag).mapper = s.mapper := rfl

@[simp] theorem setIrqFlag_pia (s : State) (flag : Bool) :
    (s.setIrqFlag flag).pia = { s.pia with crb := putBit s.pia.crb irqFlagBit flag } := rfl

/-- The IRQ flag is in the shadow byte of CRB. -/
theorem setIrqFlag_shadow (s : State) (flag : Bool) :
    (s.setIrqFlag flag).mem.read (s.phys crbAddr) = putBit s.pia.crb irqFlagBit flag := by
  rw [setIrqFlag_eq]
  exact (Memory.read_write _ _ _ _).trans (if_pos rfl)

theorem irqGate_masked {s : State} (h : getFlag s.cpu.cc .i = true) : s.irqGate = s := by
  unfold State.irqGate; exact if_pos h

theorem irqGate_open {s : State} (h : getFlag s.cpu.cc .i = false) : s.irqGate = s.irqEntry := by
  unfold State.irqGate; rw [h]; rfl

theorem irqPoint_disabled {s : State} (h : s.pia.crb.getLsbD irqEnableBit = false) :
    s.irqPoint = { s with sched := .iteration } := by
  unfold State.irqPoint; rw [h]; rfl

theorem irqPoint_enabled {s : State} (h : s.pia.crb.getLsbD irqEnableBit = true) :
    s.irqPoint = ((({ s with irqPrev := true }).setIrqFlag true).irqGate).enterBurst .irqWindow := by
  unfold State.irqPoint; exact if_pos h

theorem iterationTop_stopped {s : State} (h : s.drainEvents.running = false) : s.iterationTop = s.drainEvents := by
  unfold State.iterationTop; rw [h]; rfl

theorem iterationTop_running {s : State} (h : s.drainEvents.running = true) :
    s.iterationTop = s.drainEvents.beginField := by
  unfold State.iterationTop; exact if_pos h

theorem beginField_afterIrq {s : State} (h : s.irqPrev = true) :
    s.beginField = { s.memSet vsigAddr 0x00 with irqPrev := false, sched := .burst .topAfterIrq } := by
  unfold State.beginField
  have h' : (s.memSet vsigAddr 0x00).irqPrev = true := h
  exact if_pos h'

theorem beginField_top {s : State} (h : s.irqPrev = false) :
    s.beginField = { s.memSet vsigAddr 0x00 with sched := .burst .top } := by
  unfold State.beginField
  have h' : ¬ (s.memSet vsigAddr 0x00).irqPrev = true := by
    intro e; exact Bool.noConfusion (h.symm.trans e)
  exact if_neg h'

end Sys2Proof.Machine
end

