-- ==== Sys2Proof/Laws/Instr.lean ====
section
/-! SUPPORT. For each shared operation of the instruction families, one equation that says everything it does to the
state: the fields that change, each with its new value; every other field is that of the state before. -/

namespace Sys2Proof.Machine

/-! ## Resolvers keep the registers that are not base registers -/

@[simp] theorem resolveIndexed_cc (ix : Indexed) (s : State) : (resolveIndexed ix s).2.cpu.cc = s.cpu.cc := by
  cases ix with
  | mode r i m => cases m <;> cases r <;> rfl
  | _ => rfl

@[simp] theorem resolveIndexed_pc (ix : Indexed) (s : State) : (resolveIndexed ix s).2.cpu.pc = s.cpu.pc := by
  cases ix with
  | mode r i m => cases m <;> cases r <;> rfl
  | _ => rfl

@[simp] theorem resolve_cc (m : MemOp) (s : State) : (resolve m s).2.cpu.cc = s.cpu.cc := by
  cases m with
  | idx ix => exact resolveIndexed_cc ix s
  | _ => rfl

@[simp] theorem resolve_pc (m : MemOp) (s : State) : (resolve m s).2.cpu.pc = s.cpu.pc := by
  cases m with
  | idx ix => exact resolveIndexed_pc ix s
  | _ => rfl

@[simp] theorem operand8_cc (o : Op8) (s : State) : (operand8 o s).2.cpu.cc = s.cpu.cc := by
  cases o with
  | imm v => rfl
  | mem m => exact resolve_cc m s

@[simp] theorem operand16_cc (o : Op16) (s : State) : (operand16 o s).2.cpu.cc = s.cpu.cc := by
  cases o with
  | imm v => rfl
  | mem m => exact resolve_cc m s

@[simp] theorem resolve_memRead (m : MemOp) (s : State) (a : Word) : (resolve m s).2.memRead a = s.memRead a :=
  State.memRead_congr (resolve_mapper m s) (resolve_mem m s) a

/-! ## A write beside registers and counters -/

/-- The state with other registers and counters. -/
def State.withRegs (s : State) (c : Cpu) (n d : Nat) : State := { s with cpu := c, cyc := n, draws := d }

section withRegs

variable (s : State) (c : Cpu) (n d : Nat)

@[simp] theorem withRegs_cpu : (s.withRegs c n d).cpu = c := rfl

@[simp] theorem withRegs_cyc : (s.withRegs c n d).cyc = n := rfl

@[simp] theorem withRegs_draws : (s.withRegs c n d).draws = d := rfl

@[simp] theorem withRegs_mem : (s.withRegs c n d).mem = s.mem := rfl

@[simp] theorem withRegs_mapper : (s.withRegs c n d).mapper = s.mapper := rfl

@[simp] theorem withRegs_dirty : (s.withRegs c n d).dirty = s.dirty := rfl

@[simp] theorem withRegs_pia : (s.withRegs c n d).pia = s.pia := rfl

@[simp] theorem withRegs_snd : (s.withRegs c n d).snd = s.snd := rfl

@[simp] theorem withRegs_keys : (s.withRegs c n d).keys = s.keys := rfl

@[simp] theorem withRegs_pen : (s.withRegs c n d).pen = s.pen := rfl

@[simp] theorem withRegs_tape : (s.withRegs c n d).tape = s.tape := rfl

@[simp] theorem withRegs_irqPrev : (s.withRegs c n d).irqPrev = s.irqPrev := rfl

@[simp] theorem withRegs_running : (s.withRegs c n d).running = s.running := rfl

@[simp] theorem withRegs_sched : (s.withRegs c n d).sched = s.sched := rfl

@[simp] theorem withRegs_inputs : (s.withRegs c n d).inputs = s.inputs := rfl

@[simp] theorem withRegs_replies : (s.withRegs c n d).replies = s.replies := rfl

@[simp] theorem withRegs_log : (s.withRegs c n d).log = s.log := rfl

@[simp] theorem withRegs_withRegs (c' : Cpu) (n' d' : Nat) : (s.withRegs c n d).withRegs c' n' d' = s.withRegs c' n' d' :=
  rfl

@[simp] theorem withRegs_charge (k : Nat) : (s.withRegs c n d).charge k = s.withRegs c (n + k) d := rfl

@[simp] theorem withRegs_setCc (v : Byte) : (s.withRegs c n d).setCc v = s.withRegs { c with cc := v } n d := rfl

@[simp] theorem withRegs_setPc (v : Word) : (s.withRegs c n d).setPc v = s.withRegs { c with pc := v } n d := rfl

@[simp] theorem withRegs_memRead (a : Word) : (s.withRegs c n d).memRead a = s.memRead a := rfl

@[simp] theorem withRegs_memRead16 (a : Word) : (s.withRegs c n d).memRead16 a = s.memRead16 a := rfl

@[simp] theorem withRegs_drawBit : (s.withRegs c n d).drawBit = (Config.freeBit d, s.withRegs c n (d + 1)) := rfl

theorem withRegs_piaWrite (a : Word) (v : Byte) :
    (s.withRegs c n d).piaWrite a v = (s.piaWrite a v).withRegs c n d := by
  have hp : (s.withRegs c n d).pia = s.pia := rfl
  unfold State.piaWrite
  rw [hp]
  split_ifs <;> rfl

/-- A controller write neither reads nor changes the registers and the counters. -/
@[simp] theorem withRegs_memWrite (a : Word) (v : Byte) :
    (s.withRegs c n d).memWrite a v = (s.memWrite a v).withRegs c n d := by
  unfold State.memWrite
  have hr : (s.withRegs c n d).isRom a = s.isRom a := rfl
  rw [hr]
  split
  · rfl
  · have hm : (s.withRegs c n d).markDirty a = (s.markDirty a).withRegs c n d := by
      unfold State.markDirty
      split <;> rfl
    simp only [hm]
    split
    · exact withRegs_piaWrite _ _ _ _ _ _
    · rfl

@[simp] theorem withRegs_memWrite16 (a v : Word) :
    (s.withRegs c n d).memWrite16 a v = (s.memWrite16 a v).withRegs c n d := by
  unfold State.memWrite16
  rw [withRegs_memWrite, withRegs_memWrite]

end withRegs

theorem setAcc_withRegs (s : State) (r : Acc) (v : Byte) :
    s.setAcc r v = s.withRegs (s.setAcc r v).cpu s.cyc s.draws := by
  cases r <;> rfl

theorem setReg16_withRegs (s : State) (r : Reg16) (v : Word) :
    s.setReg16 r v = s.withRegs (s.setReg16 r v).cpu s.cyc s.draws := by
  cases r <;> rfl

theorem resolveIndexed_withRegs (ix : Indexed) (s : State) :
    (resolveIndexed ix s).2 = s.withRegs (resolveIndexed ix s).2.cpu (s.cyc + indexedCycles ix) s.draws :=
  resolveIndexed_eq ix s

theorem resolve_withRegs (m : MemOp) (s : State) :
    (resolve m s).2 = s.withRegs (resolve m s).2.cpu (s.cyc + extraCycles m) s.draws := resolve_eq m s

theorem operand8_withRegs (o : Op8) (s : State) :
    (operand8 o s).2 = s.withRegs (operand8 o s).2.cpu (s.cyc + extraCycles8 o) s.draws := operand8_eq o s

theorem operand16_withRegs (o : Op16) (s : State) :
    (operand16 o s).2 = s.withRegs (operand16 o s).2.cpu (s.cyc + extraCycles16 o) s.draws := operand16_eq o s

/-- A resolver neither reads nor changes the counter of draws. -/
theorem resolve_draw (m : MemOp) (s : State) :
    resolve m s.drawBit.2 = ((resolve m s).1, (resolve m s).2.drawBit.2) := by
  cases m with
  | idx ix =>
    cases ix with
    | mode r i sm => cases sm <;> cases r <;> cases i <;> rfl
    | off5 r n => cases r <;> rfl
    | _ => rfl
  | _ => rfl

/-- What an 8-bit source operand answers. -/
theorem operand8_cases (o : Op8) (s : State) :
    ∃ v c, operand8 o s = (v, s.withRegs c (s.cyc + extraCycles8 o) s.draws) ∧ c.cc = s.cpu.cc :=
  ⟨_, _, Prod.ext rfl (operand8_withRegs o s), operand8_cc o s⟩

/-- What a 16-bit source operand answers. -/
theorem operand16_cases (o : Op16) (s : State) :
    ∃ v c, operand16 o s = (v, s.withRegs c (s.cyc + extraCycles16 o) s.draws) ∧ c.cc = s.cpu.cc :=
  ⟨_, _, Prod.ext rfl (operand16_withRegs o s), operand16_cc o s⟩

/-- What a resolver answers. -/
theorem resolve_cases (m : MemOp) (s : State) :
    ∃ a c, resolve m s = (a, s.withRegs c (s.cyc + extraCycles m) s.draws) ∧ c.cc = s.cpu.cc ∧ c.pc = s.cpu.pc :=
  ⟨_, _, Prod.ext rfl (resolve_withRegs m s), resolve_cc m s, resolve_pc m s⟩

/-- What the resolver of an indexed operand answers. -/
theorem resolveIndexed_cases (ix : Indexed) (s : State) :
    ∃ a c, resolveIndexed ix s = (a, s.withRegs c (s.cyc + indexedCycles ix) s.draws) ∧ c.cc = s.cpu.cc :=
  ⟨_, _, Prod.ext rfl (resolveIndexed_withRegs ix s), resolveIndexed_cc ix s⟩

/-! ## Loads, stores and LEA -/

theorem loadAcc_eq (r : Acc) (o : Op8) (s : State) :
    loadAcc r o s = s.withRegs
      { ((operand8 o s).2.setAcc r (operand8 o s).1).cpu with cc := logic8 (operand8 o s).1 s.cpu.cc }
      (s.cyc + extraCycles8 o + op8Cycles o) s.draws := by
  obtain ⟨v, c, e, hc⟩ := operand8_cases o s
  unfold loadAcc
  simp only [operand8_charge, e, ← hc]
  cases r <;> rfl

theorem loadReg16_eq (n : Nat) (r : Reg16) (o : Op16) (s : State) :
    loadReg16 n r o s = s.withRegs
      { ((operand16 o s).2.setReg16 r (operand16 o s).1).cpu with cc := logic16 (operand16 o s).1 s.cpu.cc }
      (s.cyc + extraCycles16 o + op16Cycles n o) s.draws := by
  obtain ⟨v, c, e, hc⟩ := operand16_cases o s
  unfold loadReg16
  simp only [operand16_charge, e, ← hc]
  cases r <;> rfl

theorem storeAcc_eq (r : Acc) (m : MemOp) (s : State) :
    storeAcc r m s = (s.memWrite (resolve m s).1 ((resolve m s).2.acc r)).withRegs
      { (resolve m s).2.cpu with cc := logic8 ((resolve m s).2.acc r) s.cpu.cc }
      (s.cyc + extraCycles m + memCycles 4 m) s.draws := by
  obtain ⟨a, c, e, hc, _⟩ := resolve_cases m s
  unfold storeAcc
  simp only [resolve_charge, e, ← hc, withRegs_charge, withRegs_memWrite, withRegs_setCc, withRegs_cpu]
  cases r <;> rfl

theorem storeReg16_eq (n : Nat) (r : Reg16) (m : MemOp) (s : State) :
    storeReg16 n r m s = (s.memWrite16 (resolve m s).1 ((resolve m s).2.reg16 r)).withRegs
      { (resolve m s).2.cpu with cc := logic16 ((resolve m s).2.reg16 r) s.cpu.cc }
      (s.cyc + extraCycles m + memCycles n m) s.draws := by
  obtain ⟨a, c, e, hc, _⟩ := resolve_cases m s
  unfold storeReg16
  simp only [resolve_charge, e, ← hc, withRegs_charge, withRegs_memWrite16, withRegs_setCc, withRegs_cpu]
  cases r <;> rfl

theorem loadEa_eq (r : Reg16) (z : Bool) (ix : Indexed) (s : State) :
    loadEa r z ix s = s.withRegs
      { ((resolveIndexed ix s).2.setReg16 r (resolveIndexed ix s).1).cpu with
        cc := if z then putFlag s.cpu.cc .z ((resolveIndexed ix s).1 == 0) else s.cpu.cc }
      (s.cyc + indexedCycles ix + 4) s.draws := by
  obtain ⟨a, c, e, hc⟩ := resolveIndexed_cases ix s
  unfold loadEa
  simp only [resolveIndexed_charge, e, ← hc]
  cases r <;> cases z <;> rfl

/-! ## 8-bit and 16-bit arithmetic -/

theorem addAcc_eq (r : Acc) (cin : Bool) (o : Op8) (s : State) :
    addAcc r cin o s = s.withRegs
      { ((operand8 o s).2.setAcc r (add8 ((operand8 o s).2.acc r) (operand8 o s).1 cin s.cpu.cc).1).cpu with
        cc := (add8 ((operand8 o s).2.acc r) (operand8 o s).1 cin s.cpu.cc).2 }
      (s.cyc + extraCycles8 o + op8Cycles o) s.draws := by
  obtain ⟨v, c, e, hc⟩ := operand8_cases o s
  unfold addAcc
  simp only [operand8_charge, e, ← hc]
  cases r <;> rfl

theorem subAcc_eq (r : Acc) (bin : Bool) (o : Op8) (s : State) :
    subAcc r bin o s = s.withRegs
      { ((operand8 o s).2.setAcc r
          (sub8 ((operand8 o s).2.acc r) (operand8 o s).1 bin s.drawBit.1 s.cpu.cc).1).cpu with
        cc := (sub8 ((operand8 o s).2.acc r) (operand8 o s).1 bin s.drawBit.1 s.cpu.cc).2 }
      (s.cyc + extraCycles8 o + op8Cycles o) (s.draws + 1) := by
  obtain ⟨v, c, e, hc⟩ := operand8_cases o s
  unfold subAcc
  simp only [operand8_charge, e, ← hc]
  cases r <;> rfl

theorem cmpAcc_eq (r : Acc) (o : Op8) (s : State) :
    cmpAcc r o s = s.withRegs
      { (operand8 o s).2.cpu with
        cc := (sub8 ((operand8 o s).2.acc r) (operand8 o s).1 false s.drawBit.1 s.cpu.cc).2 }
      (s.cyc + extraCycles8 o + op8Cycles o) (s.draws + 1) := by
  obtain ⟨v, c, e, hc⟩ := operand8_cases o s
  unfold cmpAcc
  simp only [operand8_charge, e, ← hc]
  cases r <;> rfl

theorem logicAcc_eq (r : Acc) (f : Byte → Byte → Byte) (o : Op8) (s : State) :
    logicAcc r f o s = s.withRegs
      { ((operand8 o s).2.setAcc r (f ((operand8 o s).2.acc r) (operand8 o s).1)).cpu with
        cc := logic8 (f ((operand8 o s).2.acc r) (operand8 o s).1) s.cpu.cc }
      (s.cyc + extraCycles8 o + op8Cycles o) s.draws := by
  obtain ⟨v, c, e, hc⟩ := operand8_cases o s
  unfold logicAcc
  simp only [operand8_charge, e, ← hc]
  cases r <;> rfl

theorem bitAcc_eq (r : Acc) (o : Op8) (s : State) :
    bitAcc r o s = s.withRegs
      { (operand8 o s).2.cpu with cc := logic8 ((operand8 o s).2.acc r &&& (operand8 o s).1) s.cpu.cc }
      (s.cyc + extraCycles8 o + op8Cycles o) s.draws := by
  obtain ⟨v, c, e, hc⟩ := operand8_cases o s
  unfold bitAcc
  simp only [operand8_charge, e, ← hc]
  cases r <;> rfl

theorem addD_eq (o : Op16) (s : State) :
    addD o s = s.withRegs
      { ((operand16 o s).2.setD (add16 (operand16 o s).2.d (operand16 o s).1 s.cpu.cc).1).cpu with
        cc := (add16 (operand16 o s).2.d (operand16 o s).1 s.cpu.cc).2 }
      (s.cyc + extraCycles16 o + op16Cycles 4 o) s.draws := by
  obtain ⟨v, c, e, hc⟩ := operand16_cases o s
  unfold addD
  simp only [operand16_charge, e, ← hc]
  rfl

theorem subD_eq (o : Op16) (s : State) :
    subD o s = s.withRegs
      { ((operand16 o s).2.setD (sub16 (operand16 o s).2.d (operand16 o s).1 s.cpu.cc).1).cpu with
        cc := (sub16 (operand16 o s).2.d (operand16 o s).1 s.cpu.cc).2 }
      (s.cyc + extraCycles16 o + op16Cycles 4 o) s.draws := by
  obtain ⟨v, c, e, hc⟩ := operand16_cases o s
  unfold subD
  simp only [operand16_charge, e, ← hc]
  rfl

theorem cmpReg16_eq (n : Nat) (r : Reg16) (o : Op16) (s : State) :
    cmpReg16 n r o s = s.withRegs
      { (operand16 o s).2.cpu with cc := (sub16 ((operand16 o s).2.reg16 r) (operand16 o s).1 s.cpu.cc).2 }
      (s.cyc + extraCycles16 o + op16Cycles n o) s.draws := by
  obtain ⟨v, c, e, hc⟩ := operand16_cases o s
  unfold cmpReg16
  simp only [operand16_charge, e, ← hc]
  cases r <;> rfl

/-! ## Unary operations -/

theorem unaryAcc_eq (r : Acc) (f : Byte → Byte → Byte × Byte) (s : State) :
    unaryAcc r f s = s.withRegs
      { (s.setAcc r (f (s.acc r) s.cpu.cc).1).cpu with cc := (f (s.acc r) s.cpu.cc).2 } (s.cyc + 2) s.draws := by
  cases r <;> rfl

theorem unaryAccH_eq (r : Acc) (f : Byte → Bool → Byte → Byte × Byte) (s : State) :
    unaryAccH r f s = s.withRegs
      { (s.setAcc r (f (s.acc r) s.drawBit.1 s.cpu.cc).1).cpu with cc := (f (s.acc r) s.drawBit.1 s.cpu.cc).2 }
      (s.cyc + 2) (s.draws + 1) := by
  cases r <;> rfl

theorem unaryMem_eq (m : MemOp) (f : Byte → Byte → Byte × Byte) (s : State) :
    unaryMem m f s = (s.memWrite (resolve m s).1 (f (s.memRead (resolve m s).1) s.cpu.cc).1).withRegs
      { (resolve m s).2.cpu with cc := (f (s.memRead (resolve m s).1) s.cpu.cc).2 }
      (s.cyc + extraCycles m + memCycles 6 m) s.draws := by
  obtain ⟨a, c, e, hc, _⟩ := resolve_cases m s
  unfold unaryMem
  simp only [resolve_charge, e, ← hc, withRegs_charge, withRegs_setCc, withRegs_memWrite, withRegs_memRead,
    withRegs_cpu]

theorem unaryMemH_eq (m : MemOp) (f : Byte → Bool → Byte → Byte × Byte) (s : State) :
    unaryMemH m f s = (s.memWrite (resolve m s).1 (f (s.memRead (resolve m s).1) s.drawBit.1 s.cpu.cc).1).withRegs
      { (resolve m s).2.cpu with cc := (f (s.memRead (resolve m s).1) s.drawBit.1 s.cpu.cc).2 }
      (s.cyc + extraCycles m + memCycles 6 m) (s.draws + 1) := by
  obtain ⟨a, c, e, hc, _⟩ := resolve_cases m s
  unfold unaryMemH unaryMem
  simp only [resolve_charge, resolve_draw, e, ← hc, withRegs_charge, withRegs_setCc, withRegs_memWrite,
    withRegs_memRead, withRegs_cpu, withRegs_drawBit]

theorem testMem_eq (m : MemOp) (s : State) :
    testMem m s = s.withRegs { (resolve m s).2.cpu with cc := tst8 (s.memRead (resolve m s).1) s.cpu.cc }
      (s.cyc + extraCycles m + memCycles 6 m) s.draws := by
  obtain ⟨a, c, e, hc, _⟩ := resolve_cases m s
  unfold testMem
  simp only [resolve_charge, e, ← hc, withRegs_charge, withRegs_setCc, withRegs_memRead, withRegs_cpu]

/-! ## Control flow -/

theorem branch_eq (taken : Bool) (o : Word) (s : State) :
    branch taken o s = { s with cpu := { s.cpu with pc := if taken then s.cpu.pc + o else s.cpu.pc } } := by
  cases taken <;> rfl

theorem jumpTo_eq (m : MemOp) (s : State) :
    jumpTo m s = s.withRegs { (resolve m s).2.cpu with pc := (resolve m s).1 }
      (s.cyc + extraCycles m + memCycles 3 m) s.draws := by
  obtain ⟨a, c, e, _, _⟩ := resolve_cases m s
  unfold jumpTo
  simp only [resolve_charge, e, withRegs_charge, withRegs_setPc, withRegs_cpu]

theorem jumpToSubroutine_eq (m : MemOp) (s : State) :
    jumpToSubroutine m s = callTo (resolve m s).1
      (s.withRegs (resolve m s).2.cpu (s.cyc + extraCycles m + memCycles 7 m) s.draws) := by
  obtain ⟨a, c, e, _, _⟩ := resolve_cases m s
  unfold jumpToSubroutine
  simp only [resolve_charge, e, withRegs_charge, withRegs_cpu]

theorem returnFromSubroutine_eq (s : State) :
    returnFromSubroutine s = s.withRegs { s.cpu with pc := s.memRead16 s.cpu.s, s := s.cpu.s + 2 }
      (s.cyc + 5) s.draws := by
  obtain ⟨h1, h2⟩ := pull16_spec (s.charge 5) .s
  unfold returnFromSubroutine
  simp only [h1, h2]
  rfl

end Sys2Proof.Machine
end

