-- ==== Sys2Proof/Laws/PerInstr.lean ====
section
/-! SUPPORT. A statement about every instruction, constructor by constructor: an encoding takes one to five bytes
(30_encoding.md R120, R126). -/

namespace Sys2Proof.Laws

theorem encodeIndexed_length (ix : Indexed) : 1 ≤ (encodeIndexed ix).length ∧ (encodeIndexed ix).length ≤ 3 := by
  cases ix with
  | mode r indirect m => cases m <;> simp [encodeIndexed, SubMode.operandBytes]
  | _ => simp [encodeIndexed]

theorem encodeMemOp_length (a b c : Byte) (m : MemOp) :
    2 ≤ (encodeMemOp a b c m).length ∧ (encodeMemOp a b c m).length ≤ 4 := by
  cases m with
  | idx ix => have := encodeIndexed_length ix; simp [encodeMemOp]; omega
  | _ => simp [encodeMemOp]

theorem encodeOp8_length (i a b c : Byte) (o : Op8) :
    2 ≤ (encodeOp8 i a b c o).length ∧ (encodeOp8 i a b c o).length ≤ 4 := by
  cases o with
  | imm ii => simp [encodeOp8]
  | mem m => exact encodeMemOp_length a b c m

theorem encodeOp16_length (i a b c : Byte) (o : Op16) :
    2 ≤ (encodeOp16 i a b c o).length ∧ (encodeOp16 i a b c o).length ≤ 4 := by
  cases o with
  | imm w => simp [encodeOp16]
  | mem m => exact encodeMemOp_length a b c m

/-- The encoding of the instruction takes one to five bytes. -/
def EncodedLength.Statement (i : Instr) : Prop := 1 ≤ i.length ∧ i.length ≤ 5

theorem EncodedLength.short {i : Instr} (h : 2 ≤ (encode i).length ∧ (encode i).length ≤ 4) : Statement i :=
  ⟨by unfold Instr.length; omega, by unfold Instr.length; omega⟩

theorem EncodedLength.prefixed {i : Instr} {bytes : List Byte} {p : Byte} (e : encode i = p :: bytes)
    (h : 2 ≤ bytes.length ∧ bytes.length ≤ 4) : Statement i := by
  unfold Statement Instr.length
  rw [e, List.length_cons]
  omega

theorem EncodedLength.lea {i : Instr} {ix : Indexed} {op : Byte} (e : encode i = op :: encodeIndexed ix) :
    Statement i := by
  have := encodeIndexed_length ix
  unfold Statement Instr.length
  rw [e, List.length_cons]
  omega

theorem EncodedLength.fixed1 {i : Instr} (h : i.length = 1) : Statement i := by unfold Statement; omega

theorem EncodedLength.fixed2 {i : Instr} (h : i.length = 2) : Statement i := by unfold Statement; omega

theorem EncodedLength.fixed3 {i : Instr} (h : i.length = 3) : Statement i := by unfold Statement; omega

theorem EncodedLength.fixed4 {i : Instr} (h : i.length = 4) : Statement i := by unfold Statement; omega

theorem EncodedLength.lda (o : Op8) : Statement (.lda o) := short (encodeOp8_length _ _ _ _ o)

theorem EncodedLength.ldb (o : Op8) : Statement (.ldb o) := short (encodeOp8_length _ _ _ _ o)

theorem EncodedLength.ldd (o : Op16) : Statement (.ldd o) := short (encodeOp16_length _ _ _ _ o)

theorem EncodedLength.ldx (o : Op16) : Statement (.ldx o) := short (encodeOp16_length _ _ _ _ o)

theorem EncodedLength.ldy (o : Op16) : Statement (.ldy o) := prefixed rfl (encodeOp16_length _ _ _ _ o)

theorem EncodedLength.ldu (o : Op16) : Statement (.ldu o) := short (encodeOp16_length _ _ _ _ o)

theorem EncodedLength.lds (o : Op16) : Statement (.lds o) := prefixed rfl (encodeOp16_length _ _ _ _ o)

theorem EncodedLength.sta (m : MemOp) : Statement (.sta m) := short (encodeMemOp_length _ _ _ m)

theorem EncodedLength.stb (m : MemOp) : Statement (.stb m) := short (encodeMemOp_length _ _ _ m)

theorem EncodedLength.std (m : MemOp) : Statement (.std m) := short (encodeMemOp_length _ _ _ m)

theorem EncodedLength.stx (m : MemOp) : Statement (.stx m) := short (encodeMemOp_length _ _ _ m)

theorem EncodedLength.sty (m : MemOp) : Statement (.sty m) := prefixed rfl (encodeMemOp_length _ _ _ m)

theorem EncodedLength.stu (m : MemOp) : Statement (.stu m) := short (encodeMemOp_length _ _ _ m)

theorem EncodedLength.sts (m : MemOp) : Statement (.sts m) := prefixed rfl (encodeMemOp_length _ _ _ m)

theorem EncodedLength.leax (ix : Indexed) : Statement (.leax ix) := lea rfl

theorem EncodedLength.leay (ix : Indexed) : Statement (.leay ix) := lea rfl

theorem EncodedLength.leas (ix : Indexed) : Statement (.leas ix) := lea rfl

theorem EncodedLength.leau (ix : Indexed) : Statement (.leau ix) := lea rfl

theorem EncodedLength.suba (o : Op8) : Statement (.suba o) := short (encodeOp8_length _ _ _ _ o)

theorem EncodedLength.subb (o : Op8) : Statement (.subb o) := short (encodeOp8_length _ _ _ _ o)

theorem EncodedLength.cmpa (o : Op8) : Statement (.cmpa o) := short (encodeOp8_length _ _ _ _ o)

theorem EncodedLength.cmpb (o : Op8) : Statement (.cmpb o) := short (encodeOp8_length _ _ _ _ o)

theorem EncodedLength.sbca (o : Op8) : Statement (.sbca o) := short (encodeOp8_length _ _ _ _ o)

theorem EncodedLength.sbcb (o : Op8) : Statement (.sbcb o) := short (encodeOp8_length _ _ _ _ o)

theorem EncodedLength.anda (o : Op8) : Statement (.anda o) := short (encodeOp8_length _ _ _ _ o)

theorem EncodedLength.andb (o : Op8) : Statement (.andb o) := short (encodeOp8_length _ _ _ _ o)

theorem EncodedLength.bita (o : Op8) : Statement (.bita o) := short (encodeOp8_length _ _ _ _ o)

theorem EncodedLength.bitb (o : Op8) : Statement (.bitb o) := short (encodeOp8_length _ _ _ _ o)

theorem EncodedLength.eora (o : Op8) : Statement (.eora o) := short (encodeOp8_length _ _ _ _ o)

theorem EncodedLength.eorb (o : Op8) : Statement (.eorb o) := short (encodeOp8_length _ _ _ _ o)

theorem EncodedLength.adca (o : Op8) : Statement (.adca o) := short (encodeOp8_length _ _ _ _ o)

theorem EncodedLength.adcb (o : Op8) : Statement (.adcb o) := short (encodeOp8_length _ _ _ _ o)

theorem EncodedLength.ora (o : Op8) : Statement (.ora o) := short (encodeOp8_length _ _ _ _ o)

theorem EncodedLength.orb (o : Op8) : Statement (.orb o) := short (encodeOp8_length _ _ _ _ o)

theorem EncodedLength.adda (o : Op8) : Statement (.adda o) := short (encodeOp8_length _ _ _ _ o)

theorem EncodedLength.addb (o : Op8) : Statement (.addb o) := short (encodeOp8_length _ _ _ _ o)

theorem EncodedLength.addd (o : Op16) : Statement (.addd o) := short (encodeOp16_length _ _ _ _ o)

theorem EncodedLength.subd (o : Op16) : Statement (.subd o) := short (encodeOp16_length _ _ _ _ o)

theorem EncodedLength.cmpx (o : Op16) : Statement (.cmpx o) := short (encodeOp16_length _ _ _ _ o)

theorem EncodedLength.cmpd (o : Op16) : Statement (.cmpd o) := prefixed rfl (encodeOp16_length _ _ _ _ o)

theorem EncodedLength.cmpy (o : Op16) : Statement (.cmpy o) := prefixed rfl (encodeOp16_length _ _ _ _ o)

theorem EncodedLength.cmpu (o : Op16) : Statement (.cmpu o) := prefixed rfl (encodeOp16_length _ _ _ _ o)

theorem EncodedLength.cmps (o : Op16) : Statement (.cmps o) := prefixed rfl (encodeOp16_length _ _ _ _ o)

theorem EncodedLength.nega : Statement (.nega) := fixed1 rfl

theorem EncodedLength.negb : Statement (.negb) := fixed1 rfl

theorem EncodedLength.neg (m : MemOp) : Statement (.neg m) := short (encodeMemOp_length _ _ _ m)

theorem EncodedLength.coma : Statement (.coma) := fixed1 rfl

theorem EncodedLength.comb : Statement (.comb) := fixed1 rfl

theorem EncodedLength.com (m : MemOp) : Statement (.com m) := short (encodeMemOp_length _ _ _ m)

theorem EncodedLength.lsra : Statement (.lsra) := fixed1 rfl

theorem EncodedLength.lsrb : Statement (.lsrb) := fixed1 rfl

theorem EncodedLength.lsr (m : MemOp) : Statement (.lsr m) := short (encodeMemOp_length _ _ _ m)

theorem EncodedLength.rora : Statement (.rora) := fixed1 rfl

theorem EncodedLength.rorb : Statement (.rorb) := fixed1 rfl

theorem EncodedLength.ror (m : MemOp) : Statement (.ror m) := short (encodeMemOp_length _ _ _ m)

theorem EncodedLength.asra : Statement (.asra) := fixed1 rfl

theorem EncodedLength.asrb : Statement (.asrb) := fixed1 rfl

theorem EncodedLength.asr (m : MemOp) : Statement (.asr m) := short (encodeMemOp_length _ _ _ m)

theorem EncodedLength.asla : Statement (.asla) := fixed1 rfl

theorem EncodedLength.aslb : Statement (.aslb) := fixed1 rfl

theorem EncodedLength.asl (m : MemOp) : Statement (.asl m) := short (encodeMemOp_length _ _ _ m)

theorem EncodedLength.rola : Statement (.rola) := fixed1 rfl

theorem EncodedLength.rolb : Statement (.rolb) := fixed1 rfl

theorem EncodedLength.rol (m : MemOp) : Statement (.rol m) := short (encodeMemOp_length _ _ _ m)

theorem EncodedLength.deca : Statement (.deca) := fixed1 rfl

theorem EncodedLength.decb : Statement (.decb) := fixed1 rfl

theorem EncodedLength.dec (m : MemOp) : Statement (.dec m) := short (encodeMemOp_length _ _ _ m)

theorem EncodedLength.inca : Statement (.inca) := fixed1 rfl

theorem EncodedLength.incb : Statement (.incb) := fixed1 rfl

theorem EncodedLength.inc (m : MemOp) : Statement (.inc m) := short (encodeMemOp_length _ _ _ m)

theorem EncodedLength.tsta : Statement (.tsta) := fixed1 rfl

theorem EncodedLength.tstb : Statement (.tstb) := fixed1 rfl

theorem EncodedLength.tst (m : MemOp) : Statement (.tst m) := short (encodeMemOp_length _ _ _ m)

theorem EncodedLength.clra : Statement (.clra) := fixed1 rfl

theorem EncodedLength.clrb : Statement (.clrb) := fixed1 rfl

theorem EncodedLength.clr (m : MemOp) : Statement (.clr m) := short (encodeMemOp_length _ _ _ m)

theorem EncodedLength.abx : Statement (.abx) := fixed1 rfl

theorem EncodedLength.mul : Statement (.mul) := fixed1 rfl

theorem EncodedLength.sex : Statement (.sex) := fixed1 rfl

theorem EncodedLength.daa : Statement (.daa) := fixed1 rfl

theorem EncodedLength.exg (r1 r2 : RegCode) : Statement (.exg r1 r2) := fixed2 rfl

theorem EncodedLength.tfr (r1 r2 : RegCode) : Statement (.tfr r1 r2) := fixed2 rfl

theorem EncodedLength.andcc (b : Byte) : Statement (.andcc b) := fixed2 rfl

theorem EncodedLength.orcc (b : Byte) : Statement (.orcc b) := fixed2 rfl

theorem EncodedLength.nop : Statement (.nop) := fixed1 rfl

theorem EncodedLength.pshs (mask : Byte) : Statement (.pshs mask) := fixed2 rfl

theorem EncodedLength.puls (mask : Byte) : Statement (.puls mask) := fixed2 rfl

theorem EncodedLength.pshu (mask : Byte) : Statement (.pshu mask) := fixed2 rfl

theorem EncodedLength.pulu (mask : Byte) : Statement (.pulu mask) := fixed2 rfl

theorem EncodedLength.bra (o : Byte) : Statement (.bra o) := fixed2 rfl

theorem EncodedLength.brn (o : Byte) : Statement (.brn o) := fixed2 rfl

theorem EncodedLength.bhi (o : Byte) : Statement (.bhi o) := fixed2 rfl

theorem EncodedLength.bls (o : Byte) : Statement (.bls o) := fixed2 rfl

theorem EncodedLength.bcc (o : Byte) : Statement (.bcc o) := fixed2 rfl

theorem EncodedLength.bcs (o : Byte) : Statement (.bcs o) := fixed2 rfl

theorem EncodedLength.bne (o : Byte) : Statement (.bne o) := fixed2 rfl

theorem EncodedLength.beq (o : Byte) : Statement (.beq o) := fixed2 rfl

theorem EncodedLength.bvc (o : Byte) : Statement (.bvc o) := fixed2 rfl

theorem EncodedLength.bvs (o : Byte) : Statement (.bvs o) := fixed2 rfl

theorem EncodedLength.bpl (o : Byte) : Statement (.bpl o) := fixed2 rfl

theorem EncodedLength.bmi (o : Byte) : Statement (.bmi o) := fixed2 rfl

theorem EncodedLength.bge (o : Byte) : Statement (.bge o) := fixed2 rfl

theorem EncodedLength.blt (o : Byte) : Statement (.blt o) := fixed2 rfl

theorem EncodedLength.bgt (o : Byte) : Statement (.bgt o) := fixed2 rfl

theorem EncodedLength.ble (o : Byte) : Statement (.ble o) := fixed2 rfl

theorem EncodedLength.bsr (o : Byte) : Statement (.bsr o) := fixed2 rfl

theorem EncodedLength.lbra (o : Word) : Statement (.lbra o) := fixed3 rfl

theorem EncodedLength.lbrn (o : Word) : Statement (.lbrn o) := fixed4 rfl

theorem EncodedLength.lbhi (o : Word) : Statement (.lbhi o) := fixed4 rfl

theorem EncodedLength.lbls (o : Word) : Statement (.lbls o) := fixed4 rfl

theorem EncodedLength.lbcc (o : Word) : Statement (.lbcc o) := fixed4 rfl

theorem EncodedLength.lbcs (o : Word) : Statement (.lbcs o) := fixed4 rfl

theorem EncodedLength.lbne (o : Word) : Statement (.lbne o) := fixed4 rfl

theorem EncodedLength.lbeq (o : Word) : Statement (.lbeq o) := fixed4 rfl

theorem EncodedLength.lbvc (o : Word) : Statement (.lbvc o) := fixed4 rfl

theorem EncodedLength.lbvs (o : Word) : Statement (.lbvs o) := fixed4 rfl

theorem EncodedLength.lbpl (o : Word) : Statement (.lbpl o) := fixed4 rfl

theorem EncodedLength.lbmi (o : Word) : Statement (.lbmi o) := fixed4 rfl

theorem EncodedLength.lbge (o : Word) : Statement (.lbge o) := fixed4 rfl

theorem EncodedLength.lblt (o : Word) : Statement (.lblt o) := fixed4 rfl

theorem EncodedLength.lbgt (o : Word) : Statement (.lbgt o) := fixed4 rfl

theorem EncodedLength.lble (o : Word) : Statement (.lble o) := fixed4 rfl

theorem EncodedLength.lbsr (o : Word) : Statement (.lbsr o) := fixed3 rfl

theorem EncodedLength.jmp (m : MemOp) : Statement (.jmp m) := short (encodeMemOp_length _ _ _ m)

theorem EncodedLength.jsr (m : MemOp) : Statement (.jsr m) := short (encodeMemOp_length _ _ _ m)

theorem EncodedLength.rts : Statement (.rts) := fixed1 rfl

theorem EncodedLength.swi : Statement (.swi) := fixed1 rfl

theorem EncodedLength.swi2 : Statement (.swi2) := fixed2 rfl

theorem EncodedLength.swi3 : Statement (.swi3) := fixed2 rfl

theorem EncodedLength.cwai (b : Byte) : Statement (.cwai b) := fixed2 rfl

theorem EncodedLength.rti : Statement (.rti) := fixed1 rfl

theorem EncodedLength.sync : Statement (.sync) := fixed1 rfl

theorem EncodedLength.periph : Statement (.periph) := fixed1 rfl

end Sys2Proof.Laws
end

