-- ==== Sys2Proof/Laws/Periph.lean ====
section
/-! SUPPORT. What each trap handler does in each of its cases (49_periph_tape.md R434 to R441). -/

namespace Sys2Proof.Machine

/-- A byte read after MemSet (20_memory.md R67). -/
theorem memSet_read (s : State) (a : Word) (v : Byte) (k : Nat) :
    (s.memSet a v).mem.read k = if k = s.phys a then v else s.mem.read k :=
  Memory.read_write s.mem (s.phys a) k v

/-- A read with a byte under the cursor (49_periph_tape.md R434). -/
theorem tapeRead_byte {s : State} {bytes : List Byte} {v : Byte} (ht : s.tape.tape = some bytes)
    (hv : bytes[s.tape.cursor]? = some v) :
    s.tapeRead = (v, { s with tape := { s.tape with cursor := s.tape.cursor + 1 } }) := by
  unfold State.tapeRead
  rw [ht]
  simp only [Option.getD_some, hv]
  rfl

/-- A read at the end of the tape or with no tape loaded: a drawn byte, and the codec stays as it is (49_periph_tape.md R434,
log 6). -/
theorem tapeRead_draw {s : State} (h : ∀ bytes : List Byte, s.tape.tape = some bytes → bytes.length ≤ s.tape.cursor) :
    s.tapeRead = s.drawByte := by
  have hn : (s.tape.tape.getD [])[s.tape.cursor]? = none := by
    cases ht : s.tape.tape with
    | none => rfl
    | some bytes => exact List.getElem?_eq_none (h bytes ht)
  unfold State.tapeRead
  rw [hn]

/-- A read-bit trap with bits left in the shift byte (49_periph_tape.md R435). -/
theorem tapeReadBit_counting {s : State} (h : s.tape.tc ≠ 0) (a : Word) :
    s.tapeReadBit a = { s with
      tape := { s.tape with tb := s.tape.tb <<< 1, tc := s.tape.tc - 1, led := true }
      mem := s.mem.write (s.phys a) (tapeBitPattern s.tape.tb.msb) } := by
  have hr : s.refillTapeByte = s := if_neg h
  unfold State.tapeReadBit
  simp only [hr]
  rfl

/-- A read-bit trap that loads a byte of the tape first (49_periph_tape.md R435). -/
theorem tapeReadBit_loading {s : State} (h : s.tape.tc = 0) {bytes : List Byte} {v : Byte}
    (ht : s.tape.tape = some bytes) (hv : bytes[s.tape.cursor]? = some v) (a : Word) :
    s.tapeReadBit a = { s with
      tape := { s.tape with cursor := s.tape.cursor + 1, tb := v <<< 1, tc := 7, led := true }
      mem := s.mem.write (s.phys a) (tapeBitPattern v.msb) } := by
  have hr : s.refillTapeByte = s.tapeRead.2.setTape { s.tapeRead.2.tape with tb := s.tapeRead.1, tc := 8 } := if_pos h
  unfold State.tapeReadBit
  rw [hr, tapeRead_byte ht hv]
  rfl

/-- A read-bit trap that draws a byte first (49_periph_tape.md R434, R435). -/
theorem tapeReadBit_drawing {s : State} (h : s.tape.tc = 0)
    (he : ∀ bytes : List Byte, s.tape.tape = some bytes → bytes.length ≤ s.tape.cursor) (a : Word) :
    s.tapeReadBit a = { s with
      draws := s.draws + 1
      tape := { s.tape with tb := s.drawByte.1 <<< 1, tc := 7, led := true }
      mem := s.mem.write (s.phys a) (tapeBitPattern s.drawByte.1.msb) } := by
  have hr : s.refillTapeByte = s.tapeRead.2.setTape { s.tapeRead.2.tape with tb := s.tapeRead.1, tc := 8 } := if_pos h
  unfold State.tapeReadBit
  rw [hr, tapeRead_draw he]
  rfl

/-- After a read-bit trap that had no bits left, seven are left (49_periph_tape.md R435). -/
theorem tapeReadBit_loading_tc {s : State} (h : s.tape.tc = 0) (a : Word) : (s.tapeReadBit a).tape.tc = 7 := by
  have hr : s.refillTapeByte = s.tapeRead.2.setTape { s.tapeRead.2.tape with tb := s.tapeRead.1, tc := 8 } := if_pos h
  unfold State.tapeReadBit
  rw [hr]
  rfl

/-- The LED flag is set by every read-bit trap (49_periph_tape.md R437). -/
theorem tapeReadBit_led (s : State) (a : Word) : (s.tapeReadBit a).tape.led = true := rfl

/-- The value of a bit byte (49_periph_tape.md R436). -/
theorem tapeBitPattern_msb (v : Byte) : tapeBitPattern v.msb = if v.getLsbD 7 then 0x00 else 0xFF := by
  rw [BitVec.msb_eq_getLsbD_last]
  rfl

/-- A write-byte trap after a failed creation (49_periph_tape.md R438). -/
theorem tapeWriteByte_failed {s : State} (h : s.tape.outFailed = true) : s.tapeWriteByte = s := if_pos h

/-- A write-byte trap with an open output (49_periph_tape.md R438). -/
theorem tapeWriteByte_open {s : State} (h : s.tape.outFailed = false) {bytes : List Byte}
    (ho : s.tape.out = some bytes) :
    s.tapeWriteByte = { s with tape := { s.tape with out := some (bytes ++ [s.cpu.a]) } } := by
  obtain ⟨cpu, cyc, draws, mem, mapper, dirty, pia, snd, keys, pen, tape, irqPrev, running, sched, inputs, replies, log⟩ := s
  obtain ⟨tp, cur, tb, tc, out, failed, led⟩ := tape
  subst h ho
  rfl

/-- A write-byte trap with no output yet, by the outcome of the creation (49_periph_tape.md R438). -/
theorem tapeWriteByte_create {s : State} (h : s.tape.outFailed = false) (ho : s.tape.out = none) :
    s.tapeWriteByte =
      if Config.outputCreated s.draws then
        { s with draws := s.draws + 1, tape := { s.tape with out := some [s.cpu.a] } }
      else
        { s with
          draws := s.draws + 1
          tape := { s.tape with outFailed := true }
          log := s.log ++ [.outputCreateFailed] } := by
  obtain ⟨cpu, cyc, draws, mem, mapper, dirty, pia, snd, keys, pen, tape, irqPrev, running, sched, inputs, replies, log⟩ := s
  obtain ⟨tp, cur, tb, tc, out, failed, led⟩ := tape
  subst h ho
  unfold State.tapeWriteByte State.createOutput State.drawOutputCreated
  cases Config.outputCreated draws <;> rfl

end Sys2Proof.Machine
end

