-- ==== Sys2Proof/Laws/RegCodes.lean ====
section
/-! SUPPORT. Reading and writing registers by their codes (45_misc.md R344, R345): what a read gives after a write. -/

namespace Sys2Proof.Machine

@[simp] theorem joinBytes_hi_lo (w : Word) : joinBytes (hiByte w) (loByte w) = w := by
  apply BitVec.eq_of_getLsbD_eq
  intro i hi
  simp only [joinBytes, hiByte, loByte, BitVec.getLsbD_append, BitVec.getLsbD_extractLsb']
  by_cases h : i < 8
  · simp [h]
  · have h1 : i - 8 < 8 := by omega
    have h2 : 8 + (i - 8) = i := by omega
    simp [h, h1, h2]

@[simp] theorem hiByte_joinBytes (h l : Byte) : hiByte (joinBytes h l) = h := by
  apply BitVec.eq_of_getLsbD_eq
  intro i hi
  have e : (h ++ l).getLsbD (8 + i) = h.getLsbD i := by rw [BitVec.getLsbD_append]; simp
  simpa [joinBytes, hiByte, BitVec.getLsbD_extractLsb', hi] using e

@[simp] theorem loByte_joinBytes (h l : Byte) : loByte (joinBytes h l) = l := by
  apply BitVec.eq_of_getLsbD_eq
  intro i hi
  have e : (h ++ l).getLsbD i = l.getLsbD i := by rw [BitVec.getLsbD_append]; simp [hi]
  simpa [joinBytes, loByte, BitVec.getLsbD_extractLsb', hi] using e

theorem zext8_loByte (w : Word) : zext8 (loByte w) = w &&& 0x00FF := by
  apply BitVec.eq_of_toNat_eq
  have h : (0x00FF : Word).toNat = 2 ^ 8 - 1 := rfl
  simp only [zext8, loByte, BitVec.toNat_setWidth, BitVec.extractLsb'_toNat, BitVec.toNat_and, Nat.shiftRight_zero, h,
    Nat.and_two_pow_sub_one_eq_mod]
  omega

theorem loByte_zext8 (b : Byte) : loByte (zext8 b) = b := by
  apply BitVec.eq_of_toNat_eq
  simp only [zext8, loByte, BitVec.toNat_setWidth, BitVec.extractLsb'_toNat, Nat.shiftRight_zero]
  have := b.isLt
  omega

theorem regSet_withRegs (s : State) (c : RegCode) (v : Word) :
    s.regSet c v = s.withRegs (s.regSet c v).cpu s.cyc s.draws := by
  cases c <;> rfl

theorem regSet_unnamed {c : RegCode} (h : codeNamesRegister c = false) (s : State) (v : Word) : s.regSet c v = s := by
  cases c <;> first | rfl | cases h

theorem regGet_regSet_wide {c : RegCode} (hn : codeNamesRegister c = true) (hw : regCodeWide c = true) (s : State)
    (v : Word) : (s.regSet c v).regGet c = v := by
  cases c <;> first | rfl | exact absurd hn Bool.false_ne_true | exact absurd hw Bool.false_ne_true | exact joinBytes_hi_lo v

theorem regGet_regSet_narrow {c : RegCode} (hn : codeNamesRegister c = true) (hw : regCodeWide c = false) (s : State)
    (v : Word) : (s.regSet c v).regGet c = v &&& 0x00FF := by
  cases c <;> first | exact absurd hn Bool.false_ne_true | exact absurd hw Bool.false_ne_true.symm | exact zext8_loByte v

theorem regGet_regSet_other {c c' : RegCode} (h : ¬ codesOverlap c c') (s : State) (v : Word) :
    (s.regSet c' v).regGet c = s.regGet c := by
  cases c' <;> cases c <;> first
    | rfl
    | exact absurd (Or.inl rfl) h
    | exact absurd (Or.inr (Or.inl ⟨rfl, Or.inl rfl⟩)) h
    | exact absurd (Or.inr (Or.inl ⟨rfl, Or.inr rfl⟩)) h
    | exact absurd (Or.inr (Or.inr ⟨rfl, Or.inl rfl⟩)) h
    | exact absurd (Or.inr (Or.inr ⟨rfl, Or.inr rfl⟩)) h

/-- Writing a register with what it holds changes nothing. -/
theorem regSet_regGet (s : State) (c : RegCode) : s.regSet c (s.regGet c) = s := by
  have h : ∀ b : Byte, loByte (zext8 b) = b := loByte_zext8
  cases c <;> first
    | rfl
    | (simp only [State.regSet, State.regGet, h]; rfl)
    | skip
  simp only [State.regSet, State.regGet, State.setD, State.d, hiByte_joinBytes, loByte_joinBytes]

theorem regGet_narrow {c : RegCode} (h : regCodeWide c = false) (s : State) : s.regGet c &&& 0x00FF = s.regGet c := by
  have e : ∀ b : Byte, zext8 b &&& 0x00FF = zext8 b := fun b => by rw [← zext8_loByte, loByte_zext8]
  cases c <;> first | exact absurd h Bool.false_ne_true.symm | exact e _ | exact e 0xFF

@[simp] theorem withRegs_regGet (s : State) (n d : Nat) (c : RegCode) : (s.withRegs s.cpu n d).regGet c = s.regGet c := by
  cases c <;> rfl

@[simp] theorem charge_regGet (s : State) (n : Nat) (c : RegCode) : (s.charge n).regGet c = s.regGet c := by
  cases c <;> rfl

end Sys2Proof.Machine
end

