-- ==== Sys2Proof/Laws/Reset.lean ====
section
/-! SUPPORT. Where the OPEN addresses lie, what the address map of a legal mapper is, and what the reset procedures and the
host's events do, said once each (20_memory.md R62, R72, 60_exceptions.md R476, 70_reset_and_hazards.md R501 to R506). -/

namespace Sys2Proof.Machine

/-! ## A legal mapper (20_memory.md R62, R72) -/

theorem pageIndex_val (addr : Word) : (pageIndex addr).val = addr.toNat / 4096 := by
  have h := addr.isLt
  show (addr.extractLsb' 12 4).toNat = _
  rw [BitVec.extractLsb'_toNat, Nat.shiftRight_eq_div_pow]
  omega

theorem pageOffset_eq (addr : Word) : pageOffset addr = addr.toNat % 4096 := by
  unfold pageOffset
  rw [BitVec.extractLsb'_toNat, Nat.shiftRight_zero]

theorem initMapper_get (i : Fin 16) (h : 2 ≤ i.val) : (initMapper.get i).val = i.val + 2 := by
  revert i; decide

/-- From CPU page 2 on, page `p` is physical page `p + 2` (20_memory.md R62). -/
theorem mapperOk_physPage {s : State} (h : mapperOk s.mapper) {addr : Word} (hp : 0x2000 ≤ addr.toNat) :
    s.physPage addr = addr.toNat / 4096 + 2 := by
  have h2 : 2 ≤ (pageIndex addr).val := by rw [pageIndex_val]; omega
  unfold State.physPage
  rw [h.2 _ h2, initMapper_get _ h2, pageIndex_val]

/-- CPU pages 0 and 1 are on a video plane (20_memory.md R62). -/
theorem mapperOk_physPage_low {s : State} (h : mapperOk s.mapper) {addr : Word} (hp : addr.toNat < 0x2000) :
    s.physPage addr < 4 := by
  have hv := pageIndex_val addr
  have hi : pageIndex addr = 0 ∨ pageIndex addr = 1 := by
    rcases Nat.lt_or_ge addr.toNat 4096 with hl | hl
    · exact .inl (Fin.ext (by rw [hv]; show _ = 0; omega))
    · exact .inr (Fin.ext (by rw [hv]; show _ = 1; omega))
  unfold State.physPage
  rcases hi with hi | hi <;> rcases h.1 with ⟨h0, h1⟩ | ⟨h0, h1⟩ <;> rw [hi] <;> simp [h0, h1]

/-- The ROM is what CPU addresses from 0xC000 on reach (20_memory.md R63). -/
theorem mapperOk_isRom {s : State} (h : mapperOk s.mapper) (addr : Word) :
    s.isRom addr = decide (0xC000 ≤ addr.toNat) := by
  unfold State.isRom romFirstPage
  rcases Nat.lt_or_ge addr.toNat 0x2000 with hl | hl
  · have := mapperOk_physPage_low h hl
    exact decide_eq_decide.mpr (by omega)
  · rw [mapperOk_physPage h hl]
    exact decide_eq_decide.mpr (by omega)

/-- No two CPU addresses reach one byte. -/
theorem mapperOk_phys_injective {s : State} (h : mapperOk s.mapper) {a b : Word} (e : s.phys a = s.phys b) : a = b := by
  unfold State.phys at e
  rw [pageOffset_eq, pageOffset_eq] at e
  apply BitVec.eq_of_toNat_eq
  have hv := pageIndex_val a
  have hw := pageIndex_val b
  rcases Nat.lt_or_ge a.toNat 0x2000 with ha | ha <;> rcases Nat.lt_or_ge b.toNat 0x2000 with hb | hb
  · have hp : s.physPage a = s.physPage b := by omega
    have key : a.toNat / 4096 = b.toNat / 4096 := by
      unfold State.physPage at hp
      rcases Nat.lt_or_ge a.toNat 4096 with ha' | ha' <;> rcases Nat.lt_or_ge b.toNat 4096 with hb' | hb'
      · omega
      · rw [show pageIndex a = 0 from Fin.ext (by rw [hv]; show _ = 0; omega),
          show pageIndex b = 1 from Fin.ext (by rw [hw]; show _ = 1; omega)] at hp
        rcases h.1 with ⟨h0, h1⟩ | ⟨h0, h1⟩ <;> simp [h0, h1] at hp
      · rw [show pageIndex a = 1 from Fin.ext (by rw [hv]; show _ = 1; omega),
          show pageIndex b = 0 from Fin.ext (by rw [hw]; show _ = 0; omega)] at hp
        rcases h.1 with ⟨h0, h1⟩ | ⟨h0, h1⟩ <;> simp [h0, h1] at hp
      · omega
    omega
  · have := mapperOk_physPage_low h ha
    rw [mapperOk_physPage h hb] at e
    omega
  · have := mapperOk_physPage_low h hb
    rw [mapperOk_physPage h ha] at e
    omega
  · rw [mapperOk_physPage h ha, mapperOk_physPage h hb] at e
    omega

theorem initMapper_ok : mapperOk initMapper := ⟨.inl ⟨rfl, rfl⟩, fun _ _ => rfl⟩

/-! ## The OPEN addresses -/

@[simp] theorem romAddress_toNat (i : Fin 16384) : (romAddress i).toNat = 0xC000 + i.val := by
  unfold romAddress
  rw [BitVec.toNat_ofNat]
  omega

/-- Distinct bytes of the image have distinct addresses, so the four trap addresses are distinct (49_periph_tape.md R431). -/
theorem romAddress_injective {i j : Fin 16384} (h : romAddress i = romAddress j) : i = j := by
  have := congrArg BitVec.toNat h
  rw [romAddress_toNat, romAddress_toNat] at this
  exact Fin.ext (by omega)

theorem romAddress_placed_ne {i j : Fin 16384} (h : i ≠ j) :
    romAddress (Config.trapPlacement i) ≠ romAddress (Config.trapPlacement j) :=
  fun e => h (Config.trapPlacement.injective (romAddress_injective e))

theorem ramAddress_toNat (i : Fin 49148) :
    (ramAddress i).toNat = if i.val < oraAddr.toNat then i.val else i.val + 4 := by
  have h := i.isLt
  unfold ramAddress
  rw [BitVec.toNat_ofNat, show oraAddr.toNat = 0xA7C0 from rfl]
  split <;> omega

/-- A byte of P_HARD_RESET_RANGE lies below the ROM and is no PIA shadow byte (10_state.md R36). -/
theorem mem_hardResetRange {a : Word} (h : a ∈ hardResetRange) :
    a.toNat < 0xC000 ∧ ¬ (oraAddr.toNat ≤ a.toNat ∧ a.toNat ≤ crbAddr.toNat) := by
  obtain ⟨i, _, rfl⟩ := List.mem_map.mp h
  have := i.isLt
  rw [ramAddress_toNat, show oraAddr.toNat = 0xA7C0 from rfl, show crbAddr.toNat = 0xA7C3 from rfl]
  split <;> omega

/-! ## The reset procedures -/

theorem cpuReset_eq (s : State) :
    s.cpuReset = { s with cpu := { s.cpu with pc := s.memRead16 resetVector, dp := 0x00, s := 0x8000, cc := 0x00 } } := rfl

/-- Zeroing a range writes memory and nothing else (70_reset_and_hazards.md R506). -/
theorem zeroRange_eq (range : List Word) (s : State) : zeroRange range s = { s with mem := (zeroRange range s).mem } := by
  induction range generalizing s with
  | nil => rfl
  | cons a rest ih =>
    show zeroRange rest (s.memSet a 0x00) = _
    rw [ih]
    rfl

/-- After zeroing a range, a byte reads 0 if an address of the range reaches it and as before otherwise. -/
theorem zeroRange_read (range : List Word) (s : State) (k : Nat) :
    (zeroRange range s).mem.read k = if k ∈ range.map s.phys then 0x00 else s.mem.read k := by
  induction range generalizing s with
  | nil => rfl
  | cons a rest ih =>
    show (zeroRange rest (s.memSet a 0x00)).mem.read k = _
    rw [ih, show (s.memSet a 0x00).phys = s.phys from rfl, show (s.memSet a 0x00).mem = s.mem.write (s.phys a) 0x00 from rfl,
      Memory.read_write]
    simp only [List.map_cons, List.mem_cons]
    by_cases h1 : k ∈ rest.map s.phys
    · rw [if_pos h1, if_pos (.inr h1)]
    · by_cases h2 : k = s.phys a
      · rw [if_neg h1, if_pos h2, if_pos (.inl h2)]
      · rw [if_neg h1, if_neg h2, if_neg (not_or.mpr ⟨h2, h1⟩)]

/-- The patches write memory and nothing else (70_reset_and_hazards.md R503). -/
theorem applyPatches_eq (ps : List (Word × Byte)) (s : State) :
    applyPatches ps s = { s with mem := (applyPatches ps s).mem } := by
  induction ps generalizing s with
  | nil => rfl
  | cons p rest ih =>
    show applyPatches rest (s.memSet p.1 p.2) = _
    rw [ih]
    rfl

/-- The memory reset keeps the canonical form (70_reset_and_hazards.md R501, R503). -/
theorem memReset_wf (s : State) {rom : List Byte} (h : rom.length = romImageBytes) (ps : List (Word × Byte)) :
    (s.memReset rom ps).mem.wf = true :=
  applyPatches_wf ps (loadRomFrom_wf rom _ (by decide) (by rw [h]; decide))

/-- Power-on completes for an image of the right size and patches with the four pairs (70_reset_and_hazards.md R503, R507). -/
theorem powerOn_next {rom : List Byte} {ps : List (Word × Byte)} (h : rom.length = romImageBytes)
    (ht : ∀ a ∈ trapAddresses, (a, periphOpcode) ∈ ps) (w : PowerOnDraws) :
    State.powerOn rom ps w = .next ((createdState w).memReset rom ps).cpuReset := by
  have hp : trapAddresses.any (fun t => !(ps.contains (t, periphOpcode))) = false := by
    rw [List.any_eq_false]
    intro a ha
    simp [ht a ha]
  unfold State.powerOn
  rw [if_neg (not_not.mpr h), hp]
  rfl

/-! ## Host events (60_exceptions.md R476) -/

/-- Draining a list of events applies them in order. -/
theorem hostEvents_eq_foldl (events : List HostEvent) (s : State) : hostEvents events s = events.foldl State.hostEvent s := by
  induction events generalizing s with
  | nil => rfl
  | cons e rest ih => exact ih (s.hostEvent e)

theorem drainEvents_none {s : State} (h : s.inputs = []) : s.drainEvents = s := by
  unfold State.drainEvents; rw [h]

theorem drainEvents_some {s : State} {events : List HostEvent} {later : List (List HostEvent)}
    (h : s.inputs = events :: later) : s.drainEvents = hostEvents events { s with inputs := later } := by
  unfold State.drainEvents; rw [h]

end Sys2Proof.Machine
end

