-- ==== Sys2Proof/Laws/Stack.lean ====
section
/-! SUPPORT. The stacks: every push is a push of a list of bytes, whose effect on the registers and on memory is said
once (46_stack.md R360, R361). -/

namespace Sys2Proof.Machine

/-! ## A run of addresses and the mapper -/

/-- A controller write moves no page that it is not the bank switch of (20_memory.md R72). -/
theorem memWrite_phys (s : State) (a : Word) (v : Byte) (b : Word) (h : a ≠ oraAddr ∨ 2 ≤ (pageIndex b).val) :
    (s.memWrite a v).phys b = s.phys b := by
  rcases memWrite_cases s a v with ⟨_, e⟩ | ⟨_, e⟩ | ⟨_, _, e⟩
  · rw [e]
  · rw [e]; rfl
  · rw [e]
    unfold State.piaWrite
    split_ifs with h1 h2
    · exact phys_bankMapper s { s.pia with ora := v } v b (h.resolve_left (fun hn => hn h1))
    all_goals rfl

/-- An address less than 4096 below the bank switch is in page 9 or 0xA. -/
theorem page_below_ora (i : Nat) (h : i < 4096) : 2 ≤ (pageIndex (oraAddr - BitVec.ofNat 16 i)).val := by
  have e : (oraAddr - BitVec.ofNat 16 i).toNat = 42944 - i := by
    have h1 : oraAddr.toNat = 42944 := rfl
    rw [BitVec.toNat_sub, BitVec.toNat_ofNat, h1]
    omega
  show 2 ≤ ((oraAddr - BitVec.ofNat 16 i).extractLsb' 12 4).toNat
  rw [BitVec.extractLsb'_toNat, e, Nat.shiftRight_eq_div_pow]
  omega

theorem pageOffset_sub (a : Word) (i : Nat) (h0 : 0 < i) (h : i < 4096) :
    pageOffset (a - BitVec.ofNat 16 i) ≠ pageOffset a := by
  unfold pageOffset
  simp only [BitVec.extractLsb'_toNat, Nat.shiftRight_zero, BitVec.toNat_sub, BitVec.toNat_ofNat]
  have := a.isLt
  omega

theorem phys_sub_ne (s : State) (a : Word) (i : Nat) (h0 : 0 < i) (h : i < 4096) :
    s.phys (a - BitVec.ofNat 16 i) ≠ s.phys a := by
  have h1 := pageOffset_lt a
  have h2 := pageOffset_lt (a - BitVec.ofNat 16 i)
  have h3 := pageOffset_sub a i h0 h
  unfold State.phys
  omega

/-! ## Pushing a list of bytes -/

/-- Pushing bytes, the first one first. -/
def pushBytes (k : StackPtr) : List Byte → State → State
  | [], s => s
  | v :: vs, s => pushBytes k vs (s.push8 k v)

theorem pushBytes_append (k : StackPtr) (vs ws : List Byte) (s : State) :
    pushBytes k (vs ++ ws) s = pushBytes k ws (pushBytes k vs s) := by
  induction vs generalizing s with
  | nil => rfl
  | cons v vs ih => exact ih _

theorem push8_withRegs (s : State) (k : StackPtr) (v : Byte) :
    s.push8 k v = (s.memWrite (s.sp k - 1) v).withRegs (s.setSp k (s.sp k - 1)).cpu s.cyc s.draws := by
  have h : s.setSp k (s.sp k - 1) = s.withRegs (s.setSp k (s.sp k - 1)).cpu s.cyc s.draws := by cases k <;> rfl
  unfold State.push8
  conv_lhs => rw [h]
  exact withRegs_memWrite _ _ _ _ _ _

theorem sp_sub (w : Word) (n : Nat) : w - 1 - BitVec.ofNat 16 n = w - BitVec.ofNat 16 (n + 1) := by
  apply BitVec.eq_of_toNat_eq
  have h1 : (1 : Word).toNat = 1 := rfl
  have := w.isLt
  simp only [BitVec.toNat_sub, BitVec.toNat_ofNat, h1]
  omega

theorem setSp_setSp_cpu (s t : State) (k : StackPtr) (v w : Word) (h : t.cpu = (s.setSp k v).cpu) :
    (t.setSp k w).cpu = (s.setSp k w).cpu := by
  cases k <;> simp [State.setSp, State.setS, State.setU, h]

theorem sp_of_cpu (s t : State) (k : StackPtr) (v : Word) (h : t.cpu = (s.setSp k v).cpu) : t.sp k = v := by
  cases k <;> simp [State.sp, State.setSp, State.setS, State.setU, h]

/-- What a push of bytes does to the registers, the counters and everything but memory and its controller. -/
theorem pushBytes_regs (k : StackPtr) (vs : List Byte) (s : State) :
    (pushBytes k vs s).cpu = (s.setSp k (s.sp k - BitVec.ofNat 16 vs.length)).cpu ∧
    (pushBytes k vs s).cyc = s.cyc ∧ (pushBytes k vs s).draws = s.draws ∧ (pushBytes k vs s).tape = s.tape ∧
    (pushBytes k vs s).log = s.log ∧ SameHost s (pushBytes k vs s) := by
  induction vs generalizing s with
  | nil =>
    refine ⟨?_, rfl, rfl, rfl, rfl, ⟨rfl, rfl, rfl, rfl, rfl, rfl, rfl⟩⟩
    cases k <;> simp [pushBytes, State.sp, State.setSp, State.setS, State.setU]
  | cons v vs ih =>
    obtain ⟨h1, h2, h3, h4, h5, h6⟩ := ih (s.push8 k v)
    have hc : (s.push8 k v).cpu = (s.setSp k (s.sp k - 1)).cpu := by rw [push8_withRegs]; rfl
    have hs : (s.push8 k v).sp k = s.sp k - 1 := sp_of_cpu s _ k _ hc
    refine ⟨?_, ?_, ?_, ?_, ?_, ?_⟩
    · refine h1.trans ?_
      rw [hs, sp_sub]
      exact setSp_setSp_cpu s _ k _ _ hc
    · exact h2.trans (by rw [push8_withRegs]; rfl)
    · exact h3.trans (by rw [push8_withRegs]; rfl)
    · exact h4.trans (by rw [push8_withRegs]; simp)
    · exact h5.trans (by rw [push8_withRegs]; simp)
    · obtain ⟨a, b, c, d, e, f, g⟩ := h6
      exact ⟨a.trans (by rw [push8_withRegs]; simp), b.trans (by rw [push8_withRegs]; simp),
        c.trans (by rw [push8_withRegs]; simp), d.trans (by rw [push8_withRegs]; simp),
        e.trans (by rw [push8_withRegs]; simp), f.trans (by rw [push8_withRegs]; simp),
        g.trans (by rw [push8_withRegs]; simp)⟩

theorem push8_sp (s : State) (k : StackPtr) (v : Byte) : (s.push8 k v).sp k = s.sp k - 1 :=
  sp_of_cpu s _ k _ (by rw [push8_withRegs]; rfl)

theorem push8_phys (s : State) (k : StackPtr) (v : Byte) (i : Nat) (h : i < 4096) :
    (s.push8 k v).phys (s.sp k - 1 - BitVec.ofNat 16 i) = s.phys (s.sp k - 1 - BitVec.ofNat 16 i) := by
  rw [push8_withRegs]
  refine memWrite_phys s _ v _ ?_
  by_cases e : s.sp k - 1 = oraAddr
  · rw [e]; exact Or.inr (page_below_ora i h)
  · exact Or.inl e

theorem push8_memRead (s : State) (k : StackPtr) (v : Byte) {j : Nat} (h : j ≠ s.phys (s.sp k - 1)) :
    (s.push8 k v).mem.read j = s.mem.read j := (push8_spec s k v).2.2 j h

/-- A push of at most 64 bytes changes no byte of memory outside them, wherever the stack is. -/
theorem pushBytes_frame (k : StackPtr) (vs : List Byte) (s : State) (hn : vs.length ≤ 64) {j : Nat}
    (h : ∀ i, i < vs.length → j ≠ s.phys (s.sp k - 1 - BitVec.ofNat 16 i)) :
    (pushBytes k vs s).mem.read j = s.mem.read j := by
  induction vs generalizing s with
  | nil => rfl
  | cons v vs ih =>
    rw [List.length_cons] at hn h
    have h0 := h 0 (Nat.succ_pos _)
    have e0 : s.sp k - 1 - BitVec.ofNat 16 0 = s.sp k - 1 := by simp
    rw [e0] at h0
    refine (ih (s.push8 k v) (by omega) (fun i hi => ?_)).trans (push8_memRead s k v h0)
    rw [push8_sp]
    have e1 : s.sp k - 1 - 1 - BitVec.ofNat 16 i = s.sp k - 1 - BitVec.ofNat 16 (i + 1) := sp_sub _ _
    rw [e1, push8_phys s k v (i + 1) (by omega)]
    exact h (i + 1) (by omega)

/-- A push of at most 64 bytes to plain memory stores each of them and leaves the controller as it was. -/
theorem pushBytes_plain (k : StackPtr) (vs : List Byte) (s : State) (hn : vs.length ≤ 64)
    (hp : ∀ i, i < vs.length → s.plain (s.sp k - 1 - BitVec.ofNat 16 i)) :
    (∀ i v, vs[i]? = some v → (pushBytes k vs s).mem.read (s.phys (s.sp k - 1 - BitVec.ofNat 16 i)) = v) ∧
    (pushBytes k vs s).mapper = s.mapper ∧ (pushBytes k vs s).pia = s.pia ∧ (pushBytes k vs s).snd = s.snd := by
  induction vs generalizing s with
  | nil => exact ⟨fun i v h => by simp at h, rfl, rfl, rfl⟩
  | cons v vs ih =>
    rw [List.length_cons] at hn hp
    have e0 : s.sp k - 1 - BitVec.ofNat 16 0 = s.sp k - 1 := by simp
    have hp0 : s.plain (s.sp k - 1) := e0 ▸ hp 0 (Nat.succ_pos _)
    have e1 : ∀ i, (s.push8 k v).sp k - 1 - BitVec.ofNat 16 i = s.sp k - 1 - BitVec.ofNat 16 (i + 1) := fun i => by
      rw [push8_sp]; exact sp_sub _ _
    have hm : (s.push8 k v).mapper = s.mapper := (push8_plain hp0 v).2
    have hw : s.push8 k v = (s.memWrite (s.sp k - 1) v).withRegs (s.setSp k (s.sp k - 1)).cpu s.cyc s.draws :=
      push8_withRegs s k v
    obtain ⟨h1, h2, h3, h4⟩ := ih (s.push8 k v) (by omega) (fun i hi => by
      have hq := hp (i + 1) (by omega)
      rw [e1]
      exact ⟨(State.isRom_congr hm _).trans hq.1, hq.2⟩)
    refine ⟨fun i w h => ?_, h2.trans hm, h3.trans ?_, h4.trans ?_⟩
    · cases i with
      | zero =>
        have hv : v = w := by simpa using h
        rw [e0]
        refine (pushBytes_frame k vs (s.push8 k v) (by omega) (fun i hi => ?_)).trans ?_
        · rw [e1, State.phys_congr hm, ← sp_sub]
          intro e
          have e2 : s.sp k - 1 - 1 - BitVec.ofNat 16 i = s.sp k - 1 - BitVec.ofNat 16 (i + 1) := sp_sub _ _
          rw [e2] at e
          exact phys_sub_ne s (s.sp k - 1) (i + 1) (by omega) (by omega) e.symm
        · rw [(push8_plain hp0 v).1, Memory.read_write, if_pos rfl, hv]
      | succ i =>
        have := h1 i w (by simpa using h)
        rw [e1, State.phys_congr hm] at this
        exact this
    · rw [hw, memWrite_plain hp0]; rfl
    · rw [hw, memWrite_plain hp0]; rfl

/-! ## The pushes as pushes of bytes -/

theorem push8_eq_pushBytes (s : State) (k : StackPtr) (v : Byte) : s.push8 k v = pushBytes k [v] s := rfl

theorem push16_eq_pushBytes (s : State) (k : StackPtr) (v : Word) :
    s.push16 k v = pushBytes k [loByte v, hiByte v] s := rfl

theorem push8_charge (s : State) (k : StackPtr) (v : Byte) (n : Nat) :
    (s.charge n).push8 k v = (s.push8 k v).charge n := by
  have h : (s.charge n).memWrite (s.sp k - 1) v = (s.memWrite (s.sp k - 1) v).withRegs s.cpu (s.cyc + n) s.draws :=
    withRegs_memWrite s s.cpu (s.cyc + n) s.draws _ _
  have hs : (s.charge n).sp k = s.sp k := by cases k <;> rfl
  rw [push8_withRegs, push8_withRegs, hs, h]
  cases k <;> rfl

theorem pushBytes_charge (k : StackPtr) (vs : List Byte) (s : State) (n : Nat) :
    pushBytes k vs (s.charge n) = (pushBytes k vs s).charge n := by
  induction vs generalizing s with
  | nil => rfl
  | cons v vs ih =>
    show pushBytes k vs ((s.charge n).push8 k v) = _
    rw [push8_charge]
    exact ih _

theorem stackRegBytes_length (s : State) (k : StackPtr) (r : StackReg) :
    (stackRegBytes s k r).length = stackRegWidth r := by
  cases r <;> rfl

theorem pushReg_eq (s : State) (k : StackPtr) (r : StackReg) :
    s.pushReg k r = (pushBytes k (stackRegBytes s k r).reverse s).charge (stackRegWidth r) := by
  cases r <;> rfl

/-- The bytes of a register do not depend on the stack pointer that pushes it. -/
theorem stackRegBytes_congr (s t : State) (k : StackPtr) (v : Word) (r : StackReg) (h : t.cpu = (s.setSp k v).cpu) :
    stackRegBytes t k r = stackRegBytes s k r := by
  cases k <;> cases r <;> simp [stackRegBytes, State.sp, State.setSp, State.setS, State.setU, StackPtr.other, h]

/-- The bytes that a push of the registers of `rs` pushes, the first one first. -/
def pushedBytes (s : State) (k : StackPtr) (mask : Byte) : List StackReg → List Byte
  | [] => []
  | r :: rs => (if mask.getLsbD r.bit then (stackRegBytes s k r).reverse else []) ++ pushedBytes s k mask rs

theorem pushedBytes_length (s : State) (k : StackPtr) (mask : Byte) (rs : List StackReg) :
    (pushedBytes s k mask rs).length = maskWidth mask rs := by
  induction rs with
  | nil => rfl
  | cons r rs ih =>
    simp only [pushedBytes, maskWidth, List.length_append, ih]
    split <;> simp [stackRegBytes_length]

theorem pushedBytes_congr (s t : State) (k : StackPtr) (v : Word) (mask : Byte) (rs : List StackReg)
    (h : t.cpu = (s.setSp k v).cpu) : pushedBytes t k mask rs = pushedBytes s k mask rs := by
  induction rs with
  | nil => rfl
  | cons r rs ih => simp only [pushedBytes, stackRegBytes_congr s t k v r h, ih]

theorem pushList_eq (k : StackPtr) (mask : Byte) (rs : List StackReg) (s : State) :
    pushList k mask rs s = (pushBytes k (pushedBytes s k mask rs) s).charge (maskWidth mask rs) := by
  induction rs generalizing s with
  | nil => rfl
  | cons r rs ih =>
    show pushList k mask rs (if mask.getLsbD r.bit then s.pushReg k r else s) = _
    rw [ih]
    by_cases h : mask.getLsbD r.bit = true
    · have hc : (s.pushReg k r).cpu =
          (s.setSp k (s.sp k - BitVec.ofNat 16 (stackRegBytes s k r).reverse.length)).cpu := by
        rw [pushReg_eq]; exact (pushBytes_regs k _ s).1
      simp only [pushedBytes, maskWidth, h, if_true]
      rw [pushedBytes_congr s _ k _ mask rs hc, pushReg_eq, pushBytes_charge, charge_charge, pushBytes_append]
    · simp only [pushedBytes, maskWidth, h, if_false, List.nil_append, Nat.zero_add, Bool.false_eq_true]

theorem pushedBytes_reverse (s : State) (k : StackPtr) (mask : Byte) :
    (pushedBytes s k mask pushOrder).reverse = maskBytes s k mask pullOrder := by
  simp only [pushedBytes, maskBytes, pushOrder, pullOrder, List.reverse_append, apply_ite List.reverse,
    List.reverse_reverse, List.reverse_nil, List.append_assoc, List.append_nil]

theorem maskWidth_order (mask : Byte) : maskWidth mask pushOrder = maskWidth mask pullOrder := by
  simp only [maskWidth, pushOrder, pullOrder, stackRegWidth]
  omega

theorem maskWidth_le (mask : Byte) : maskWidth mask pullOrder ≤ 12 := by
  simp only [maskWidth, pullOrder, stackRegWidth]
  split_ifs <;> omega

/-- `psh` as one push of bytes: those of `maskBytes` read backwards, with one cycle each. -/
theorem psh_eq (s : State) (k : StackPtr) (mask : Byte) :
    s.psh k mask =
      (pushBytes k (maskBytes s k mask pullOrder).reverse s).charge (maskWidth mask pullOrder) := by
  have h : pushedBytes s k mask pushOrder = (maskBytes s k mask pullOrder).reverse := by
    rw [← pushedBytes_reverse, List.reverse_reverse]
  unfold State.psh
  rw [pushList_eq, h, maskWidth_order]

theorem maskBytes_length (s : State) (k : StackPtr) (mask : Byte) :
    (maskBytes s k mask pullOrder).length = maskWidth mask pullOrder := by
  rw [← maskWidth_order, ← pushedBytes_length s k, ← pushedBytes_reverse, List.length_reverse]

/-! ## From the top of the stack upwards -/

theorem stack_addr (w : Word) {n j : Nat} (h : j < n) :
    w - BitVec.ofNat 16 n + BitVec.ofNat 16 j = w - 1 - BitVec.ofNat 16 (n - 1 - j) := by
  rw [sp_sub]
  apply BitVec.eq_of_toNat_eq
  have := w.isLt
  simp only [BitVec.toNat_add, BitVec.toNat_sub, BitVec.toNat_ofNat]
  omega

/-- What a push of the bytes `vs`, the last one at the highest address, does: the registers, the frame, and the stored
bytes where the stack is plain memory. -/
theorem pushBytes_spec (k : StackPtr) (vs : List Byte) (s : State) (hn : vs.length ≤ 64) :
    KeepsMemoryOutside ((addrsFrom (s.sp k - BitVec.ofNat 16 vs.length) vs.length).map s.phys) s
      (pushBytes k vs.reverse s) ∧
    (s.plainRange (s.sp k - BitVec.ofNat 16 vs.length) vs.length →
      HoldsBytes s (pushBytes k vs.reverse s) (s.sp k - BitVec.ofNat 16 vs.length) vs ∧
      (pushBytes k vs.reverse s).mapper = s.mapper ∧ (pushBytes k vs.reverse s).pia = s.pia ∧
      (pushBytes k vs.reverse s).snd = s.snd) := by
  have hr : vs.reverse.length ≤ 64 := by rw [List.length_reverse]; exact hn
  have hmem : ∀ i, i < vs.length →
      s.sp k - 1 - BitVec.ofNat 16 i ∈ addrsFrom (s.sp k - BitVec.ofNat 16 vs.length) vs.length := by
    intro i hi
    refine List.mem_map.mpr ⟨vs.length - 1 - i, List.mem_range.mpr (by omega), ?_⟩
    rw [stack_addr _ (by omega)]
    congr 2
    omega
  constructor
  · intro j hj
    refine pushBytes_frame k _ s hr (fun i hi e => hj ?_)
    rw [List.length_reverse] at hi
    exact List.mem_map.mpr ⟨_, hmem i hi, e.symm⟩
  · intro hp
    obtain ⟨h1, h2, h3, h4⟩ := pushBytes_plain k vs.reverse s hr (fun i hi => by
      rw [List.length_reverse] at hi
      exact hp _ (hmem i hi))
    refine ⟨fun j v hv => ?_, h2, h3, h4⟩
    have hj : j < vs.length := (List.getElem?_eq_some_iff.mp hv).1
    rw [stack_addr _ hj]
    refine h1 _ _ ?_
    rw [List.getElem?_reverse (by omega)]
    rw [← hv]
    congr 1
    omega

/-! ## Pulls (46_stack.md R361) -/

/-- A pull of one register changes CPU registers and the cycle counter, and nothing else. -/
theorem pullReg_eq (s : State) (k : StackPtr) (r : StackReg) :
    s.pullReg k r = s.withRegs (s.pullReg k r).cpu (s.cyc + stackRegWidth r) s.draws := by
  cases k <;> cases r <;> rfl

theorem pullReg_sp (s : State) (k : StackPtr) (r : StackReg) :
    (s.pullReg k r).sp k = s.sp k + BitVec.ofNat 16 (stackRegWidth r) := by
  have h2 : ∀ w : Word, w + 1#16 + 1#16 = w + 2#16 := fun w => by rw [BitVec.add_assoc]; rfl
  cases k <;> cases r <;>
    simp [State.pullReg, State.pull16, State.pull8, State.sp, State.setSp, StackPtr.other, State.setS, State.setU,
      State.setPc, State.setX, State.setY, State.setA, State.setB, State.setDp, State.setCc, State.charge, stackRegWidth,
      h2]

/-! ## Interrupt frames (48_system.md R410, 60_exceptions.md R463) -/

theorem pushEntire_eq (s : State) : s.pushEntire = pushBytes .s (frameBytes s.cpu s.cpu.cc).reverse s := rfl

theorem putFlag_e (cc : Byte) : putFlag cc .e true = cc ||| 0x80 := rfl

/-- The registers and counters after an interrupt entry, with PC from the vector as memory then holds it. -/
theorem interruptEntry_eq (s : State) (maskBits : Byte) (vector : Word) :
    s.interruptEntry maskBits vector =
      (pushBytes .s (frameBytes s.cpu (s.cpu.cc ||| 0x80)).reverse
        (s.setCc (s.cpu.cc ||| 0x80))).withRegs
        { s.cpu with
          s := s.cpu.s - 12
          cc := s.cpu.cc ||| 0x80 ||| maskBits
          pc := (s.interruptEntry maskBits vector).memRead16 vector }
        s.cyc s.draws := by
  have e := pushEntire_eq (s.setCc (s.cpu.cc ||| 0x80))
  have hr := pushBytes_regs .s (frameBytes s.cpu (s.cpu.cc ||| 0x80)).reverse (s.setCc (s.cpu.cc ||| 0x80))
  have hl : (frameBytes s.cpu (s.cpu.cc ||| 0x80)).reverse.length = 12 := rfl
  rw [hl] at hr
  obtain ⟨h1, h2, h3, _⟩ := hr
  have hf : (frameBytes (s.setCc (s.cpu.cc ||| 0x80)).cpu (s.setCc (s.cpu.cc ||| 0x80)).cpu.cc) =
      frameBytes s.cpu (s.cpu.cc ||| 0x80) := rfl
  rw [hf] at e
  unfold State.interruptEntry
  rw [putFlag_e, e]
  generalize pushBytes .s (frameBytes s.cpu (s.cpu.cc ||| 0x80)).reverse (s.setCc (s.cpu.cc ||| 0x80)) = t at *
  have hc : t.cpu = { s.cpu with cc := s.cpu.cc ||| 0x80, s := s.cpu.s - 12 } := h1
  have ht : t = t.withRegs t.cpu s.cyc s.draws := by
    show t = { t with cyc := s.cyc, draws := s.draws }
    have h2' : s.cyc = t.cyc := h2.symm
    have h3' : s.draws = t.draws := h3.symm
    rw [h2', h3']
  rw [ht]
  simp only [withRegs_setCc, withRegs_setPc, withRegs_memRead16, withRegs_withRegs, withRegs_cpu, hc]

/-- Everything an interrupt entry does: the registers, the frame of the memory outside the twelve stack bytes, and these
bytes where the stack is plain memory. -/
theorem interruptEntry_spec (s : State) (maskBits : Byte) (vector : Word) :
    (s.interruptEntry maskBits vector).cpu = { s.cpu with
      s := s.cpu.s - 12
      cc := s.cpu.cc ||| 0x80 ||| maskBits
      pc := (s.interruptEntry maskBits vector).memRead16 vector } ∧
    (s.interruptEntry maskBits vector).cyc = s.cyc ∧ (s.interruptEntry maskBits vector).draws = s.draws ∧
    (s.interruptEntry maskBits vector).tape = s.tape ∧ (s.interruptEntry maskBits vector).log = s.log ∧
    SameHost s (s.interruptEntry maskBits vector) ∧
    KeepsMemoryOutside ((addrsFrom (s.cpu.s - 12) 12).map s.phys) s (s.interruptEntry maskBits vector) ∧
    (s.plainRange (s.cpu.s - 12) 12 →
      HoldsBytes s (s.interruptEntry maskBits vector) (s.cpu.s - 12) (frameBytes s.cpu (s.cpu.cc ||| 0x80)) ∧
      (s.interruptEntry maskBits vector).mapper = s.mapper ∧ (s.interruptEntry maskBits vector).pia = s.pia ∧
      (s.interruptEntry maskBits vector).snd = s.snd) := by
  have e := interruptEntry_eq s maskBits vector
  have hr := pushBytes_regs .s (frameBytes s.cpu (s.cpu.cc ||| 0x80)).reverse (s.setCc (s.cpu.cc ||| 0x80))
  have hl : (frameBytes s.cpu (s.cpu.cc ||| 0x80)).length = 12 := rfl
  have hs := pushBytes_spec .s (frameBytes s.cpu (s.cpu.cc ||| 0x80)) (s.setCc (s.cpu.cc ||| 0x80)) (by rw [hl]; decide)
  rw [hl] at hs
  generalize pushBytes .s (frameBytes s.cpu (s.cpu.cc ||| 0x80)).reverse (s.setCc (s.cpu.cc ||| 0x80)) = z at e hr hs
  generalize s.interruptEntry maskBits vector = t at e
  obtain ⟨_, _, _, h4, h5, h6⟩ := hr
  have k1 : t.mem = z.mem := by rw [e]; rfl
  have k2 : t.mapper = z.mapper := by rw [e]; rfl
  have k3 : t.pia = z.pia := by rw [e]; rfl
  have k4 : t.snd = z.snd := by rw [e]; rfl
  have k5 : t.tape = z.tape := by rw [e]; rfl
  have k6 : t.log = z.log := by rw [e]; rfl
  have c1 : t.keys = z.keys := by rw [e]; rfl
  have c2 : t.pen = z.pen := by rw [e]; rfl
  have c3 : t.irqPrev = z.irqPrev := by rw [e]; rfl
  have c4 : t.running = z.running := by rw [e]; rfl
  have c5 : t.sched = z.sched := by rw [e]; rfl
  have c6 : t.inputs = z.inputs := by rw [e]; rfl
  have c7 : t.replies = z.replies := by rw [e]; rfl
  refine ⟨?_, ?_, ?_, k5.trans h4, k6.trans h5, ⟨c1.trans h6.keys, c2.trans h6.pen, c3.trans h6.irqPrev,
    c4.trans h6.running, c5.trans h6.sched, c6.trans h6.inputs, c7.trans h6.replies⟩, ?_, ?_⟩
  · conv_lhs => rw [e]
    rfl
  · rw [e]; rfl
  · rw [e]; rfl
  · intro j hj
    rw [k1]
    exact hs.1 j hj
  · intro hp
    obtain ⟨a, b, c, d⟩ := hs.2 hp
    refine ⟨fun j v hv => ?_, k2.trans b, k3.trans c, k4.trans d⟩
    rw [k1]
    exact a j v hv

theorem irqEntry_eq (s : State) : s.irqEntry = (s.interruptEntry maskI irqVector).charge irqCycles := rfl

/-- Whether a range is plain memory depends on the mapper only. -/
theorem plainRange_congr {s t : State} (h : t.mapper = s.mapper) {base : Word} {n : Nat} (hp : s.plainRange base n) :
    t.plainRange base n :=
  fun a ha => ⟨by rw [State.isRom_congr h]; exact (hp a ha).1, (hp a ha).2⟩

/-- Under a legal mapper, an IRQ entry with a stack in plain memory leaves the PIA's shadow bytes as they are. -/
theorem irqEntry_shadow {s : State} (hp : s.plainRange (s.cpu.s - 12) 12) (hm : mapperOk s.mapper) {a : Word}
    (ha : (pageIndex a).val = ioPage) : s.irqEntry.mem.read (s.phys a) = s.mem.read (s.phys a) := by
  have hs := (interruptEntry_spec s maskI irqVector).2.2.2.2.2.2.1
  rw [irqEntry_eq, State.charge_mem]
  generalize s.interruptEntry maskI irqVector = t at hs
  refine hs _ fun hmem => ?_
  obtain ⟨b, hb, e⟩ := List.mem_map.mp hmem
  rw [mapperOk_phys_injective hm e] at hb
  exact (hp a hb).2 ha

/-- Everything a call does to a state whose registers and counters the caller has set. -/
theorem callTo_spec (s : State) (target : Word) :
    (callTo target s).cpu = { s.cpu with s := s.cpu.s - 2, pc := target } ∧ (callTo target s).cyc = s.cyc ∧
    (callTo target s).draws = s.draws ∧ (callTo target s).tape = s.tape ∧ (callTo target s).log = s.log ∧
    SameHost s (callTo target s) ∧
    KeepsMemoryOutside ((addrsFrom (s.cpu.s - 2) 2).map s.phys) s (callTo target s) ∧
    (s.plainRange (s.cpu.s - 2) 2 →
      HoldsBytes s (callTo target s) (s.cpu.s - 2) [hiByte s.cpu.pc, loByte s.cpu.pc] ∧
      (callTo target s).mapper = s.mapper ∧ (callTo target s).pia = s.pia ∧ (callTo target s).snd = s.snd) := by
  have hr := pushBytes_regs .s [loByte s.cpu.pc, hiByte s.cpu.pc] s
  have hs := pushBytes_spec .s [hiByte s.cpu.pc, loByte s.cpu.pc] s (by simp)
  have e : callTo target s = (pushBytes .s [loByte s.cpu.pc, hiByte s.cpu.pc] s).setPc target := rfl
  have hv : [hiByte s.cpu.pc, loByte s.cpu.pc].reverse = [loByte s.cpu.pc, hiByte s.cpu.pc] := rfl
  rw [hv] at hs
  rw [e]
  generalize pushBytes .s [loByte s.cpu.pc, hiByte s.cpu.pc] s = z at *
  obtain ⟨h1, h2, h3, h4, h5, h6⟩ := hr
  refine ⟨?_, h2, h3, h4, h5, ⟨h6.keys, h6.pen, h6.irqPrev, h6.running, h6.sched, h6.inputs, h6.replies⟩, hs.1, hs.2⟩
  show ({ z.cpu with pc := target } : Cpu) = _
  rw [h1]
  rfl

/-- Everything a push of registers does. -/
theorem psh_spec (s : State) (k : StackPtr) (mask : Byte) :
    (s.psh k mask).cpu = (s.setSp k (s.sp k - BitVec.ofNat 16 (maskWidth mask pullOrder))).cpu ∧
    (s.psh k mask).cyc = s.cyc + maskWidth mask pullOrder ∧ (s.psh k mask).draws = s.draws ∧
    (s.psh k mask).tape = s.tape ∧ (s.psh k mask).log = s.log ∧ SameHost s (s.psh k mask) ∧
    KeepsMemoryOutside ((addrsFrom (s.sp k - BitVec.ofNat 16 (maskWidth mask pullOrder))
      (maskWidth mask pullOrder)).map s.phys) s (s.psh k mask) ∧
    (s.plainRange (s.sp k - BitVec.ofNat 16 (maskWidth mask pullOrder)) (maskWidth mask pullOrder) →
      HoldsBytes s (s.psh k mask) (s.sp k - BitVec.ofNat 16 (maskWidth mask pullOrder)) (maskBytes s k mask pullOrder) ∧
      (s.psh k mask).mapper = s.mapper ∧ (s.psh k mask).pia = s.pia ∧ (s.psh k mask).snd = s.snd) := by
  have hl := maskBytes_length s k mask
  have hr := pushBytes_regs k (maskBytes s k mask pullOrder).reverse s
  have hs := pushBytes_spec k (maskBytes s k mask pullOrder) s (by rw [hl]; have := maskWidth_le mask; omega)
  rw [List.length_reverse, hl] at hr
  rw [hl] at hs
  rw [psh_eq]
  generalize pushBytes k (maskBytes s k mask pullOrder).reverse s = z at *
  obtain ⟨h1, h2, h3, h4, h5, h6⟩ := hr
  refine ⟨h1, ?_, h3, h4, h5, ⟨h6.keys, h6.pen, h6.irqPrev, h6.running, h6.sched, h6.inputs, h6.replies⟩, hs.1, hs.2⟩
  show z.cyc + _ = _
  rw [h2]

/-! ## Return from interrupt (48_system.md R415) -/

theorem withRegs_pull8_s (s : State) (c : Cpu) (n d : Nat) :
    (s.withRegs c n d).pull8 .s = (s.memRead c.s, s.withRegs { c with s := c.s + 1 } n d) := rfl

theorem withRegs_pull16_s (s : State) (c : Cpu) (n d : Nat) :
    (s.withRegs c n d).pull16 .s = (s.memRead16 c.s, s.withRegs { c with s := c.s + 2 } n d) := by
  obtain ⟨h1, h2⟩ := pull16_spec (s.withRegs c n d) .s
  exact Prod.ext h1 h2

theorem withRegs_pullEntireRegs (s : State) (c : Cpu) (n d : Nat) :
    (s.withRegs c n d).pullEntireRegs = s.withRegs { c with
      a := s.memRead c.s
      b := s.memRead (c.s + 1)
      dp := s.memRead (c.s + 2)
      x := s.memRead16 (c.s + 3)
      y := s.memRead16 (c.s + 5)
      u := s.memRead16 (c.s + 7)
      s := c.s + 9 } (n + 9) d := by
  have h : ∀ (w : Word) (i j : Nat), w + BitVec.ofNat 16 i + BitVec.ofNat 16 j = w + BitVec.ofNat 16 (i + j) := by
    intro w i j
    rw [BitVec.add_assoc, ← BitVec.ofNat_add]
  have e : (s.withRegs c n d).pullEntireRegs = s.withRegs { c with
      a := s.memRead c.s
      b := s.memRead (c.s + 1)
      dp := s.memRead (c.s + 1 + 1)
      x := s.memRead16 (c.s + 1 + 1 + 1)
      y := s.memRead16 (c.s + 1 + 1 + 1 + 2)
      u := s.memRead16 (c.s + 1 + 1 + 1 + 2 + 2)
      s := c.s + 1 + 1 + 1 + 2 + 2 + 2 } (n + 9) d := by
    unfold State.pullEntireRegs
    have h3 : (s.withRegs { c with
          a := s.memRead c.s, b := s.memRead (c.s + 1), dp := s.memRead (c.s + 1 + 1), s := c.s + 1 + 1 + 1 } n d).pull16 .s
        = _ := withRegs_pull16_s _ _ _ _
    simp only [withRegs_pull8_s, State.setA, State.setB, State.setDp, State.setX, State.setY, State.setU]
    exact (congrArg (fun p : Word × State =>
      let t := p.2.setX p.1
      let t := (t.pull16 .s).2.setY (t.pull16 .s).1
      let t := (t.pull16 .s).2.setU (t.pull16 .s).1
      t.charge 9) h3).trans (by
        have h4 : ∀ c' : Cpu, (s.withRegs c' n d).setX = fun v => s.withRegs { c' with x := v } n d := fun _ => rfl
        have h5 : ∀ c' : Cpu, (s.withRegs c' n d).setY = fun v => s.withRegs { c' with y := v } n d := fun _ => rfl
        have h6 : ∀ c' : Cpu, (s.withRegs c' n d).setU = fun v => s.withRegs { c' with u := v } n d := fun _ => rfl
        simp only [h4, withRegs_pull16_s, h5, h6, withRegs_charge])
  rw [e]
  have a1 : ∀ w : Word, w + 1 = w + BitVec.ofNat 16 1 := fun _ => rfl
  have a2 : ∀ w : Word, w + 2 = w + BitVec.ofNat 16 2 := fun _ => rfl
  simp only [a1, a2, h]
  rfl

/-- RTI with E = 1 in the pulled CC. -/
theorem returnFromInterrupt_entire {s : State} (h : (s.memRead s.cpu.s).getLsbD 7 = true) :
    s.returnFromInterrupt = s.withRegs
      { cc := s.memRead s.cpu.s
        a := s.memRead (s.cpu.s + 1)
        b := s.memRead (s.cpu.s + 2)
        dp := s.memRead (s.cpu.s + 3)
        x := s.memRead16 (s.cpu.s + 4)
        y := s.memRead16 (s.cpu.s + 6)
        u := s.memRead16 (s.cpu.s + 8)
        pc := s.memRead16 (s.cpu.s + 10)
        s := s.cpu.s + 12 } (s.cyc + 9) s.draws := by
  have ha : ∀ (w : Word) (i j : Nat), w + BitVec.ofNat 16 i + BitVec.ofNat 16 j = w + BitVec.ofNat 16 (i + j) := by
    intro w i j
    rw [BitVec.add_assoc, ← BitVec.ofNat_add]
  have a1 : ∀ w : Word, w + 1 + 1 = w + 2 := fun w => ha w 1 1
  have a2 : ∀ w : Word, w + 1 + 2 = w + 3 := fun w => ha w 1 2
  have a3 : ∀ w : Word, w + 1 + 3 = w + 4 := fun w => ha w 1 3
  have a5 : ∀ w : Word, w + 1 + 5 = w + 6 := fun w => ha w 1 5
  have a7 : ∀ w : Word, w + 1 + 7 = w + 8 := fun w => ha w 1 7
  have a9 : ∀ w : Word, w + 1 + 9 = w + 10 := fun w => ha w 1 9
  have a12 : ∀ w : Word, w + 10 + 2 = w + 12 := fun w => ha w 10 2
  have h0 : (s.pull8 .s).2.setCc (s.pull8 .s).1 =
      s.withRegs { s.cpu with cc := s.memRead s.cpu.s, s := s.cpu.s + 1 } s.cyc s.draws := rfl
  have hf : getFlag (s.withRegs { s.cpu with cc := s.memRead s.cpu.s, s := s.cpu.s + 1 } s.cyc s.draws).cpu.cc .e = true :=
    h
  unfold State.returnFromInterrupt
  rw [h0]
  simp only [hf, if_true, withRegs_pullEntireRegs, withRegs_pull16_s, withRegs_setPc, a1, a2, a3, a5, a7, a9, a12]

/-- RTI with E = 0 in the pulled CC. -/
theorem returnFromInterrupt_short {s : State} (h : (s.memRead s.cpu.s).getLsbD 7 = false) :
    s.returnFromInterrupt = s.withRegs
      { s.cpu with
        cc := s.memRead s.cpu.s
        pc := s.memRead16 (s.cpu.s + 1)
        s := s.cpu.s + 3 } s.cyc s.draws := by
  have a2 : ∀ w : Word, w + 1 + 2 = w + 3 := fun w => by rw [BitVec.add_assoc]; rfl
  have h0 : (s.pull8 .s).2.setCc (s.pull8 .s).1 =
      s.withRegs { s.cpu with cc := s.memRead s.cpu.s, s := s.cpu.s + 1 } s.cyc s.draws := rfl
  have hf : getFlag (s.withRegs { s.cpu with cc := s.memRead s.cpu.s, s := s.cpu.s + 1 } s.cyc s.draws).cpu.cc .e = false :=
    h
  unfold State.returnFromInterrupt
  rw [h0]
  simp only [hf, Bool.false_eq_true, if_false, withRegs_pull16_s, withRegs_setPc, a2]

theorem add_ofNat_zero (w : Word) : w + BitVec.ofNat 16 0 = w := by
  rw [show BitVec.ofNat 16 0 = 0 by rfl]
  simp

theorem add_ofNat_ofNat (w : Word) (i j : Nat) :
    w + BitVec.ofNat 16 i + BitVec.ofNat 16 j = w + BitVec.ofNat 16 (i + j) := by
  rw [BitVec.add_assoc, ← BitVec.ofNat_add]

theorem withRegs_pull16_u (s : State) (c : Cpu) (n d : Nat) :
    (s.withRegs c n d).pull16 .u = (s.memRead16 c.u, s.withRegs { c with u := c.u + 2 } n d) := by
  obtain ⟨h1, h2⟩ := pull16_spec (s.withRegs c n d) .u
  exact Prod.ext h1 h2

theorem pullList_nil (k : StackPtr) (mask : Byte) (s : State) : pullList k mask [] s = s := rfl

/-- A pull of one register from S, if its mask bit `b` is set. -/
theorem pullIf_s (r : StackReg) (s : State) (c : Cpu) (n d : Nat) (b : Bool) :
    (if b = true then (s.withRegs c n d).pullReg .s r else s.withRegs c n d) = s.withRegs (match r with
      | .cc => { c with
          cc := if b then s.memRead c.s else c.cc
          s := c.s + BitVec.ofNat 16 (if b then 1 else 0) }
      | .a => { c with
          a := if b then s.memRead c.s else c.a
          s := c.s + BitVec.ofNat 16 (if b then 1 else 0) }
      | .b => { c with
          b := if b then s.memRead c.s else c.b
          s := c.s + BitVec.ofNat 16 (if b then 1 else 0) }
      | .dp => { c with
          dp := if b then s.memRead c.s else c.dp
          s := c.s + BitVec.ofNat 16 (if b then 1 else 0) }
      | .x => { c with
          x := if b then s.memRead16 c.s else c.x
          s := c.s + BitVec.ofNat 16 (if b then 2 else 0) }
      | .y => { c with
          y := if b then s.memRead16 c.s else c.y
          s := c.s + BitVec.ofNat 16 (if b then 2 else 0) }
      | .w => { c with
          u := if b then s.memRead16 c.s else c.u
          s := c.s + BitVec.ofNat 16 (if b then 2 else 0) }
      | .pc => { c with
          pc := if b then s.memRead16 c.s else c.pc
          s := c.s + BitVec.ofNat 16 (if b then 2 else 0) })
      (n + if b then stackRegWidth r else 0) d := by
  cases b
  · cases r <;> simp only [Bool.false_eq_true, if_false, add_ofNat_zero, Nat.add_zero]
  · cases r <;> simp only [if_true, State.pullReg, withRegs_pull16_s] <;> rfl

theorem pullList_s (r : StackReg) (rs : List StackReg) (mask : Byte) (s : State) (c : Cpu) (n d : Nat) :
    pullList .s mask (r :: rs) (s.withRegs c n d) = pullList .s mask rs (s.withRegs (match r with
      | .cc => { c with
          cc := if mask.getLsbD r.bit then s.memRead c.s else c.cc
          s := c.s + BitVec.ofNat 16 (if mask.getLsbD r.bit then 1 else 0) }
      | .a => { c with
          a := if mask.getLsbD r.bit then s.memRead c.s else c.a
          s := c.s + BitVec.ofNat 16 (if mask.getLsbD r.bit then 1 else 0) }
      | .b => { c with
          b := if mask.getLsbD r.bit then s.memRead c.s else c.b
          s := c.s + BitVec.ofNat 16 (if mask.getLsbD r.bit then 1 else 0) }
      | .dp => { c with
          dp := if mask.getLsbD r.bit then s.memRead c.s else c.dp
          s := c.s + BitVec.ofNat 16 (if mask.getLsbD r.bit then 1 else 0) }
      | .x => { c with
          x := if mask.getLsbD r.bit then s.memRead16 c.s else c.x
          s := c.s + BitVec.ofNat 16 (if mask.getLsbD r.bit then 2 else 0) }
      | .y => { c with
          y := if mask.getLsbD r.bit then s.memRead16 c.s else c.y
          s := c.s + BitVec.ofNat 16 (if mask.getLsbD r.bit then 2 else 0) }
      | .w => { c with
          u := if mask.getLsbD r.bit then s.memRead16 c.s else c.u
          s := c.s + BitVec.ofNat 16 (if mask.getLsbD r.bit then 2 else 0) }
      | .pc => { c with
          pc := if mask.getLsbD r.bit then s.memRead16 c.s else c.pc
          s := c.s + BitVec.ofNat 16 (if mask.getLsbD r.bit then 2 else 0) })
      (n + if mask.getLsbD r.bit then stackRegWidth r else 0) d) := by
  show pullList .s mask rs (if mask.getLsbD r.bit = true then (s.withRegs c n d).pullReg .s r else s.withRegs c n d) = _
  rw [pullIf_s]

/-- Everything a pull of registers from S does. -/
theorem pul_s_eq (s : State) (mask : Byte) :
    s.pul .s mask = s.withRegs
      { cc := pulledByte s .s mask .cc s.cpu.cc
        a := pulledByte s .s mask .a s.cpu.a
        b := pulledByte s .s mask .b s.cpu.b
        dp := pulledByte s .s mask .dp s.cpu.dp
        x := pulledWord s .s mask .x s.cpu.x
        y := pulledWord s .s mask .y s.cpu.y
        u := pulledWord s .s mask .w s.cpu.u
        pc := pulledWord s .s mask .pc s.cpu.pc
        s := s.cpu.s + BitVec.ofNat 16 (maskWidth mask pullOrder) }
      (s.cyc + maskWidth mask pullOrder) s.draws := by
  have e : s = s.withRegs s.cpu s.cyc s.draws := rfl
  conv_lhs => rw [e]
  unfold State.pul pullOrder
  rw [pullList_s, pullList_s, pullList_s, pullList_s, pullList_s, pullList_s, pullList_s, pullList_s, pullList_nil]
  simp only [stackRegWidth, add_ofNat_ofNat, pulledByte, pulledWord, pulledBefore, maskWidth, StackReg.bit,
    State.sp, add_ofNat_zero, Nat.add_assoc, Nat.add_zero]
  rfl

/-- A pull of one register from U, if its mask bit `b` is set. -/
theorem pullIf_u (r : StackReg) (s : State) (c : Cpu) (n d : Nat) (b : Bool) :
    (if b = true then (s.withRegs c n d).pullReg .u r else s.withRegs c n d) = s.withRegs (match r with
      | .cc => { c with
          cc := if b then s.memRead c.u else c.cc
          u := c.u + BitVec.ofNat 16 (if b then 1 else 0) }
      | .a => { c with
          a := if b then s.memRead c.u else c.a
          u := c.u + BitVec.ofNat 16 (if b then 1 else 0) }
      | .b => { c with
          b := if b then s.memRead c.u else c.b
          u := c.u + BitVec.ofNat 16 (if b then 1 else 0) }
      | .dp => { c with
          dp := if b then s.memRead c.u else c.dp
          u := c.u + BitVec.ofNat 16 (if b then 1 else 0) }
      | .x => { c with
          x := if b then s.memRead16 c.u else c.x
          u := c.u + BitVec.ofNat 16 (if b then 2 else 0) }
      | .y => { c with
          y := if b then s.memRead16 c.u else c.y
          u := c.u + BitVec.ofNat 16 (if b then 2 else 0) }
      | .w => { c with
          s := if b then s.memRead16 c.u else c.s
          u := c.u + BitVec.ofNat 16 (if b then 2 else 0) }
      | .pc => { c with
          pc := if b then s.memRead16 c.u else c.pc
          u := c.u + BitVec.ofNat 16 (if b then 2 else 0) })
      (n + if b then stackRegWidth r else 0) d := by
  cases b
  · cases r <;> simp only [Bool.false_eq_true, if_false, add_ofNat_zero, Nat.add_zero]
  · cases r <;> simp only [if_true, State.pullReg, withRegs_pull16_u] <;> rfl

theorem pullList_u (r : StackReg) (rs : List StackReg) (mask : Byte) (s : State) (c : Cpu) (n d : Nat) :
    pullList .u mask (r :: rs) (s.withRegs c n d) = pullList .u mask rs (s.withRegs (match r with
      | .cc => { c with
          cc := if mask.getLsbD r.bit then s.memRead c.u else c.cc
          u := c.u + BitVec.ofNat 16 (if mask.getLsbD r.bit then 1 else 0) }
      | .a => { c with
          a := if mask.getLsbD r.bit then s.memRead c.u else c.a
          u := c.u + BitVec.ofNat 16 (if mask.getLsbD r.bit then 1 else 0) }
      | .b => { c with
          b := if mask.getLsbD r.bit then s.memRead c.u else c.b
          u := c.u + BitVec.ofNat 16 (if mask.getLsbD r.bit then 1 else 0) }
      | .dp => { c with
          dp := if mask.getLsbD r.bit then s.memRead c.u else c.dp
          u := c.u + BitVec.ofNat 16 (if mask.getLsbD r.bit then 1 else 0) }
      | .x => { c with
          x := if mask.getLsbD r.bit then s.memRead16 c.u else c.x
          u := c.u + BitVec.ofNat 16 (if mask.getLsbD r.bit then 2 else 0) }
      | .y => { c with
          y := if mask.getLsbD r.bit then s.memRead16 c.u else c.y
          u := c.u + BitVec.ofNat 16 (if mask.getLsbD r.bit then 2 else 0) }
      | .w => { c with
          s := if mask.getLsbD r.bit then s.memRead16 c.u else c.s
          u := c.u + BitVec.ofNat 16 (if mask.getLsbD r.bit then 2 else 0) }
      | .pc => { c with
          pc := if mask.getLsbD r.bit then s.memRead16 c.u else c.pc
          u := c.u + BitVec.ofNat 16 (if mask.getLsbD r.bit then 2 else 0) })
      (n + if mask.getLsbD r.bit then stackRegWidth r else 0) d) := by
  show pullList .u mask rs (if mask.getLsbD r.bit = true then (s.withRegs c n d).pullReg .u r else s.withRegs c n d) = _
  rw [pullIf_u]

/-- Everything a pull of registers from U does. -/
theorem pul_u_eq (s : State) (mask : Byte) :
    s.pul .u mask = s.withRegs
      { cc := pulledByte s .u mask .cc s.cpu.cc
        a := pulledByte s .u mask .a s.cpu.a
        b := pulledByte s .u mask .b s.cpu.b
        dp := pulledByte s .u mask .dp s.cpu.dp
        x := pulledWord s .u mask .x s.cpu.x
        y := pulledWord s .u mask .y s.cpu.y
        s := pulledWord s .u mask .w s.cpu.s
        pc := pulledWord s .u mask .pc s.cpu.pc
        u := s.cpu.u + BitVec.ofNat 16 (maskWidth mask pullOrder) }
      (s.cyc + maskWidth mask pullOrder) s.draws := by
  have e : s = s.withRegs s.cpu s.cyc s.draws := rfl
  conv_lhs => rw [e]
  unfold State.pul pullOrder
  rw [pullList_u, pullList_u, pullList_u, pullList_u, pullList_u, pullList_u, pullList_u, pullList_u, pullList_nil]
  simp only [stackRegWidth, add_ofNat_ofNat, pulledByte, pulledWord, pulledBefore, maskWidth, StackReg.bit,
    State.sp, add_ofNat_zero, Nat.add_assoc, Nat.add_zero]
  rfl

end Sys2Proof.Machine
end

