-- ==== Sys2Proof/Machine/Assembler.lean ====
section
/-! DEFINITION. What an assembler adds to the instructions: the mnemonic aliases, the register lists of PSH and PUL, and
branch offsets from a target (30_encoding.md R134 to R136). No instruction and no step uses them. -/

namespace Sys2Proof.Machine

/-! ## Aliases (30_encoding.md R135) -/

/-- LSLA is ASLA. -/
def aliasLsla : Instr := .asla

/-- LSLB is ASLB. -/
def aliasLslb : Instr := .aslb

/-- LSL is ASL. -/
def aliasLsl (m : MemOp) : Instr := .asl m

/-- BHS is BCC. -/
def aliasBhs (o : Byte) : Instr := .bcc o

/-- BLO is BCS. -/
def aliasBlo (o : Byte) : Instr := .bcs o

/-- LBHS is LBCC. -/
def aliasLbhs (o : Word) : Instr := .lbcc o

/-- LBLO is LBCS. -/
def aliasLblo (o : Word) : Instr := .lbcs o

/-! ## Register lists (30_encoding.md R136) -/

/-- A name in a register list: a register of the mask, or D for A and B together. -/
inductive ListName
  | reg (r : StackReg)
  | d
deriving DecidableEq, Repr

/-- The mask bits of a name (30_encoding.md R133, R136). -/
def ListName.mask : ListName → Byte
  | .reg r => 1#8 <<< r.bit
  | .d => 0x06

/-- The mask of a register list; the order of the names does not matter. -/
def registerListMask : List ListName → Byte
  | [] => 0x00
  | n :: rest => n.mask ||| registerListMask rest

/-! ## Branch targets (30_encoding.md R134) -/

/-- The long offset of a branch whose next instruction is at `next`. -/
def longOffset (next target : Word) : Word := target - next

/-- The short offset of a branch, where the target is within reach. -/
def shortOffset (next target : Word) : Option Byte :=
  let o := loByte (target - next)
  if sext8 o = target - next then some o else none

end Sys2Proof.Machine
end

