-- ==== Sys2Proof/Machine/Debug.lean ====
section
/-! DEFINITION. The disassembly, a pure read of the host (60_exceptions.md R480, 30_encoding.md R127); the register dump is
`State.registerDump`. Their text is out of scope (93_implementation_defined.md U22), so a line is the
decoded instruction at its address. -/

namespace Sys2Proof.Machine

/-- How many bytes a line of the disassembly takes: the same count as in execution (30_encoding.md R127, 48_system.md
R417). -/
def lineLength : Decoded → Nat
  | .instr _ n => n
  | .unassigned opcode => opcode.length
  | .truncated => 1

/-- `n` lines of disassembly from an address on (30_encoding.md R127). -/
def State.disassembleFrom (s : State) : Nat → Word → List (Word × Decoded)
  | 0, _ => []
  | n + 1, a =>
    let d := decode (s.setPc a).fetchBytes
    (a, d) :: s.disassembleFrom n (a + BitVec.ofNat 16 (lineLength d))

/-- The disassembly of `n` lines from PC on (60_exceptions.md R480). -/
def State.disassembly (s : State) (n : Nat) : List (Word × Decoded) := s.disassembleFrom n s.cpu.pc

end Sys2Proof.Machine
end

