-- ==== Sys2Proof/Tests/Slice0.lean ====
section
/-! SUPPORT. The model's own tests: ill-formed terms, words written out from the encodings, one step for each vector of
95_test_vectors.md section 2, the memory controller, the tape, interrupts and resets, and for each statement with
hypotheses a state that meets them. -/

namespace Sys2Proof.Tests
set_option Elab.async false
open Sys2Proof Sys2Proof.Machine

/-! ## A small state -/

/-- The start of the vectors: S = 8000, PC = 4000, the other registers 0, inside a top-border burst. -/
def start : State := { State.reset with cpu := { State.reset.cpu with pc := 0x4000 }, sched := .burst .top }

/-- `start` with bytes stored at addresses, with the effect of MemSet. -/
def withBytes : List (Word × List Byte) → State
  | [] => start
  | (a, bytes) :: rest => storeBytesAt a bytes (withBytes rest)

/-- One step of the machine; the state itself where it stops. -/
def oneStep (s : State) : State :=
  match step s with
  | .next t => t
  | _ => s

/-- A vector: the code at PC, the change of the start registers, bytes of memory, and what one step leaves. -/
structure Probe where
  code : List Byte
  before : Cpu → Cpu
  memory : List (Word × List Byte) := []
  after : Cpu → Cpu
  stored : List (Word × List Byte) := []
  freeCc : Bool := false
  cycles : Nat

/-- The bytes from an address on read as the list. -/
def holds (t : State) : Word → List Byte → Bool
  | _, [] => true
  | a, v :: rest => decide (t.memRead a = v) && holds t (a + 1) rest

/-- One step from the vector's start answers its end; with `freeCc` all of it but CC. -/
def Probe.passes (p : Probe) : Bool :=
  let cpu := p.before start.cpu
  let s := { storeBytesAt cpu.pc p.code (withBytes p.memory) with cpu := cpu }
  match step s with
  | .next t =>
    decide ({ t.cpu with cc := if p.freeCc then 0 else t.cpu.cc } =
      { p.after cpu with cc := if p.freeCc then 0 else (p.after cpu).cc }) &&
      p.stored.all (fun e => holds t e.1 e.2) && decide (t.cyc = p.cycles)
  | _ => false

/-! ## Ill-formed terms (WellFormed) -/

theorem test_illformed_indirect_inc1 : (Indexed.mode .x true .inc1).wf = false := by decide
theorem test_illformed_indirect_dec1 : (Indexed.mode .s true .dec1).wf = false := by decide
theorem test_illformed_assigned_postbyte : (Indexed.unassigned 0x84).wf = false := by decide
theorem test_illformed_five_bit_postbyte : (Indexed.unassigned 0x07).wf = false := by decide
theorem test_illformed_memop : (MemOp.idx (.mode .y true .inc1)).wf = false := by decide
theorem test_illformed_op8 : (Op8.mem (.idx (.unassigned 0x9F))).wf = false := by decide
theorem test_illformed_op16 : (Op16.mem (.idx (.mode .u true .dec1))).wf = false := by decide

theorem test_illformed_instr :
    (Instr.lda (.mem (.idx (.mode .x true .inc1)))).wf = false ∧
    (Instr.cmpx (.mem (.idx (.mode .x true .dec1)))).wf = false ∧
    (Instr.sta (.idx (.unassigned 0x80))).wf = false ∧ (Instr.leax (.mode .x true .inc1)).wf = false := by decide

/-- There are 39 unassigned post-bytes (40_addressing.md R164). -/
theorem test_unassigned_postbyte_count :
    ((List.range 256).filter (fun k => isUnassignedPostByte (BitVec.ofNat 8 k))).length = 39 := by decide +kernel

/-! ## Decoding -/

/-- Words of every family, written out from 30_encoding.md R122 to R133. -/
theorem test_decode_load_store :
    decode [0xC6, 0x7F] = .instr (.ldb (.imm 0x7F)) 2 ∧ decode [0xCC, 0x12, 0x34] = .instr (.ldd (.imm 0x1234)) 3 ∧
    decode [0x9E, 0x10] = .instr (.ldx (.mem (.dir 0x10))) 2 ∧
    decode [0x10, 0xEE, 0x84] = .instr (.lds (.mem (.idx (.mode .x false .zero)))) 3 ∧
    decode [0x10, 0xBF, 0x30, 0x00] = .instr (.sty (.ext 0x3000)) 4 ∧
    decode [0xEF, 0xB8, 0xFE] = .instr (.stu (.idx (.mode .y true (.off8 0xFE)))) 3 ∧
    decode [0x32, 0x7F] = .instr (.leas (.off5 .s 0x1F)) 2 ∧
    decode [0x33, 0xCB] = .instr (.leau (.mode .u false .accD)) 2 := by decide

theorem test_decode_alu :
    decode [0x82, 0x01] = .instr (.sbca (.imm 0x01)) 2 ∧
    decode [0xF9, 0x20, 0x00] = .instr (.adcb (.mem (.ext 0x2000))) 3 ∧
    decode [0xA8, 0x9F, 0x20, 0x00] = .instr (.eora (.mem (.idx (.extIndirect 0x2000)))) 4 ∧
    decode [0x10, 0x93, 0x10] = .instr (.cmpd (.mem (.dir 0x10))) 3 ∧
    decode [0x11, 0xA3, 0x9D, 0x00, 0x10] = .instr (.cmpu (.mem (.idx (.mode .x true (.pcr16 0x0010))))) 5 ∧
    decode [0xE3, 0x87] = .instr (.addd (.mem (.idx (.unassigned 0x87)))) 2 := by decide

theorem test_decode_unary_misc :
    decode [0x50] = .instr .negb 1 ∧ decode [0x04, 0x10] = .instr (.lsr (.dir 0x10)) 2 ∧
    decode [0x7F, 0x20, 0x00] = .instr (.clr (.ext 0x2000)) 3 ∧
    decode [0x68, 0xE3] = .instr (.asl (.idx (.mode .s false .dec2))) 2 ∧
    decode [0x3A] = .instr .abx 1 ∧ decode [0x3D] = .instr .mul 1 ∧ decode [0x1D] = .instr .sex 1 ∧
    decode [0x19] = .instr .daa 1 ∧ decode [0x1E, 0x8B] = .instr (.exg .a .dp) 2 ∧
    decode [0x1F, 0x6C] = .instr (.tfr (.undef16 0) (.undef8 0)) 2 ∧
    decode [0x1C, 0xAF] = .instr (.andcc 0xAF) 2 := by
  decide

theorem test_decode_control_system :
    decode [0x8D, 0x10] = .instr (.bsr 0x10) 2 ∧ decode [0x10, 0x2F, 0x12, 0x34] = .instr (.lble 0x1234) 4 ∧
    decode [0x17, 0x00, 0x10] = .instr (.lbsr 0x0010) 3 ∧
    decode [0x6E, 0x84] = .instr (.jmp (.idx (.mode .x false .zero))) 2 ∧
    decode [0xAD, 0x8C, 0x10] = .instr (.jsr (.idx (.mode .x false (.pcr8 0x10)))) 3 ∧ decode [0x39] = .instr .rts 1 ∧
    decode [0x37, 0x06] = .instr (.pulu 0x06) 2 ∧ decode [0x3F] = .instr .swi 1 ∧ decode [0x3B] = .instr .rti 1 ∧
    decode [0x3C, 0xEF] = .instr (.cwai 0xEF) 2 ∧ decode [0x13] = .instr .sync 1 := by decide

/-- The PERIPH opcode, whichever unassigned byte it is (49_periph_tape.md R430). -/
theorem test_decode_periph : decode [periphOpcode] = .instr .periph 1 := by
  unfold decode periphOpcode
  generalize Config.periphIndex = k
  revert k
  decide

/-- The host's words: a one-byte row, a page-2 row with its prefix in the high byte, and operand words of zeros. -/
theorem test_table_words :
    decodeTableWord 8 0x12 = some .nop ∧ decodeTableWord 8 0x86 = some (.lda (.imm 0x00)) ∧
    decodeTableWord 16 0x108E = some (.ldy (.imm 0x0000)) ∧ decodeTableWord 16 0x113F = some .swi3 ∧
    decodeTableWord 16 0x10 = none := by decide

/-- The first step after `withFetchWord` runs the word: LDA #$00 and LDY #$0000 set Z. -/
theorem test_fetch_word :
    (oneStep (State.reset.withFetchWord 8 0x86)).cpu = { State.reset.cpu with pc := 0x0002, cc := 0x04 } ∧
    (oneStep (State.reset.withFetchWord 16 0x108E)).cpu = { State.reset.cpu with pc := 0x0004, cc := 0x04 } := by
  decide +kernel

/-! ## The vectors of 95_test_vectors.md section 2, one step each -/


/-- 95_test_vectors.md section 2.2: loads, stores and LEA. -/
def loadStoreVectors : List Probe := [
  -- V-LS-1, R182
  { code := [0x86, 0x00], before := fun c => { c with cc := 0x02 },
    after := fun c => { c with pc := 0x4002, cc := 0x04 }, cycles := 2 },
  -- V-LS-2, R182
  { code := [0x86, 0x80], before := id,
    after := fun c => { c with a := 0x80, pc := 0x4002, cc := 0x08 }, cycles := 2 },
  -- V-LS-3, R183
  { code := [0xC6, 0x7F], before := id,
    after := fun c => { c with b := 0x7F, pc := 0x4002 }, cycles := 2 },
  -- V-LS-4, R184
  { code := [0xCC, 0x80, 0x00], before := id,
    after := fun c => { c with a := 0x80, pc := 0x4003, cc := 0x08 }, cycles := 3 },
  -- V-LS-5, R185
  { code := [0xBE, 0x30, 0x00], before := id,
    memory := [(0x3000, [0x12, 0x34])],
    after := fun c => { c with x := 0x1234, pc := 0x4003 }, cycles := 6 },
  -- V-LS-6, R186
  { code := [0x10, 0x8E, 0x00, 0x00], before := id,
    after := fun c => { c with pc := 0x4004, cc := 0x04 }, cycles := 4 },
  -- V-LS-7, R187
  { code := [0xCE, 0xFF, 0xFF], before := id,
    after := fun c => { c with u := 0xFFFF, pc := 0x4003, cc := 0x08 }, cycles := 3 },
  -- V-LS-8, R188
  { code := [0x10, 0xCE, 0x7F, 0x00], before := id,
    after := fun c => { c with s := 0x7F00, pc := 0x4004 }, cycles := 4 },
  -- V-LS-9, R189
  { code := [0x97, 0x10], before := fun c => { c with a := 0x9C, dp := 0x30 },
    after := fun c => { c with pc := 0x4002, cc := 0x08 },
    stored := [(0x3010, [0x9C])], cycles := 4 },
  -- V-LS-10, R190
  { code := [0xE7, 0x84], before := fun c => { c with x := 0x3000 },
    after := fun c => { c with pc := 0x4002, cc := 0x04 },
    stored := [(0x3000, [0x00])], cycles := 4 },
  -- V-LS-11, R191
  { code := [0xED, 0x02], before := fun c => { c with a := 0x12, b := 0x34, x := 0x3000 },
    after := fun c => { c with pc := 0x4002 },
    stored := [(0x3002, [0x12, 0x34])], cycles := 6 },
  -- V-LS-12, R192
  { code := [0xBF, 0xFF, 0xFF], before := fun c => { c with x := 0xABCD },
    memory := [(0xFFFF, [0x00])],
    after := fun c => { c with pc := 0x4003, cc := 0x08 },
    stored := [(0x0000, [0xCD]), (0xFFFF, [0x00])], cycles := 6 },
  -- V-LS-13, R193
  { code := [0x10, 0xBF, 0x30, 0x00], before := fun c => { c with y := 0x8001 },
    after := fun c => { c with pc := 0x4004, cc := 0x08 },
    stored := [(0x3000, [0x80, 0x01])], cycles := 7 },
  -- V-LS-14, R194
  { code := [0xFF, 0x30, 0x00], before := id,
    after := fun c => { c with pc := 0x4003, cc := 0x04 },
    stored := [(0x3000, [0x00, 0x00])], cycles := 6 },
  -- V-LS-15, R195
  { code := [0x10, 0xFF, 0x30, 0x00], before := fun c => { c with s := 0x7F00 },
    after := fun c => { c with pc := 0x4004 },
    stored := [(0x3000, [0x7F, 0x00])], cycles := 7 },
  -- V-LS-16, R197
  { code := [0x30, 0x1F], before := fun c => { c with x := 0x0001 },
    after := fun c => { c with x := 0x0000, pc := 0x4002, cc := 0x04 }, cycles := 5 },
  -- V-LS-17, R198
  { code := [0x31, 0x84], before := fun c => { c with x := 0x1000 },
    after := fun c => { c with y := 0x1000, pc := 0x4002 }, cycles := 4 },
  -- V-LS-18, R199
  { code := [0x32, 0x7F], before := fun c => { c with s := 0x0001 },
    after := fun c => { c with s := 0x0000, pc := 0x4002 }, cycles := 5 },
  -- V-LS-19, R200
  { code := [0x33, 0xCB], before := fun c => { c with b := 0x10, u := 0x1000 },
    after := fun c => { c with u := 0x1010, pc := 0x4002 }, cycles := 8 }]

theorem test_load_store_vectors : loadStoreVectors.all Probe.passes = true := by decide +kernel

/-- Section 2.3: 8-bit arithmetic and logic. -/
def alu8Vectors : List Probe := [
  -- V-A8-1, R241
  { code := [0x8B, 0x01], before := fun c => { c with a := 0x7F },
    after := fun c => { c with a := 0x80, pc := 0x4002, cc := 0x2A }, cycles := 2 },
  -- V-A8-2, R241
  { code := [0x8B, 0x01], before := fun c => { c with a := 0xFF },
    after := fun c => { c with a := 0x00, pc := 0x4002, cc := 0x25 }, cycles := 2 },
  -- V-A8-3, R242
  { code := [0xCB, 0x80], before := fun c => { c with b := 0x80 },
    after := fun c => { c with b := 0x00, pc := 0x4002, cc := 0x07 }, cycles := 2 },
  -- V-A8-4, R237
  { code := [0x89, 0x00], before := fun c => { c with a := 0x0F, cc := 0x01 },
    after := fun c => { c with a := 0x10, pc := 0x4002, cc := 0x20 }, cycles := 2 },
  -- V-A8-5, R238
  { code := [0xC9, 0x00], before := fun c => { c with b := 0xFF, cc := 0x01 },
    after := fun c => { c with b := 0x00, pc := 0x4002, cc := 0x25 }, cycles := 2 },
  -- V-A8-6, R225
  { code := [0x80, 0x01], before := fun c => { c with a := 0x80 },
    after := fun c => { c with a := 0x7F, pc := 0x4002 }, freeCc := true, cycles := 2 },
  -- V-A8-7, R226
  { code := [0xC0, 0x01], before := id,
    after := fun c => { c with b := 0xFF, pc := 0x4002 }, freeCc := true, cycles := 2 },
  -- V-A8-8, R227
  { code := [0x81, 0x42], before := fun c => { c with a := 0x42 },
    after := fun c => { c with pc := 0x4002 }, freeCc := true, cycles := 2 },
  -- V-A8-9, R228
  { code := [0xC1, 0x02], before := fun c => { c with b := 0x01 },
    after := fun c => { c with pc := 0x4002 }, freeCc := true, cycles := 2 },
  -- V-A8-10, R229
  { code := [0x82, 0x00], before := fun c => { c with cc := 0x01 },
    after := fun c => { c with a := 0xFF, pc := 0x4002 }, freeCc := true, cycles := 2 },
  -- V-A8-11, R230
  { code := [0xC2, 0x00], before := fun c => { c with b := 0x80, cc := 0x01 },
    after := fun c => { c with b := 0x7F, pc := 0x4002 }, freeCc := true, cycles := 2 },
  -- V-A8-12, R231
  { code := [0x84, 0x0F], before := fun c => { c with a := 0xF0, cc := 0x03 },
    after := fun c => { c with a := 0x00, pc := 0x4002, cc := 0x05 }, cycles := 2 },
  -- V-A8-13, R232
  { code := [0xC4, 0x80], before := fun c => { c with b := 0xF0, cc := 0x01 },
    after := fun c => { c with b := 0x80, pc := 0x4002, cc := 0x09 }, cycles := 2 },
  -- V-A8-14, R233
  { code := [0x85, 0xF0], before := fun c => { c with a := 0x0F },
    after := fun c => { c with pc := 0x4002, cc := 0x04 }, cycles := 2 },
  -- V-A8-15, R234
  { code := [0xC5, 0x80], before := fun c => { c with b := 0x81 },
    after := fun c => { c with pc := 0x4002, cc := 0x08 }, cycles := 2 },
  -- V-A8-16, R235
  { code := [0x88, 0xFF], before := fun c => { c with a := 0xFF },
    after := fun c => { c with a := 0x00, pc := 0x4002, cc := 0x04 }, cycles := 2 },
  -- V-A8-17, R236
  { code := [0xC8, 0xF0], before := fun c => { c with b := 0x0F },
    after := fun c => { c with b := 0xFF, pc := 0x4002, cc := 0x08 }, cycles := 2 },
  -- V-A8-18, R239
  { code := [0x8A, 0x00], before := fun c => { c with cc := 0x02 },
    after := fun c => { c with pc := 0x4002, cc := 0x04 }, cycles := 2 },
  -- V-A8-19, R240
  { code := [0xCA, 0x80], before := fun c => { c with b := 0x01 },
    after := fun c => { c with b := 0x81, pc := 0x4002, cc := 0x08 }, cycles := 2 },
  -- V-A8-20, R241
  { code := [0x9B, 0x20], before := fun c => { c with a := 0x10, dp := 0x30 },
    memory := [(0x3020, [0x05])],
    after := fun c => { c with a := 0x15, pc := 0x4002 }, cycles := 4 },
  -- V-A8-21, R241
  { code := [0xAB, 0x89, 0x01, 0x00], before := fun c => { c with a := 0x10, x := 0x3000 },
    memory := [(0x3100, [0xF0])],
    after := fun c => { c with a := 0x00, pc := 0x4004, cc := 0x05 }, cycles := 8 },
  -- V-A8-22, R241
  { code := [0xBB, 0x30, 0x00], before := fun c => { c with a := 0x10 },
    memory := [(0x3000, [0x08])],
    after := fun c => { c with a := 0x18, pc := 0x4003 }, cycles := 5 }]

theorem test_alu8_vectors : alu8Vectors.all Probe.passes = true := by decide +kernel

/-- Section 2.4: 16-bit arithmetic and compares. -/
def alu16Vectors : List Probe := [
  -- V-A16-1, R263
  { code := [0xC3, 0x00, 0x01], before := fun c => { c with a := 0x7F, b := 0xFF },
    after := fun c => { c with a := 0x80, b := 0x00, pc := 0x4003, cc := 0x0A }, cycles := 4 },
  -- V-A16-2, R263
  { code := [0xC3, 0x00, 0x01], before := fun c => { c with a := 0xFF, b := 0xFF },
    after := fun c => { c with a := 0x00, b := 0x00, pc := 0x4003, cc := 0x05 }, cycles := 4 },
  -- V-A16-3, R264
  { code := [0x83, 0x00, 0x01], before := fun c => { c with cc := 0x01 },
    after := fun c => { c with a := 0xFF, b := 0xFF, pc := 0x4003, cc := 0x09 }, cycles := 4 },
  -- V-A16-4, R264
  { code := [0x83, 0x00, 0x01], before := fun c => { c with a := 0x80 },
    after := fun c => { c with a := 0x7F, b := 0xFF, pc := 0x4003, cc := 0x02 }, cycles := 4 },
  -- V-A16-5, R265
  { code := [0x8C, 0x12, 0x34], before := fun c => { c with x := 0x1234 },
    after := fun c => { c with pc := 0x4003, cc := 0x04 }, cycles := 4 },
  -- V-A16-6, R266
  { code := [0x10, 0x83, 0x00, 0x01], before := fun c => { c with a := 0x80 },
    after := fun c => { c with pc := 0x4004, cc := 0x02 }, cycles := 5 },
  -- V-A16-7, R267
  { code := [0x10, 0x8C, 0x00, 0x02], before := fun c => { c with y := 0x0001 },
    after := fun c => { c with pc := 0x4004, cc := 0x09 }, cycles := 5 },
  -- V-A16-8, R268
  { code := [0x11, 0x83, 0x10, 0x00], before := fun c => { c with u := 0x2000 },
    after := fun c => { c with pc := 0x4004 }, cycles := 5 },
  -- V-A16-9, R269
  { code := [0x11, 0x8C, 0x80, 0x00], before := fun c => { c with s := 0x7000 },
    after := fun c => { c with pc := 0x4004, cc := 0x0B }, cycles := 5 },
  -- V-A16-10, R263
  { code := [0xD3, 0x00],
    before := fun c => { c with a := 0x01, dp := 0x30 },
    memory := [(0x3000, [0xFF, 0x00])],
    after := fun c => { c with a := 0x00, pc := 0x4002, cc := 0x05 }, cycles := 6 }]

theorem test_alu16_vectors : alu16Vectors.all Probe.passes = true := by decide +kernel

/-- Section 2.5: unary operations. -/
def unaryVectors : List Probe := [
  -- V-UN-1, R291
  { code := [0x40], before := fun c => { c with a := 0x80 },
    after := fun c => { c with pc := 0x4001 }, freeCc := true, cycles := 2 },
  -- V-UN-2, R292
  { code := [0x50], before := id,
    after := fun c => { c with pc := 0x4001 }, freeCc := true, cycles := 2 },
  -- V-UN-3, R291
  { code := [0x40],
    before := fun c => { c with a := 0x01 },
    after := fun c => { c with a := 0xFF, pc := 0x4001 }, freeCc := true, cycles := 2 },
  -- V-UN-4, R294
  { code := [0x43], before := id,
    after := fun c => { c with a := 0xFF, pc := 0x4001, cc := 0x09 }, cycles := 2 },
  -- V-UN-5, R298
  { code := [0x54], before := fun c => { c with b := 0x01 },
    after := fun c => { c with b := 0x00, pc := 0x4001, cc := 0x05 }, cycles := 2 },
  -- V-UN-6, R300
  { code := [0x46],
    before := fun c => { c with a := 0x01, cc := 0x01 },
    after := fun c => { c with a := 0x80, pc := 0x4001, cc := 0x09 }, cycles := 2 },
  -- V-UN-7, R303
  { code := [0x47], before := fun c => { c with a := 0x81 },
    after := fun c => { c with a := 0xC0, pc := 0x4001 }, freeCc := true, cycles := 2 },
  -- V-UN-8, R306
  { code := [0x48], before := fun c => { c with a := 0xC0 },
    after := fun c => { c with a := 0x80, pc := 0x4001 }, freeCc := true, cycles := 2 },
  -- V-UN-9, R306
  { code := [0x48], before := fun c => { c with a := 0x40 },
    after := fun c => { c with a := 0x80, pc := 0x4001 }, freeCc := true, cycles := 2 },
  -- V-UN-10, R310
  { code := [0x59], before := fun c => { c with b := 0x80, cc := 0x01 },
    after := fun c => { c with b := 0x01, pc := 0x4001, cc := 0x03 }, cycles := 2 },
  -- V-UN-11, R312
  { code := [0x4A], before := fun c => { c with a := 0x80 },
    after := fun c => { c with a := 0x7F, pc := 0x4001, cc := 0x02 }, cycles := 2 },
  -- V-UN-12, R312
  { code := [0x4A], before := fun c => { c with cc := 0x01 },
    after := fun c => { c with a := 0xFF, pc := 0x4001, cc := 0x09 }, cycles := 2 },
  -- V-UN-13, R315
  { code := [0x4C], before := fun c => { c with a := 0x7F },
    after := fun c => { c with a := 0x80, pc := 0x4001, cc := 0x0A }, cycles := 2 },
  -- V-UN-14, R316
  { code := [0x5C], before := fun c => { c with b := 0xFF },
    after := fun c => { c with b := 0x00, pc := 0x4001, cc := 0x04 }, cycles := 2 },
  -- V-UN-15, R318
  { code := [0x4D], before := fun c => { c with cc := 0x03 },
    after := fun c => { c with pc := 0x4001, cc := 0x05 }, cycles := 2 },
  -- V-UN-16, R321
  { code := [0x4F], before := fun c => { c with a := 0x55, cc := 0x0B },
    after := fun c => { c with a := 0x00, pc := 0x4001, cc := 0x04 }, cycles := 2 },
  -- V-UN-17, R317
  { code := [0x7C, 0x30, 0x00], before := id,
    memory := [(0x3000, [0xFF])],
    after := fun c => { c with pc := 0x4003, cc := 0x04 },
    stored := [(0x3000, [0x00])], cycles := 7 },
  -- V-UN-18, R320
  { code := [0x0D, 0x00], before := fun c => { c with dp := 0x30 },
    memory := [(0x3000, [0x80])],
    after := fun c => { c with pc := 0x4002, cc := 0x08 }, cycles := 6 },
  -- V-UN-19, R323
  { code := [0x6F, 0x84], before := fun c => { c with x := 0x3000 },
    memory := [(0x3000, [0x55])],
    after := fun c => { c with pc := 0x4002, cc := 0x04 },
    stored := [(0x3000, [0x00])], cycles := 6 },
  -- V-UN-20, R296
  { code := [0x73, 0x30, 0x00], before := id,
    memory := [(0x3000, [0x0F])],
    after := fun c => { c with pc := 0x4003, cc := 0x09 },
    stored := [(0x3000, [0xF0])], cycles := 7 },
  -- V-UN-21, R302
  { code := [0x76, 0x30, 0x00], before := id,
    memory := [(0x3000, [0x02])],
    after := fun c => { c with pc := 0x4003 },
    stored := [(0x3000, [0x01])], cycles := 7 }]

theorem test_unary_vectors : unaryVectors.all Probe.passes = true := by decide +kernel

/-- Section 2.6: ABX, MUL, SEX, DAA, EXG, TFR and the CC instructions. -/
def miscVectors : List Probe := [
  -- V-MS-1, R340
  { code := [0x3A], before := fun c => { c with b := 0xFF, x := 0x1000 },
    after := fun c => { c with x := 0x10FF, pc := 0x4001 }, cycles := 3 },
  -- V-MS-2, R340
  { code := [0x3A], before := fun c => { c with b := 0x01, x := 0xFFFF },
    after := fun c => { c with x := 0x0000, pc := 0x4001 }, cycles := 3 },
  -- V-MS-3, R341
  { code := [0x3D], before := fun c => { c with a := 0xFF, b := 0xFF },
    after := fun c => { c with a := 0xFE, b := 0x01, pc := 0x4001 }, cycles := 11 },
  -- V-MS-4, R341
  { code := [0x3D], before := fun c => { c with b := 0x05 },
    after := fun c => { c with b := 0x00, pc := 0x4001, cc := 0x04 }, cycles := 11 },
  -- V-MS-5, R341
  { code := [0x3D], before := fun c => { c with a := 0x0C, b := 0x0C },
    after := fun c => { c with a := 0x00, b := 0x90, pc := 0x4001, cc := 0x01 }, cycles := 11 },
  -- V-MS-6, R342
  { code := [0x1D], before := fun c => { c with b := 0x80 },
    after := fun c => { c with a := 0xFF, pc := 0x4001, cc := 0x08 }, cycles := 2 },
  -- V-MS-7, R342
  { code := [0x1D], before := fun c => { c with a := 0x55 },
    after := fun c => { c with a := 0x00, pc := 0x4001, cc := 0x04 }, cycles := 2 },
  -- V-MS-8, R343
  { code := [0x19], before := fun c => { c with a := 0x11, cc := 0x20 },
    after := fun c => { c with a := 0x17, pc := 0x4001 }, freeCc := true, cycles := 2 },
  -- V-MS-9, R343
  { code := [0x19], before := fun c => { c with a := 0x9A },
    after := fun c => { c with a := 0x00, pc := 0x4001 }, freeCc := true, cycles := 2 },
  -- V-MS-10, R346
  { code := [0x1E, 0x89], before := fun c => { c with a := 0x12, b := 0x34 },
    after := fun c => { c with a := 0x34, b := 0x12, pc := 0x4002 }, cycles := 8 },
  -- V-MS-11, R346
  { code := [0x1E, 0x12], before := fun c => { c with x := 0x1111, y := 0x2222 },
    after := fun c => { c with x := 0x2222, y := 0x1111, pc := 0x4002 }, cycles := 8 },
  -- V-MS-12, R346
  { code := [0x1E, 0x81], before := fun c => { c with a := 0x12, x := 0x3456 },
    after := fun c => { c with a := 0x56, x := 0xFF12, pc := 0x4002 }, cycles := 8 },
  -- V-MS-13, R347
  { code := [0x1F, 0x81], before := fun c => { c with a := 0x34 },
    after := fun c => { c with x := 0xFF34, pc := 0x4002 }, cycles := 6 },
  -- V-MS-14, R347
  { code := [0x1F, 0x18], before := fun c => { c with x := 0xABCD },
    after := fun c => { c with a := 0xCD, pc := 0x4002 }, cycles := 6 },
  -- V-MS-15, R347
  { code := [0x1F, 0x15], before := fun c => { c with x := 0x5000 },
    after := fun c => { c with pc := 0x5000 }, cycles := 6 },
  -- V-MS-16, R347
  { code := [0x1F, 0x61], before := fun c => { c with x := 0x1234 },
    after := fun c => { c with x := 0xFFFF, pc := 0x4002 }, cycles := 6 },
  -- V-MS-17, R347
  { code := [0x1F, 0xC8], before := id,
    after := fun c => { c with a := 0xFF, pc := 0x4002 }, cycles := 6 },
  -- V-MS-18, R347
  { code := [0x1F, 0x9A], before := fun c => { c with b := 0x0F },
    after := fun c => { c with pc := 0x4002, cc := 0x0F }, cycles := 6 },
  -- V-MS-19, R348
  { code := [0x1C, 0xAF], before := fun c => { c with cc := 0xFF },
    after := fun c => { c with pc := 0x4002, cc := 0xAF }, cycles := 3 },
  -- V-MS-20, R349
  { code := [0x1A, 0x50], before := id,
    after := fun c => { c with pc := 0x4002, cc := 0x50 }, cycles := 3 },
  -- V-MS-21, R350
  { code := [0x12], before := fun c => { c with cc := 0x0F },
    after := fun c => { c with pc := 0x4001 }, cycles := 2 }]

theorem test_misc_vectors : miscVectors.all Probe.passes = true := by decide +kernel

/-- Section 2.7: the stack instructions. -/
def stackVectors : List Probe := [
  -- V-ST-1, R362
  { code := [0x34, 0xFF],
    before := fun c => { c with a := 0x01, b := 0x02, x := 0x1111, y := 0x2222, u := 0x3333, dp := 0x03, cc := 0x0F },
    after := fun c => { c with s := 0x7FF4, pc := 0x4002 },
    stored := [(0x7FF4, [0x0F, 0x01, 0x02, 0x03, 0x11, 0x11, 0x22, 0x22, 0x33, 0x33, 0x40, 0x02])], cycles := 17 },
  -- V-ST-2, R363
  { code := [0x35, 0xFF], before := fun c => { c with s := 0x7FF4 },
    memory := [(0x7FF4, [0x0F, 0x01, 0x02, 0x03, 0x11, 0x11, 0x22, 0x22, 0x33, 0x33, 0x50, 0x00])],
    after := fun c => { c with
      a := 0x01, b := 0x02, x := 0x1111, y := 0x2222, u := 0x3333, s := 0x8000, pc := 0x5000, dp := 0x03, cc := 0x0F },
    cycles := 17 },
  -- V-ST-3, R364
  { code := [0x36, 0x06], before := fun c => { c with a := 0xAA, b := 0xBB, u := 0x6000 },
    after := fun c => { c with u := 0x5FFE, pc := 0x4002 },
    stored := [(0x5FFE, [0xAA, 0xBB])], cycles := 7 },
  -- V-ST-4, R365
  { code := [0x37, 0x06], before := fun c => { c with u := 0x5FFE },
    memory := [(0x5FFE, [0xAA, 0xBB])],
    after := fun c => { c with a := 0xAA, b := 0xBB, u := 0x6000, pc := 0x4002 }, cycles := 7 },
  -- V-ST-5, R362
  { code := [0x34, 0x40], before := fun c => { c with u := 0x1234, s := 0x7000 },
    after := fun c => { c with s := 0x6FFE, pc := 0x4002 },
    stored := [(0x6FFE, [0x12, 0x34])], cycles := 7 },
  -- V-ST-6, R364
  { code := [0x36, 0x40], before := fun c => { c with u := 0x6000, s := 0x4321 },
    after := fun c => { c with u := 0x5FFE, pc := 0x4002 },
    stored := [(0x5FFE, [0x43, 0x21])], cycles := 7 },
  -- V-ST-7, R362
  { code := [0x34, 0x00], before := fun c => { c with s := 0x7000 },
    after := fun c => { c with pc := 0x4002 }, cycles := 5 },
  -- V-ST-8, R362
  { code := [0x34, 0x06], before := fun c => { c with a := 0x77, b := 0x88, s := 0x0001 },
    memory := [(0xFFFF, [0x00])],
    after := fun c => { c with s := 0xFFFF, pc := 0x4002 },
    stored := [(0x0000, [0x88]), (0xFFFF, [0x00])], cycles := 7 }]

theorem test_stack_vectors : stackVectors.all Probe.passes = true := by decide +kernel

/-- Section 2.8: branches, jumps and subroutines. -/
def controlVectors : List Probe := [
  -- V-BR-1, R373
  { code := [0x20, 0xFE], before := id,
    after := id, cycles := 3 },
  -- V-BR-2, R374
  { code := [0x21, 0x10], before := id,
    after := fun c => { c with pc := 0x4002 }, cycles := 3 },
  -- V-BR-3, R375
  { code := [0x22, 0x10], before := id,
    after := fun c => { c with pc := 0x4012 }, cycles := 3 },
  -- V-BR-4, R375
  { code := [0x22, 0x10], before := fun c => { c with cc := 0x04 },
    after := fun c => { c with pc := 0x4002 }, cycles := 3 },
  -- V-BR-5, R376
  { code := [0x23, 0x10], before := fun c => { c with cc := 0x01 },
    after := fun c => { c with pc := 0x4012 }, cycles := 3 },
  -- V-BR-6, R377
  { code := [0x24, 0x10], before := fun c => { c with cc := 0x01 },
    after := fun c => { c with pc := 0x4002 }, cycles := 3 },
  -- V-BR-7, R378
  { code := [0x25, 0x80], before := fun c => { c with cc := 0x01 },
    after := fun c => { c with pc := 0x3F82 }, cycles := 3 },
  -- V-BR-8, R379
  { code := [0x26, 0x10], before := fun c => { c with cc := 0x04 },
    after := fun c => { c with pc := 0x4002 }, cycles := 3 },
  -- V-BR-9, R380
  { code := [0x27, 0x7F], before := fun c => { c with cc := 0x04 },
    after := fun c => { c with pc := 0x4081 }, cycles := 3 },
  -- V-BR-10, R381
  { code := [0x28, 0x10], before := fun c => { c with cc := 0x02 },
    after := fun c => { c with pc := 0x4002 }, cycles := 3 },
  -- V-BR-11, R382
  { code := [0x29, 0x10], before := fun c => { c with cc := 0x02 },
    after := fun c => { c with pc := 0x4012 }, cycles := 3 },
  -- V-BR-12, R383
  { code := [0x2A, 0x10], before := fun c => { c with cc := 0x08 },
    after := fun c => { c with pc := 0x4002 }, cycles := 3 },
  -- V-BR-13, R384
  { code := [0x2B, 0x10], before := fun c => { c with cc := 0x08 },
    after := fun c => { c with pc := 0x4012 }, cycles := 3 },
  -- V-BR-14, R385
  { code := [0x2C, 0x10], before := fun c => { c with cc := 0x0A },
    after := fun c => { c with pc := 0x4012 }, cycles := 3 },
  -- V-BR-15, R386
  { code := [0x2D, 0x10], before := fun c => { c with cc := 0x08 },
    after := fun c => { c with pc := 0x4012 }, cycles := 3 },
  -- V-BR-16, R387
  { code := [0x2E, 0x10], before := id,
    after := fun c => { c with pc := 0x4012 }, cycles := 3 },
  -- V-BR-17, R388
  { code := [0x2F, 0x10], before := fun c => { c with cc := 0x04 },
    after := fun c => { c with pc := 0x4012 }, cycles := 3 },
  -- V-BR-18, R388
  { code := [0x2F, 0x10], before := fun c => { c with cc := 0x02 },
    after := fun c => { c with pc := 0x4012 }, cycles := 3 },
  -- V-BR-19, R388
  { code := [0x2F, 0x10], before := id,
    after := fun c => { c with pc := 0x4002 }, cycles := 3 },
  -- V-BR-20, R389
  { code := [0x8D, 0x10], before := id,
    after := fun c => { c with s := 0x7FFE, pc := 0x4012 },
    stored := [(0x7FFE, [0x40, 0x02])], cycles := 7 },
  -- V-BR-21, R390
  { code := [0x16, 0x10, 0x00], before := id,
    after := fun c => { c with pc := 0x5003 }, cycles := 5 },
  -- V-BR-22, R397
  { code := [0x10, 0x27, 0xF0, 0x00], before := fun c => { c with cc := 0x04 },
    after := fun c => { c with pc := 0x3004 }, cycles := 6 },
  -- V-BR-23, R396
  { code := [0x10, 0x26, 0xF0, 0x00], before := fun c => { c with cc := 0x04 },
    after := fun c => { c with pc := 0x4004 }, cycles := 5 },
  -- V-BR-24, R391
  { code := [0x10, 0x21, 0x12, 0x34], before := id,
    after := fun c => { c with pc := 0x4004 }, cycles := 5 },
  -- V-BR-25, R406
  { code := [0x17, 0x00, 0x10], before := id,
    after := fun c => { c with s := 0x7FFE, pc := 0x4013 },
    stored := [(0x7FFE, [0x40, 0x03])], cycles := 9 },
  -- V-BR-26, R407
  { code := [0x7E, 0x12, 0x34], before := id,
    after := fun c => { c with pc := 0x1234 }, cycles := 4 },
  -- V-BR-27, R408
  { code := [0xAD, 0x84], before := fun c => { c with x := 0x5000 },
    after := fun c => { c with s := 0x7FFE, pc := 0x5000 },
    stored := [(0x7FFE, [0x40, 0x02])], cycles := 7 },
  -- V-BR-28, R409
  { code := [0x39], before := fun c => { c with s := 0x7FFE },
    memory := [(0x7FFE, [0x12, 0x34])],
    after := fun c => { c with s := 0x8000, pc := 0x1234 }, cycles := 5 },
  -- V-BR-29, R373
  { code := [0x20, 0x20], before := fun c => { c with pc := 0xFFF0 },
    after := fun c => { c with pc := 0x0012 }, cycles := 3 },
  -- V-BR-30, R407
  { code := [0x0E, 0x10], before := fun c => { c with dp := 0x50 },
    after := fun c => { c with pc := 0x5010 }, cycles := 3 }]

theorem test_control_vectors : controlVectors.all Probe.passes = true := by decide +kernel

/-- Section 2.9: the system instructions. -/
def systemVectors : List Probe := [
  -- V-SY-1, R411
  { code := [0x3F],
    before := fun c => { c with a := 0x01, b := 0x02, x := 0x1111, y := 0x2222, u := 0x3333, dp := 0x03 },
    memory := [(0xFFF2, [0xC3, 0x00, 0xC2, 0x00]), (0xFFFA, [0xC1, 0x00])],
    after := fun c => { c with s := 0x7FF4, pc := 0xC100, cc := 0xD0 },
    stored := [(0x7FF4, [0x80, 0x01, 0x02, 0x03, 0x11, 0x11, 0x22, 0x22, 0x33, 0x33, 0x40, 0x01])], cycles := 19 },
  -- V-SY-2, R412
  { code := [0x10, 0x3F],
    before := fun c => { c with a := 0x01, b := 0x02, x := 0x1111, y := 0x2222, u := 0x3333, dp := 0x03, cc := 0x05 },
    memory := [(0xFFF2, [0xC3, 0x00, 0xC2, 0x00]), (0xFFFA, [0xC1, 0x00])],
    after := fun c => { c with s := 0x7FF4, pc := 0xC200, cc := 0x85 },
    stored := [(0x7FF4, [0x85, 0x01, 0x02, 0x03, 0x11, 0x11, 0x22, 0x22, 0x33, 0x33, 0x40, 0x02])], cycles := 20 },
  -- V-SY-3, R413
  { code := [0x11, 0x3F],
    before := fun c => { c with a := 0x01, b := 0x02, x := 0x1111, y := 0x2222, u := 0x3333, dp := 0x03, cc := 0x40 },
    memory := [(0xFFF2, [0xC3, 0x00, 0xC2, 0x00]), (0xFFFA, [0xC1, 0x00])],
    after := fun c => { c with s := 0x7FF4, pc := 0xC300, cc := 0xC0 },
    stored := [(0x7FF4, [0xC0, 0x01, 0x02, 0x03, 0x11, 0x11, 0x22, 0x22, 0x33, 0x33, 0x40, 0x02])], cycles := 20 },
  -- V-SY-4, R415
  { code := [0x3B], before := fun c => { c with s := 0x7FF4 },
    memory := [(0x7FF4, [0x80, 0x01, 0x02, 0x03, 0x11, 0x11, 0x22, 0x22, 0x33, 0x33, 0x50, 0x00])],
    after := fun c => { c with
      a := 0x01, b := 0x02, x := 0x1111, y := 0x2222, u := 0x3333, s := 0x8000, pc := 0x5000, dp := 0x03, cc := 0x80 },
    cycles := 15 },
  -- V-SY-5, R415
  { code := [0x3B], before := fun c => { c with a := 0x99, s := 0x7FFD },
    memory := [(0x7FFD, [0x05, 0x50, 0x00])],
    after := fun c => { c with s := 0x8000, pc := 0x5000, cc := 0x05 }, cycles := 6 },
  -- V-SY-6, R414
  { code := [0x3C, 0xEF], before := fun c => { c with cc := 0xD0 },
    after := fun c => { c with pc := 0x4002, cc := 0xC0 }, cycles := 20 },
  -- V-SY-7, R416
  { code := [0x13], before := fun c => { c with cc := 0x0F },
    after := fun c => { c with pc := 0x4001 }, cycles := 4 }]

theorem test_system_vectors : systemVectors.all Probe.passes = true := by decide +kernel
/-! ## The flags of the operations with a drawn flag, for every drawn value (95_test_vectors.md sections 2.3, 2.5, 2.6) -/

/-- V-A8-6 to V-A8-11. -/
theorem test_sub8_flags :
    ∀ h : Bool,
      sub8 0x80 0x01 false h 0x00 = (0x7F, putFlag 0x02 .h h) ∧
      sub8 0x00 0x01 false h 0x00 = (0xFF, putFlag 0x09 .h h) ∧
      sub8 0x42 0x42 false h 0x00 = (0x00, putFlag 0x04 .h h) ∧
      sub8 0x01 0x02 false h 0x00 = (0xFF, putFlag 0x09 .h h) ∧
      sub8 0x00 0x00 true h 0x01 = (0xFF, putFlag 0x09 .h h) ∧
      sub8 0x80 0x00 true h 0x01 = (0x7F, putFlag 0x02 .h h) := by
  decide

/-- V-UN-1 to V-UN-3 and V-UN-7 to V-UN-9. -/
theorem test_unary_flags :
    ∀ h : Bool,
      neg8 0x80 h 0x00 = (0x80, putFlag 0x0B .h h) ∧ neg8 0x00 h 0x00 = (0x00, putFlag 0x04 .h h) ∧
      neg8 0x01 h 0x00 = (0xFF, putFlag 0x09 .h h) ∧ asr8 0x81 h 0x00 = (0xC0, putFlag 0x09 .h h) ∧
      asl8 0x40 h 0x00 = (0x80, putFlag 0x0A .h h) ∧ asl8 0xC0 h 0x00 = (0x80, putFlag 0x09 .h h) := by decide

/-- V-MS-8 and V-MS-9. -/
theorem test_daa_flags :
    ∀ v : Bool, daa8 0x11 v 0x20 = (0x17, putFlag 0x20 .v v) ∧
    daa8 0x9A v 0x00 = (0x00, putFlag 0x05 .v v) := by decide

/-! ## The indexed resolver (95_test_vectors.md section 2.1) -/

/-- The start of the resolver vectors, PC past the post-byte and its `n` offset bytes. -/
def indexedStart (n : Nat) : State :=
  { withBytes [(0x1000, [0x56, 0x78, 0x9A, 0xBC]), (0x2000, [0xDE, 0xF0])] with
    cpu := { start.cpu with
      a := 0x80, b := 0x05, x := 0x1000, y := 0x2000, u := 0x3000, s := 0x7000, pc := 0x4001 + BitVec.ofNat 16 n } }

/-- V-IX-1 to V-IX-16: the effective addresses and the updated registers. -/
theorem test_indexed_addresses :
    let ea := fun (n : Nat) (ix : Indexed) => (resolveIndexed ix (indexedStart n)).1
    let cpu := fun (ix : Indexed) => (resolveIndexed ix (indexedStart 0)).2.cpu
    ea 0 (.off5 .x 0x05) = 0x1005 ∧ ea 0 (.off5 .x 0x1F) = 0x0FFF ∧ ea 0 (.off5 .y 0x10) = 0x1FF0 ∧
    ea 0 (.off5 .s 0x0F) = 0x700F ∧ ea 0 (.mode .x false .inc1) = 0x1000 ∧ (cpu (.mode .x false .inc1)).x = 0x1001 ∧
    ea 0 (.mode .y false .inc2) = 0x2000 ∧ (cpu (.mode .y false .inc2)).y = 0x2002 ∧
    ea 0 (.mode .u false .dec1) = 0x2FFF ∧ (cpu (.mode .u false .dec1)).u = 0x2FFF ∧
    ea 0 (.mode .s false .dec2) = 0x6FFE ∧ (cpu (.mode .s false .dec2)).s = 0x6FFE ∧
    ea 0 (.mode .x false .zero) = 0x1000 ∧ ea 0 (.mode .x false .accB) = 0x1005 ∧
    ea 0 (.mode .x false .accA) = 0x0F80 ∧
    ea 0 (.mode .x false .accD) = 0x9005 ∧ ea 1 (.mode .x false (.off8 0xFE)) = 0x0FFE ∧
    ea 2 (.mode .x false (.off16 0x8000)) = 0x9000 ∧ ea 1 (.mode .x false (.pcr8 0x10)) = 0x4012 ∧
    ea 2 (.mode .x false (.pcr16 0x0010)) = 0x4013 := by decide +kernel

/-- V-IX-18 to V-IX-21: the indirect forms and an unassigned post-byte, with their cycles. -/
theorem test_indexed_indirect :
    let r := fun (n : Nat) (ix : Indexed) => ((resolveIndexed ix (indexedStart n)).1, (resolveIndexed ix (indexedStart n)).2.cyc)
    r 0 (.mode .x true .inc2) = (0x5678, 6) ∧ r 1 (.mode .x true (.off8 0x02)) = (0x9ABC, 4) ∧
    r 2 (.extIndirect 0x2000) = (0xDEF0, 5) ∧ r 0 (.unassigned 0x87) = (0x0000, 0) := by decide +kernel

/-! ## Unassigned opcodes (95_test_vectors.md section 2.10) -/

/-- V-IL-2: the pair is skipped and logged with the PC of its first byte. -/
theorem test_unassigned_pair :
    let t := oneStep (withBytes [(0x4000, [0x10, 0x00])])
    t.cpu = { start.cpu with pc := 0x4002 } ∧
    t.log = [.unassigned [0x10, 0x00] 0x4000 { start.cpu with pc := 0x4002 }] ∧ t.mem.read 0x6000 = 0x10 := by
  decide +kernel

/-- V-IL-3 and V-IL-5, and the fault of the other policy. -/
theorem test_unassigned_policies :
    decode [0x11, 0x10] = .unassigned [0x11, 0x10] ∧
    execUnassigned .fault [0x87] 0x4000 start = .fault (.unassigned [0x87] 0x4000) := by
  exact ⟨by decide, rfl⟩

/-! ## The memory controller and the PIA (95_test_vectors.md section 2.11, scenarios S4 to S6) -/

/-- The registers that V-MM-2 and V-MM-7 leave: CRA and CRB select ORA and ORB. -/
def piaOpen : State := (start.memWrite 0xA7C2 0x04).memWrite 0xA7C3 0x04

/-- V-MM-1. -/
theorem test_ddra_write :
    let t := start.memWrite 0xA7C0 0x01
    t.pia.ddra = 0x01 ∧ t.memRead 0xA7C0 = 0x01 ∧ t.mapper = start.mapper := by decide +kernel

/-- V-MM-3, V-MM-4 and V-MM-5: the banks of page 0 and 1. -/
theorem test_bank_switch :
    let c := piaOpen.memWrite 0xA7C0 0x00
    let w := c.memWrite 0x0010 0x55
    let p := ({ w with pen := { w.pen with button := true } }).memWrite 0xA7C0 0x01
    c.mapper.get 0 = 2 ∧ c.mapper.get 1 = 3 ∧ c.dirty.get 199 = true ∧ w.mem.read 0x2010 = 0x55 ∧
    w.dirty.get 0 = true ∧
    p.mapper.get 0 = 0 ∧ p.mapper.get 1 = 1 ∧ p.memRead 0xA7C0 = 0x21 ∧ p.memRead 0x0010 = 0x00 := by decide +kernel

/-- V-MM-6. -/
theorem test_ddrb_write :
    let t := start.memWrite 0xA7C1 0x21
    t.pia.ddrb = 0x21 ∧ t.memRead 0xA7C1 = 0x21 ∧ t.snd = 0x00 := by decide +kernel

/-- V-MM-8, V-MM-9, V-MM-10 and V-MM-11: the key status and the sound latch. -/
theorem test_key_scan :
    let pressed := (piaOpen.setKey 0x20).memWrite 0xA7C1 0x21
    let later := (pressed.remKey 0x20).memWrite 0xA7C1 0x20
    pressed.pia.orb = 0x21 ∧ pressed.memRead 0xA7C1 = 0x21 ∧ pressed.snd = 0x20 ∧
    (pressed.remKey 0x20).memRead 0xA7C1 = 0x21 ∧ later.memRead 0xA7C1 = 0xA0 ∧ later.snd = 0x00 ∧
    (later.memWrite 0xA7C1 0x80).memRead 0xA7C1 = 0x80 := by decide +kernel

/-- V-MM-12 and V-MM-13. -/
theorem test_io_writes_dropped :
    (start.memWrite 0xA7E7 0xFF).mem = start.mem ∧ (start.memWrite 0xA000 0x12).mem = start.mem := by decide +kernel

/-- V-MM-15 and V-MM-16: the wrap of a word read, and the byte order of a word write. -/
theorem test_word_accesses :
    (withBytes [(0xFFFF, [0x12, 0x34])]).memRead16 0xFFFF = 0x1234 ∧
    holds (start.memWrite16 0x7FFF 0xABCD) 0x7FFF [0xAB, 0xCD] = true := by decide +kernel

/-- Scenario S5. -/
theorem test_dirty_lines :
    let t := start.memWrite 0x0050 0xAA
    (t.isDirty 2).1 = true ∧ ((t.isDirty 2).2.isDirty 2).1 = false ∧ (start.memWrite 0x1F3F 1).dirty.get 199 = true ∧
    (start.memWrite 0x1F40 1).dirty.get 199 = false ∧ (start.memSet 0x0010 1).dirty.get 0 = false := by decide +kernel

/-- Scenario S6. -/
theorem test_key_press_release :
    let two := (start.hostEvent (.keyDown [0x20])).hostEvent (.keyDown [0x32])
    two.keys.get 0x20 = false ∧ two.keys.get 0x32 = true ∧ (two.hostEvent (.keyUp [0x32])).keys.get 0x32 = false := by
  decide +kernel

/-! ## The traps (95_test_vectors.md section 2.12) -/

/-- The test values of section 2.12, with test trap addresses. -/
def testTraps : Traps where
  readBit := 0xF000
  writeByte := 0xF001
  motor := 0xF002
  lightPen := 0xF003
  bitAddr := 0x2050
  motorOffset := 0
  motorMask := 0x01
  lightPenOffset := 2

/-- The tape [A5, 3C], loaded. -/
def tapeStart : State := (start.loadTape 100 (some [0xA5, 0x3C])).1

/-- The state after `n` read-bit traps. -/
def afterBits (n : Nat) : State := (fun u : State => u.periph testTraps 0xF000)^[n] tapeStart

/-- V-TP-1: the bits of A5. -/
theorem test_tape_bits :
    (List.range 8).map (fun k => (afterBits (k + 1)).memRead 0x2050) =
      [0x00, 0xFF, 0x00, 0xFF, 0xFF, 0x00, 0xFF, 0x00] ∧
    (afterBits 8).tape.cursor = 1 ∧ (afterBits 8).tape.tc = 0 ∧ (afterBits 8).tape.led = true := by decide +kernel

/-- V-TP-2, V-TP-3 and V-TP-4: the bits of 3C, and the cursor at the end of the tape. -/
theorem test_tape_end :
    (List.range 8).map (fun k => (afterBits (k + 9)).memRead 0x2050) =
      [0xFF, 0xFF, 0x00, 0x00, 0x00, 0x00, 0xFF, 0xFF] ∧
    (afterBits 16).tape.cursor = 2 ∧ (afterBits 17).tape.cursor = 2 ∧ (afterBits 17).tape.tc = 7 := by decide +kernel

/-- V-TP-5, and scenario S8. -/
theorem test_tape_reload_and_rewind :
    (afterBits 16).loadTape 100 (some []) = (afterBits 16, .tapeRejected .zeroLength) ∧
    tapeStart.tapeRead.1 = 0xA5 ∧ tapeStart.tapeRead.2.tapeRead.1 = 0x3C ∧
    tapeStart.tapeRead.2.tapeRead.2.rewindTape.tapeRead.1 = 0xA5 := by exact ⟨rfl, by decide, by decide, by decide⟩

/-- V-TP-6 to V-TP-9, for either outcome of the creation. -/
theorem test_tape_output :
    ∀ made : Bool,
      let created := if made then start.setTape { start.tape with out := some [] }
        else start.setTape { start.tape with outFailed := true }
      let t := (created.setA 0x5A).tapeWriteByte
      (t.tape.out = if made then some [0x5A] else none) ∧
      ((t.setA 0x00).tapeWriteByte.tape.out = if made then some [0x5A, 0x00] else none) := by decide +kernel

/-- V-TP-10 and V-TP-11. -/
theorem test_motor_and_light_pen :
    let s := { (start.setS 0x7FF0).memSet 0x7FF0 0xFF with pen := { button := false, x := 0x0123, y := 0x00C7 } }
    (s.periph testTraps 0xF002).memRead 0x7FF0 = 0xFE ∧
    holds (s.periph testTraps 0xF003) 0x7FF2 [0x01, 0x23, 0x00, 0xC7] = true := by decide +kernel

/-- V-TP-13: an address that no trap uses. -/
theorem test_trap_elsewhere :
    sendToPeriph testTraps 7 start = { start with cyc := 7 } := by rfl

/-! ## Interrupts (95_test_vectors.md section 2.13) and resets (2.14) -/

/-- The start of V-IQ-1. -/
def irqStart : State :=
  { withBytes [(0xFFF8, [0xC2, 0x00])] with
    cpu := { start.cpu with a := 0x01, b := 0x02, dp := 0x03, x := 0x1111, y := 0x2222, u := 0x3333 } }

/-- V-IQ-1. -/
theorem test_irq_entry :
    irqStart.irqEntry.cpu = { irqStart.cpu with s := 0x7FF4, cc := 0x90, pc := 0xC200 } ∧ irqStart.irqEntry.cyc = 19 ∧
    holds irqStart.irqEntry 0x7FF4 [0x80, 0x01, 0x02, 0x03, 0x11, 0x11, 0x22, 0x22, 0x33, 0x33, 0x40, 0x00] = true := by
  decide +kernel

/-- V-IQ-2. -/
theorem test_irq_gate : (irqStart.setCc 0x10).irqGate.cpu = { irqStart.cpu with cc := 0x10 } := by decide +kernel

/-- V-IQ-3. -/
theorem test_irq_return :
    irqStart.irqEntry.returnFromInterrupt.cpu = { irqStart.cpu with cc := 0x80 } := by decide +kernel

/-- The IRQ point of V-FD-2: cyc 2801 is 1 over the bottom border's budget. -/
theorem test_irq_point :
    let s := { irqStart with sched := .burst .bottom, cyc := 2801, pia := { irqStart.pia with crb := 0x01 } }
    (oneStep s).cyc = 20 ∧ (oneStep s).memRead 0xA7C3 = 0x81 ∧ (oneStep s).sched = .burst .irqWindow ∧
    (oneStep s).irqPrev = true ∧ (oneStep s).cpu.pc = 0xC200 := by decide +kernel

/-- The budgets of V-FD-1 and V-FD-2, and the signal byte of the visible window. -/
theorem test_field_bursts :
    (oneStep State.reset).sched = .burst .top ∧
    (oneStep { State.reset with irqPrev := true }).sched = .burst .topAfterIrq ∧
    (oneStep { start with cyc := 4101 }).sched = .burst .window ∧ (oneStep { start with cyc := 4101 }).cyc = 1 ∧
    (oneStep { start with cyc := 4101 }).memRead 0xA7E7 = 0x80 := by decide +kernel

/-- V-RS-1 and V-RS-3. -/
theorem test_resets :
    let s := { withBytes [(0xFFFE, [0xC0, 0x00]), (0x3000, [0x55]), (0x5000, [0x66])] with
      cpu := { start.cpu with a := 0x12, x := 0x3456, cc := 0xFF, dp := 0x07, s := 0x1234 } }
    s.cpuReset.cpu = { s.cpu with pc := 0xC000, dp := 0x00, s := 0x8000, cc := 0x00 } ∧
    (s.hardReset [0x3000]).memRead 0x3000 = 0x00 ∧ (s.hardReset [0x3000]).memRead 0x5000 = 0x66 ∧
    (s.hardReset [0x3000]).cpu = s.cpuReset.cpu := by decide +kernel

/-- P_HARD_RESET_RANGE is RAM: its first and last byte, and those on either side of the PIA's shadow bytes (R36). -/
theorem test_ram_addresses :
    ramAddress 0 = 0x0000 ∧ ramAddress 0xA7BF = 0xA7BF ∧ ramAddress 0xA7C0 = 0xA7C4 ∧ ramAddress 49147 = 0xBFFF := by decide

/-- EXG between D and its halves, worked out from R345 and R346. -/
theorem test_exg_overlap :
    let s := { start with cpu := { start.cpu with a := 0x12, b := 0x34 } }
    exec (.exg .b .d) s = .next { s with cyc := 8, cpu := { s.cpu with a := 0xFF } } ∧
    exec (.exg .d .a) s = .next { s with cyc := 8, cpu := { s.cpu with a := 0xFF, b := 0x12 } } := ⟨rfl, rfl⟩

/-- A ROM image of a wrong size is refused (70_reset_and_hazards.md R503). -/
theorem test_rom_size :
    State.powerOn [0x12] [] { a := 0, b := 0, x := 0, y := 0, u := 0, tb := 0 } = .refused (.romImageSize 1) := by rfl

/-! ## Debug outputs and the fast-CC form -/

/-- The disassembly of `LDA #$42; STA $2000; SWI` of scenario S1 (30_encoding.md R127, 60_exceptions.md R480). -/
theorem test_disassembly :
    (withBytes [(0x4000, [0x86, 0x42, 0xB7, 0x20, 0x00, 0x3F])]).disassembly 3 =
      [(0x4000, .instr (.lda (.imm 0x42)) 2), (0x4002, .instr (.sta (.ext 0x2000)) 3), (0x4005, .instr .swi 1)] := by
  decide +kernel

/-- `PSHS A,B,X` and its lists in another order (30_encoding.md R136), and the offset of BRA * (R134). -/
theorem test_assembler :
    registerListMask [.reg .a, .reg .b, .reg .x] = 0x16 ∧ registerListMask [.reg .x, .d] = 0x16 ∧
    shortOffset 0x4002 0x4000 = some 0xFE ∧ shortOffset 0x4002 0x4082 = none ∧ longOffset 0x4004 0x3004 = 0xF000 := by
  decide

/-- Scenario S3: every CC byte survives `setcc` and `getcc`. -/
theorem test_fast_cc_round_trip : ∀ v : BitVec 8, getcc (setcc v) = v := by decide +kernel

/-! ## For each statement with hypotheses: a state and operands that meet them -/

/-- Two mid-RAM addresses, the ends of RAM below the I/O page, above it, and of the screen, are plain memory. -/
theorem test_plain_bounds :
    start.plain 0x0000 ∧ start.plain 0x2000 ∧ start.plain 0x9FFF ∧ start.plain 0xB000 ∧ start.plain 0xBFFF := by
  unfold State.plain; decide +kernel

/-- A decision procedure for `plainRange` on a concrete state. -/
theorem plainRange_of {s : State} {base : Word} {n : Nat}
    (h : (addrsFrom base n).all (fun a => !s.isRom a && decide ((pageIndex a).val ≠ ioPage)) = true) :
    s.plainRange base n := by
  intro a ha
  simpa [State.plain] using List.all_eq_true.mp h a ha

/-- The 12 bytes below the reset stack pointer, and the two below it, are plain memory. -/
theorem test_plain_stack :
    start.plainRange (start.cpu.s - 12) 12 ∧ start.plainRange (start.cpu.s - 2) 2 :=
  ⟨plainRange_of (by decide +kernel), plainRange_of (by decide +kernel)⟩

theorem witness_DecodeEncode :
    (Instr.lda (.mem (.idx (.mode .s true (.pcr16 0xFFFF))))).wf = true ∧ (Instr.leax (.off5 .x 0x10)).wf = true ∧
    (Instr.sta (.idx (.unassigned 0xFF))).wf = true ∧ (Instr.cmps (.mem (.idx (.extIndirect 0)))).wf = true ∧
    Instr.periph.wf = true := by decide

theorem witness_EncodeDecode : decode [0xA6, 0x87, 0x00] = .instr (.lda (.mem (.idx (.unassigned 0x87)))) 2 := by decide

/-- One of two unassigned bytes is not the PERIPH opcode. -/
theorem witness_UnassignedEncodings :
    (decode [0x01] = .unassigned [0x01] ∨ decode [0x02] = .unassigned [0x02]) ∧
    decode [0x10, 0x00] = .unassigned [0x10, 0x00] ∧ decode [0x11, 0xFF] = .unassigned [0x11, 0xFF] := by
  refine ⟨?_, by decide, by decide⟩
  unfold decode periphOpcode
  generalize Config.periphIndex = k
  revert k
  decide

theorem witness_StepRunsDecodedInstruction :
    let s := withBytes [(0x4000, [0x86, 0x42])]
    s.sched = .burst .top ∧ s.cyc < burstBudget .top ∧
    decode [s.memRead s.cpu.pc, s.memRead (s.cpu.pc + 1), s.memRead (s.cpu.pc + 2), s.memRead (s.cpu.pc + 3),
      s.memRead (s.cpu.pc + 4)] = .instr (.lda (.imm 0x42)) 2 := by decide +kernel

theorem witness_StepUnassignedOpcode :
    let s := withBytes [(0x4000, [0x10, 0x00])]
    s.sched = .burst .top ∧ s.cyc < burstBudget .top ∧
    decode s.fetchBytes = .unassigned [0x10, 0x00] := by decide +kernel

theorem test_start_inv : Inv start where
  memory := by decide
  mapper := by unfold mapperOk; decide
  sound := .inl rfl
  tape := by unfold tapeOk; decide
  sched := ⟨rfl, rfl⟩

/-- Inside a burst, at its end and at the top of an iteration. -/
theorem witness_StepKeepsInv :
    Inv start ∧ (∃ t, step start = .next t) ∧ (∃ t, step { start with cyc := 4100 } = .next t) ∧
    ∃ t, step State.reset = .next t :=
  ⟨test_start_inv, ⟨_, rfl⟩, ⟨_, rfl⟩, ⟨_, rfl⟩⟩

/-- An image of zeros, with the four patches and with a fifth. -/
theorem witness_ResetInv :
    let ps := [trapReadBit, trapWriteByte, trapMotor, trapLightPen].map (fun a => (a, periphOpcode))
    (List.replicate 16384 (0 : Byte)).length = 16384 ∧
    (∀ a ∈ [trapReadBit, trapWriteByte, trapMotor, trapLightPen], (a, periphOpcode) ∈ ps) ∧
    ∀ a ∈ [trapReadBit, trapWriteByte, trapMotor, trapLightPen], (a, periphOpcode) ∈ (0xFFFE, 0xC0) :: ps :=
  ⟨List.length_replicate, fun _ h => List.mem_map_of_mem h, fun _ h => List.mem_cons_of_mem _ (List.mem_map_of_mem h)⟩

theorem witness_BurstTerminates : start.sched = .burst .top := rfl

theorem witness_BurstBoundaries :
    (∀ b : Burst, ({ start with sched := .burst b, cyc := burstBudget b }).sched = .burst b) ∧
    burstBudget .window = 13100 ∧ burstBudget .irqWindow = 300 := ⟨fun _ => rfl, rfl, rfl⟩

/-- The cases of the IRQ point: disabled, enabled with I set, enabled with I clear, and a plain stack under a legal mapper. -/
theorem witness_IrqPoint :
    let s := { start with sched := .burst .bottom, cyc := 2800 }
    let on := { s with pia := { s.pia with crb := 0x01 } }
    s.sched = .burst .bottom ∧ 2800 ≤ s.cyc ∧ s.pia.crb.getLsbD 0 = false ∧ on.pia.crb.getLsbD 0 = true ∧
    getFlag (on.setCc 0x10).cpu.cc .i = true ∧ getFlag on.cpu.cc .i = false ∧ on.plainRange (on.cpu.s - 12) 12 ∧
    mapperOk on.mapper :=
  ⟨rfl, by decide, by decide, by decide, by decide, by decide, plainRange_of (by decide +kernel), initMapper_ok⟩

theorem witness_IrqGate : getFlag (start.setCc 0x10).cpu.cc .i = true ∧ getFlag start.cpu.cc .i = false := by decide

theorem witness_IterationTop :
    let stopped := { State.reset with inputs := [[.stop]] }
    let after := { State.reset with irqPrev := true }
    stopped.sched = .iteration ∧ stopped.drainEvents.running = false ∧ after.drainEvents.running = true ∧
    after.drainEvents.irqPrev = true ∧ State.reset.drainEvents.irqPrev = false ∧ State.reset.inputs = [] ∧
    stopped.inputs = [.stop] :: [] ∧ ({ stopped with inputs := [[], [.readLed, .start]] }).inputs = [] :: [[.readLed, .start]] := by
  decide +kernel

/-- The ends of the unassigned post-bytes, indirect forms that exist, and each form of ResolverEffects. -/
theorem witness_EffectiveAddresses_ResolverEffects :
    (Indexed.unassigned 0x87).wf = true ∧ (Indexed.unassigned 0xFF).wf = true ∧ (Indexed.mode .x true .inc2).wf = true ∧
    (Indexed.mode .s true (.pcr16 0x8000)).wf = true ∧ (MemOp.idx (.mode .y false .inc1)).wf = true ∧
    (MemOp.idx (.mode .u false .dec1)).wf = true ∧ (MemOp.idx (.mode .s true .dec2)).wf = true ∧
    (MemOp.ext 0xFFFF).wf = true ∧ (MemOp.idx (.mode .x true .inc1)).wf = false := by decide

theorem witness_RomWriteDropped :
    (start.mapper.get ((0xC000 : Word).extractLsb' 12 4).toFin).val = 14 ∧
    (start.mapper.get ((0xFFFF : Word).extractLsb' 12 4).toFin).val = 17 := by decide +kernel

/-- A screen byte, a word across a page, and a word that wraps from ROM into page 0. -/
theorem witness_PlainWrites :
    start.plain 0x1F3F ∧ (start.plain 0x1FFF ∧ start.plain (0x1FFF + 1)) ∧
    (start.isRom 0xFFFF = true ∧ start.plain (0xFFFF + 1)) := by unfold State.plain; decide +kernel

theorem witness_PiaWrites :
    start.isRom 0xA7C0 = false ∧ start.isRom 0xA7C1 = false ∧ start.isRom 0xA7C2 = false ∧
    start.isRom 0xA7C3 = false ∧
    piaOpen.isRom 0xA7C0 = false ∧ piaOpen.isRom 0xA7C1 = false ∧ piaOpen.pia.cra.getLsbD 2 = true ∧
    piaOpen.pia.crb.getLsbD 2 = true ∧
    start.pia.cra.getLsbD 2 = false ∧ start.pia.crb.getLsbD 2 = false := by decide +kernel

/-- The ends of the I/O page, and the neighbours of the PIA. -/
theorem witness_IoWriteDropped :
    ∀ a ∈ ([0xA000, 0xA7BF, 0xA7C4, 0xA7E7, 0xAFFF] : List Word),
      0xA000 ≤ a.toNat ∧ a.toNat ≤ 0xAFFF ∧ a ≠ 0xA7C0 ∧ a ≠ 0xA7C1 ∧ a ≠ 0xA7C2 ∧ a ≠ 0xA7C3 := by
  intro a ha
  simp only [List.mem_cons, List.not_mem_nil, or_false] at ha
  rcases ha with rfl | rfl | rfl | rfl | rfl <;> decide

/-- The first and the last byte of the screen. -/
theorem witness_DirtyReadAndClear :
    (start.plain 0x0000 ∧ (0x0000 : Word).toNat / 40 = (0 : Fin 200).val) ∧
    (start.plain 0x1F3F ∧ (0x1F3F : Word).toNat < 8000 ∧ (0x1F3F : Word).toNat / 40 = (199 : Fin 200).val) ∧
    (0 : Fin 200) ≠ 199 := by unfold State.plain; decide +kernel

/-- A store aimed at ROM, and the first byte of ROM. -/
theorem witness_CpuInstructionsKeepRom :
    Instr.sta (.ext 0xC000) ≠ .periph ∧ (∃ t, exec (.sta (.ext 0xC000)) start = .next t) ∧ 14 * 4096 ≤ 57344 :=
  ⟨by decide, ⟨_, rfl⟩, by decide⟩

theorem witness_InstructionsKeepHostAndMapper :
    (∃ t, exec .periph start = .next t) ∧ (∃ t, exec .nop start = .next t) ∧ Instr.nop ≠ .periph ∧
    2 ≤ (2 : Fin 16).val :=
  ⟨⟨_, rfl⟩, ⟨_, rfl⟩, by decide, by decide⟩

theorem witness_DecimalAdjustAfterAdd : validBcd 0x00 ∧ validBcd 0x99 := by unfold validBcd; decide

/-- An address in ROM and one in plain memory, for StoreAccumulator and UnaryMemory. -/
theorem witness_StoreAccumulator_UnaryMemory :
    start.isRom (resolve (.ext 0xFFFF) start).1 = true ∧ start.plain (resolve (.ext 0xBFFF) start).1 := by
  unfold State.plain; decide +kernel

theorem witness_StoreRegister16 :
    let ea := (resolve (.ext 0x1FFF) start).1
    start.plain ea ∧ start.plain (ea + 1) := by unfold State.plain; decide +kernel

/-- Each conversion of TFR, a destination that names no register, and a code left alone. -/
theorem witness_TransferRegister :
    codeNamesRegister (.undef8 3) = false ∧
    (codeNamesRegister .pc = true ∧ regCodeWide .d = regCodeWide .pc) ∧
    (codeNamesRegister .dp = true ∧ regCodeWide .x = true ∧ regCodeWide .dp = false) ∧
    (regCodeWide (.undef8 0) = false ∧ regCodeWide .s = true) ∧ ¬ codesOverlap .b .a := by
  unfold codesOverlap; decide

/-- One register twice, a pair apart, a pair apart from a third, two codes that name no register, and the four pairs that
share storage. -/
theorem witness_ExchangeRegisters :
    (RegCode.x = .x) ∧ (¬ codesOverlap .a .x ∧ codeNamesRegister .x = true) ∧ codeNamesRegister .a = true ∧
    (¬ codesOverlap .y .a ∧ ¬ codesOverlap .y .d) ∧
    (codeNamesRegister (.undef16 1) = false ∧ codeNamesRegister (.undef8 3) = false) ∧
    codesOverlap .a .d ∧ codesOverlap .b .d ∧ codesOverlap .d .a ∧ codesOverlap .d .b := by unfold codesOverlap; decide

/-- A push of every register and a push of none. -/
theorem witness_PushRegisters :
    maskWidth 0xFF pullOrder = 12 ∧ start.plainRange (start.sp .s - 12) 12 ∧ maskWidth 0x00 pullOrder = 0 ∧
    start.plainRange (start.sp .s) 0 ∧ (start.setU 0x3000).plainRange ((start.setU 0x3000).sp .u - 12) 12 :=
  ⟨by decide, plainRange_of (by decide +kernel), by decide, plainRange_of (by decide +kernel),
    plainRange_of (by decide +kernel)⟩

theorem witness_PushPullRoundTrip :
    start.plainRange (start.cpu.s - BitVec.ofNat 16 (maskWidth 0xFF pullOrder)) (maskWidth 0xFF pullOrder) ∧
    (∃ t u, exec (.pshs 0xFF) start = .next t ∧
    exec (.puls 0xFF) { t with cpu := { irqStart.cpu with s := t.cpu.s } } = .next u) ∧
    (start.setU 0x3000).plainRange (0x3000 - BitVec.ofNat 16 (maskWidth 0x06 pullOrder)) (maskWidth 0x06 pullOrder) ∧
    ∃ t u, exec (.pshu 0x06) (start.setU 0x3000) = .next t ∧
      exec (.pulu 0x06) { t with cpu := { irqStart.cpu with u := t.cpu.u } } = .next u := by
  exact ⟨plainRange_of (by decide +kernel), ⟨_, _, rfl, rfl⟩, plainRange_of (by decide +kernel), ⟨_, _, rfl, rfl⟩⟩

/-- The push of a call, for BSR and for a JSR that moves S. -/
theorem witness_SubroutineCalls :
    start.plainRange (start.cpu.s - 2) 2 ∧
    start.plainRange ((resolve (.idx (.mode .s false .inc2)) start).2.cpu.s - 2) 2 :=
  ⟨plainRange_of (by decide +kernel), plainRange_of (by decide +kernel)⟩

theorem witness_SoftwareInterrupts : start.plainRange (start.cpu.s - 12) 12 := test_plain_stack.1

theorem witness_ReturnFromInterrupt :
    ((withBytes [(0x8000, [0x80])]).memRead 0x8000).getLsbD 7 = true ∧
    (start.memRead start.cpu.s).getLsbD 7 = false := by
  decide +kernel

/-- RTI right after the entry. -/
theorem witness_InterruptReturnRoundTrip :
    start.plainRange (start.cpu.s - 12) 12 ∧
    (∀ a ∈ addrsFrom (start.cpu.s - 12) 12,
      (start.interruptEntry 0x10 0xFFF8).memRead a = (start.interruptEntry 0x10 0xFFF8).memRead a) ∧
    ∃ t, exec .rti (start.interruptEntry 0x10 0xFFF8) = .next t :=
  ⟨test_plain_stack.1, fun _ _ => rfl, ⟨_, rfl⟩⟩

/-- PC after the opcode byte of a trap at each of the four addresses, and at a fifth. -/
theorem witness_PeripheralTraps :
    let at' := fun k : Fin 16384 => (start.setPc (romAddress (Config.trapPlacement k) + 1)).cpu.pc - 1
    at' 0 = trapReadBit ∧ (at' 1 ≠ trapReadBit ∧ at' 1 = trapWriteByte) ∧
    (at' 2 ≠ trapReadBit ∧ at' 2 ≠ trapWriteByte ∧ at' 2 = trapMotor) ∧
    (at' 3 ≠ trapReadBit ∧ at' 3 ≠ trapWriteByte ∧ at' 3 ≠ trapMotor ∧ at' 3 = trapLightPen) ∧
    (at' 4 ≠ trapReadBit ∧ at' 4 ≠ trapWriteByte ∧ at' 4 ≠ trapMotor ∧ at' 4 ≠ trapLightPen) := by
  intro at'
  have e : ∀ k, at' k = romAddress (Config.trapPlacement k) := fun k => by simp [at', State.setPc]
  have hne : ∀ j k : Fin 16384, j ≠ k → at' j ≠ romAddress (Config.trapPlacement k) := fun j k h => by
    rw [e]; exact romAddress_placed_ne h
  refine ⟨e 0, ⟨?_, e 1⟩, ⟨?_, ?_, e 2⟩, ⟨?_, ?_, ?_, e 3⟩, ?_, ?_, ?_, ?_⟩ <;> exact hne _ _ (by decide)

/-- The codec's cases of PeripheralTraps and of TapeByteMsbFirst: bits left, none left with a byte to read, at the end of the
tape and with no tape, and no output, an open output and a failed output. -/
theorem witness_PeripheralTraps_tape :
    (afterBits 1).tape.tc ≠ 0 ∧ tapeStart.tape.tc = 0 ∧ tapeStart.tape.tape = some [0xA5, 0x3C] ∧
    ([0xA5, 0x3C] : List Byte)[tapeStart.tape.cursor]? = some 0xA5 ∧
    ((afterBits 16).tape.tc = 0 ∧ (afterBits 16).tape.tape = some [0xA5, 0x3C] ∧ (afterBits 16).tape.cursor = 2) ∧
    (start.tape.tc = 0 ∧ start.tape.tape = none) ∧ start.tape.outFailed = false ∧ start.tape.out = none ∧
    (start.setTape { start.tape with out := some [] }).tape.out = some [] ∧
    (start.setTape { start.tape with outFailed := true }).tape.outFailed = true := by decide +kernel

/-- The shortest and the longest tape, one byte too many, an empty file, and a tape to rewind. -/
theorem witness_TapeLoadAndRewind :
    (0 < [(0xA5 : Byte)].length ∧ [(0xA5 : Byte)].length ≤ tapeMax) ∧
    (0 < (List.replicate tapeMax (0 : Byte)).length ∧ (List.replicate tapeMax (0 : Byte)).length ≤ tapeMax) ∧
    tapeMax < (List.replicate (tapeMax + 1) (0 : Byte)).length ∧ ([] : List Byte).length = 0 ∧
    tapeStart.tape.tape.isSome = true ∧ start.tape.tape = none := by
  simp [tapeMax, tapeStart, State.loadTape, loadFailure, start, State.reset, State.setTape]

theorem witness_CpuResets :
    (0x3000 : Word) ∈ [(0x3000 : Word)] ∧ mapperOk start.mapper ∧ 14 * 4096 ≤ 57344 ∧ 57344 ∉ [(0x3000 : Word)].map start.phys :=
  ⟨by decide, initMapper_ok, by decide, by decide +kernel⟩

/-- An image of 16384 bytes with its first and last byte, a patched address and an address that no patch names. -/
theorem witness_RomLoading :
    (List.replicate 16384 (0x12 : Byte)).length = 16384 ∧ (List.replicate 16384 (0x12 : Byte))[0]? = some 0x12 ∧
    (List.replicate 16384 (0x12 : Byte))[16383]? = some 0x12 ∧
    (∀ p ∈ [((0xC100 : Word), (0x01 : Byte))], p.1 ≠ BitVec.ofNat 16 (0xC000 + 16383)) ∧
    [((0xC100 : Word), (0x01 : Byte))] = [] ++ (0xC100, 0x01) :: [] ∧ 57343 < 14 * 4096 := by
  refine ⟨List.length_replicate, ?_, ?_, ?_, rfl, by decide⟩
  · rw [List.getElem?_replicate, if_pos (by decide)]
  · rw [List.getElem?_replicate, if_pos (by decide)]
  · intro p hp
    rw [List.mem_singleton.mp hp]
    decide

theorem witness_KeyMatrixEvents : ∃ e : HostEvent, e = .keyDown [0x20] := ⟨_, rfl⟩

end Sys2Proof.Tests
end

section
/-! PROOFS. The memory controller (20_memory.md): what a write through it does to memory, to the mapper and to the sound
latch, and the statements about plain memory, ROM, the I/O page, the PIA, the dirty lines and the keys. -/

namespace Sys2Proof.Machine

/-! ## ROM protection (20_memory.md R63, R66, R86) -/

theorem isRom_iff (s : State) (addr : Word) : s.isRom addr = true ↔ 14 ≤ s.physPage addr := decide_eq_true_iff

/-- An address outside ROM reaches a byte below the ROM pages. -/
theorem phys_lt_of_not_rom {s : State} {addr : Word} (h : s.isRom addr = false) : s.phys addr < 14 * 4096 := by
  have hp : ¬ 14 ≤ s.physPage addr := fun hr => Bool.false_ne_true (h.symm.trans ((isRom_iff s addr).mpr hr))
  have ho := pageOffset_lt addr
  unfold State.phys
  omega

/-- No write through the controller changes a byte of the ROM pages. -/
theorem memWrite_keepsRom (s : State) (addr : Word) (v : Byte) {k : Nat} (hk : 14 * 4096 ≤ k) :
    (s.memWrite addr v).mem.read k = s.mem.read k := by
  cases hr : s.isRom addr with
  | true => rw [memWrite_rom hr]
  | false =>
    have := phys_lt_of_not_rom hr
    exact memWrite_read s addr v (by omega)

/-- Settles O16: the physical page of the address is a ROM page, so the ROM test of the controller drops the write. -/
theorem romWriteDropped : Obligations.RomWriteDropped := by
  intro s addr v h14 _
  exact memWrite_rom ((isRom_iff s addr).mpr h14) v

/-! ## Plain memory (20_memory.md R64 to R69) -/

theorem memWrite_plain_mem {s : State} {addr : Word} (h : s.plain addr) (v : Byte) :
    (s.memWrite addr v).mem = s.mem.write (s.phys addr) v := by rw [memWrite_plain h]

theorem memWrite_plain_mapper {s : State} {addr : Word} (h : s.plain addr) (v : Byte) :
    (s.memWrite addr v).mapper = s.mapper := by rw [memWrite_plain h]

theorem memWrite_plain_dirty {s : State} {addr : Word} (h : s.plain addr) (v : Byte) :
    (s.memWrite addr v).dirty = (s.markDirty addr).dirty := by rw [memWrite_plain h]

/-- A byte written to plain memory reads back. -/
theorem memRead_memWrite_plain {s : State} {addr : Word} (h : s.plain addr) (v : Byte) :
    (s.memWrite addr v).memRead addr = v := by
  unfold State.memRead
  rw [memWrite_plain_mem h, State.phys_congr (memWrite_plain_mapper h v), Memory.read_write, if_pos rfl]

/-- A write changes at most the byte at its physical address. -/
theorem memWrite_keepsOutside (s : State) (addr : Word) (v : Byte) :
    KeepsMemoryOutside [s.phys addr] s (s.memWrite addr v) :=
  fun _ hk => memWrite_read s addr v (by simpa using hk)

/-- A word written where both bytes are plain memory: what each byte of memory reads afterwards. -/
theorem memWrite16_plain_read {s : State} {addr : Word} (h1 : s.plain addr) (h2 : s.plain (addr + 1)) (w : Word)
    (k : Nat) :
    (s.memWrite16 addr w).mem.read k =
      if k = s.phys (addr + 1) then loByte w else if k = s.phys addr then hiByte w else s.mem.read k := by
  rw [(memWrite16_plain h1 h2 w).1, Memory.read_write, Memory.read_write]

theorem memRead_memWrite16_hi {s : State} {addr : Word} (h1 : s.plain addr) (h2 : s.plain (addr + 1)) (w : Word) :
    (s.memWrite16 addr w).memRead addr = hiByte w := by
  unfold State.memRead
  rw [State.phys_congr (memWrite16_plain h1 h2 w).2, memWrite16_plain_read h1 h2, if_neg (s.phys_succ_ne addr).symm,
    if_pos rfl]

theorem memRead_memWrite16_lo {s : State} {addr : Word} (h1 : s.plain addr) (h2 : s.plain (addr + 1)) (w : Word) :
    (s.memWrite16 addr w).memRead (addr + 1) = loByte w := by
  unfold State.memRead
  rw [State.phys_congr (memWrite16_plain h1 h2 w).2, memWrite16_plain_read h1 h2, if_pos rfl]

theorem memWrite16_plain_keepsOutside {s : State} {addr : Word} (h1 : s.plain addr) (h2 : s.plain (addr + 1))
    (w : Word) : KeepsMemoryOutside [s.phys addr, s.phys (addr + 1)] s (s.memWrite16 addr w) := by
  intro k hk
  obtain ⟨hhi, hlo⟩ : k ≠ s.phys addr ∧ k ≠ s.phys (addr + 1) := by simpa using hk
  rw [memWrite16_plain_read h1 h2, if_neg hlo, if_neg hhi]

/-- A word write whose first byte is in ROM is the write of its second byte (20_memory.md R66, R69). -/
theorem memWrite16_rom_first {s : State} {addr : Word} (h : s.isRom addr = true) (w : Word) :
    s.memWrite16 addr w = s.memWrite (addr + 1) (loByte w) := by
  unfold State.memWrite16
  rw [memWrite_rom h]

/-- Settles O17: a byte write is one store with its dirty mark, and a word write is two byte writes to two different
bytes, the first of which ROM drops. -/
theorem plainWrites : Obligations.PlainWrites := by
  intro s addr v w
  refine ⟨fun h => ⟨memRead_memWrite_plain h v, memWrite_keepsOutside s addr v, fun line => ?_, ?_⟩,
    fun h1 h2 => ⟨?_, memRead_memWrite16_hi h1 h2 w, memRead_memWrite16_lo h1 h2 w,
      memWrite16_plain_keepsOutside h1 h2 w⟩,
    fun hr hp => ?_⟩
  · rw [memWrite_plain_dirty h]
    exact markDirty_get s addr line
  · rw [memWrite_plain h]
  · unfold State.memRead16
    rw [memRead_memWrite16_hi h1 h2, memRead_memWrite16_lo h1 h2, joinBytes_hi_lo]
  · rw [memWrite16_rom_first hr]
    exact ⟨memRead_memWrite_plain hp _, memWrite_keepsOutside s _ _⟩

/-! ## The I/O page and the PIA (20_memory.md R70 to R84) -/

/-- The addresses of the I/O page (20_memory.md R66, R78). -/
theorem pageIndex_eq_ioPage {addr : Word} (h1 : 0xA000 ≤ addr.toNat) (h2 : addr.toNat ≤ 0xAFFF) :
    (pageIndex addr).val = ioPage := by
  rw [pageIndex_val]
  unfold ioPage
  omega

/-- Settles O19: ROM drops the write, or else the PIA does, since the address is none of its four registers. -/
theorem ioWriteDropped : Obligations.IoWriteDropped := by
  intro s addr v hlo hhi hora horb hcra hcrb
  cases hr : s.isRom addr with
  | true => exact memWrite_rom hr v
  | false => rw [memWrite_io hr (pageIndex_eq_ioPage hlo hhi), piaWrite_other hora horb hcra hcrb]

theorem bankMapper_get_zero (m : Vector (Fin 18) 16) (v : Byte) :
    (bankMapper m v).get 0 = if v.getLsbD 0 then 0 else 2 := by
  unfold bankMapper
  split <;> simp [Vector.get_eq_getElem]

theorem bankMapper_get_one (m : Vector (Fin 18) 16) (v : Byte) :
    (bankMapper m v).get 1 = if v.getLsbD 0 then 1 else 3 := by
  unfold bankMapper
  split <;> simp [Vector.get_eq_getElem]

/-- The sound latch after an ORB write: 0x20 or 0x00 by bit 0 (20_memory.md R84). -/
theorem soundLatch_eq (v : Byte) : (v &&& 0x01) <<< 5 = if v.getLsbD 0 then (0x20 : Byte) else 0x00 := by
  rw [show (0x01 : Byte) = 1#8 from rfl, BitVec.and_one_eq_setWidth_ofBool_getLsbD]
  cases v.getLsbD 0 <;> rfl

/-- The bank switch of an ORA write does not move the PIA's own page, so the shadow byte goes where it was. -/
theorem oraWrite_phys (s : State) (v : Byte) : (s.oraWrite v).phys oraAddr = s.phys oraAddr :=
  phys_bankMapper s { s.pia with ora := v } v oraAddr (by decide)

theorem oraWrite_read (s : State) (v : Byte) (k : Nat) :
    (s.oraWrite v).mem.read k =
      if k = s.phys oraAddr then v ||| (if s.pen.button then lpMask else 0x00) else s.mem.read k := by
  rw [State.oraWrite_mem, phys_bankMapper _ _ _ _ (by decide), Memory.read_write]

theorem orbWrite_read (s : State) (v : Byte) (k : Nat) :
    (s.orbWrite v).mem.read k =
      if k = s.phys orbAddr then v ||| (if s.keys.get (keyIndex v) then 0x00 else keyStatus) else s.mem.read k := by
  rw [State.orbWrite_mem, Memory.read_write]

/-- A write to ORA (20_memory.md R72 to R74), outside ROM. -/
theorem memWrite_ora {s : State} (hr : s.isRom oraAddr = false) (hc : s.pia.cra.getLsbD ddrSelBit = true) (v : Byte) :
    s.memWrite oraAddr v = s.oraWrite v := by rw [memWrite_io hr rfl, piaWrite_ora hc]

/-- A write to ORB (20_memory.md R81, R82, R84), outside ROM. -/
theorem memWrite_orb {s : State} (hr : s.isRom orbAddr = false) (hc : s.pia.crb.getLsbD ddrSelBit = true) (v : Byte) :
    s.memWrite orbAddr v = s.orbWrite v := by rw [memWrite_io hr rfl, piaWrite_orb hc]

/-- What an ORA write does, field by field. -/
theorem oraWrite_effect {s t : State} {v : Byte} (ht : t = s.oraWrite v) :
    t.pia = { s.pia with ora := v } ∧
    (t.mapper.get 0 = if v.getLsbD 0 then 0 else 2) ∧ (t.mapper.get 1 = if v.getLsbD 0 then 1 else 3) ∧
    (∀ p : Fin 16, 2 ≤ p.val → t.mapper.get p = s.mapper.get p) ∧
    t.memRead oraAddr = (v ||| if s.pen.button then 0x20 else 0x00) ∧ KeepsMemoryOutside [s.phys oraAddr] s t ∧
    (∀ line : Fin 200, t.dirty.get line = true) ∧
    t = { s with pia := t.pia, mapper := t.mapper, mem := t.mem, dirty := t.dirty } := by
  subst ht
  refine ⟨rfl, bankMapper_get_zero _ v, bankMapper_get_one _ v, bankMapper_get _ v, ?_, fun k hk => ?_, fun line => ?_,
    rfl⟩
  · unfold State.memRead
    rw [oraWrite_phys, oraWrite_read, if_pos rfl]
    rfl
  · rw [oraWrite_read, if_neg (by simpa using hk)]
  · simp [Vector.get_eq_getElem]

/-- What an ORB write does, field by field. -/
theorem orbWrite_effect {s t : State} {v : Byte} (ht : t = s.orbWrite v) :
    t.pia = { s.pia with orb := v } ∧
    t.memRead orbAddr = (v ||| if s.keys.get (v &&& 0x7E).toFin then 0x00 else 0x80) ∧
    KeepsMemoryOutside [s.phys orbAddr] s t ∧ (t.snd = if v.getLsbD 0 then 0x20 else 0x00) ∧
    t = { s with pia := t.pia, mem := t.mem, snd := t.snd } := by
  subst ht
  refine ⟨rfl, ?_, fun k hk => ?_, soundLatch_eq v, rfl⟩
  · unfold State.memRead
    rw [State.phys_congr (State.orbWrite_mapper s v), orbWrite_read, if_pos rfl]
    rfl
  · rw [orbWrite_read, if_neg (by simpa using hk)]

/-- Settles O18: outside ROM a write to the I/O page is the PIA's dispatch, and each branch of it is one of the six writes. -/
theorem piaWrites : Obligations.PiaWrites := by
  intro s v
  refine ⟨fun hr hc => ?ora, fun hr hc => ?orb, fun hr => ?cra, fun hr => ?crb, fun hr hc => ?ddra, fun hr hc => ?ddrb⟩
  case ora => exact oraWrite_effect (memWrite_ora hr hc v)
  case orb => exact orbWrite_effect (memWrite_orb hr hc v)
  case cra => exact memWrite_io hr rfl v
  case crb => exact memWrite_io hr rfl v
  case ddra => exact (memWrite_io hr rfl v).trans (piaWrite_ddra hc v)
  case ddrb => exact (memWrite_io hr rfl v).trans (piaWrite_ddrb hc v)

/-! ## Dirty lines (20_memory.md R64, R85) -/

theorem isDirty_value (s : State) (line : Fin 200) : (s.isDirty line).1 = s.dirty.get line := rfl

/-- A second read of a dirty line answers false. -/
theorem isDirty_isDirty (s : State) (line : Fin 200) : ((s.isDirty line).2.isDirty line).1 = false := by
  rw [isDirty_value, readDirty_get, if_pos rfl]

/-- Settles O20: the read clears its own line, and a plain write below the screen's end sets the line of its address. -/
theorem dirtyReadAndClear : Obligations.DirtyReadAndClear := by
  intro s line
  refine ⟨rfl, isDirty_isDirty s line, fun other ho => ?_, fun addr v hp hlow hline => ⟨?_, isDirty_isDirty _ line⟩⟩
  · rw [readDirty_get, if_neg ho]
  · rw [isDirty_value, memWrite_plain_dirty hp, markDirty_get, decide_eq_true ⟨hlow, hline.symm⟩, Bool.or_true]

/-! ## The key matrix (20_memory.md R88, R89) -/

/-- A key-scan code as an index of the matrix. -/
theorem toNat_eq_iff_ofNat_eq (c : Byte) (k : Fin 256) : c.toNat = k.val ↔ BitVec.ofNat 8 k.val = c := by
  have hk := k.isLt
  constructor
  · intro h
    apply BitVec.eq_of_toNat_eq
    rw [BitVec.toNat_ofNat]
    omega
  · rintro rfl
    rw [BitVec.toNat_ofNat]
    omega

theorem setKey_get (s : State) (c : Byte) (k : Fin 256) :
    (s.setKey c).keys.get k = (s.keys.get k || decide (BitVec.ofNat 8 k.val = c)) := by
  simp only [← toNat_eq_iff_ofNat_eq]
  by_cases h : c.toNat = k.val <;> simp [State.setKey, Vector.get_eq_getElem, h]

theorem remKey_get (s : State) (c : Byte) (k : Fin 256) :
    (s.remKey c).keys.get k = (s.keys.get k && !decide (BitVec.ofNat 8 k.val = c)) := by
  simp only [← toNat_eq_iff_ofNat_eq]
  by_cases h : c.toNat = k.val <;> simp [State.remKey, Vector.get_eq_getElem, h]

theorem setKeys_get (codes : List Byte) (s : State) (k : Fin 256) :
    (setKeys codes s).keys.get k = (s.keys.get k || decide (BitVec.ofNat 8 k.val ∈ codes)) := by
  induction codes generalizing s with
  | nil => simp [setKeys]
  | cons c rest ih =>
    unfold setKeys
    rw [ih, setKey_get, Bool.or_assoc, ← Bool.decide_or]
    simp only [List.mem_cons]

theorem remKeys_get (codes : List Byte) (s : State) (k : Fin 256) :
    (remKeys codes s).keys.get k = (s.keys.get k && !decide (BitVec.ofNat 8 k.val ∈ codes)) := by
  induction codes generalizing s with
  | nil => simp [remKeys]
  | cons c rest ih =>
    unfold remKeys
    rw [ih, remKey_get, Bool.and_assoc, ← Bool.not_or, ← Bool.decide_or]
    simp only [List.mem_cons]

/-- Clearing the lower half of the matrix keeps the entries from 128 on. -/
theorem remKeySlice_low_get (s : State) (k : Fin 256) :
    (s.remKeySlice 0 128).keys.get k = (s.keys.get k && decide (128 ≤ k.val)) := by
  by_cases h : 128 ≤ k.val
  · simp [State.remKeySlice, Vector.get_eq_getElem, h]
  · simp [State.remKeySlice, Vector.get_eq_getElem, h, Nat.lt_of_not_le h]

/-- Setting keys writes the matrix and nothing else. -/
theorem setKeys_eq (codes : List Byte) (s : State) : setKeys codes s = { s with keys := (setKeys codes s).keys } := by
  induction codes generalizing s with
  | nil => rfl
  | cons c rest ih =>
    unfold setKeys
    rw [ih]
    rfl

/-- Clearing keys writes the matrix and nothing else. -/
theorem remKeys_eq (codes : List Byte) (s : State) : remKeys codes s = { s with keys := (remKeys codes s).keys } := by
  induction codes generalizing s with
  | nil => rfl
  | cons c rest ih =>
    unfold remKeys
    rw [ih]
    rfl

theorem hostEvent_keyDown (s : State) (codes : List Byte) :
    s.hostEvent (.keyDown codes) = setKeys codes (s.remKeySlice 0 128) := rfl

theorem hostEvent_keyUp (s : State) (codes : List Byte) : s.hostEvent (.keyUp codes) = remKeys codes s := rfl

theorem hostEvent_press (s : State) (code : Byte) : s.hostEvent (.modifier code true) = s.setKey code := rfl

theorem hostEvent_release (s : State) (code : Byte) : s.hostEvent (.modifier code false) = s.remKey code := rfl

/-- A key press writes the matrix and nothing else. -/
theorem keyDown_eq (codes : List Byte) (s : State) :
    s.hostEvent (.keyDown codes) = { s with keys := (s.hostEvent (.keyDown codes)).keys } := by
  rw [hostEvent_keyDown]
  exact (setKeys_eq codes _).trans (by unfold State.remKeySlice; rfl)

/-- Settles O60: what each entry of the matrix is after the slice is cleared and the codes of the pattern are set or
cleared one by one. -/
theorem keyMatrixEvents : Obligations.KeyMatrixEvents := by
  intro s codes code k
  rw [hostEvent_keyDown, hostEvent_keyUp, hostEvent_press, hostEvent_release]
  refine ⟨?_, remKeys_get codes s k, setKey_get s code k, remKey_get s code k, fun e he => ?_⟩
  · rw [setKeys_get, remKeySlice_low_get, Bool.or_comm]
  · rcases he with rfl | rfl | rfl | rfl
    · exact keyDown_eq codes s
    · exact remKeys_eq codes s
    · rfl
    · rfl

end Sys2Proof.Machine
end

section
/-! PROOFS. What every instruction keeps: the ROM, the host's part, the mapper's entries from 2 on, and, but for PERIPH, the
tape codec and the log. -/

namespace Sys2Proof.Machine

/-! ## What one write through the controller does to the mapper and to the sound latch -/

/-- A PIA write leaves the mapper alone or switches the bank (20_memory.md R72). -/
theorem piaWrite_mapper_cases (s : State) (addr : Word) (v : Byte) :
    (s.piaWrite addr v).mapper = s.mapper ∨ (s.piaWrite addr v).mapper = bankMapper s.mapper v := by
  unfold State.piaWrite
  split
  · split
    · exact .inr rfl
    · exact .inl rfl
  · split_ifs <;> exact .inl rfl

/-- A PIA write leaves the sound latch alone or sets it by bit 0 of the value (20_memory.md R84). -/
theorem piaWrite_snd_cases (s : State) (addr : Word) (v : Byte) :
    (s.piaWrite addr v).snd = s.snd ∨ (s.piaWrite addr v).snd = if v.getLsbD 0 then 0x20 else 0x00 := by
  unfold State.piaWrite
  split
  · split <;> exact .inl rfl
  · split
    · split
      · exact .inr (soundLatch_eq v)
      · exact .inl rfl
    · split_ifs <;> exact .inl rfl

theorem memWrite_mapper_cases (s : State) (addr : Word) (v : Byte) :
    (s.memWrite addr v).mapper = s.mapper ∨ (s.memWrite addr v).mapper = bankMapper s.mapper v := by
  rcases memWrite_cases s addr v with ⟨_, e⟩ | ⟨_, e⟩ | ⟨_, _, e⟩ <;> rw [e]
  · exact .inl rfl
  · exact .inl rfl
  · exact piaWrite_mapper_cases s addr v

theorem memWrite_snd_cases (s : State) (addr : Word) (v : Byte) :
    (s.memWrite addr v).snd = s.snd ∨ (s.memWrite addr v).snd = if v.getLsbD 0 then 0x20 else 0x00 := by
  rcases memWrite_cases s addr v with ⟨_, e⟩ | ⟨_, e⟩ | ⟨_, _, e⟩ <;> rw [e]
  · exact .inl rfl
  · exact .inl rfl
  · exact piaWrite_snd_cases s addr v

/-- No write through the controller changes an entry of the mapper from 2 on. -/
theorem memWrite_mapper_get (s : State) (addr : Word) (v : Byte) {p : Fin 16} (hp : 2 ≤ p.val) :
    (s.memWrite addr v).mapper.get p = s.mapper.get p := by
  rcases memWrite_mapper_cases s addr v with e | e
  · rw [e]
  · rw [e, bankMapper_get _ _ _ hp]

/-! ## What the moves of an instruction keep -/

theorem SameHost.refl (s : State) : SameHost s s := ⟨rfl, rfl, rfl, rfl, rfl, rfl, rfl⟩

theorem SameHost.trans {s t u : State} (h : SameHost s t) (k : SameHost t u) : SameHost s u where
  keys := k.keys.trans h.keys
  pen := k.pen.trans h.pen
  irqPrev := k.irqPrev.trans h.irqPrev
  running := k.running.trans h.running
  sched := k.sched.trans h.sched
  inputs := k.inputs.trans h.inputs
  replies := k.replies.trans h.replies

theorem memWrite_sameHost (s : State) (addr : Word) (v : Byte) : SameHost s (s.memWrite addr v) where
  keys := memWrite_keys s addr v
  pen := memWrite_pen s addr v
  irqPrev := memWrite_irqPrev s addr v
  running := memWrite_running s addr v
  sched := memWrite_sched s addr v
  inputs := memWrite_inputs s addr v
  replies := memWrite_replies s addr v

namespace CpuReach

variable {s t : State}

theorem sameHost (h : CpuReach s t) : SameHost s t :=
  h.keeps (SameHost s) (fun _ _ _ _ hu => hu.trans ⟨rfl, rfl, rfl, rfl, rfl, rfl, rfl⟩)
    (fun u a v hu => hu.trans (memWrite_sameHost u a v)) (.refl s)

theorem mapper_get (h : CpuReach s t) {p : Fin 16} (hp : 2 ≤ p.val) : t.mapper.get p = s.mapper.get p :=
  h.keeps (fun u => u.mapper.get p = s.mapper.get p) (fun _ _ _ _ hu => hu)
    (fun u a v hu => (memWrite_mapper_get u a v hp).trans hu) rfl

theorem tape_eq (h : CpuReach s t) : t.tape = s.tape :=
  h.keeps (fun u => u.tape = s.tape) (fun _ _ _ _ hu => hu) (fun u a v hu => (memWrite_tape u a v).trans hu) rfl

theorem log_eq (h : CpuReach s t) : t.log = s.log :=
  h.keeps (fun u => u.log = s.log) (fun _ _ _ _ hu => hu) (fun u a v hu => (memWrite_log u a v).trans hu) rfl

theorem rom_read (h : CpuReach s t) {k : Nat} (hk : 14 * 4096 ≤ k) : t.mem.read k = s.mem.read k :=
  h.keeps (fun u => u.mem.read k = s.mem.read k) (fun _ _ _ _ hu => hu)
    (fun u a v hu => (memWrite_keepsRom u a v hk).trans hu) rfl

end CpuReach

/-! ## Every instruction -/

/-- What an instruction answers: PERIPH the state after its trap, every other one a state that it reaches by the moves of a
CPU instruction. -/
theorem exec_next_cases {i : Instr} {s t : State} (h : exec i s = .next t) :
    (i ≠ .periph ∧ CpuReach s t) ∨ (i = .periph ∧ t = sendToPeriph machineTraps cycPeriph s) := by
  by_cases hi : i = .periph
  · subst hi
    exact .inr ⟨rfl, (Host.Outcome.next.inj h).symm⟩
  · obtain ⟨n, u, _, hu, hr⟩ := exec_reach i hi s
    have e : u = t := Host.Outcome.next.inj (hu.symm.trans h)
    exact .inl ⟨hi, e ▸ (CpuReach.start.charge n).trans hr⟩

theorem sendToPeriph_sameHost (p : Traps) (n : Nat) (s : State) : SameHost s (sendToPeriph p n s) := by
  unfold sendToPeriph
  rw [periph_eq]
  exact ⟨rfl, rfl, rfl, rfl, rfl, rfl, rfl⟩

theorem sendToPeriph_mapper (p : Traps) (n : Nat) (s : State) : (sendToPeriph p n s).mapper = s.mapper := by
  unfold sendToPeriph
  rw [periph_eq]
  rfl

theorem sendToPeriph_snd (p : Traps) (n : Nat) (s : State) : (sendToPeriph p n s).snd = s.snd := by
  unfold sendToPeriph
  rw [periph_eq]
  rfl

theorem exec_sameHost {i : Instr} {s t : State} (h : exec i s = .next t) : SameHost s t := by
  rcases exec_next_cases h with ⟨_, hr⟩ | ⟨_, rfl⟩
  · exact hr.sameHost
  · exact sendToPeriph_sameHost _ _ s

theorem exec_mapper_get {i : Instr} {s t : State} (h : exec i s = .next t) {p : Fin 16} (hp : 2 ≤ p.val) :
    t.mapper.get p = s.mapper.get p := by
  rcases exec_next_cases h with ⟨_, hr⟩ | ⟨_, rfl⟩
  · exact hr.mapper_get hp
  · rw [sendToPeriph_mapper]

/-- An instruction that is not PERIPH makes only the moves of a CPU instruction. -/
theorem exec_cpuReach {i : Instr} {s t : State} (hi : i ≠ .periph) (h : exec i s = .next t) : CpuReach s t := by
  rcases exec_next_cases h with ⟨_, hr⟩ | ⟨e, _⟩
  · exact hr
  · exact absurd e hi

/-- Settles O21: the only stores among the moves of a CPU instruction are writes through the controller, and each of them
keeps the ROM. -/
theorem cpuInstructionsKeepRom : Obligations.CpuInstructionsKeepRom :=
  fun _ _ _ hi h _ hk => (exec_cpuReach hi h).rom_read hk

/-- Settles O22: no move of a CPU instruction and no trap reaches the host's part or the fixed entries of the mapper. -/
theorem instructionsKeepHostAndMapper : Obligations.InstructionsKeepHostAndMapper :=
  fun _ _ _ h => ⟨exec_sameHost h, fun _ hp => exec_mapper_get h hp,
    fun hi => ⟨(exec_cpuReach hi h).tape_eq, (exec_cpuReach hi h).log_eq⟩⟩

end Sys2Proof.Machine
end

section
/-! PROOFS. The memory reset: what the image and the patches leave in each byte (70_reset_and_hazards.md R501, R503). -/

namespace Sys2Proof.Machine

/-! ## The image -/

/-- Bytes below the image's start are as before. -/
theorem loadRomFrom_read_below (bytes : List Byte) (k : Nat) (m : Memory) {j : Nat} (h : j < k) :
    (loadRomFrom k bytes m).read j = m.read j := by
  induction bytes generalizing k m with
  | nil => rfl
  | cons b rest ih =>
    unfold loadRomFrom
    rw [ih (k + 1) _ (by omega), Memory.read_write, if_neg (by omega)]

/-- Byte `i` of the image is at the image's start plus `i`. -/
theorem loadRomFrom_read_byte (bytes : List Byte) (k : Nat) (m : Memory) {i : Nat} {v : Byte} (h : bytes[i]? = some v) :
    (loadRomFrom k bytes m).read (k + i) = v := by
  induction bytes generalizing k m i with
  | nil => simp at h
  | cons b rest ih =>
    unfold loadRomFrom
    cases i with
    | zero =>
      have hb : b = v := by simpa using h
      rw [loadRomFrom_read_below _ _ _ (by omega), Memory.read_write, if_pos (Nat.add_zero k), hb]
    | succ i =>
      have e : k + (i + 1) = k + 1 + i := by omega
      rw [e]
      exact ih (k + 1) _ (by simpa using h)

/-! ## The patches -/

theorem applyPatches_append (ps qs : List (Word × Byte)) (s : State) :
    applyPatches (ps ++ qs) s = applyPatches qs (applyPatches ps s) := by
  induction ps generalizing s with
  | nil => rfl
  | cons p rest ih => exact ih (s.memSet p.1 p.2)

theorem applyPatches_mapper (ps : List (Word × Byte)) (s : State) : (applyPatches ps s).mapper = s.mapper := by
  rw [applyPatches_eq]

/-- A byte that no patch reaches is as before. -/
theorem applyPatches_read_other (ps : List (Word × Byte)) (s : State) {k : Nat} (h : ∀ p ∈ ps, s.phys p.1 ≠ k) :
    (applyPatches ps s).mem.read k = s.mem.read k := by
  induction ps generalizing s with
  | nil => rfl
  | cons p rest ih =>
    have hp : k ≠ s.phys p.1 := (h p List.mem_cons_self).symm
    show (applyPatches rest (s.memSet p.1 p.2)).mem.read k = _
    rw [ih (s.memSet p.1 p.2) (fun q hq => h q (List.mem_cons_of_mem p hq)), memSet_read, if_neg hp]

/-- With a legal mapper, an address that no patch names reads as before. -/
theorem applyPatches_memRead_other (ps : List (Word × Byte)) {s : State} (hm : mapperOk s.mapper) {a : Word}
    (h : ∀ p ∈ ps, p.1 ≠ a) : (applyPatches ps s).memRead a = s.memRead a := by
  unfold State.memRead
  rw [State.phys_congr (applyPatches_mapper ps s)]
  exact applyPatches_read_other ps s (fun p hp e => h p hp (mapperOk_phys_injective hm e))

/-- With a legal mapper, the last patch of an address is what it reads. -/
theorem applyPatches_memRead_last (before after : List (Word × Byte)) {s : State} (hm : mapperOk s.mapper) {a : Word}
    {v : Byte} (h : ∀ p ∈ after, p.1 ≠ a) : (applyPatches (before ++ (a, v) :: after) s).memRead a = v := by
  rw [applyPatches_append]
  have hm' : mapperOk ((applyPatches before s).memSet a v).mapper := by
    rw [State.memSet_mapper, applyPatches_mapper]
    exact hm
  show (applyPatches after ((applyPatches before s).memSet a v)).memRead a = v
  rw [applyPatches_memRead_other after hm' h]
  exact (memSet_read _ a v _).trans (if_pos rfl)

/-! ## The memory reset -/

/-- The memory reset is the one without patches, and then the patches. -/
theorem memReset_eq_applyPatches (s : State) (rom : List Byte) (ps : List (Word × Byte)) :
    s.memReset rom ps = applyPatches ps (s.memReset rom []) := rfl

theorem memReset_mapper (s : State) (rom : List Byte) (ps : List (Word × Byte)) :
    (s.memReset rom ps).mapper = initMapper := by
  rw [memReset_eq_applyPatches, applyPatches_mapper]
  rfl

theorem memReset_mapperOk (s : State) (rom : List Byte) (ps : List (Word × Byte)) :
    mapperOk (s.memReset rom ps).mapper := by
  rw [memReset_mapper]
  exact initMapper_ok

/-- CPU address 0xC000 + `i` reaches byte `i` of the ROM pages (20_memory.md R63). -/
theorem mapperOk_phys_rom {s : State} (h : mapperOk s.mapper) {i : Nat} (hi : i < 16384) :
    s.phys (BitVec.ofNat 16 (0xC000 + i)) = romFirstPage * 4096 + i := by
  have hn : (BitVec.ofNat 16 (0xC000 + i)).toNat = 0xC000 + i := by
    rw [BitVec.toNat_ofNat]
    omega
  unfold State.phys romFirstPage
  rw [mapperOk_physPage h (by omega), pageOffset_eq, hn]
  omega

/-- Before the patches, CPU address 0xC000 + `i` reads byte `i` of the image. -/
theorem memReset_memRead_image (s : State) {rom : List Byte} (hl : rom.length = 16384) {i : Nat} {v : Byte}
    (h : rom[i]? = some v) : (s.memReset rom []).memRead (BitVec.ofNat 16 (0xC000 + i)) = v := by
  have hi : i < rom.length := (List.getElem?_eq_some_iff.mp h).1
  unfold State.memRead
  rw [mapperOk_phys_rom (memReset_mapperOk s rom []) (by omega)]
  exact loadRomFrom_read_byte rom _ _ h

/-- Before the patches, a byte below the ROM pages reads 0. -/
theorem memReset_read_blank (s : State) (rom : List Byte) {k : Nat} (hk : k < romFirstPage * 4096) :
    (s.memReset rom []).mem.read k = 0x00 := loadRomFrom_read_below rom _ _ hk

/-- Settles O59: the image goes into a zeroed memory, the mapper is then a legal one, so that two addresses reach two
bytes, and the patches are stored in order. -/
theorem romLoading : Obligations.RomLoading := by
  intro s rom patches hl
  have hm := memReset_mapperOk s rom []
  refine ⟨memReset_mapper s rom patches, memReset_wf s hl patches, fun i v hv hp => ?_, fun before after a v e ha => ?_,
    fun k hk hp => ?_⟩
  · rw [memReset_eq_applyPatches, applyPatches_memRead_other patches hm hp, memReset_memRead_image s hl hv]
  · rw [memReset_eq_applyPatches, e, applyPatches_memRead_last before after hm ha]
  · have hp' : ∀ p ∈ patches, (s.memReset rom []).phys p.1 ≠ k := fun p hpm => by
      rw [← State.phys_congr (applyPatches_mapper patches _)]
      exact hp p hpm
    rw [memReset_eq_applyPatches, applyPatches_read_other patches _ hp', memReset_read_blank s rom hk]

end Sys2Proof.Machine
end

section
/-! PROOFS. Every step keeps the invariant. The invariant is cut in two: what it says of memory and the devices, which every
operation of the machine keeps, and what it says of the scheduler, which each kind of step establishes. -/

namespace Sys2Proof.Machine

/-! ## The two parts of the invariant -/

/-- What `Inv` says of memory and the devices, the scheduler left out. -/
structure DevicesOk (s : State) : Prop where
  memory : s.mem.wf = true
  mapper : mapperOk s.mapper
  sound : s.snd = 0x00 ∨ s.snd = 0x20
  tape : tapeOk s.tape

theorem inv_iff (s : State) : Inv s ↔ DevicesOk s ∧ schedOk s :=
  ⟨fun h => ⟨⟨h.memory, h.mapper, h.sound, h.tape⟩, h.sched⟩, fun ⟨d, h⟩ => ⟨d.memory, d.mapper, d.sound, d.tape, h⟩⟩

theorem Inv.devices {s : State} (h : Inv s) : DevicesOk s := ((inv_iff s).mp h).1

theorem schedOk_iteration {s : State} (h : s.sched = .iteration) : schedOk s := by
  unfold schedOk
  rw [h]
  trivial

theorem schedOk_burst_iff {s : State} {b : Burst} (h : s.sched = .burst b) :
    schedOk s ↔ s.running = true ∧ s.irqPrev = decide (b = .irqWindow) := by
  unfold schedOk
  rw [h]
  cases b <;> exact Iff.rfl

/-- The scheduler's part of the invariant reads only fields of the host's part. -/
theorem SameHost.schedOk {s t : State} (h : SameHost s t) (hs : schedOk s) : schedOk t := by
  unfold Machine.schedOk at *
  rw [h.sched, h.running, h.irqPrev]
  exact hs

/-! ## The tape codec (49_periph_tape.md R432 to R438) -/

theorem tapeOk_setLed {t : TapeCodec} (h : tapeOk t) (led : Bool) : tapeOk { t with led := led } := h

/-- A shift byte and a count of at most eight bits. -/
theorem tapeOk_setBits {t : TapeCodec} (h : tapeOk t) (tb : Byte) {tc : Nat} (htc : tc ≤ 8) :
    tapeOk { t with tb := tb, tc := tc } := by
  obtain ⟨_, hcur, hout⟩ := h
  exact ⟨htc, hcur, hout⟩

/-- A new tape, or the old one again, from its first byte. -/
theorem tapeOk_rewound {t : TapeCodec} (h : tapeOk t) (file : Option (List Byte)) :
    tapeOk { t with tape := file, cursor := 0, tc := 0 } := by
  obtain ⟨_, _, hout⟩ := h
  exact ⟨Nat.zero_le 8, Nat.zero_le _, hout⟩

theorem tapeOk_tapeRead {s : State} (h : tapeOk s.tape) : tapeOk s.tapeRead.2.tape := by
  obtain ⟨htc, hcur, hout⟩ := h
  unfold State.tapeRead
  split
  · rename_i v hv
    have hlt : s.tape.cursor < (s.tape.tape.getD []).length := (List.getElem?_eq_some_iff.mp hv).1
    exact ⟨htc, hlt, hout⟩
  · exact ⟨htc, hcur, hout⟩

theorem tapeOk_refillTapeByte {s : State} (h : tapeOk s.tape) : tapeOk s.refillTapeByte.tape := by
  unfold State.refillTapeByte
  split
  · exact tapeOk_setBits (tapeOk_tapeRead h) _ (Nat.le_refl 8)
  · exact h

theorem tapeOk_tapeReadBit {s : State} (h : tapeOk s.tape) (a : Word) : tapeOk (s.tapeReadBit a).tape := by
  have hr := tapeOk_refillTapeByte h
  have htc : s.refillTapeByte.tape.tc - 1 ≤ 8 := (Nat.sub_le _ 1).trans hr.1
  exact tapeOk_setLed (tapeOk_setBits hr (s.refillTapeByte.tape.tb <<< 1) htc) true

/-- The write-byte trap: nothing after a failed creation, otherwise a byte more in the output, or a creation that fails and
leaves no output. -/
theorem tapeOk_tapeWriteByte {s : State} (h : tapeOk s.tape) : tapeOk s.tapeWriteByte.tape := by
  cases hf : s.tape.outFailed with
  | true =>
    rw [tapeWriteByte_failed hf]
    exact h
  | false =>
    obtain ⟨htc, hcur, _⟩ := h
    have written_ok : ∀ bytes : List Byte, tapeOk { s.tape with out := some bytes } := fun bytes =>
      ⟨htc, hcur, fun e => absurd (hf.symm.trans e) Bool.false_ne_true⟩
    cases ho : s.tape.out with
    | some bytes =>
      rw [tapeWriteByte_open hf ho]
      exact written_ok _
    | none =>
      rw [tapeWriteByte_create hf ho]
      split
      · exact written_ok _
      · exact ⟨htc, hcur, fun _ => ho⟩

/-- A trap keeps the codec legal: only the two tape traps write it. -/
theorem tapeOk_periph {s : State} (h : tapeOk s.tape) (p : Traps) (t : Word) : tapeOk (s.periph p t).tape := by
  unfold State.periph
  split
  · exact tapeOk_tapeReadBit h _
  · split
    · exact tapeOk_tapeWriteByte h
    · split_ifs <;> exact h

/-! ## Memory and the devices under each operation -/

/-- A bank switch of a legal mapper gives a legal mapper (20_memory.md R72). -/
theorem mapperOk_bankMapper {m : Vector (Fin 18) 16} (h : mapperOk m) (v : Byte) : mapperOk (bankMapper m v) := by
  refine ⟨?_, fun i hi => (bankMapper_get m v i hi).trans (h.2 i hi)⟩
  rw [bankMapper_get_zero, bankMapper_get_one]
  cases v.getLsbD 0
  · exact .inr ⟨rfl, rfl⟩
  · exact .inl ⟨rfl, rfl⟩

namespace DevicesOk

variable {s t : State}

/-- A state with the same memory and devices, whatever its registers and its scheduler. -/
theorem congr (h : DevicesOk s) (hmem : t.mem = s.mem) (hmap : t.mapper = s.mapper) (hsnd : t.snd = s.snd)
    (htape : t.tape = s.tape) : DevicesOk t where
  memory := hmem ▸ h.memory
  mapper := hmap ▸ h.mapper
  sound := hsnd ▸ h.sound
  tape := htape ▸ h.tape

theorem memSet (h : DevicesOk s) (a : Word) (v : Byte) : DevicesOk (s.memSet a v) :=
  ⟨memSet_wf h.memory a v, h.mapper, h.sound, h.tape⟩

theorem setTape (h : DevicesOk s) {c : TapeCodec} (hc : tapeOk c) : DevicesOk (s.setTape c) :=
  ⟨h.memory, h.mapper, h.sound, hc⟩

theorem memWrite (h : DevicesOk s) (a : Word) (v : Byte) : DevicesOk (s.memWrite a v) where
  memory := memWrite_wf h.memory a v
  mapper := by
    rcases memWrite_mapper_cases s a v with e | e <;> rw [e]
    · exact h.mapper
    · exact mapperOk_bankMapper h.mapper v
  sound := by
    rcases memWrite_snd_cases s a v with e | e <;> rw [e]
    · exact h.sound
    · split
      · exact .inr rfl
      · exact .inl rfl
  tape := by
    rw [memWrite_tape]
    exact h.tape

theorem cpuReach (h : DevicesOk s) (hr : CpuReach s t) : DevicesOk t :=
  hr.keeps DevicesOk (fun _ _ _ _ hu => hu.congr rfl rfl rfl rfl) (fun _ a v hu => hu.memWrite a v) h

theorem sendToPeriph (h : DevicesOk s) (p : Traps) (n : Nat) : DevicesOk (sendToPeriph p n s) where
  memory := periph_wf (s := s.charge n) h.memory p _
  mapper := by
    rw [sendToPeriph_mapper]
    exact h.mapper
  sound := by
    rw [sendToPeriph_snd]
    exact h.sound
  tape := tapeOk_periph (s := s.charge n) h.tape p _

theorem exec {i : Instr} (h : DevicesOk s) (he : exec i s = .next t) : DevicesOk t := by
  rcases exec_next_cases he with ⟨_, hr⟩ | ⟨_, rfl⟩
  · exact h.cpuReach hr
  · exact h.sendToPeriph _ _

/-! ## The host's events (60_exceptions.md R477) -/

theorem cpuReset (h : DevicesOk s) : DevicesOk s.cpuReset := h.congr rfl rfl rfl rfl

theorem hardReset (h : DevicesOk s) (range : List Word) : DevicesOk (s.hardReset range) := by
  refine cpuReset ⟨zeroRange_wf range h.memory, ?_, ?_, ?_⟩ <;> rw [zeroRange_eq]
  · exact h.mapper
  · exact h.sound
  · exact h.tape

theorem loadTape (h : DevicesOk s) (max : Nat) (file : Option (List Byte)) : DevicesOk (s.loadTape max file).1 := by
  unfold State.loadTape
  split
  · exact h
  · exact h.setTape (tapeOk_rewound h.tape file)

theorem rewindTape (h : DevicesOk s) : DevicesOk s.rewindTape := by
  unfold State.rewindTape
  split
  · exact h.setTape (tapeOk_rewound h.tape s.tape.tape)
  · exact h

theorem reply (h : DevicesOk s) (r : HostReply) : DevicesOk (s.reply r) := h.congr rfl rfl rfl rfl

theorem hostEvent (h : DevicesOk s) (e : HostEvent) : DevicesOk (s.hostEvent e) := by
  cases e with
  | keyDown codes =>
    rw [keyDown_eq]
    exact h.congr rfl rfl rfl rfl
  | keyUp codes =>
    rw [hostEvent_keyUp, remKeys_eq]
    exact h.congr rfl rfl rfl rfl
  | modifier code pressed => cases pressed <;> exact h.congr rfl rfl rfl rfl
  | lightPen button x y => exact h.congr rfl rfl rfl rfl
  | openTape file => exact (h.loadTape tapeMax file).reply _
  | rewindTape => exact h.rewindTape
  | start => exact h.congr rfl rfl rfl rfl
  | stop => exact h.congr rfl rfl rfl rfl
  | softReset => exact h.cpuReset
  | hardReset => exact h.hardReset hardResetRange
  | readDirty line => exact h.congr rfl rfl rfl rfl
  | readLed => exact (h.setTape (tapeOk_setLed h.tape false)).reply _

theorem hostEvents (events : List HostEvent) {s : State} (h : DevicesOk s) : DevicesOk (hostEvents events s) := by
  induction events generalizing s with
  | nil => exact h
  | cons e rest ih => exact ih (h.hostEvent e)

theorem drainEvents (h : DevicesOk s) : DevicesOk s.drainEvents := by
  cases hi : s.inputs with
  | nil =>
    rw [drainEvents_none hi]
    exact h
  | cons events later =>
    rw [drainEvents_some hi]
    exact hostEvents events (h.congr rfl rfl rfl rfl)

/-! ## The field (60_exceptions.md R470 to R473) -/

theorem setIrqFlag (h : DevicesOk s) (flag : Bool) : DevicesOk (s.setIrqFlag flag) :=
  ⟨Memory.wf_write h.memory (s.phys_lt crbAddr) _, h.mapper, h.sound, h.tape⟩

theorem irqGate (h : DevicesOk s) : DevicesOk s.irqGate := by
  unfold State.irqGate
  split
  · exact h
  · exact h.cpuReach CpuReach.start.irqEntry

end DevicesOk

/-! ## The scheduler under each kind of step -/

/-- No host event moves the scheduler (60_exceptions.md R476, R477). -/
theorem hostEvent_sched (s : State) (e : HostEvent) : (s.hostEvent e).sched = s.sched := by
  cases e with
  | keyDown codes => rw [keyDown_eq]
  | keyUp codes => rw [hostEvent_keyUp, remKeys_eq]
  | modifier code pressed => cases pressed <;> rfl
  | openTape file =>
    show (s.loadTape tapeMax file).1.sched = s.sched
    unfold State.loadTape
    split <;> rfl
  | rewindTape =>
    show s.rewindTape.sched = s.sched
    unfold State.rewindTape
    split <;> rfl
  | hardReset =>
    show (zeroRange hardResetRange s).sched = s.sched
    rw [zeroRange_eq]
  | _ => rfl

theorem hostEvents_sched (events : List HostEvent) (s : State) : (hostEvents events s).sched = s.sched := by
  induction events generalizing s with
  | nil => rfl
  | cons e rest ih => exact (ih (s.hostEvent e)).trans (hostEvent_sched s e)

theorem drainEvents_sched (s : State) : s.drainEvents.sched = s.sched := by
  cases hi : s.inputs with
  | nil => rw [drainEvents_none hi]
  | cons events later =>
    rw [drainEvents_some hi]
    exact hostEvents_sched events _

/-- The gate of the IRQ makes at most the moves of an interrupt entry. -/
theorem irqGate_sameHost (s : State) : SameHost s s.irqGate := by
  unfold State.irqGate
  split
  · exact .refl s
  · exact CpuReach.start.irqEntry.sameHost

/-! ## The invariant under each kind of step -/

/-- The start of a field: its first burst runs with `irq_prev` cleared (60_exceptions.md R470). -/
theorem beginField_inv {s : State} (h : DevicesOk s) (hr : s.running = true) : Inv s.beginField := by
  have hd := h.memSet vsigAddr 0x00
  cases hi : s.irqPrev with
  | true =>
    rw [beginField_afterIrq hi]
    exact (inv_iff _).mpr ⟨hd.congr rfl rfl rfl rfl, hr, rfl⟩
  | false =>
    rw [beginField_top hi]
    exact (inv_iff _).mpr ⟨hd.congr rfl rfl rfl rfl, hr, hi⟩

theorem iterationTop_inv {s : State} (h : DevicesOk s) (hs : s.sched = .iteration) : Inv s.iterationTop := by
  have hd := h.drainEvents
  cases hr : s.drainEvents.running with
  | true =>
    rw [iterationTop_running hr]
    exact beginField_inv hd hr
  | false =>
    rw [iterationTop_stopped hr]
    exact (inv_iff _).mpr ⟨hd, schedOk_iteration ((drainEvents_sched s).trans hs)⟩

/-- The IRQ point: either the field is over, or an IRQ window begins with `irq_prev` set (60_exceptions.md R470, R472). -/
theorem irqPoint_inv {s : State} (h : DevicesOk s) (hr : s.running = true) : Inv s.irqPoint := by
  cases hc : s.pia.crb.getLsbD irqEnableBit with
  | false =>
    rw [irqPoint_disabled hc]
    exact (inv_iff _).mpr ⟨h.congr rfl rfl rfl rfl, schedOk_iteration rfl⟩
  | true =>
    rw [irqPoint_enabled hc]
    have hp : DevicesOk { s with irqPrev := true } := h.congr rfl rfl rfl rfl
    have hg := irqGate_sameHost (({ s with irqPrev := true } : State).setIrqFlag true)
    exact (inv_iff _).mpr ⟨(hp.setIrqFlag true).irqGate.congr rfl rfl rfl rfl, hg.running.trans hr, hg.irqPrev⟩

/-- What follows a burst: the next burst of the field, the IRQ point, or the end of the field (60_exceptions.md R470). -/
theorem afterBurst_inv {s : State} {b : Burst} (h : DevicesOk s) (hr : s.running = true)
    (hi : s.irqPrev = decide (b = .irqWindow)) : Inv (s.afterBurst b) := by
  cases b with
  | top => exact (inv_iff _).mpr ⟨(h.memSet vsigAddr vsigMask).congr rfl rfl rfl rfl, hr, hi⟩
  | topAfterIrq => exact (inv_iff _).mpr ⟨(h.memSet vsigAddr vsigMask).congr rfl rfl rfl rfl, hr, hi⟩
  | window => exact (inv_iff _).mpr ⟨(h.memSet vsigAddr 0x00).congr rfl rfl rfl rfl, hr, hi⟩
  | bottom => exact irqPoint_inv h hr
  | irqWindow => exact (inv_iff _).mpr ⟨(h.setIrqFlag false).congr rfl rfl rfl rfl, schedOk_iteration rfl⟩

theorem endBurst_eq (s : State) (b : Burst) : s.endBurst b = (s.subtractBudget b).afterBurst b := rfl

theorem subtractBudget_sameHost (s : State) (b : Burst) : SameHost s (s.subtractBudget b) :=
  ⟨rfl, rfl, rfl, rfl, rfl, rfl, rfl⟩

theorem endBurst_inv {s : State} {b : Burst} (h : Inv s) (hb : s.sched = .burst b) : Inv (s.endBurst b) := by
  have hd : DevicesOk (s.subtractBudget b) := h.devices.congr rfl rfl rfl rfl
  have hh := subtractBudget_sameHost s b
  obtain ⟨hr, hi⟩ := (schedOk_burst_iff hb).mp h.sched
  rw [endBurst_eq]
  exact afterBurst_inv hd (hh.running.trans hr) (hh.irqPrev.trans hi)

theorem exec_inv {i : Instr} {s t : State} (h : Inv s) (he : exec i s = .next t) : Inv t :=
  (inv_iff t).mpr ⟨h.devices.exec he, (exec_sameHost he).schedOk h.sched⟩

theorem stepInstr_inv {s t : State} (h : Inv s) (ht : stepInstr s = .next t) : Inv t := by
  cases hd : decode s.fetchBytes with
  | instr i n =>
    rw [stepInstr_instr hd] at ht
    have hp : Inv (s.advancePc n) := ⟨h.memory, h.mapper, h.sound, h.tape, h.sched⟩
    exact exec_inv hp ht
  | unassigned op =>
    rw [stepInstr_unassigned hd] at ht
    obtain rfl := Host.Outcome.next.inj ht
    exact ⟨h.memory, h.mapper, h.sound, h.tape, h.sched⟩
  | truncated =>
    unfold stepInstr at ht
    rw [hd] at ht
    cases ht

/-- Settles O8, by the three kinds of step: the top of an iteration, an instruction inside a burst, the end of a burst. -/
theorem stepKeepsInv : Obligations.StepKeepsInv := by
  intro s t h ht
  cases hs : s.sched with
  | iteration =>
    rw [step_iteration hs] at ht
    obtain rfl := Host.Outcome.next.inj ht
    exact iterationTop_inv h.devices hs
  | burst b =>
    rcases Nat.lt_or_ge s.cyc (burstBudget b) with hc | hc
    · rw [step_burst hs hc] at ht
      exact stepInstr_inv h ht
    · rw [step_endBurst hs hc] at ht
      obtain rfl := Host.Outcome.next.inj ht
      exact endBurst_inv h hs

end Sys2Proof.Machine
end

section
/-! PROOFS. Readers and what they read: an operand of one byte, of a word, and an indexed operand with its post-byte
(40_addressing.md R155 to R166). -/

namespace Sys2Proof

open Machine

/-! ## Readers -/

/-- `dec` reads an item exactly where the bytes begin with its encoding, and says how long that is: the items are those
that `build` makes from the admitted arguments. -/
def Reads {α β : Type} (dec : List Byte → Option (β × Nat)) (ok : α → Bool) (build : α → β) (enc : α → List Byte) :
    Prop :=
  ∀ bytes b n, dec bytes = some (b, n) ↔ ∃ a, ok a = true ∧ build a = b ∧ enc a <+: bytes ∧ n = (enc a).length

/-- The two bytes of a word, high byte first (00_scope.md R6). -/
def wordBytes (w : Word) : List Byte := [hiByte w, loByte w]

theorem wordBytes_length (w : Word) : (wordBytes w).length = 2 := rfl

theorem wordBytes_isPrefix_iff (w : Word) (h l : Byte) (t : List Byte) :
    wordBytes w <+: h :: l :: t ↔ w = joinBytes h l := by
  simp only [wordBytes, List.cons_prefix_cons, List.nil_prefix, and_true]
  constructor
  · rintro ⟨rfl, rfl⟩
    exact (joinBytes_hi_lo w).symm
  · rintro rfl
    exact ⟨hiByte_joinBytes h l, loByte_joinBytes h l⟩

section Reads

variable {α β γ : Type} {dec : List Byte → Option (β × Nat)}

/-- A reader of no bytes. -/
theorem reads_nothing {b : β} (h : ∀ l, dec l = some (b, 0)) :
    Reads dec (fun _ : Unit => true) (fun _ => b) (fun _ => []) := by
  intro bytes c n
  rw [h]
  simp [eq_comm]

/-- A reader of one byte. -/
theorem reads_byte {f : Byte → β} (hnil : dec [] = none) (hcons : ∀ b t, dec (b :: t) = some (f b, 1)) :
    Reads dec (fun _ => true) f (fun b => [b]) := by
  intro bytes c n
  cases bytes with
  | nil => simp [hnil]
  | cons b t => simp [hcons, eq_comm]

/-- A reader of a word, high byte first. -/
theorem reads_word {f : Word → β} (hnil : dec [] = none) (hone : ∀ b, dec [b] = none)
    (hcons : ∀ h l t, dec (h :: l :: t) = some (f (joinBytes h l), 2)) :
    Reads dec (fun _ => true) f wordBytes := by
  intro bytes c n
  match bytes with
  | [] => simp [hnil, wordBytes]
  | [b] => simp [hone, wordBytes]
  | h :: l :: t =>
    simp only [hcons, wordBytes_isPrefix_iff, Option.some.injEq, Prod.mk.injEq, wordBytes_length]
    simp [eq_comm]

/-- A reader whose item is wrapped in a constructor. -/
theorem Reads.map {ok : α → Bool} {build : α → β} {enc : α → List Byte} (h : Reads dec ok build enc) (g : β → γ) :
    Reads (fun l => (dec l).map (fun p => (g p.1, p.2))) ok (fun a => g (build a)) enc := by
  intro bytes c n
  simp only [Option.map_eq_some_iff, Prod.exists, Prod.mk.injEq]
  constructor
  · rintro ⟨b, m, hd, rfl, rfl⟩
    obtain ⟨a, ha, rfl, hp, hn⟩ := (h _ _ _).mp hd
    exact ⟨a, ha, rfl, hp, hn⟩
  · rintro ⟨a, ha, rfl, hp, hn⟩
    exact ⟨build a, n, (h _ _ _).mpr ⟨a, ha, rfl, hp, hn⟩, rfl, rfl⟩

end Reads

/-! ## Indexed operands (40_addressing.md R155 to R166) -/

@[simp] theorem IdxReg.ofBits_bits (r : IdxReg) : IdxReg.ofBits r.bits = r := by cases r <;> rfl

@[simp] theorem IdxReg.bits_ofBits (b : BitVec 2) : (IdxReg.ofBits b).bits = b := by
  revert b
  decide

/-- The sub-mode nibbles that have no indirect form are those of `,R+` and `,-R` (R163). -/
theorem SubMode.hasIndirect_eq (m : SubMode) : m.hasIndirect = !(m.bits == 0x0 || m.bits == 0x2) := by
  cases m <;> rfl

/-- No sub-mode has a reserved nibble (R158). -/
theorem SubMode.bits_assigned (m : SubMode) : [0x7, 0xA, 0xE, 0xF].contains m.bits = false := by
  cases m <;> rfl

/-- A sub-mode is read exactly where its nibble and its extra bytes stand (R157 to R162). -/
theorem decodeSubMode_eq_some_iff (nibble : Nat) (rest : List Byte) (m : SubMode) (n : Nat) :
    decodeSubMode nibble rest = some (m, n) ↔
      m.bits.toNat = nibble ∧ m.operandBytes <+: rest ∧ n = m.operandBytes.length := by
  constructor
  · intro h
    unfold decodeSubMode at h
    split at h <;> cases h <;> simp [SubMode.bits, SubMode.operandBytes]
  · rintro ⟨rfl, ⟨t, rfl⟩, rfl⟩
    cases m <;> simp [SubMode.bits, SubMode.operandBytes, decodeSubMode]

/-- The post-byte of the mode form: base register, indirect bit, sub-mode nibble (R155). -/
def postByte (r : BitVec 2) (indirect : Bool) (k : BitVec 4) : Byte := 1#1 ++ r ++ BitVec.ofBool indirect ++ k

theorem postByte_fields (r : BitVec 2) (indirect : Bool) (k : BitVec 4) :
    (postByte r indirect k).getLsbD 7 = true ∧ (postByte r indirect k).extractLsb' 5 2 = r ∧
    (postByte r indirect k).getLsbD 4 = indirect ∧ (postByte r indirect k).toNat % 16 = k.toNat := by
  revert r indirect k
  decide

theorem eq_postByte {pb : Byte} (h : pb.getLsbD 7 = true) :
    pb = postByte (pb.extractLsb' 5 2) (pb.getLsbD 4) (pb.extractLsb' 0 4) := by
  revert pb
  decide

theorem offsetByte_fields (r : BitVec 2) (n : BitVec 5) :
    (0#1 ++ r ++ n : Byte).getLsbD 7 = false ∧ (0#1 ++ r ++ n : Byte).extractLsb' 5 2 = r ∧
    (0#1 ++ r ++ n : Byte).extractLsb' 0 5 = n := by
  revert r n
  decide

theorem eq_offsetByte {pb : Byte} (h : pb.getLsbD 7 = false) :
    pb = 0#1 ++ pb.extractLsb' 5 2 ++ pb.extractLsb' 0 5 := by
  revert pb
  decide

/-- The post-bytes of bit 7 that are not of the mode form: a reserved nibble, or an indirect form that does not exist
(R158, R163, R164). -/
theorem postByte_special (r : BitVec 2) (indirect : Bool) (k : BitVec 4) :
    (isUnassignedPostByte (postByte r indirect k) || postByte r indirect k == 0x9F) =
      ([0x7, 0xA, 0xE, 0xF].contains k || indirect && (k == 0x0 || k == 0x2)) := by
  revert r indirect k
  decide

/-- A sub-mode's post-byte is of the mode form exactly when the operand is well formed. -/
theorem postByte_special_subMode (r : BitVec 2) (indirect : Bool) (m : SubMode) :
    (isUnassignedPostByte (postByte r indirect m.bits) || postByte r indirect m.bits == 0x9F) =
      !(!indirect || m.hasIndirect) := by
  rw [postByte_special, m.bits_assigned, m.hasIndirect_eq]
  cases indirect <;> simp

theorem decodeIndexed_offset {pb : Byte} (h : pb.getLsbD 7 = false) (rest : List Byte) :
    decodeIndexed (pb :: rest) = some (.off5 (IdxReg.ofBits (pb.extractLsb' 5 2)) (pb.extractLsb' 0 5), 1) :=
  if_pos h

theorem decodeIndexed_unassigned {pb : Byte} (h : isUnassignedPostByte pb = true) (rest : List Byte) :
    decodeIndexed (pb :: rest) = some (.unassigned pb, 1) := by
  have h7 : pb.getLsbD 7 = true := (Bool.and_eq_true_iff.mp h).1
  simp [decodeIndexed, h7, h]

theorem decodeIndexed_extIndirect (h l : Byte) (rest : List Byte) :
    decodeIndexed (0x9F :: h :: l :: rest) = some (.extIndirect (joinBytes h l), 3) := rfl

theorem decodeIndexed_postByte {r : BitVec 2} {indirect : Bool} {k : BitVec 4}
    (h : (isUnassignedPostByte (postByte r indirect k) || postByte r indirect k == 0x9F) = false) (rest : List Byte) :
    decodeIndexed (postByte r indirect k :: rest) =
      (decodeSubMode k.toNat rest).map (fun p => (.mode (IdxReg.ofBits r) indirect p.1, p.2 + 1)) := by
  obtain ⟨h7, hr, h4, hk⟩ := postByte_fields r indirect k
  obtain ⟨hu, hx⟩ := Bool.or_eq_false_iff.mp h
  simp only [decodeIndexed, h7, hr, h4, hk, hu, beq_eq_false_iff_ne.mp hx, if_false, Bool.true_eq_false,
    Bool.false_eq_true]
  cases decodeSubMode k.toNat rest <;> rfl

/-- An operand's own encoding is read back, whatever follows. -/
theorem decodeIndexed_encodeIndexed {ix : Indexed} (h : ix.wf = true) (rest : List Byte) :
    decodeIndexed (encodeIndexed ix ++ rest) = some (ix, (encodeIndexed ix).length) := by
  cases ix with
  | off5 r n =>
    obtain ⟨h7, hr, hn⟩ := offsetByte_fields r.bits n
    have e := decodeIndexed_offset h7 rest
    rw [hr, hn, IdxReg.ofBits_bits] at e
    exact e
  | mode r indirect m =>
    have hs := (postByte_special_subMode r.bits indirect m).trans (congrArg (! ·) h)
    have hm := (decodeSubMode_eq_some_iff m.bits.toNat (m.operandBytes ++ rest) m m.operandBytes.length).mpr
      ⟨rfl, List.prefix_append _ _, rfl⟩
    have e := decodeIndexed_postByte hs (m.operandBytes ++ rest)
    rw [hm, IdxReg.ofBits_bits] at e
    exact e
  | extIndirect n =>
    have e := decodeIndexed_extIndirect (hiByte n) (loByte n) rest
    rw [joinBytes_hi_lo] at e
    exact e
  | unassigned pb => exact decodeIndexed_unassigned h rest

/-- What is read is well formed and stands in the bytes as its own encoding. -/
theorem encodeIndexed_of_decodeIndexed {bytes : List Byte} {ix : Indexed} {n : Nat}
    (h : decodeIndexed bytes = some (ix, n)) :
    ix.wf = true ∧ encodeIndexed ix <+: bytes ∧ n = (encodeIndexed ix).length := by
  cases bytes with
  | nil => cases h
  | cons pb rest =>
    cases h7 : pb.getLsbD 7 with
    | false =>
      rw [decodeIndexed_offset h7] at h
      cases h
      simp [Indexed.wf, encodeIndexed, ← eq_offsetByte h7]
    | true =>
      cases hs : isUnassignedPostByte pb || pb == 0x9F with
      | false =>
        rw [eq_postByte h7] at hs h ⊢
        rw [decodeIndexed_postByte hs] at h
        obtain ⟨⟨m, k⟩, hm, e⟩ := Option.map_eq_some_iff.mp h
        cases e
        obtain ⟨hk, hp, rfl⟩ := (decodeSubMode_eq_some_iff _ _ _ _).mp hm
        rw [← BitVec.eq_of_toNat_eq hk, postByte_special_subMode, Bool.not_eq_false'] at hs
        refine ⟨hs, ?_, rfl⟩
        rw [← BitVec.eq_of_toNat_eq hk]
        simp only [encodeIndexed, IdxReg.bits_ofBits]
        exact List.cons_prefix_cons.mpr ⟨rfl, hp⟩
      | true =>
        rcases Bool.or_eq_true_iff.mp hs with hu | hx
        · rw [decodeIndexed_unassigned hu] at h
          cases h
          exact ⟨hu, by simp [encodeIndexed], rfl⟩
        · obtain rfl := beq_iff_eq.mp hx
          match rest with
          | [] => cases h
          | [_] => cases h
          | hi :: lo :: rest =>
            rw [decodeIndexed_extIndirect] at h
            cases h
            simp [Indexed.wf, encodeIndexed]

theorem decodeIndexed_reads : Reads decodeIndexed Indexed.wf id encodeIndexed := by
  intro bytes ix n
  constructor
  · intro h
    obtain ⟨hw, hp, hn⟩ := encodeIndexed_of_decodeIndexed h
    exact ⟨ix, hw, rfl, hp, hn⟩
  · rintro ⟨_, hw, rfl, ⟨rest, rfl⟩, rfl⟩
    exact decodeIndexed_encodeIndexed hw rest

end Sys2Proof
end

section
/-! PROOFS. The cells of the opcode maps: how a cell reads its operand, and that `encode` writes what the cells say
(30_encoding.md R122 to R126). -/

namespace Sys2Proof

open Machine

/-! ## The other operands (30_encoding.md R122, R132) -/

@[simp] theorem RegCode.bits_ofBits (c : BitVec 4) : (RegCode.ofBits c).bits = c := by
  revert c
  decide

@[simp] theorem RegCode.ofBits_bits (r : RegCode) : RegCode.ofBits r.bits = r := by
  cases r with
  | undef16 k =>
    revert k
    decide
  | undef8 k =>
    revert k
    decide
  | _ => rfl

theorem nibbles_append (c1 c2 : BitVec 4) :
    (c1 ++ c2 : Byte).extractLsb' 4 4 = c1 ∧ (c1 ++ c2 : Byte).extractLsb' 0 4 = c2 := by
  revert c1 c2
  decide

theorem append_nibbles (pb : Byte) : pb.extractLsb' 4 4 ++ pb.extractLsb' 0 4 = pb := by
  revert pb
  decide

/-- The operand bytes of a pair of register codes (R132). -/
def regsBytes (p : RegCode × RegCode) : List Byte := [p.1.bits ++ p.2.bits]

theorem regsBytes_length (p : RegCode × RegCode) : (regsBytes p).length = 1 := rfl

theorem regsBytes_isPrefix_iff (p : RegCode × RegCode) (pb : Byte) (t : List Byte) :
    regsBytes p <+: pb :: t ↔
      p = (RegCode.ofBits (pb.extractLsb' 4 4), RegCode.ofBits (pb.extractLsb' 0 4)) := by
  obtain ⟨r1, r2⟩ := p
  obtain ⟨h1, h2⟩ := nibbles_append r1.bits r2.bits
  simp only [regsBytes, List.cons_prefix_cons, List.nil_prefix, and_true]
  constructor
  · rintro rfl
    rw [h1, h2, RegCode.ofBits_bits, RegCode.ofBits_bits]
  · intro h
    obtain ⟨rfl, rfl⟩ := Prod.mk.inj h
    rw [RegCode.bits_ofBits, RegCode.bits_ofBits, append_nibbles]

/-- A reader of a register-code byte. -/
theorem reads_regs {β : Type} {dec : List Byte → Option (β × Nat)} {f : RegCode → RegCode → β} (hnil : dec [] = none)
    (hcons : ∀ pb t, dec (pb :: t) =
      some (f (RegCode.ofBits (pb.extractLsb' 4 4)) (RegCode.ofBits (pb.extractLsb' 0 4)), 1)) :
    Reads dec (fun _ => true) (fun p => f p.1 p.2) regsBytes := by
  intro bytes b n
  cases bytes with
  | nil => simp [hnil, regsBytes]
  | cons pb t =>
    simp only [hcons, regsBytes_isPrefix_iff, Option.some.injEq, Prod.mk.injEq, regsBytes_length]
    simp [eq_comm]

/-- What the operand of an addressing mode is made of. -/
def Mode.Operand : Mode → Type
  | .dir => Byte
  | .ext => Word
  | .idx => Indexed

/-- The operands of a mode that some bytes stand for. -/
def Mode.ok : (mode : Mode) → mode.Operand → Bool
  | .dir, _ => true
  | .ext, _ => true
  | .idx, ix => ix.wf

/-- The memory operand of a mode. -/
def Mode.build : (mode : Mode) → mode.Operand → MemOp
  | .dir, dd => .dir dd
  | .ext, w => .ext w
  | .idx, ix => .idx ix

/-- The bytes of a mode's operand, after the opcode (R128). -/
def Mode.bytes : (mode : Mode) → mode.Operand → List Byte
  | .dir, dd => [dd]
  | .ext, w => wordBytes w
  | .idx, ix => encodeIndexed ix

theorem decodeMemOp_reads (mode : Mode) : Reads (decodeMemOp mode) mode.ok mode.build mode.bytes := by
  cases mode with
  | dir => exact reads_byte rfl fun _ _ => rfl
  | ext => exact reads_word rfl (fun _ => rfl) fun _ _ _ => rfl
  | idx => exact decodeIndexed_reads.map MemOp.idx

/-! ## The cells of the opcode maps (30_encoding.md R122, R126) -/

/-- What the operand of a cell is made of. -/
def Row.Operand : Row → Type
  | .inh _ => Unit
  | .imm8 _ | .byte _ => Byte
  | .imm16 _ | .word _ => Word
  | .src8 mode _ | .src16 mode _ | .mem mode _ => mode.Operand
  | .lea _ => Indexed
  | .regs _ => RegCode × RegCode

/-- The operands that some bytes stand for. -/
def Row.ok : (row : Row) → row.Operand → Bool
  | .src8 mode _, o | .src16 mode _, o | .mem mode _, o => mode.ok o
  | .lea _, ix => ix.wf
  | .inh _, _ | .imm8 _, _ | .imm16 _, _ | .byte _, _ | .word _, _ | .regs _, _ => true

/-- The instruction of a cell with its operand. -/
def Row.build : (row : Row) → row.Operand → Instr
  | .inh i, _ => i
  | .imm8 f, ii => f (.imm ii)
  | .imm16 f, w => f (.imm w)
  | .src8 mode f, o => f (.mem (mode.build o))
  | .src16 mode f, o => f (.mem (mode.build o))
  | .mem mode f, o => f (mode.build o)
  | .lea f, ix => f ix
  | .byte f, b => f b
  | .word f, w => f w
  | .regs f, p => f p.1 p.2

/-- The bytes of the operand, after the opcode. -/
def Row.bytes : (row : Row) → row.Operand → List Byte
  | .inh _, _ => []
  | .imm8 _, b => [b]
  | .byte _, b => [b]
  | .imm16 _, w => wordBytes w
  | .word _, w => wordBytes w
  | .src8 mode _, o | .src16 mode _, o | .mem mode _, o => mode.bytes o
  | .lea _, ix => encodeIndexed ix
  | .regs _, p => regsBytes p

theorem Row.decode_reads (row : Row) : Reads row.decode row.ok row.build row.bytes := by
  cases row with
  | inh i => exact reads_nothing fun _ => rfl
  | imm8 f => exact reads_byte rfl fun _ _ => rfl
  | imm16 f => exact reads_word rfl (fun _ => rfl) fun _ _ _ => rfl
  | src8 mode f => exact (decodeMemOp_reads mode).map fun m => f (.mem m)
  | src16 mode f => exact (decodeMemOp_reads mode).map fun m => f (.mem m)
  | mem mode f => exact (decodeMemOp_reads mode).map f
  | lea f => exact decodeIndexed_reads.map f
  | byte f => exact reads_byte rfl fun _ _ => rfl
  | word f => exact reads_word rfl (fun _ => rfl) fun _ _ _ => rfl
  | regs f => exact reads_regs rfl fun _ _ => rfl

/-- The answer for a cell, read as an instruction. -/
theorem finishRow_eq_instr_iff (n : Nat) (row : Row) (rest : List Byte) (i : Instr) (m : Nat) :
    finishRow n row rest = .instr i m ↔
      ∃ o, row.ok o = true ∧ row.build o = i ∧ row.bytes o <+: rest ∧ m = n + (row.bytes o).length := by
  have hd : finishRow n row rest = .instr i m ↔ ∃ k, row.decode rest = some (i, k) ∧ m = n + k := by
    unfold finishRow
    cases row.decode rest <;> simp [Prod.ext_iff, eq_comm]
  simp only [hd, row.decode_reads rest]
  constructor
  · rintro ⟨_, ⟨o, ho, hb, hp, rfl⟩, hm⟩
    exact ⟨o, ho, hb, hp, hm⟩
  · rintro ⟨o, ho, hb, hp, hm⟩
    exact ⟨_, ⟨o, ho, hb, hp, rfl⟩, hm⟩

theorem finishRow_ne_unassigned (n : Nat) (row : Row) (rest op : List Byte) :
    finishRow n row rest ≠ .unassigned op := by
  unfold finishRow
  cases row.decode rest <;> simp

/-! ## The three opcode maps (30_encoding.md R123, R125) -/

/-- The opcode maps: page 0, and the pages after 0x10 and 0x11. -/
inductive Page
  | page0 | page2 | page3

/-- The byte that selects the page, if any. -/
def Page.select : Page → List Byte
  | .page0 => []
  | .page2 => [0x10]
  | .page3 => [0x11]

/-- The cell of an opcode byte on a page. -/
def Page.cell : Page → Byte → Option Row
  | .page0 => Sys2Proof.page0
  | .page2 => Sys2Proof.page2
  | .page3 => Sys2Proof.page3

/-- The assigned cells of page 0, each with its opcode. -/
def page0Table : List (Nat × Row) :=
  page0Map.zipIdx.flatMap fun (cells, hi) =>
    cells.zipIdx.filterMap fun (cell, lo) => cell.map (hi * 16 + lo, ·)

/-- The assigned cells of a page, each with its opcode. -/
def Page.table : Page → List (Nat × Row)
  | .page0 => page0Table
  | .page2 => page2Table
  | .page3 => page3Table

theorem getElem?_of_getD {α : Type} {l : List α} {k : Nat} {d a : α} (h : l.getD k d = a) (hne : a ≠ d) :
    l[k]? = some a := by
  rw [List.getD_eq_getElem?_getD] at h
  cases hk : l[k]? with
  | none =>
    rw [hk] at h
    exact absurd h.symm hne
  | some c =>
    rw [hk] at h
    exact congrArg some h

theorem mem_page0Table {op : Byte} {row : Row} (h : page0 op = some row) : (op.toNat, row) ∈ page0Table := by
  have hlo := getElem?_of_getD h (by simp)
  have hhi : page0Map[op.toNat / 16]? = some (page0Map.getD (op.toNat / 16) []) :=
    getElem?_of_getD rfl fun e => by
      rw [e] at hlo
      cases hlo
  have hn : op.toNat / 16 * 16 + op.toNat % 16 = op.toNat := by omega
  exact List.mem_flatMap.mpr ⟨_, List.mk_mem_zipIdx_iff_getElem?.mpr hhi,
    List.mem_filterMap.mpr ⟨_, List.mk_mem_zipIdx_iff_getElem?.mpr hlo, congrArg (fun k => some (k, row)) hn⟩⟩

theorem mem_of_lookup {t : List (Nat × Row)} {k : Nat} {row : Row} (h : t.lookup k = some row) : (k, row) ∈ t := by
  obtain ⟨_, _, rfl, _⟩ := List.lookup_eq_some_iff.mp h
  simp

theorem Page.mem_table {page : Page} {op : Byte} {row : Row} (h : page.cell op = some row) :
    (op.toNat, row) ∈ page.table := by
  cases page with
  | page0 => exact mem_page0Table h
  | page2 => exact mem_of_lookup h
  | page3 => exact mem_of_lookup h

/-- The instructions of a cell are well formed as their operands are, and `encode` gives the cell's opcode and the
operand's bytes. -/
def Row.EncodedAt (page : Page) (op : Nat) (row : Row) : Prop :=
  ∀ o : row.Operand, encode (row.build o) = page.select ++ BitVec.ofNat 8 op :: row.bytes o ∧
    (row.build o).wf = row.ok o

/-- Each cell of the three maps, one by one. -/
theorem Page.table_encoded (page : Page) : page.table.Forall fun p => p.2.EncodedAt page p.1 := by
  cases page
  all_goals
    repeat' apply And.intro
    all_goals exact fun _ => ⟨rfl, rfl⟩

theorem Page.cell_encoded {page : Page} {op : Byte} {row : Row} (h : page.cell op = some row) (o : row.Operand) :
    encode (row.build o) = page.select ++ op :: row.bytes o ∧ (row.build o).wf = row.ok o := by
  have ho := List.forall_iff_forall_mem.mp page.table_encoded _ (Page.mem_table h) o
  rwa [BitVec.ofNat_toNat, BitVec.setWidth_eq] at ho

/-! ## The encodings of an instruction -/

/-- What the maps say: the bytes that stand for an instruction. -/
inductive Encodes : List Byte → Instr → Prop
  | periph : Encodes [periphOpcode] .periph
  | cell (page : Page) {op : Byte} {row : Row} (h : page.cell op = some row) (o : row.Operand)
      (ho : row.ok o = true) : Encodes (page.select ++ op :: row.bytes o) (row.build o)

theorem Encodes.wf_and_eq {code : List Byte} {i : Instr} (h : Encodes code i) : i.wf = true ∧ encode i = code := by
  cases h with
  | periph => exact ⟨rfl, rfl⟩
  | cell page h o ho =>
    obtain ⟨he, hw⟩ := Page.cell_encoded h o
    exact ⟨hw.trans ho, he⟩

section Encodes

variable (page : Page) {b d x e : Byte}

theorem Encodes.inherent {i : Instr} (h : page.cell b = some (.inh i)) : Encodes (page.select ++ [b]) i :=
  .cell page h () rfl

theorem Encodes.byte {f : Byte → Instr} (h : page.cell b = some (.byte f)) (v : Byte) :
    Encodes (page.select ++ [b, v]) (f v) :=
  .cell page h v rfl

theorem Encodes.word {f : Word → Instr} (h : page.cell b = some (.word f)) (w : Word) :
    Encodes (page.select ++ [b, hiByte w, loByte w]) (f w) :=
  .cell page h w rfl

theorem Encodes.regs {f : RegCode → RegCode → Instr} (h : page.cell b = some (.regs f)) (r1 r2 : RegCode) :
    Encodes (page.select ++ [b, r1.bits ++ r2.bits]) (f r1 r2) :=
  .cell page h (r1, r2) rfl

theorem Encodes.lea {f : Indexed → Instr} (h : page.cell b = some (.lea f)) {ix : Indexed} (hw : ix.wf = true) :
    Encodes (page.select ++ b :: encodeIndexed ix) (f ix) :=
  .cell page h ix hw

theorem Encodes.mem {f : MemOp → Instr} (hd : page.cell d = some (.mem .dir f)) (hx : page.cell x = some (.mem .idx f))
    (he : page.cell e = some (.mem .ext f)) {m : MemOp} (hw : m.wf = true) :
    Encodes (page.select ++ encodeMemOp d x e m) (f m) := by
  cases m with
  | dir dd => exact .cell page hd dd rfl
  | ext w => exact .cell page he w rfl
  | idx ix => exact .cell page hx ix hw

theorem Encodes.op8 {f : Op8 → Instr} (hi : page.cell b = some (.imm8 f)) (hd : page.cell d = some (.src8 .dir f))
    (hx : page.cell x = some (.src8 .idx f)) (he : page.cell e = some (.src8 .ext f)) {o : Op8} (hw : o.wf = true) :
    Encodes (page.select ++ encodeOp8 b d x e o) (f o) := by
  match o with
  | .imm ii => exact .cell page hi ii rfl
  | .mem (.dir dd) => exact .cell page hd dd rfl
  | .mem (.ext w) => exact .cell page he w rfl
  | .mem (.idx ix) => exact .cell page hx ix hw

theorem Encodes.op16 {f : Op16 → Instr} (hi : page.cell b = some (.imm16 f)) (hd : page.cell d = some (.src16 .dir f))
    (hx : page.cell x = some (.src16 .idx f)) (he : page.cell e = some (.src16 .ext f)) {o : Op16}
    (hw : o.wf = true) : Encodes (page.select ++ encodeOp16 b d x e o) (f o) := by
  match o with
  | .imm w => exact .cell page hi w rfl
  | .mem (.dir dd) => exact .cell page hd dd rfl
  | .mem (.ext w) => exact .cell page he w rfl
  | .mem (.idx ix) => exact .cell page hx ix hw

end Encodes

/-- `encode` writes what the maps say, for every mnemonic: the shape of its operand and its page. -/
theorem encodes_encode {i : Instr} (h : i.wf = true) : Encodes (encode i) i := by
  cases i with
  | periph => exact .periph
  | lda o | ldb o | suba o | subb o | cmpa o | cmpb o | sbca o | sbcb o | anda o | andb o | bita o | bitb o | eora o
  | eorb o | adca o | adcb o | ora o | orb o | adda o | addb o => exact .op8 .page0 rfl rfl rfl rfl h
  | ldd o | ldx o | ldu o | addd o | subd o | cmpx o => exact .op16 .page0 rfl rfl rfl rfl h
  | ldy o | lds o | cmpd o | cmpy o => exact .op16 .page2 rfl rfl rfl rfl h
  | cmpu o | cmps o => exact .op16 .page3 rfl rfl rfl rfl h
  | sta m | stb m | std m | stx m | stu m | neg m | com m | lsr m | ror m | asr m | asl m | rol m | dec m | inc m
  | tst m | clr m | jmp m | jsr m => exact .mem .page0 rfl rfl rfl h
  | sty m | sts m => exact .mem .page2 rfl rfl rfl h
  | leax ix | leay ix | leas ix | leau ix => exact .lea .page0 rfl h
  | exg r1 r2 | tfr r1 r2 => exact .regs .page0 rfl r1 r2
  | andcc v | orcc v | cwai v | pshs v | puls v | pshu v | pulu v | bra v | brn v | bhi v | bls v | bcc v | bcs v
  | bne v | beq v | bvc v | bvs v | bpl v | bmi v | bge v | blt v | bgt v | ble v | bsr v => exact .byte .page0 rfl v
  | lbra w | lbsr w => exact .word .page0 rfl w
  | lbrn w | lbhi w | lbls w | lbcc w | lbcs w | lbne w | lbeq w | lbvc w | lbvs w | lbpl w | lbmi w | lbge w | lblt w
  | lbgt w | lble w => exact .word .page2 rfl w
  | swi2 => exact .inherent .page2 rfl
  | swi3 => exact .inherent .page3 rfl
  | _ => exact .inherent .page0 rfl

end Sys2Proof
end

section
/-! PROOFS. The decoder against the encoder, the unassigned encodings, and the step that runs a decoded instruction
(30_encoding.md R120 to R130). -/

namespace Sys2Proof

open Machine

/-! ## The decoder (30_encoding.md R120, R129, R130) -/

theorem decode_page2 (bytes : List Byte) : decode (0x10 :: bytes) = decodePrefixed 0x10 page2 bytes := rfl

theorem decode_page3 (bytes : List Byte) : decode (0x11 :: bytes) = decodePrefixed 0x11 page3 bytes := rfl

theorem decodePrefixed_assigned {pre op : Byte} {page : Byte → Option Row} {row : Row} (h : page op = some row)
    (rest : List Byte) : decodePrefixed pre page (op :: rest) = finishRow 2 row rest := by
  simp only [decodePrefixed, h]

theorem decodePrefixed_unassigned {pre op : Byte} {page : Byte → Option Row} (h : page op = none) (rest : List Byte) :
    decodePrefixed pre page (op :: rest) = .unassigned [pre, op] := by
  simp only [decodePrefixed, h]

/-- An opcode byte of page 0 that has a cell; the page bytes 0x10 and 0x11 have none. -/
theorem decode_page0_assigned {op : Byte} {row : Row} (h : page0 op = some row) (rest : List Byte) :
    decode (op :: rest) = finishRow 1 row rest := by
  have h2 : op ≠ 0x10 := by
    rintro rfl
    cases h
  have h3 : op ≠ 0x11 := by
    rintro rfl
    cases h
  simp only [decode, decodeWith, h2, h3, h, if_false]

theorem decode_page0_unassigned {op : Byte} (h2 : op ≠ 0x10) (h3 : op ≠ 0x11) (h : page0 op = none)
    (rest : List Byte) :
    decode (op :: rest) = if op = periphOpcode then .instr .periph 1 else .unassigned [op] := by
  simp only [decode, decodeWith, h2, h3, h, if_false]

/-- The bytes without a cell on page 0: the page bytes and the list of R129. -/
theorem page0_isNone (op : Byte) : (page0 op).isNone = (op == 0x10 || op == 0x11 || unassignedPage0.contains op) := by
  revert op
  decide +kernel

theorem mem_unassignedPage0_iff (op : Byte) :
    op ∈ unassignedPage0 ↔ op ≠ 0x10 ∧ op ≠ 0x11 ∧ page0 op = none := by
  rw [← Option.isNone_iff_eq_none, page0_isNone, Bool.or_eq_true, Bool.or_eq_true, beq_iff_eq, beq_iff_eq,
    List.contains_iff_mem]
  constructor
  · intro h
    refine ⟨?_, ?_, .inr h⟩ <;> rintro rfl <;> exact absurd h (by decide)
  · rintro ⟨h2, h3, (e | e) | h⟩
    · exact absurd e h2
    · exact absurd e h3
    · exact h

/-- The PERIPH opcode is one of the unassigned bytes, whichever it is (49_periph_tape.md R430). -/
theorem periphOpcode_mem : periphOpcode ∈ unassignedPage0 := by
  unfold periphOpcode
  rw [List.getD_eq_getElem _ _ Config.periphIndex.isLt]
  exact List.getElem_mem _

theorem decode_periph (rest : List Byte) : decode (periphOpcode :: rest) = .instr .periph 1 := by
  obtain ⟨h2, h3, h⟩ := (mem_unassignedPage0_iff _).mp periphOpcode_mem
  rw [decode_page0_unassigned h2 h3 h, if_pos rfl]

/-- An opcode with a cell is read by its cell, on each page. -/
theorem Page.decode_assigned {page : Page} {op : Byte} {row : Row} (h : page.cell op = some row) (rest : List Byte) :
    decode (page.select ++ op :: rest) = finishRow (page.select.length + 1) row rest := by
  cases page with
  | page0 => exact decode_page0_assigned h rest
  | page2 => exact decodePrefixed_assigned h rest
  | page3 => exact decodePrefixed_assigned h rest

/-- Where an instruction is read after a page byte, the next byte has a cell on that page. -/
theorem decodePrefixed_instr {pre : Byte} {page : Byte → Option Row} {bytes : List Byte} {i : Instr} {n : Nat}
    (h : decodePrefixed pre page bytes = .instr i n) :
    ∃ (op : Byte) (row : Row) (rest : List Byte), bytes = op :: rest ∧ page op = some row := by
  match bytes with
  | [] => cases h
  | op :: rest =>
    cases hc : page op with
    | some row => exact ⟨op, row, rest, rfl, hc⟩
    | none =>
      rw [decodePrefixed_unassigned hc] at h
      cases h

/-- Where an instruction is read, it is PERIPH or it comes from a cell of one of the pages. -/
theorem decode_instr_cases {bytes : List Byte} {i : Instr} {n : Nat} (h : decode bytes = .instr i n) :
    (i = .periph ∧ n = 1 ∧ ∃ rest, bytes = periphOpcode :: rest) ∨
    ∃ (page : Page) (op : Byte) (row : Row) (rest : List Byte),
      bytes = page.select ++ op :: rest ∧ page.cell op = some row := by
  match bytes with
  | [] => cases h
  | op :: rest =>
    by_cases h2 : op = 0x10
    · subst h2
      obtain ⟨op, row, rest, rfl, hc⟩ := decodePrefixed_instr ((decode_page2 rest).symm.trans h)
      exact .inr ⟨.page2, op, row, rest, rfl, hc⟩
    · by_cases h3 : op = 0x11
      · subst h3
        obtain ⟨op, row, rest, rfl, hc⟩ := decodePrefixed_instr ((decode_page3 rest).symm.trans h)
        exact .inr ⟨.page3, op, row, rest, rfl, hc⟩
      · cases hc : page0 op with
        | some row => exact .inr ⟨.page0, op, row, rest, rfl, hc⟩
        | none =>
          rw [decode_page0_unassigned h2 h3 hc] at h
          split at h
          · next hp =>
            cases h
            exact .inl ⟨rfl, rfl, rest, hp ▸ rfl⟩
          · cases h

/-- The decoder reads the encodings, and nothing else, as instructions. -/
theorem decode_eq_instr_iff (bytes : List Byte) (i : Instr) (n : Nat) :
    decode bytes = .instr i n ↔ ∃ code, Encodes code i ∧ code <+: bytes ∧ n = code.length := by
  constructor
  · intro h
    rcases decode_instr_cases h with ⟨rfl, rfl, rest, rfl⟩ | ⟨page, op, row, rest, rfl, hc⟩
    · exact ⟨_, .periph, by simp, rfl⟩
    · rw [Page.decode_assigned hc, finishRow_eq_instr_iff] at h
      obtain ⟨o, ho, rfl, hp, rfl⟩ := h
      refine ⟨_, .cell page hc o ho, ?_, by simp [Nat.add_assoc, Nat.add_comm 1]⟩
      exact (List.prefix_append_right_inj _).mpr (List.cons_prefix_cons.mpr ⟨rfl, hp⟩)
  · rintro ⟨code, he, ⟨rest, rfl⟩, rfl⟩
    cases he with
    | periph => exact decode_periph rest
    | cell page hc o ho =>
      rw [List.append_assoc, List.cons_append, Page.decode_assigned hc, finishRow_eq_instr_iff]
      exact ⟨o, ho, rfl, List.prefix_append _ _, by simp [Nat.add_assoc, Nat.add_comm 1]⟩

/-- Settles O1: `encode` writes an encoding of the opcode maps, and the decoder reads those, whatever follows. -/
theorem decodeEncode : Obligations.DecodeEncode := by
  intro i rest h
  exact (decode_eq_instr_iff _ _ _).mpr ⟨encode i, encodes_encode h, List.prefix_append _ _, rfl⟩

/-- Settles O2: the decoder reads only encodings of the opcode maps, and those are what `encode` writes. -/
theorem encodeDecode : Obligations.EncodeDecode := by
  intro bytes i n h
  obtain ⟨code, he, hp, rfl⟩ := (decode_eq_instr_iff _ _ _).mp h
  obtain ⟨hw, rfl⟩ := he.wf_and_eq
  exact ⟨hw, rfl, (List.prefix_iff_eq_take.mp hp).symm⟩

/-! ## Unassigned encodings (30_encoding.md R129, R130) -/

theorem decodePrefixed_eq_unassigned_iff (pre op : Byte) (page : Byte → Option Row) (rest : List Byte) :
    decodePrefixed pre page (op :: rest) = .unassigned [pre, op] ↔ page op = none := by
  cases h : page op with
  | none => simp [decodePrefixed_unassigned h]
  | some row => simp [decodePrefixed_assigned h, finishRow_ne_unassigned]

/-- After a page byte, no answer names one byte. -/
theorem decodePrefixed_ne_unassigned_one (pre : Byte) (page : Byte → Option Row) (rest : List Byte) (b : Byte) :
    decodePrefixed pre page rest ≠ .unassigned [b] := by
  match rest with
  | [] => exact Decoded.noConfusion
  | op :: rest =>
    cases h : page op with
    | none => simp [decodePrefixed_unassigned h]
    | some row => simp [decodePrefixed_assigned h, finishRow_ne_unassigned]

theorem decode_eq_unassigned_one_iff (b : Byte) (rest : List Byte) :
    decode (b :: rest) = .unassigned [b] ↔ b ∈ unassignedPage0 ∧ b ≠ periphOpcode := by
  rw [mem_unassignedPage0_iff]
  by_cases h2 : b = 0x10
  · subst h2
    exact iff_of_false (decodePrefixed_ne_unassigned_one 0x10 page2 rest _) fun h => h.1.1 rfl
  · by_cases h3 : b = 0x11
    · subst h3
      exact iff_of_false (decodePrefixed_ne_unassigned_one 0x11 page3 rest _) fun h => h.1.2.1 rfl
    · cases h : page0 b with
      | none =>
        rw [decode_page0_unassigned h2 h3 h]
        by_cases hp : b = periphOpcode
        · rw [if_pos hp]
          exact iff_of_false Decoded.noConfusion fun hb => hb.2 hp
        · rw [if_neg hp]
          exact iff_of_true rfl ⟨⟨h2, h3, rfl⟩, hp⟩
      | some row => simp [decode_page0_assigned h, finishRow_ne_unassigned]

theorem lookup_eq_none_iff_notMem (t : List (Nat × Row)) (k : Nat) : t.lookup k = none ↔ k ∉ t.map Prod.fst := by
  rw [List.lookup_eq_none_iff, List.mem_map]
  constructor
  · rintro h ⟨p, hp, rfl⟩
    exact bne_iff_ne.mp (h p hp) rfl
  · intro h p hp
    exact bne_iff_ne.mpr fun e => h ⟨p, hp, e.symm⟩

/-- Settles O3: an unassigned answer names its opcode bytes, and each page has exactly the listed cells. -/
theorem unassignedEncodings : Obligations.UnassignedEncodings := by
  refine ⟨fun b rest => ?page0, fun b rest => ?page2, fun b rest => ?page3⟩
  case page0 =>
    rw [decode_eq_unassigned_one_iff, ← List.mem_map_of_injective BitVec.toNat_injective]
    exact Iff.rfl
  case page2 =>
    rw [decode_page2, decodePrefixed_eq_unassigned_iff]
    exact lookup_eq_none_iff_notMem page2Table b.toNat
  case page3 =>
    rw [decode_page3, decodePrefixed_eq_unassigned_iff]
    exact lookup_eq_none_iff_notMem page3Table b.toNat

/-! ## Fixed words, and the step -/

/-- Settles O4, one word at a time. -/
theorem decodeKnownWords : Obligations.DecodeKnownWords := by
  refine ⟨?ldaImm, ?staExt, ?ldaIdx, ?cmpyImm, ?tfr, ?pshs, ?lbeq, ?subaIdx, ?swi3⟩
  all_goals decide

/-- Settles O5: the five bytes are the fetch window, and moving PC past the instruction is `advancePc`. -/
theorem stepRunsDecodedInstruction : Obligations.StepRunsDecodedInstruction := by
  intro s b i n hb hc hd
  calc step s = stepInstr s := step_burst hb hc
    _ = exec i (s.advancePc n) := stepInstr_instr hd

end Sys2Proof
end

section
/-! PROOFS. The addressing modes: the address that a resolver computes, as arithmetic modulo 2^16, and what a resolver
changes (40_addressing.md R150 to R169). -/

namespace Sys2Proof.Machine

/-! ## Addresses as numbers -/

/-- Adding a sign-extended offset is adding its signed value modulo 2^16 (40_addressing.md R169). -/
theorem add_signExtend_eq_ofInt {k : Nat} (base : Word) (n : BitVec k) :
    base + n.signExtend 16 = BitVec.ofInt 16 (base.toInt + n.toInt) := by
  rw [BitVec.ofInt_add, BitVec.ofInt_toInt]
  rfl

theorem add_sext8_eq_ofInt (base : Word) (n : Byte) : base + sext8 n = BitVec.ofInt 16 (base.toInt + n.toInt) :=
  add_signExtend_eq_ofInt base n

theorem add_sext5_eq_ofInt (base : Word) (n : BitVec 5) : base + sext5 n = BitVec.ofInt 16 (base.toInt + n.toInt) :=
  add_signExtend_eq_ofInt base n

theorem joinBytes_eq_ofNat (h l : Byte) : joinBytes h l = BitVec.ofNat 16 (h.toNat * 256 + l.toNat) := by
  apply BitVec.eq_of_toNat_eq
  have happend : (joinBytes h l).toNat = h.toNat * 256 + l.toNat := by
    rw [joinBytes, BitVec.toNat_append, ← Nat.shiftLeft_add_eq_or_of_lt l.isLt, Nat.shiftLeft_eq]
  rw [happend, BitVec.toNat_ofNat]
  omega

theorem add_d_eq_ofNat (base : Word) (s : State) :
    base + s.d = BitVec.ofNat 16 (base.toNat + (s.cpu.a.toNat * 256 + s.cpu.b.toNat)) := by
  rw [BitVec.ofNat_add, BitVec.ofNat_toNat, BitVec.setWidth_eq, ← joinBytes_eq_ofNat]
  rfl

/-! ## The address of an indexed operand in the mode form (40_addressing.md R158 to R163) -/

theorem resolve_mode_ea (r : IdxReg) (m : SubMode) (s : State) :
    (resolve (.idx (.mode r false m)) s).1 = (subModeEa r m s).1 := rfl

/-- The write-back comes before the pointer read, which does not see it: a read depends on memory and mapper only. -/
theorem subModeEa_memRead16 (r : IdxReg) (m : SubMode) (s : State) (addr : Word) :
    (subModeEa r m s).2.memRead16 addr = s.memRead16 addr := by
  apply State.memRead16_congr <;> rw [subModeEa_eq]

/-- An indirect form reads its pointer at the address of its non-indirect form (R163). -/
theorem resolve_mode_indirect_ea (r : IdxReg) (m : SubMode) (s : State) :
    (resolve (.idx (.mode r true m)) s).1 = s.memRead16 (resolve (.idx (.mode r false m)) s).1 :=
  subModeEa_memRead16 r m s _

/-! ## What a resolver changes (40_addressing.md R150, R158 to R160) -/

/-- A resolver is known from the registers it leaves. -/
theorem resolve_eq_of_cpu {m : MemOp} {s : State} {c : Cpu} (h : (resolve m s).2.cpu = c) :
    (resolve m s).2 = { s with cyc := s.cyc + extraCycles m, cpu := c } := by
  rw [resolve_eq, h]

/-- The extra cycles of the mode form are those of its sub-mode, and 3 more where it is indirect (R158). -/
theorem extraCycles_mode (r : IdxReg) (i : Bool) (m : SubMode) :
    extraCycles (.idx (.mode r i m)) = subModeCycles m + if i then 3 else 0 := by
  cases i <;> rfl

/-- Settles O30: the registers form by form, the extra cycles by the table of the sub-modes. -/
theorem resolverEffects : Obligations.ResolverEffects := by
  intro s m hwf
  refine ⟨resolve_eq_of_cpu ?registers, fun _ _ => rfl, fun _ => rfl, fun _ _ => rfl, ?table⟩
  case registers =>
    cases m with
    | dir dd => rfl
    | ext w => rfl
    | idx ix =>
      cases ix with
      | off5 r n => rfl
      | extIndirect n => rfl
      | unassigned pb => rfl
      | mode r i sm =>
        cases sm with
        | inc1 | dec1 =>
          -- The auto-increment and auto-decrement by 1 have no indirect form.
          cases i with
          | false => rfl
          | true => cases hwf
        | _ => cases i <;> rfl
  case table =>
    intro r i extra more
    have hextra : ∀ sm, extra sm = subModeCycles sm + more := extraCycles_mode r i
    refine ⟨?byOne, hextra .inc2, hextra .dec2, ?zero, hextra .accB, hextra .accA, hextra .accD,
      fun n => hextra (.off8 n), fun n => hextra (.off16 n), fun n => hextra (.pcr8 n), fun n => hextra (.pcr16 n)⟩
    case byOne =>
      rintro rfl
      exact ⟨hextra .inc1, hextra .dec1⟩
    case zero => exact (hextra .zero).trans (Nat.zero_add more)

/-- Settles O29, mode by mode; an indirect form by its non-indirect form. -/
theorem effectiveAddresses : Obligations.EffectiveAddresses := by
  intro s
  refine ⟨fun dd => joinBytes_eq_ofNat s.cpu.dp dd, fun _ => rfl, fun _ => rfl, fun _ _ => rfl, fun r =>
    ⟨fun n => add_sext5_eq_ofInt (s.idxReg r) n, ?subModes, fun m _ => resolve_mode_indirect_ea r m s⟩⟩
  case subModes =>
    simp only [resolve_mode_ea]
    exact ⟨rfl, rfl, rfl, rfl, rfl, add_sext8_eq_ofInt (s.idxReg r) s.cpu.b, add_sext8_eq_ofInt (s.idxReg r) s.cpu.a,
      add_d_eq_ofNat (s.idxReg r) s, fun n => add_sext8_eq_ofInt (s.idxReg r) n, fun _ => rfl,
      fun n => add_sext8_eq_ofInt s.cpu.pc n, fun _ => rfl⟩

end Sys2Proof.Machine
end

section
/-! PROOFS. The flag rules that every instruction family shares, what a state beside new registers keeps, and the loads, the
stores and LEA (41_load_store.md). -/

namespace Sys2Proof.Machine

/-! ## Reading a flag after a write (10_state.md R26) -/

theorem Flag.index_lt (fl : Flag) : fl.index < 8 := by cases fl <;> decide

/-- The place of each flag, from which it is read back. -/
theorem Flag.index_injective : Function.Injective Flag.index := by
  have hplace : ∀ fl : Flag, [Flag.c, .v, .z, .n, .i, .h, .f, .e][fl.index]? = some fl := by
    intro fl; cases fl <;> rfl
  intro fl fl' h
  exact Option.some.inj ((hplace fl).symm.trans (h ▸ hplace fl'))

theorem getLsbD_one_shiftLeft (i : Nat) {j : Nat} (hj : j < 8) : (1#8 <<< i).getLsbD j = decide (j = i) := by
  rw [← BitVec.twoPow_eq, BitVec.getLsbD_twoPow]
  by_cases h : i = j
  · simp [h, hj]
  · simp [h, Ne.symm h]

theorem getLsbD_putBit (b : Byte) (i : Nat) (v : Bool) {j : Nat} (hj : j < 8) :
    (putBit b i v).getLsbD j = if j = i then v else b.getLsbD j := by
  cases v with
  | false =>
    show (b &&& ~~~(1#8 <<< i)).getLsbD j = _
    rw [BitVec.getLsbD_and, BitVec.getLsbD_not, getLsbD_one_shiftLeft i hj, decide_eq_true hj]
    split <;> simp [*]
  | true =>
    show (b ||| 1#8 <<< i).getLsbD j = _
    rw [BitVec.getLsbD_or, getLsbD_one_shiftLeft i hj]
    split <;> simp [*]

theorem getFlag_putFlag (cc : Byte) (fl fl' : Flag) (b : Bool) :
    getFlag (putFlag cc fl b) fl' = if fl' = fl then b else getFlag cc fl' := by
  simp only [getFlag, putFlag, getLsbD_putBit _ _ _ fl'.index_lt, Flag.index_injective.eq_iff]

@[simp] theorem getFlag_putFlag_same (cc : Byte) (fl : Flag) (b : Bool) : getFlag (putFlag cc fl b) fl = b := by
  rw [getFlag_putFlag, if_pos rfl]

theorem getFlag_putFlag_of_ne {fl fl' : Flag} (h : fl' ≠ fl) (cc : Byte) (b : Bool) :
    getFlag (putFlag cc fl b) fl' = getFlag cc fl' := by
  rw [getFlag_putFlag, if_neg h]

theorem KeepsFlags.refl (flags : List Flag) (cc : Byte) : KeepsFlags flags cc cc := fun _ _ => rfl

/-- A write of a flag outside the list keeps the flags of the list. -/
theorem KeepsFlags.putFlag {flags : List Flag} {cc cc' : Byte} (h : KeepsFlags flags cc cc') {fl : Flag}
    (hfl : fl ∉ flags) (b : Bool) : KeepsFlags flags cc (putFlag cc' fl b) := by
  intro g hg
  rw [getFlag_putFlag_of_ne (ne_of_mem_of_not_mem hg hfl)]
  exact h g hg

/-! ## The flags of a move (41_load_store.md R180, R181) -/

/-- The model tests a result for zero as a word, the statements as a number. -/
theorem beq_zero_eq_decide_toNat {n : Nat} (r : BitVec n) : (r == 0#n) = decide (r.toNat = 0) :=
  decide_eq_decide.mpr BitVec.toNat_eq

theorem moveFlags8_logic8 (r cc : Byte) : MoveFlags8 r cc (logic8 r cc) := by
  refine ⟨?n, ?z, getFlag_putFlag_same _ _ _, ?kept⟩
  case n => simp [logic8, nz8, getFlag_putFlag, BitVec.msb_eq_getLsbD_last]
  case z => simp [logic8, nz8, getFlag_putFlag, beq_zero_eq_decide_toNat]
  case kept =>
    exact (((KeepsFlags.refl _ cc).putFlag (by decide) _).putFlag (by decide) _).putFlag (by decide) _

theorem moveFlags16_logic16 (r : Word) (cc : Byte) : MoveFlags16 r cc (logic16 r cc) := by
  refine ⟨?n, ?z, getFlag_putFlag_same _ _ _, ?kept⟩
  case n => simp [logic16, nz16, getFlag_putFlag, BitVec.msb_eq_getLsbD_last]
  case z => simp [logic16, nz16, getFlag_putFlag, beq_zero_eq_decide_toNat]
  case kept =>
    exact (((KeepsFlags.refl _ cc).putFlag (by decide) _).putFlag (by decide) _).putFlag (by decide) _

/-! ## Registers and counters changed beside the rest of the machine -/

theorem withRegs_sameOutside (s : State) (c : Cpu) (n d : Nat) : SameOutside s (s.withRegs c n d) :=
  ⟨rfl, rfl, rfl, rfl, rfl, rfl, rfl, ⟨rfl, rfl, rfl, rfl, rfl, rfl, rfl⟩⟩

/-- A state that an instruction reaches, with other registers: what the instruction wrote is what was reached. -/
theorem CpuReach.writesAs {s u : State} (h : CpuReach s u) (c : Cpu) (n d : Nat) : WritesAs s u (u.withRegs c n d) :=
  ⟨rfl, rfl, rfl, rfl, rfl, h.tape_eq, h.log_eq,
    h.sameHost.trans (withRegs_sameOutside u c n d).host⟩

/-! ## A word through the controller (20_memory.md R69) -/

/-- The address after one in the I/O page is on neither of the two pages that a bank switch moves. -/
theorem pageIndex_succ_of_ioPage {addr : Word} (h : (pageIndex addr).val = ioPage) :
    2 ≤ (pageIndex (addr + 1)).val := by
  have hpage : (addr.extractLsb' 12 4).toNat = 10 := h
  show 2 ≤ ((addr + 1).extractLsb' 12 4).toNat
  have hone : (1 : Word).toNat = 1 := rfl
  simp only [BitVec.extractLsb'_toNat, Nat.shiftRight_eq_div_pow, BitVec.toNat_add, hone] at hpage ⊢
  omega

/-- The first byte of a word write never moves the second: only a write to the I/O page changes the mapper. -/
theorem memWrite_phys_succ (s : State) (addr : Word) (v : Byte) :
    (s.memWrite addr v).phys (addr + 1) = s.phys (addr + 1) := by
  rcases memWrite_cases s addr v with ⟨_, e⟩ | ⟨hp, _⟩ | ⟨_, hio, _⟩
  · rw [e]
  · exact State.phys_congr (memWrite_plain_mapper hp v) _
  · unfold State.phys State.physPage
    rw [memWrite_mapper_get s addr v (pageIndex_succ_of_ioPage hio)]

/-- A word write changes at most its two bytes, wherever they lie. -/
theorem memWrite16_keepsOutside (s : State) (addr w : Word) :
    KeepsMemoryOutside [s.phys addr, s.phys (addr + 1)] s (s.memWrite16 addr w) := by
  intro k hk
  obtain ⟨hhi, hlo⟩ : k ≠ s.phys addr ∧ k ≠ s.phys (addr + 1) := by simpa using hk
  rw [← memWrite_phys_succ s addr (hiByte w)] at hlo
  exact (memWrite_read _ _ _ hlo).trans (memWrite_read _ _ _ hhi)

/-! ## Loads (41_load_store.md R182 to R188) -/

theorem loadAcc_effect (r : Acc) (o : Op8) (s : State) :
    let t := loadAcc r o s
    t.cpu = { ((operand8 o s).2.setAcc r (operand8 o s).1).cpu with cc := t.cpu.cc } ∧
      MoveFlags8 (operand8 o s).1 s.cpu.cc t.cpu.cc ∧
      t.cyc = s.cyc + op8Cycles o + extraCycles8 o ∧ t.draws = s.draws ∧ SameOutside s t := by
  rw [loadAcc_eq]
  exact ⟨rfl, moveFlags8_logic8 _ _, Nat.add_right_comm _ _ _, rfl, withRegs_sameOutside _ _ _ _⟩

theorem loadReg16_effect (n : Nat) (r : Reg16) (o : Op16) (s : State) :
    let t := loadReg16 n r o s
    t.cpu = { ((operand16 o s).2.setReg16 r (operand16 o s).1).cpu with cc := t.cpu.cc } ∧
      MoveFlags16 (operand16 o s).1 s.cpu.cc t.cpu.cc ∧
      t.cyc = s.cyc + op16Cycles n o + extraCycles16 o ∧ t.draws = s.draws ∧ SameOutside s t := by
  rw [loadReg16_eq]
  exact ⟨rfl, moveFlags16_logic16 _ _, Nat.add_right_comm _ _ _, rfl, withRegs_sameOutside _ _ _ _⟩

/-- Settles O31: the cycle table row by row, then the 8-bit load for each accumulator. -/
theorem loadAccumulator : Obligations.LoadAccumulator := by
  refine ⟨fun n ii dd w ix => ⟨?source8, ?source16, ?memory, ?extra, fun m => ⟨rfl, rfl⟩⟩, fun o s e he => ?loads⟩
  case source8 => exact ⟨rfl, rfl, rfl, rfl⟩
  case source16 => exact ⟨rfl, rfl, rfl, rfl⟩
  case memory => exact ⟨rfl, rfl, rfl⟩
  case extra => exact ⟨rfl, rfl, rfl, rfl, rfl⟩
  case loads =>
    simp only [List.mem_cons, List.not_mem_nil, or_false] at he
    obtain rfl | rfl := he
    · exact ⟨_, rfl, loadAcc_effect .a o s⟩
    · exact ⟨_, rfl, loadAcc_effect .b o s⟩

/-- Settles O32: the 16-bit load for each register. -/
theorem loadRegister16 : Obligations.LoadRegister16 := by
  intro o s e he
  simp only [List.mem_cons, List.not_mem_nil, or_false] at he
  obtain rfl | rfl | rfl | rfl | rfl := he
  · exact ⟨_, rfl, loadReg16_effect 3 .d o s⟩
  · exact ⟨_, rfl, loadReg16_effect 3 .x o s⟩
  · exact ⟨_, rfl, loadReg16_effect 4 .y o s⟩
  · exact ⟨_, rfl, loadReg16_effect 3 .u o s⟩
  · exact ⟨_, rfl, loadReg16_effect 4 .s o s⟩

/-! ## Stores (41_load_store.md R189 to R195) -/

theorem storeAcc_effect (r : Acc) (m : MemOp) (s : State) :
    let ea := (resolve m s).1
    let v := (resolve m s).2.acc r
    let t := storeAcc r m s
    t.cpu = { (resolve m s).2.cpu with cc := t.cpu.cc } ∧ MoveFlags8 v s.cpu.cc t.cpu.cc ∧
      t.cyc = s.cyc + memCycles 4 m + extraCycles m ∧ t.draws = s.draws ∧
      WritesAs s (s.memWrite ea v) t ∧ KeepsMemoryOutside [s.phys ea] s t ∧
      (s.isRom ea = true → SameOutside s t) ∧ (s.plain ea → t.mem.read (s.phys ea) = v) := by
  intro ea v
  rw [storeAcc_eq]
  refine ⟨rfl, moveFlags8_logic8 _ _, Nat.add_right_comm _ _ _, rfl, (CpuReach.start.write ea v).writesAs _ _ _,
    memWrite_keepsOutside s ea v, fun hrom => ?dropped, fun hplain => ?stored⟩
  case dropped =>
    have hnone : s.memWrite ea v = s := memWrite_rom hrom v
    rw [hnone]
    exact withRegs_sameOutside _ _ _ _
  case stored =>
    show (s.memWrite ea v).mem.read (s.phys ea) = v
    rw [memWrite_plain_mem hplain, Memory.read_write, if_pos rfl]

theorem storeReg16_effect (n : Nat) (r : Reg16) (m : MemOp) (s : State) :
    let ea := (resolve m s).1
    let v := (resolve m s).2.reg16 r
    let t := storeReg16 n r m s
    t.cpu = { (resolve m s).2.cpu with cc := t.cpu.cc } ∧ MoveFlags16 v s.cpu.cc t.cpu.cc ∧
      t.cyc = s.cyc + memCycles n m + extraCycles m ∧ t.draws = s.draws ∧
      WritesAs s (s.memWrite16 ea v) t ∧ KeepsMemoryOutside [s.phys ea, s.phys (ea + 1)] s t ∧
      (s.plain ea → s.plain (ea + 1) →
        t.mem.read (s.phys ea) = hiByte v ∧ t.mem.read (s.phys (ea + 1)) = loByte v) := by
  intro ea v
  rw [storeReg16_eq]
  refine ⟨rfl, moveFlags16_logic16 _ _, Nat.add_right_comm _ _ _, rfl, (CpuReach.start.memWrite16 ea v).writesAs _ _ _,
    memWrite16_keepsOutside s ea v, fun hhi hlo => ⟨?high, ?low⟩⟩
  case high =>
    show (s.memWrite16 ea v).mem.read (s.phys ea) = hiByte v
    rw [memWrite16_plain_read hhi hlo, if_neg (s.phys_succ_ne ea).symm, if_pos rfl]
  case low =>
    show (s.memWrite16 ea v).mem.read (s.phys (ea + 1)) = loByte v
    rw [memWrite16_plain_read hhi hlo, if_pos rfl]

/-- Settles O33: the 8-bit store for each accumulator. -/
theorem storeAccumulator : Obligations.StoreAccumulator := by
  intro m s e he
  simp only [List.mem_cons, List.not_mem_nil, or_false] at he
  obtain rfl | rfl := he
  · exact ⟨_, rfl, storeAcc_effect .a m s⟩
  · exact ⟨_, rfl, storeAcc_effect .b m s⟩

/-- Settles O34: the 16-bit store for each register. -/
theorem storeRegister16 : Obligations.StoreRegister16 := by
  intro m s e he
  simp only [List.mem_cons, List.not_mem_nil, or_false] at he
  obtain rfl | rfl | rfl | rfl | rfl := he
  · exact ⟨_, rfl, storeReg16_effect 5 .d m s⟩
  · exact ⟨_, rfl, storeReg16_effect 5 .x m s⟩
  · exact ⟨_, rfl, storeReg16_effect 6 .y m s⟩
  · exact ⟨_, rfl, storeReg16_effect 5 .u m s⟩
  · exact ⟨_, rfl, storeReg16_effect 6 .s m s⟩

/-! ## LEA (41_load_store.md R196 to R200) -/

/-- LEA with Z: the address goes into the register, and Z is the one flag written. -/
theorem loadEa_writesZ_effect (r : Reg16) (ix : Indexed) (s : State) :
    let ea := (resolveIndexed ix s).1
    let t := loadEa r true ix s
    t.cpu = { ((resolveIndexed ix s).2.setReg16 r ea).cpu with cc := t.cpu.cc } ∧
      getFlag t.cpu.cc .z = decide (ea.toNat = 0) ∧ KeepsFlags [.c, .v, .n, .i, .h, .f, .e] s.cpu.cc t.cpu.cc ∧
      t.cyc = s.cyc + 4 + indexedCycles ix ∧ t.draws = s.draws ∧ SameOutside s t := by
  intro ea
  rw [loadEa_eq]
  have hz : getFlag (putFlag s.cpu.cc .z (ea == 0)) .z = decide (ea.toNat = 0) :=
    (getFlag_putFlag_same _ _ _).trans (beq_zero_eq_decide_toNat ea)
  exact ⟨rfl, hz, (KeepsFlags.refl _ _).putFlag (by decide) _, Nat.add_right_comm _ _ _, rfl,
    withRegs_sameOutside _ _ _ _⟩

/-- LEA without Z: neither the resolver nor the write of the register reaches a flag. -/
theorem loadEa_keepsZ_effect (r : Reg16) (ix : Indexed) (s : State) :
    let t := loadEa r false ix s
    t.cpu = ((resolveIndexed ix s).2.setReg16 r (resolveIndexed ix s).1).cpu ∧
      t.cyc = s.cyc + 4 + indexedCycles ix ∧ t.draws = s.draws ∧ SameOutside s t := by
  have hcc : ((resolveIndexed ix s).2.setReg16 r (resolveIndexed ix s).1).cpu.cc = s.cpu.cc := by
    rw [← resolveIndexed_cc ix s]
    cases r <;> rfl
  rw [loadEa_eq, if_neg Bool.false_ne_true, ← hcc]
  exact ⟨rfl, Nat.add_right_comm _ _ _, rfl, withRegs_sameOutside _ _ _ _⟩

/-- Settles O35: LEA with Z for X and Y, and without it for S and U, where P_LEASU_Z is false. -/
theorem loadEffectiveAddress : Obligations.LoadEffectiveAddress := by
  intro ix s
  refine ⟨fun e he => ?leaxLeay, fun e he => ?leasLeau⟩
  case leaxLeay =>
    simp only [List.mem_cons, List.not_mem_nil, or_false] at he
    obtain rfl | rfl := he
    · exact ⟨_, rfl, loadEa_writesZ_effect .x ix s⟩
    · exact ⟨_, rfl, loadEa_writesZ_effect .y ix s⟩
  case leasLeau =>
    simp only [List.mem_cons, List.not_mem_nil, or_false] at he
    obtain rfl | rfl := he
    · exact ⟨_, rfl, loadEa_keepsZ_effect .s ix s⟩
    · exact ⟨_, rfl, loadEa_keepsZ_effect .u ix s⟩

end Sys2Proof.Machine
end

section
/-! PROOFS. 8-bit arithmetic and logic (42_alu8.md): carry and overflow against the unsigned and signed values of the
operands, the conditions after a compare, and the instructions on A and B. Overflow and order are proved for every word
width, so that 8-bit and 16-bit operations share them. -/

namespace Sys2Proof.Machine

/-! ## Signed overflow at any width (42_alu8.md R220, R221, 43_alu16.md R260, R261) -/

/-- No signed word of `w` bits is `v`; doubled, so that the bound is `2^w` and not `2^(w - 1)`. -/
def outOfRange (w : Nat) (v : Int) : Bool := decide (2 * v < -2 ^ w ∨ 2 ^ w ≤ 2 * v)

theorem outOfRange_eight (v : Int) : outOfRange 8 v = decide (v < -128 ∨ 127 < v) :=
  decide_eq_decide.mpr (by omega)

theorem outOfRange_eq_false {w : Nat} {v : Int} (hlo : -2 ^ w ≤ 2 * v) (hhi : 2 * v < 2 ^ w) :
    outOfRange w v = false :=
  decide_eq_false (by omega)

theorem two_pow_even {w : Nat} (hw : 0 < w) : ∃ n : Int, (2 : Int) ^ w = 2 * n :=
  ⟨2 ^ (w - 1), by rw [← pow_succ', Nat.sub_add_cancel hw]⟩

/-- A word that wraps around at most once has the wrong sign exactly when its true value is out of range. -/
theorem outOfRange_eq_msb_bne {w : Nat} (hw : 0 < w) {r : BitVec w} {v : Int} (hr : r.toInt = v.bmod (2 ^ w))
    (hlo : -2 ^ w ≤ v) (hhi : v < 2 ^ w) : outOfRange w v = (r.msb != decide (v < 0)) := by
  obtain ⟨n, hn⟩ := two_pow_even hw
  have hmod : v % (2 * n) = if v < 0 then v + 2 * n else v := by
    split
    · rw [← Int.add_emod_right, Int.emod_eq_of_lt] <;> omega
    · exact Int.emod_eq_of_lt (by omega) (by omega)
  rw [Int.bmod_def, Nat.cast_pow, Nat.cast_ofNat, hn, hmod] at hr
  rw [outOfRange, BitVec.msb_eq_toInt, hn, Bool.eq_iff_iff]
  simp only [decide_eq_true_eq, bne_iff_ne, ne_eq, decide_eq_decide]
  omega

section overflow

variable {w : Nat} (a m : BitVec w) (c : Bool)

theorem toInt_wrapped_sum :
    (BitVec.ofNat w (a.toNat + m.toNat + c.toNat)).toInt = (a.toInt + m.toInt + c.toNat).bmod (2 ^ w) := by
  have hsum : (a.toInt + m.toInt).bmod (2 ^ w) = ((a.toNat : Int) + m.toNat).bmod (2 ^ w) := by
    rw [a.toInt_eq_toNat_bmod, m.toInt_eq_toNat_bmod, Int.bmod_add_bmod, Int.add_bmod_bmod]
  rw [BitVec.toInt_ofNat', Nat.cast_add, Nat.cast_add, ← Int.bmod_add_bmod, ← hsum, Int.bmod_add_bmod]

theorem toInt_wrapped_difference :
    (BitVec.ofInt w (a.toNat - m.toNat - c.toNat)).toInt = (a.toInt - m.toInt - c.toNat).bmod (2 ^ w) := by
  have hdifference : (a.toInt - m.toInt).bmod (2 ^ w) = ((a.toNat : Int) - m.toNat).bmod (2 ^ w) := by
    rw [a.toInt_eq_toNat_bmod, m.toInt_eq_toNat_bmod, Int.bmod_sub_bmod, Int.sub_bmod_bmod]
  rw [BitVec.toInt_ofInt, ← Int.bmod_sub_bmod, ← hdifference, Int.bmod_sub_bmod]

theorem toInt_bounds : -2 ^ w ≤ 2 * a.toInt ∧ 2 * a.toInt < 2 ^ w := ⟨a.le_two_mul_toInt, a.two_mul_toInt_lt⟩

/-- An addend whose sign bit is `neg`: out of range is where both have the sign that the result has not. The addend
counts the carry or the borrow, so it can be 0 with either sign bit, and reaches `2^(w - 1)` itself. -/
theorem sign_rule_eq_outOfRange (hw : 0 < w) {y : Int} {neg : Bool} {r : BitVec w}
    (hneg : neg = true → -2 ^ w ≤ 2 * y ∧ y ≤ 0) (hpos : neg = false → 0 ≤ y ∧ 2 * y ≤ 2 ^ w)
    (hr : r.toInt = (a.toInt + y).bmod (2 ^ w)) :
    (a.msb == neg && a.msb != r.msb) = outOfRange w (a.toInt + y) := by
  have ha := toInt_bounds a
  have hsign : outOfRange w (a.toInt + y) = (r.msb != decide (a.toInt + y < 0)) := by
    cases neg with
    | true => have hy := hneg rfl; exact outOfRange_eq_msb_bne hw hr (by omega) (by omega)
    | false => have hy := hpos rfl; exact outOfRange_eq_msb_bne hw hr (by omega) (by omega)
  rw [a.msb_eq_toInt]
  by_cases hna : a.toInt < 0 <;> cases neg
  case pos.true =>
    have hsum : a.toInt + y < 0 := by have hy := hneg rfl; omega
    simp [hsign, hna, hsum]
  case neg.false =>
    have hsum : ¬ a.toInt + y < 0 := by have hy := hpos rfl; omega
    simp [hsign, hna, hsum]
  case pos.false =>
    have hy := hpos rfl
    simp [hna, outOfRange_eq_false (w := w) (v := a.toInt + y) (by omega) (by omega)]
  case neg.true =>
    have hy := hneg rfl
    simp [hna, outOfRange_eq_false (w := w) (v := a.toInt + y) (by omega) (by omega)]

/-- V of an addition as the specification computes it. -/
theorem msb_sum_eq_outOfRange (hw : 0 < w) :
    let r := BitVec.ofNat w (a.toNat + m.toNat + c.toNat)
    ((a ^^^ r) &&& (m ^^^ r)).msb = outOfRange w (a.toInt + m.toInt + c.toNat) := by
  intro r
  obtain ⟨n, hn⟩ := two_pow_even hw
  have hc : c.toNat ≤ 1 := c.toNat_le
  have hm := toInt_bounds m
  have hr : r.toInt = (a.toInt + (m.toInt + c.toNat)).bmod (2 ^ w) := by
    rw [← Int.add_assoc]; exact toInt_wrapped_sum a m c
  rw [Int.add_assoc, ← sign_rule_eq_outOfRange a hw (neg := m.msb) ?negative ?positive hr]
  case negative =>
    intro h
    rw [BitVec.msb_eq_toInt, decide_eq_true_eq] at h
    omega
  case positive =>
    intro h
    rw [BitVec.msb_eq_toInt, decide_eq_false_iff_not] at h
    omega
  rw [BitVec.msb_and, BitVec.msb_xor, BitVec.msb_xor]
  cases a.msb <;> cases m.msb <;> cases r.msb <;> rfl

/-- V of a subtraction as the specification computes it: the addend is the negated subtrahend. -/
theorem msb_difference_eq_outOfRange (hw : 0 < w) :
    let r := BitVec.ofInt w (a.toNat - m.toNat - c.toNat)
    ((a ^^^ m) &&& (a ^^^ r)).msb = outOfRange w (a.toInt - m.toInt - c.toNat) := by
  intro r
  obtain ⟨n, hn⟩ := two_pow_even hw
  have hc : c.toNat ≤ 1 := c.toNat_le
  have hm := toInt_bounds m
  have hv : a.toInt - m.toInt - c.toNat = a.toInt + (-m.toInt - c.toNat) := by omega
  have hr : r.toInt = (a.toInt + (-m.toInt - c.toNat)).bmod (2 ^ w) := hv ▸ toInt_wrapped_difference a m c
  rw [hv, ← sign_rule_eq_outOfRange a hw (neg := !m.msb) ?negative ?positive hr]
  case negative =>
    intro h
    rw [BitVec.msb_eq_toInt, Bool.not_eq_true', decide_eq_false_iff_not] at h
    omega
  case positive =>
    intro h
    rw [BitVec.msb_eq_toInt, Bool.not_eq_false', decide_eq_true_eq] at h
    omega
  rw [BitVec.msb_and, BitVec.msb_xor, BitVec.msb_xor]
  cases a.msb <;> cases m.msb <;> cases r.msb <;> rfl

end overflow

/-! ## The flags of add8, sub8 and sub16, flag by flag (42_alu8.md R220, R221, 43_alu16.md R261) -/

theorem getFlag_add8 (a m cc : Byte) (c : Bool) (fl : Flag) :
    getFlag (add8 a m c cc).2 fl = match fl with
      | .c => decide (255 < a.toNat + m.toNat + c.toNat)
      | .v => outOfRange 8 (a.toInt + m.toInt + c.toNat)
      | .h => decide (15 < a.toNat % 16 + m.toNat % 16 + c.toNat)
      | .n => (add8 a m c cc).1.msb
      | .z => (add8 a m c cc).1 == 0
      | .i | .f | .e => getFlag cc fl := by
  have hcarry : (a.toNat + m.toNat + c.toNat).testBit 8 = decide (255 < a.toNat + m.toNat + c.toNat) := by
    have hc : c.toNat ≤ 1 := c.toNat_le
    rw [Nat.testBit_eq_decide_div_mod_eq]
    exact decide_eq_decide.mpr (by omega)
  have hv := msb_sum_eq_outOfRange a m c (by decide)
  cases fl <;> simp only [add8, nz8, getFlag_putFlag, reduceCtorEq, if_true, if_false]
  case c => exact hcarry
  case v => exact hv
  case h => rfl

theorem getFlag_sub8 (a m cc : Byte) (b h : Bool) (fl : Flag) :
    getFlag (sub8 a m b h cc).2 fl = match fl with
      | .c => decide (a.toNat < m.toNat + b.toNat)
      | .v => outOfRange 8 (a.toInt - m.toInt - b.toNat)
      | .h => h
      | .n => (sub8 a m b h cc).1.msb
      | .z => (sub8 a m b h cc).1 == 0
      | .i | .f | .e => getFlag cc fl := by
  have hv := msb_difference_eq_outOfRange a m b (by decide)
  cases fl <;> simp only [sub8, nz8, getFlag_putFlag, reduceCtorEq, if_true, if_false]
  case c => exact decide_eq_decide.mpr (by omega)
  case v => exact hv

theorem getFlag_sub16 (a m : Word) (cc : Byte) (fl : Flag) :
    getFlag (sub16 a m cc).2 fl = match fl with
      | .c => decide (a.toNat < m.toNat)
      | .v => outOfRange 16 (a.toInt - m.toInt)
      | .n => (sub16 a m cc).1.msb
      | .z => (sub16 a m cc).1 == 0
      | .h | .i | .f | .e => getFlag cc fl := by
  have hv := msb_difference_eq_outOfRange a m false (by decide)
  simp only [Bool.toNat_false, Nat.cast_zero, Int.sub_zero] at hv
  cases fl <;> simp only [sub16, nz16, getFlag_putFlag, reduceCtorEq, if_true, if_false]
  case c => exact decide_eq_decide.mpr (by omega)
  case v => exact hv

/-! ## 8-bit addition and subtraction (42_alu8.md R220, R221, R223) -/

/-- Settles O23, flag by flag from the table of add8. -/
theorem add8Flags : Obligations.Add8Flags := by
  intro a m cc c r
  refine ⟨BitVec.toNat_ofNat _ _, getFlag_add8 a m cc c .c, ?v, getFlag_add8 a m cc c .h, ?n, ?z, ?kept⟩
  case v => exact (getFlag_add8 a m cc c .v).trans (outOfRange_eight _)
  case n => exact (getFlag_add8 a m cc c .n).trans BitVec.msb_eq_toInt
  case z => exact (getFlag_add8 a m cc c .z).trans (beq_zero_eq_decide_toNat _)
  case kept =>
    intro fl hfl
    simp only [List.mem_cons, List.not_mem_nil, or_false] at hfl
    obtain rfl | rfl | rfl := hfl <;> exact getFlag_add8 a m cc c _

theorem sub8_toNat (a m cc : Byte) (b h : Bool) :
    ((sub8 a m b h cc).1.toNat : Int) = ((a.toNat : Int) - m.toNat - (b.toNat : Int)) % 256 := by
  simp only [sub8, BitVec.toNat_ofInt]
  exact Int.toNat_of_nonneg (Int.emod_nonneg _ (by decide))

/-- The wrapped difference without a borrow is the difference of words. -/
theorem ofInt_toNat_sub_toNat {w : Nat} (a m : BitVec w) : BitVec.ofInt w ((a.toNat : Int) - m.toNat) = a - m := by
  rw [← BitVec.toInt_inj, BitVec.toInt_sub, ← Int.sub_zero ((a.toNat : Int) - m.toNat)]
  simpa using toInt_wrapped_difference a m false

/-- NEG is the subtraction from 0 (44_unary.md R282): V is left to -128 alone, C to every operand but 0. -/
theorem neg8_eq_sub8 (m cc : Byte) (h : Bool) : neg8 m h cc = sub8 0 m false h cc := by
  have hr : BitVec.ofInt 8 (((0 : Byte).toNat : Int) - m.toNat - false.toNat) = 0 - m :=
    (congrArg _ (Int.sub_zero _)).trans (ofInt_toNat_sub_toNat 0 m)
  have hv : ((0 ^^^ m) &&& (0 ^^^ (0 - m))).msb = (m == 0x80) := by
    rw [← hr, msb_difference_eq_outOfRange 0 m false (by decide), outOfRange_eight]
    have hm := toInt_bounds m
    have hzero : (0 : Byte).toInt = 0 := rfl
    have hmin : m = 0x80 ↔ m.toInt = -128 := BitVec.toInt_inj.symm
    exact decide_eq_decide.mpr (by rw [hmin, hzero, Bool.toNat_false]; omega)
  have hc : decide ((((0 : Byte).toNat : Int) - m.toNat - false.toNat) < 0) = (m != 0x00) := by
    have hzero : (m == 0x00) = decide (m.toNat = 0) := beq_zero_eq_decide_toNat m
    rw [bne, hzero, ← decide_not]
    exact decide_eq_decide.mpr (by rw [show (0 : Byte).toNat = 0 from rfl, Bool.toNat_false]; omega)
  simp only [neg8, sub8, hr, hv, hc]

/-- Settles O24, flag by flag from the table of sub8. -/
theorem sub8Flags : Obligations.Sub8Flags := by
  intro a m cc b h r
  refine ⟨sub8_toNat a m cc b h, getFlag_sub8 a m cc b h .c, ?v, ?n, ?z, getFlag_sub8 a m cc b h .h, ?kept,
    neg8_eq_sub8 m cc h⟩
  case v => exact (getFlag_sub8 a m cc b h .v).trans (outOfRange_eight _)
  case n => exact (getFlag_sub8 a m cc b h .n).trans BitVec.msb_eq_toInt
  case z => exact (getFlag_sub8 a m cc b h .z).trans (beq_zero_eq_decide_toNat _)
  case kept =>
    intro fl hfl
    simp only [List.mem_cons, List.not_mem_nil, or_false] at hfl
    obtain rfl | rfl | rfl := hfl <;> exact getFlag_sub8 a m cc b h _

/-! ## The conditions after a compare (42_alu8.md R227, 43_alu16.md R265, 47_control.md R372) -/

/-- The flags of CC order `a` and `m`: C without sign, Z for equality, and N against V with sign. -/
structure FlagsOrder {w : Nat} (a m : BitVec w) (cc : Byte) : Prop where
  below : getFlag cc .c = decide (a.toNat < m.toNat)
  equal : getFlag cc .z = decide (a = m)
  less : (getFlag cc .n != getFlag cc .v) = decide (a.toInt < m.toInt)

/-- Overflow is the wrong sign, so N against V is the sign of the true difference. -/
theorem msb_bne_outOfRange {w : Nat} (hw : 0 < w) (a m : BitVec w) :
    ((a - m).msb != outOfRange w (a.toInt - m.toInt)) = decide (a.toInt < m.toInt) := by
  have ha := toInt_bounds a
  have hm := toInt_bounds m
  have hsign := outOfRange_eq_msb_bne hw (BitVec.toInt_sub (x := a) (y := m)) (by omega) (by omega)
  have hlt : decide (a.toInt - m.toInt < 0) = decide (a.toInt < m.toInt) := decide_eq_decide.mpr (by omega)
  rw [hsign, hlt, ← Bool.bne_assoc, bne_self_eq_false, Bool.false_bne]

theorem sub_beq_zero {w : Nat} (a m : BitVec w) : (a - m == 0) = decide (a = m) :=
  decide_eq_decide.mpr sub_eq_zero

theorem flagsOrder_sub8 (a m cc : Byte) (h : Bool) : FlagsOrder a m (sub8 a m false h cc).2 := by
  have hr : (sub8 a m false h cc).1 = a - m := (congrArg _ (Int.sub_zero _)).trans (ofInt_toNat_sub_toNat a m)
  refine ⟨getFlag_sub8 a m cc false h .c, ?equal, ?less⟩
  case equal => rw [getFlag_sub8, hr, sub_beq_zero]
  case less =>
    have hv : getFlag (sub8 a m false h cc).2 .v = outOfRange 8 (a.toInt - m.toInt) :=
      (getFlag_sub8 a m cc false h .v).trans (congrArg (outOfRange 8) (Int.sub_zero _))
    rw [hv, getFlag_sub8, hr, msb_bne_outOfRange (by decide)]

theorem flagsOrder_sub16 (a m : Word) (cc : Byte) : FlagsOrder a m (sub16 a m cc).2 := by
  have hr : (sub16 a m cc).1 = a - m := ofInt_toNat_sub_toNat a m
  refine ⟨getFlag_sub16 a m cc .c, ?equal, ?less⟩
  case equal => rw [getFlag_sub16, hr, sub_beq_zero]
  case less => rw [getFlag_sub16, getFlag_sub16, hr, msb_bne_outOfRange (by decide)]

/-- Each condition is its flags, and the flags are the order. -/
theorem FlagsOrder.conditions {w : Nat} {a m : BitVec w} {cc : Byte} (h : FlagsOrder a m cc) :
    branchCond .hi cc = decide (m.toNat < a.toNat) ∧ branchCond .ls cc = decide (a.toNat ≤ m.toNat) ∧
    branchCond .cc cc = decide (m.toNat ≤ a.toNat) ∧ branchCond .cs cc = decide (a.toNat < m.toNat) ∧
    branchCond .ne cc = decide (a ≠ m) ∧ branchCond .eq cc = decide (a = m) ∧
    branchCond .ge cc = decide (m.toInt ≤ a.toInt) ∧ branchCond .lt cc = decide (a.toInt < m.toInt) ∧
    branchCond .gt cc = decide (m.toInt < a.toInt) ∧ branchCond .le cc = decide (a.toInt ≤ m.toInt) := by
  obtain ⟨hbelow, hequal, hless⟩ := h
  have hnotLess : (getFlag cc .n == getFlag cc .v) = !decide (a.toInt < m.toInt) := by
    rw [← hless, bne, Bool.not_not]
  have hnat : getFlag cc .z = decide (a.toNat = m.toNat) := hequal.trans (decide_eq_decide.mpr BitVec.toNat_eq)
  have hint : getFlag cc .z = decide (a.toInt = m.toInt) := hequal.trans (decide_eq_decide.mpr BitVec.toInt_inj.symm)
  refine ⟨?hi, ?ls, ?cc, hbelow, ?ne, hequal, ?ge, hless, ?gt, ?le⟩
  case ne => rw [branchCond, hequal, decide_not]
  case hi | ls | cc =>
    simp only [branchCond, hbelow, hnat, ← decide_not, ← Bool.decide_and, ← Bool.decide_or]
    exact decide_eq_decide.mpr (by omega)
  case ge | gt | le =>
    simp only [branchCond, hless, hnotLess, hint, ← decide_not, ← Bool.decide_and, ← Bool.decide_or]
    exact decide_eq_decide.mpr (by omega)

/-- Settles O26, for both widths from the order in the flags. -/
theorem compareThenBranch : Obligations.CompareThenBranch :=
  ⟨fun a m cc h => (flagsOrder_sub8 a m cc h).conditions, fun a m cc => (flagsOrder_sub16 a m cc).conditions⟩

/-! ## The instructions on A and B (42_alu8.md R225 to R242) -/

section accumulators

variable (r : Acc) (o : Op8) (s : State)

theorem addAcc_effect (cin : Bool) :
    let p := operand8 o s
    let q := add8 (p.2.acc r) p.1 cin s.cpu.cc
    let t := addAcc r cin o s
    t.cpu = { (p.2.setAcc r q.1).cpu with cc := q.2 } ∧
      t.cyc = s.cyc + op8Cycles o + extraCycles8 o ∧ t.draws = s.draws ∧ SameOutside s t := by
  rw [addAcc_eq]
  exact ⟨rfl, Nat.add_right_comm _ _ _, rfl, withRegs_sameOutside _ _ _ _⟩

theorem subAcc_effect (bin : Bool) :
    let p := operand8 o s
    let q := sub8 (p.2.acc r) p.1 bin s.drawBit.1 s.cpu.cc
    let t := subAcc r bin o s
    t.cpu = { (p.2.setAcc r q.1).cpu with cc := q.2 } ∧
      t.cyc = s.cyc + op8Cycles o + extraCycles8 o ∧ t.draws = s.draws + 1 ∧ SameOutside s t := by
  rw [subAcc_eq]
  exact ⟨rfl, Nat.add_right_comm _ _ _, rfl, withRegs_sameOutside _ _ _ _⟩

theorem cmpAcc_effect :
    let p := operand8 o s
    let t := cmpAcc r o s
    t.cpu = { p.2.cpu with cc := (sub8 (p.2.acc r) p.1 false s.drawBit.1 s.cpu.cc).2 } ∧
      t.cyc = s.cyc + op8Cycles o + extraCycles8 o ∧ t.draws = s.draws + 1 ∧ SameOutside s t := by
  rw [cmpAcc_eq]
  exact ⟨rfl, Nat.add_right_comm _ _ _, rfl, withRegs_sameOutside _ _ _ _⟩

theorem logicAcc_effect (f : Byte → Byte → Byte) :
    let p := operand8 o s
    let v := f (p.2.acc r) p.1
    let t := logicAcc r f o s
    t.cpu = { (p.2.setAcc r v).cpu with cc := t.cpu.cc } ∧ MoveFlags8 v s.cpu.cc t.cpu.cc ∧
      t.cyc = s.cyc + op8Cycles o + extraCycles8 o ∧ t.draws = s.draws ∧ SameOutside s t := by
  rw [logicAcc_eq]
  exact ⟨rfl, moveFlags8_logic8 _ _, Nat.add_right_comm _ _ _, rfl, withRegs_sameOutside _ _ _ _⟩

theorem bitAcc_effect :
    let p := operand8 o s
    let t := bitAcc r o s
    t.cpu = { p.2.cpu with cc := t.cpu.cc } ∧ MoveFlags8 (p.2.acc r &&& p.1) s.cpu.cc t.cpu.cc ∧
      t.cyc = s.cyc + op8Cycles o + extraCycles8 o ∧ t.draws = s.draws ∧ SameOutside s t := by
  rw [bitAcc_eq]
  exact ⟨rfl, moveFlags8_logic8 _ _, Nat.add_right_comm _ _ _, rfl, withRegs_sameOutside _ _ _ _⟩

end accumulators

/-- Settles O36: the addition for each accumulator, without and with the old C. -/
theorem addAccumulator : Obligations.AddAccumulator := by
  intro o s
  refine ⟨fun e he => ?a, fun e he => ?b⟩
  all_goals
    simp only [List.mem_cons, List.not_mem_nil, or_false] at he
    obtain rfl | rfl := he
  case a.inl => exact ⟨_, rfl, addAcc_effect .a o s false⟩
  case a.inr => exact ⟨_, rfl, addAcc_effect .a o s (getFlag s.cpu.cc .c)⟩
  case b.inl => exact ⟨_, rfl, addAcc_effect .b o s false⟩
  case b.inr => exact ⟨_, rfl, addAcc_effect .b o s (getFlag s.cpu.cc .c)⟩

/-- Settles O37: H is the bit that the instruction draws. -/
theorem subtractAndCompareAccumulator : Obligations.SubtractAndCompareAccumulator := by
  intro o s
  refine ⟨fun e he => ?a, fun e he => ?b, ⟨_, s.drawBit.1, rfl, cmpAcc_effect .a o s⟩,
    ⟨_, s.drawBit.1, rfl, cmpAcc_effect .b o s⟩⟩
  all_goals
    simp only [List.mem_cons, List.not_mem_nil, or_false] at he
    obtain rfl | rfl := he
  case a.inl => exact ⟨_, s.drawBit.1, rfl, subAcc_effect .a o s false⟩
  case a.inr => exact ⟨_, s.drawBit.1, rfl, subAcc_effect .a o s (getFlag s.cpu.cc .c)⟩
  case b.inl => exact ⟨_, s.drawBit.1, rfl, subAcc_effect .b o s false⟩
  case b.inr => exact ⟨_, s.drawBit.1, rfl, subAcc_effect .b o s (getFlag s.cpu.cc .c)⟩

/-- Settles O38: the logical operation for each accumulator; BIT writes no accumulator. -/
theorem logicAccumulator : Obligations.LogicAccumulator := by
  intro o s
  refine ⟨fun e he => ?a, fun e he => ?b⟩
  case a =>
    simp only [List.mem_cons, List.not_mem_nil, or_false] at he
    obtain rfl | rfl | rfl | rfl := he
    · exact ⟨_, rfl, logicAcc_effect .a o s (· &&& ·)⟩
    · exact ⟨_, rfl, logicAcc_effect .a o s (· ^^^ ·)⟩
    · exact ⟨_, rfl, logicAcc_effect .a o s (· ||| ·)⟩
    · exact ⟨_, rfl, bitAcc_effect .a o s⟩
  case b =>
    simp only [List.mem_cons, List.not_mem_nil, or_false] at he
    obtain rfl | rfl | rfl | rfl := he
    · exact ⟨_, rfl, logicAcc_effect .b o s (· &&& ·)⟩
    · exact ⟨_, rfl, logicAcc_effect .b o s (· ^^^ ·)⟩
    · exact ⟨_, rfl, logicAcc_effect .b o s (· ||| ·)⟩
    · exact ⟨_, rfl, bitAcc_effect .b o s⟩

end Sys2Proof.Machine
end

section
/-! PROOFS. 16-bit arithmetic (43_alu16.md): the flags of add16 against the unsigned and signed values of the operands,
as the 8-bit proofs give those of sub16, and the instructions that add, subtract and compare words. -/

namespace Sys2Proof.Machine

/-! ## 16-bit addition and subtraction (43_alu16.md R260 to R262) -/

theorem outOfRange_sixteen (v : Int) : outOfRange 16 v = decide (v < -32768 ∨ 32767 < v) :=
  decide_eq_decide.mpr (by omega)

theorem getFlag_add16 (a m : Word) (cc : Byte) (fl : Flag) :
    getFlag (add16 a m cc).2 fl = match fl with
      | .c => decide (65535 < a.toNat + m.toNat)
      | .v => outOfRange 16 (a.toInt + m.toInt)
      | .n => (add16 a m cc).1.msb
      | .z => (add16 a m cc).1 == 0
      | .h | .i | .f | .e => getFlag cc fl := by
  have hcarry : (a.toNat + m.toNat).testBit 16 = decide (65535 < a.toNat + m.toNat) := by
    rw [Nat.testBit_eq_decide_div_mod_eq]
    exact decide_eq_decide.mpr (by omega)
  have hv := msb_sum_eq_outOfRange a m false (by decide)
  simp only [Bool.toNat_false, Nat.cast_zero, Nat.add_zero, Int.add_zero] at hv
  cases fl <;> simp only [add16, nz16, getFlag_putFlag, reduceCtorEq, if_true, if_false]
  case c => exact hcarry
  case v => exact hv

theorem sub16_toNat (a m : Word) (cc : Byte) :
    ((sub16 a m cc).1.toNat : Int) = ((a.toNat : Int) - m.toNat) % 65536 := by
  simp only [sub16, BitVec.toNat_ofInt]
  exact Int.toNat_of_nonneg (Int.emod_nonneg _ (by decide))

/-- Settles O25, flag by flag from the tables of add16 and sub16. -/
theorem arithmetic16Flags : Obligations.Arithmetic16Flags := by
  intro a m cc
  refine ⟨⟨BitVec.toNat_ofNat _ _, getFlag_add16 a m cc .c, ?addV, ?addN, ?addZ, ?addKept⟩,
    ⟨sub16_toNat a m cc, getFlag_sub16 a m cc .c, ?subV, ?subN, ?subZ, ?subKept⟩⟩
  case addV => exact (getFlag_add16 a m cc .v).trans (outOfRange_sixteen _)
  case addN => exact (getFlag_add16 a m cc .n).trans BitVec.msb_eq_toInt
  case addZ => exact (getFlag_add16 a m cc .z).trans (beq_zero_eq_decide_toNat _)
  case addKept =>
    intro fl hfl
    simp only [List.mem_cons, List.not_mem_nil, or_false] at hfl
    obtain rfl | rfl | rfl | rfl := hfl <;> exact getFlag_add16 a m cc _
  case subV => exact (getFlag_sub16 a m cc .v).trans (outOfRange_sixteen _)
  case subN => exact (getFlag_sub16 a m cc .n).trans BitVec.msb_eq_toInt
  case subZ => exact (getFlag_sub16 a m cc .z).trans (beq_zero_eq_decide_toNat _)
  case subKept =>
    intro fl hfl
    simp only [List.mem_cons, List.not_mem_nil, or_false] at hfl
    obtain rfl | rfl | rfl | rfl := hfl <;> exact getFlag_sub16 a m cc _

/-! ## The instructions on words (43_alu16.md R263 to R269) -/

/-- What writing the registers and counting `n` base cycles and `e` extra ones does, and that it does nothing else. -/
theorem withRegs_effect (s : State) (c : Cpu) (n e : Nat) :
    let t := s.withRegs c (s.cyc + e + n) s.draws
    t.cpu = c ∧ t.cyc = s.cyc + n + e ∧ t.draws = s.draws ∧ SameOutside s t :=
  ⟨rfl, Nat.add_right_comm _ _ _, rfl, withRegs_sameOutside _ _ _ _⟩

/-- A compare reads its register after the resolver (40_addressing.md R165) and writes CC alone. -/
theorem cmpReg16_effect (n : Nat) (r : Reg16) (o : Op16) (s : State) :
    let p := operand16 o s
    let t := cmpReg16 n r o s
    t.cpu = { p.2.cpu with cc := (sub16 (p.2.reg16 r) p.1 s.cpu.cc).2 } ∧
      t.cyc = s.cyc + op16Cycles n o + extraCycles16 o ∧ t.draws = s.draws ∧ SameOutside s t := by
  rw [cmpReg16_eq]
  exact withRegs_effect _ _ _ _

/-- Settles O39: ADDD and SUBD on D, and one compare for the five registers. -/
theorem arithmetic16 : Obligations.Arithmetic16 := by
  intro o s
  refine ⟨fun e he => ?arithmetic, fun e he => ?compare⟩
  case arithmetic =>
    simp only [List.mem_cons, List.not_mem_nil, or_false] at he
    obtain rfl | rfl := he
    · exact ⟨_, congrArg Host.Outcome.next (addD_eq o s), withRegs_effect _ _ _ _⟩
    · exact ⟨_, congrArg Host.Outcome.next (subD_eq o s), withRegs_effect _ _ _ _⟩
  case compare =>
    simp only [List.mem_cons, List.not_mem_nil, or_false] at he
    obtain rfl | rfl | rfl | rfl | rfl := he
    · exact ⟨_, rfl, cmpReg16_effect 4 .x o s⟩
    · exact ⟨_, rfl, cmpReg16_effect 5 .d o s⟩
    · exact ⟨_, rfl, cmpReg16_effect 5 .y o s⟩
    · exact ⟨_, rfl, cmpReg16_effect 5 .u o s⟩
    · exact ⟨_, rfl, cmpReg16_effect 5 .s o s⟩

end Sys2Proof.Machine
end

section
/-! PROOFS. The unary operations, the shifts and the rotates (44_unary.md): each result as a number with the flags that the
operation writes, and the instructions that put them into an accumulator or a memory byte. -/

namespace Sys2Proof.Machine

/-! ## Bits as numbers -/

theorem getLsbD_zero_eq_decide_odd (m : Byte) : m.getLsbD 0 = decide (m.toNat % 2 = 1) := Nat.testBit_zero _

theorem getLsbD_seven_eq_decide_le (m : Byte) : m.getLsbD 7 = decide (128 ≤ m.toNat) := BitVec.msb_eq_decide m

theorem beq_eq_decide_toNat {w : Nat} (a b : BitVec w) : (a == b) = decide (a.toNat = b.toNat) :=
  decide_eq_decide.mpr BitVec.toNat_eq

theorem toNat_shiftRight_one (m : Byte) : (m >>> 1).toNat = m.toNat / 2 := by
  rw [BitVec.toNat_ushiftRight, Nat.shiftRight_eq_div_pow, pow_one]

theorem toNat_shiftLeft_one (m : Byte) : (m <<< 1).toNat = 2 * m.toNat % 256 := by
  rw [BitVec.toNat_shiftLeft, Nat.shiftLeft_eq, pow_one, Nat.mul_comm]

/-- Writing a bit that is clear adds its place value. -/
theorem toNat_putBit_of_clear {b : Byte} {i : Nat} (hi : i < 8) (hb : b.getLsbD i = false) (v : Bool) :
    (putBit b i v).toNat = b.toNat + 2 ^ i * v.toNat := by
  cases v with
  | false =>
    have hsame : putBit b i false = b := by
      refine BitVec.eq_of_getLsbD_eq fun j hj => ?_
      rw [getLsbD_putBit b i false hj]
      by_cases hji : j = i
      · rw [if_pos hji, hji, hb]
      · rw [if_neg hji]
    rw [hsame, Bool.toNat_false, Nat.mul_zero, Nat.add_zero]
  | true =>
    have hdisjoint : b &&& 1#8 <<< i = 0#8 := by
      refine BitVec.eq_of_getLsbD_eq fun j hj => ?_
      rw [BitVec.getLsbD_and, getLsbD_one_shiftLeft i hj, BitVec.getLsbD_zero]
      by_cases hji : j = i
      · rw [hji, hb, Bool.false_and]
      · rw [decide_eq_false hji, Bool.and_false]
    have hsum : putBit b i true = b + 1#8 <<< i := (BitVec.add_eq_or_of_and_eq_zero _ _ hdisjoint).symm
    rw [hsum, BitVec.toNat_add_of_and_eq_zero hdisjoint, ← BitVec.twoPow_eq, BitVec.toNat_twoPow_of_lt hi,
      Bool.toNat_true, Nat.mul_one]

/-- The shift that keeps bit 7 is the signed shift. -/
theorem signBit_or_shiftRight_eq_sshiftRight (m : Byte) : (m &&& 0x80) ||| (m >>> 1) = m.sshiftRight 1 := by
  refine BitVec.eq_of_getLsbD_eq fun j hj => ?_
  have hsign : ((0x80 : Nat) : Byte).getLsbD j = decide (j = 7) := getLsbD_one_shiftLeft 7 hj
  rw [BitVec.getLsbD_or, BitVec.getLsbD_and, hsign, BitVec.getLsbD_ushiftRight, BitVec.getLsbD_sshiftRight,
    decide_eq_false (by omega : ¬ 8 ≤ j), Bool.not_false, Bool.true_and]
  by_cases h7 : j = 7
  · subst h7
    have htop : m.getLsbD (1 + 7) = false := BitVec.getLsbD_of_ge m 8 (le_refl 8)
    rw [htop, Bool.or_false, decide_eq_true rfl, Bool.and_true]
    rfl
  · rw [decide_eq_false h7, Bool.and_false, Bool.false_or, if_pos (by omega)]

/-- Bits 7 and 6 differ where the doubled signed value is out of range. -/
theorem bits_differ_eq_double_overflow (m : Byte) :
    (m.getLsbD 7 != m.getLsbD 6) = decide (2 * m.toInt < -128 ∨ 127 < 2 * m.toInt) := by
  have hm := toInt_bounds m
  have hdouble : (m <<< 1).toInt = (2 * m.toInt).bmod (2 ^ 8) := by
    have hadd : m <<< 1 = m + m := BitVec.eq_of_toNat_eq (by rw [toNat_shiftLeft_one, BitVec.toNat_add]; omega)
    rw [hadd, BitVec.toInt_add, two_mul]
  have hneg : decide (2 * m.toInt < 0) = m.getLsbD 7 := by
    have hsign : m.getLsbD 7 = decide (m.toInt < 0) := BitVec.msb_eq_toInt (x := m)
    exact hsign ▸ decide_eq_decide.mpr (by omega)
  have hmsb : (m <<< 1).msb = m.getLsbD 6 := by
    rw [BitVec.msb_shiftLeft, BitVec.getMsbD_eq_getLsbD]; rfl
  rw [← outOfRange_eight, outOfRange_eq_msb_bne (by decide) hdouble (by omega) (by omega), hneg, hmsb, bne_comm]

/-! ## The flags that an operation writes (44_unary.md R283, R285 to R289) -/

/-- The flags written by an operation with result `r`: N and Z always, C, V and H where a value is given. -/
def resultFlags (c v h : Option Bool) (r : Byte) : Flag → Option Bool
  | .c => c
  | .v => v
  | .h => h
  | .n => some (decide (r.toInt < 0))
  | .z => some (decide (r.toNat = 0))
  | .i | .f | .e => none

theorem keepsFlags_of_unwritten {written : Flag → Option Bool} {flags : List Flag} {cc cc' : Byte}
    (hcc : ∀ fl, getFlag cc' fl = (written fl).getD (getFlag cc fl)) (hflags : ∀ fl ∈ flags, written fl = none) :
    KeepsFlags flags cc cc' := by
  intro fl hfl
  rw [hcc, hflags fl hfl, Option.getD_none]

theorem getFlag_nz8 (r cc : Byte) (fl : Flag) :
    getFlag (nz8 r cc) fl = (resultFlags none none none r fl).getD (getFlag cc fl) := by
  cases fl <;> simp [nz8, resultFlags, getFlag_putFlag, BitVec.msb_eq_toInt, beq_zero_eq_decide_toNat]

section flags

variable (m cc : Byte) (h : Bool) (fl : Flag)

theorem getFlag_com8 :
    getFlag (com8 m cc).2 fl =
      (resultFlags (some true) (some false) none (com8 m cc).1 fl).getD (getFlag cc fl) := by
  cases fl <;> simp [com8, getFlag_putFlag, getFlag_nz8, resultFlags]

theorem getFlag_ror8 :
    getFlag (ror8 m cc).2 fl =
      (resultFlags (some (m.getLsbD 0)) none none (ror8 m cc).1 fl).getD (getFlag cc fl) := by
  cases fl <;> simp [ror8, getFlag_putFlag, getFlag_nz8, resultFlags]

theorem getFlag_asr8 :
    getFlag (asr8 m h cc).2 fl =
      (resultFlags (some (m.getLsbD 0)) none (some h) (asr8 m h cc).1 fl).getD (getFlag cc fl) := by
  cases fl <;> simp [asr8, getFlag_putFlag, getFlag_nz8, resultFlags]

theorem getFlag_asl8 :
    getFlag (asl8 m h cc).2 fl =
      (resultFlags (some (m.getLsbD 7)) (some (m.getLsbD 7 != m.getLsbD 6)) (some h) (asl8 m h cc).1 fl).getD
        (getFlag cc fl) := by
  cases fl <;> simp [asl8, getFlag_putFlag, getFlag_nz8, resultFlags]

theorem getFlag_rol8 :
    getFlag (rol8 m cc).2 fl =
      (resultFlags (some (m.getLsbD 7)) (some (m.getLsbD 7 != m.getLsbD 6)) none (rol8 m cc).1 fl).getD
        (getFlag cc fl) := by
  cases fl <;> simp [rol8, getFlag_putFlag, getFlag_nz8, resultFlags]

theorem getFlag_dec8 :
    getFlag (dec8 m cc).2 fl =
      (resultFlags none (some (m == 0x80)) none (dec8 m cc).1 fl).getD (getFlag cc fl) := by
  cases fl <;> simp [dec8, getFlag_putFlag, getFlag_nz8, resultFlags]

theorem getFlag_inc8 :
    getFlag (inc8 m cc).2 fl =
      (resultFlags none (some (m == 0x7F)) none (inc8 m cc).1 fl).getD (getFlag cc fl) := by
  cases fl <;> simp [inc8, getFlag_putFlag, getFlag_nz8, resultFlags]

/-! ## The results as numbers (44_unary.md R283 to R289) -/

theorem com8_toNat : (com8 m cc).1.toNat = 255 - m.toNat := by
  have hnot : m ^^^ 0xFF = ~~~m := BitVec.xor_allOnes
  rw [com8, hnot, BitVec.toNat_not]

theorem ror8_toNat : (ror8 m cc).1.toNat = m.toNat / 2 + 128 * (getFlag cc .c).toNat := by
  have hclear : (m >>> 1).getLsbD 7 = false := by
    rw [BitVec.getLsbD_ushiftRight]
    exact BitVec.getLsbD_of_ge m 8 (le_refl 8)
  rw [ror8, toNat_putBit_of_clear (by decide) hclear, toNat_shiftRight_one]
  rfl

theorem asr8_toInt : (asr8 m h cc).1.toInt = m.toInt / 2 := by
  rw [asr8, signBit_or_shiftRight_eq_sshiftRight, BitVec.toInt_sshiftRight, Int.shiftRight_eq_div_pow, pow_one]
  rfl

theorem rol8_toNat : (rol8 m cc).1.toNat = (2 * m.toNat + (getFlag cc .c).toNat) % 256 := by
  have hc : (getFlag cc .c).toNat ≤ 1 := Bool.toNat_le _
  have hclear : (m <<< 1).getLsbD 0 = false := by simp
  rw [rol8, toNat_putBit_of_clear (by decide) hclear, toNat_shiftLeft_one]
  omega

end flags

/-- Settles O27, operation by operation: the result's number, then the flags from the operation's table. -/
theorem shiftAndUnaryFlags : Obligations.ShiftAndUnaryFlags := by
  intro m cc h
  refine ⟨?com, ?lsr, ?ror, ?asr, ?asl, ?rol, ?dec, ?inc, moveFlags8_logic8 m cc, ?clr⟩
  case com =>
    have hf := getFlag_com8 m cc
    exact ⟨com8_toNat m cc, hf .n, hf .z, hf .v, hf .c, keepsFlags_of_unwritten hf (by simp [resultFlags])⟩
  case lsr =>
    have hz : getFlag (lsr8 m cc).2 .z = decide ((lsr8 m cc).1.toNat = 0) :=
      (getFlag_putFlag_same _ _ _).trans (beq_zero_eq_decide_toNat _)
    have hn : getFlag (lsr8 m cc).2 .n = false := by simp [lsr8, getFlag_putFlag]
    have hc : getFlag (lsr8 m cc).2 .c = m.getLsbD 0 := by simp [lsr8, getFlag_putFlag]
    exact ⟨toNat_shiftRight_one m, hn, hz, hc.trans (getLsbD_zero_eq_decide_odd m),
      (((KeepsFlags.refl _ cc).putFlag (by decide) _).putFlag (by decide) _).putFlag (by decide) _⟩
  case ror =>
    have hf := getFlag_ror8 m cc
    exact ⟨ror8_toNat m cc, hf .n, hf .z, (hf .c).trans (getLsbD_zero_eq_decide_odd m),
      keepsFlags_of_unwritten hf (by simp [resultFlags])⟩
  case asr =>
    have hf := getFlag_asr8 m cc h
    exact ⟨asr8_toInt m cc h, hf .n, hf .z, (hf .c).trans (getLsbD_zero_eq_decide_odd m), hf .h,
      keepsFlags_of_unwritten hf (by simp [resultFlags])⟩
  case asl =>
    have hf := getFlag_asl8 m cc h
    exact ⟨toNat_shiftLeft_one m, hf .n, hf .z, (hf .c).trans (getLsbD_seven_eq_decide_le m),
      (hf .v).trans (bits_differ_eq_double_overflow m), hf .h, keepsFlags_of_unwritten hf (by simp [resultFlags])⟩
  case rol =>
    have hf := getFlag_rol8 m cc
    exact ⟨rol8_toNat m cc, hf .n, hf .z, (hf .c).trans (getLsbD_seven_eq_decide_le m), hf .v,
      keepsFlags_of_unwritten hf (by simp [resultFlags])⟩
  case dec =>
    have hf := getFlag_dec8 m cc
    have hr : (dec8 m cc).1.toNat = (m.toNat + 255) % 256 := by
      have hone : (1 : Byte).toNat = 1 := rfl
      rw [dec8, BitVec.toNat_sub, hone]
      omega
    exact ⟨hr, hf .n, hf .z, (hf .v).trans (beq_eq_decide_toNat m 0x80),
      keepsFlags_of_unwritten hf (by simp [resultFlags])⟩
  case inc =>
    have hf := getFlag_inc8 m cc
    exact ⟨BitVec.toNat_add m 1, hf .n, hf .z, (hf .v).trans (beq_eq_decide_toNat m 0x7F),
      keepsFlags_of_unwritten hf (by simp [resultFlags])⟩
  case clr =>
    refine ⟨rfl, ?n, ?z, ?v, getFlag_putFlag_same _ _ _, ?kept⟩
    case kept =>
      exact ((((KeepsFlags.refl _ cc).putFlag (by decide) _).putFlag (by decide) _).putFlag (by decide) _).putFlag
        (by decide) _
    case n | z | v => simp [clr8, getFlag_putFlag]

/-! ## The instructions on A and B (44_unary.md R280) -/

/-- Settles O40: one operation on an accumulator, with H drawn for the last three; TST writes its operand back. -/
theorem unaryAccumulator : Obligations.UnaryAccumulator := by
  intro s
  refine ⟨fun e he => ?a, fun e he => ?b, fun e he => ⟨s.drawBit.1, ?aDrawn⟩, fun e he => ⟨s.drawBit.1, ?bDrawn⟩⟩
  all_goals simp only [List.mem_cons, List.not_mem_nil, or_false] at he
  case a =>
    have hexec : exec e.1 s = .next (unaryAcc .a e.2 s) := by
      obtain rfl | rfl | rfl | rfl | rfl | rfl | rfl | rfl := he <;> rfl
    rw [hexec, unaryAcc_eq]
    rfl
  case b =>
    have hexec : exec e.1 s = .next (unaryAcc .b e.2 s) := by
      obtain rfl | rfl | rfl | rfl | rfl | rfl | rfl | rfl := he <;> rfl
    rw [hexec, unaryAcc_eq]
    rfl
  case aDrawn =>
    have hexec : exec e.1 s = .next (unaryAccH .a e.2 s) := by obtain rfl | rfl | rfl := he <;> rfl
    rw [hexec, unaryAccH_eq]
    rfl
  case bDrawn =>
    have hexec : exec e.1 s = .next (unaryAccH .b e.2 s) := by obtain rfl | rfl | rfl := he <;> rfl
    rw [hexec, unaryAccH_eq]
    rfl

/-! ## The instructions on a memory byte (44_unary.md R280, R281) -/

/-- One controller write, with other registers and counters beside it. -/
theorem memWrite_withRegs_effect (s : State) (ea : Word) (v : Byte) (c : Cpu) (n d : Nat) :
    let t := (s.memWrite ea v).withRegs c n d
    WritesAs s (s.memWrite ea v) t ∧ KeepsMemoryOutside [s.phys ea] s t ∧
      (s.isRom ea = true → SameOutside s t) ∧ (s.plain ea → t.mem.read (s.phys ea) = v) := by
  refine ⟨(CpuReach.start.write ea v).writesAs _ _ _, memWrite_keepsOutside s ea v, fun hrom => ?dropped,
    fun hplain => ?stored⟩
  case dropped =>
    rw [memWrite_rom hrom]
    exact withRegs_sameOutside _ _ _ _
  case stored => rw [withRegs_mem, memWrite_plain_mem hplain, Memory.read_write, if_pos rfl]

/-- Settles O41: one read-modify-write for every operation, with H drawn for three of them; TST only reads. -/
theorem unaryMemory : Obligations.UnaryMemory := by
  intro m s ea c v
  refine ⟨fun e he => ⟨unaryMem m e.2 s, ?flags⟩, fun e he => ⟨unaryMemH m e.2 s, s.drawBit.1, ?drawn⟩,
    testMem m s, ?test⟩
  case flags =>
    have hexec : exec (e.1 m) s = .next (unaryMem m e.2 s) := by
      simp only [List.mem_cons, List.not_mem_nil, or_false] at he
      obtain rfl | rfl | rfl | rfl | rfl | rfl | rfl := he <;> rfl
    rw [unaryMem_eq] at hexec ⊢
    exact ⟨hexec, rfl, Nat.add_right_comm _ _ _, rfl, memWrite_withRegs_effect _ _ _ _ _ _⟩
  case drawn =>
    have hexec : exec (e.1 m) s = .next (unaryMemH m e.2 s) := by
      simp only [List.mem_cons, List.not_mem_nil, or_false] at he
      obtain rfl | rfl | rfl := he <;> rfl
    rw [unaryMemH_eq] at hexec ⊢
    exact ⟨hexec, rfl, Nat.add_right_comm _ _ _, rfl, memWrite_withRegs_effect _ _ _ _ _ _⟩
  case test =>
    rw [testMem_eq]
    exact ⟨congrArg Host.Outcome.next (testMem_eq m s), withRegs_effect _ _ _ _⟩

end Sys2Proof.Machine
end

section
/-! PROOFS. ABX, MUL, SEX and DAA (45_misc.md R340 to R343): what each puts into the registers and CC, and the decimal law
of DAA after an addition. -/

namespace Sys2Proof.Machine

/-! ## ABX, MUL and SEX (45_misc.md R340 to R342) -/

theorem addBToX_eq (s : State) :
    addBToX s = s.withRegs { s.cpu with x := s.cpu.x + zext8 s.cpu.b } (s.cyc + 3) s.draws := rfl

theorem add_zext8_toNat (w : Word) (b : Byte) : (w + zext8 b).toNat = (w.toNat + b.toNat) % 65536 := by
  have hb : (zext8 b).toNat = b.toNat := BitVec.toNat_setWidth_of_le (by decide)
  rw [BitVec.toNat_add, hb]

theorem multiply_eq (s : State) :
    multiply s = s.withRegs
      { s.cpu with
        a := hiByte (mul8 s.cpu.a s.cpu.b s.cpu.cc).1
        b := loByte (mul8 s.cpu.a s.cpu.b s.cpu.cc).1
        cc := (mul8 s.cpu.a s.cpu.b s.cpu.cc).2 } (s.cyc + 11) s.draws := rfl

/-- The product of two bytes fits in a word. -/
theorem mul8_toNat (a b cc : Byte) : (mul8 a b cc).1.toNat = a.toNat * b.toNat := by
  have hfits : a.toNat * b.toNat < 2 ^ 8 * 2 ^ 8 := Nat.mul_lt_mul'' a.isLt b.isLt
  exact (BitVec.toNat_ofNat _ _).trans (Nat.mod_eq_of_lt hfits)

theorem hiByte_loByte_toNat (w : Word) : (hiByte w).toNat * 256 + (loByte w).toNat = w.toNat := by
  simp only [hiByte, loByte, BitVec.extractLsb'_toNat, Nat.shiftRight_eq_div_pow]
  omega

theorem loByte_getLsbD_seven (w : Word) : (loByte w).getLsbD 7 = w.getLsbD 7 := by
  rw [loByte, BitVec.getLsbD_extractLsb']
  rfl

theorem mul8_flags (a b cc : Byte) :
    getFlag (mul8 a b cc).2 .z = decide (a.toNat * b.toNat = 0) ∧
      getFlag (mul8 a b cc).2 .c = (mul8 a b cc).1.getLsbD 7 ∧
      KeepsFlags [.v, .n, .i, .h, .f, .e] cc (mul8 a b cc).2 := by
  have hz : getFlag (mul8 a b cc).2 .z = ((mul8 a b cc).1 == 0) := by simp [mul8, getFlag_putFlag]
  refine ⟨?z, getFlag_putFlag_same _ _ _, ((KeepsFlags.refl _ cc).putFlag (by decide) _).putFlag (by decide) _⟩
  case z => rw [hz, ← mul8_toNat a b cc]; exact beq_zero_eq_decide_toNat _

/-- The byte of sign bits that SEX puts above `b`. -/
def signByte (b : Byte) : Byte := if b.msb then 0xFF else 0x00

theorem signExtendB_eq (s : State) :
    signExtendB s = s.withRegs
      { s.cpu with a := signByte s.cpu.b, cc := nz16 (joinBytes (signByte s.cpu.b) s.cpu.b) s.cpu.cc }
      (s.cyc + 2) s.draws := rfl

theorem signByte_joinBytes_toInt (b : Byte) : (joinBytes (signByte b) b).toInt = b.toInt := by
  have hsext : joinBytes (signByte b) b = b.signExtend 16 :=
    (BitVec.signExtend_eq_append_of_le (by decide : 8 ≤ 16)).symm
  rw [hsext, BitVec.toInt_signExtend_of_le (by decide)]

theorem decide_toInt_eq_zero (b : Byte) : decide (b.toInt = 0) = decide (b.toNat = 0) :=
  decide_eq_decide.mpr ((BitVec.toInt_inj (y := 0#8)).trans BitVec.toNat_eq)

theorem nz16_flags (r : Word) (cc : Byte) :
    getFlag (nz16 r cc) .n = decide (r.toInt < 0) ∧ getFlag (nz16 r cc) .z = decide (r.toInt = 0) ∧
      KeepsFlags [.c, .v, .i, .h, .f, .e] cc (nz16 r cc) := by
  have hz : getFlag (nz16 r cc) .z = (r == 0) := getFlag_putFlag_same _ _ _
  refine ⟨?n, ?z, ((KeepsFlags.refl _ cc).putFlag (by decide) _).putFlag (by decide) _⟩
  case n => simp [nz16, getFlag_putFlag, BitVec.msb_eq_toInt]
  case z => rw [hz]; exact decide_eq_decide.mpr BitVec.toInt_inj.symm

/-! ## DAA (45_misc.md R343) -/

/-- What DAA adds for the low digit of `a`, with H. -/
def daaLow (a : Nat) (h : Bool) : Nat := if h = true ∨ 9 < a % 16 then 6 else 0

/-- What DAA adds for the high digit of `a`, with C. -/
def daaHigh (a : Nat) (c : Bool) : Nat := if c = true ∨ 9 < a / 16 ∨ (8 < a / 16 ∧ 9 < a % 16) then 96 else 0

/-- The sum that DAA truncates to a byte. -/
def daaSum (a cc : Byte) : Nat := a.toNat + daaLow a.toNat (getFlag cc .h) + daaHigh a.toNat (getFlag cc .c)

theorem daaSum_lt (a cc : Byte) : daaSum a cc < 512 := by
  have hlow : daaLow a.toNat (getFlag cc .h) ≤ 6 := by unfold daaLow; split <;> omega
  have hhigh : daaHigh a.toNat (getFlag cc .c) ≤ 96 := by unfold daaHigh; split <;> omega
  have ha := a.isLt
  unfold daaSum
  omega

theorem daa8_eq (a cc : Byte) (v : Bool) :
    daa8 a v cc =
      (BitVec.ofNat 8 (daaSum a cc),
        putFlag (putFlag (nz8 (BitVec.ofNat 8 (daaSum a cc)) cc) .c (getFlag cc .c || (daaSum a cc).testBit 8)) .v v) := by
  simp only [daa8, daaSum, daaLow, daaHigh, Nat.add_assoc, Bool.or_eq_true, Bool.and_eq_true, decide_eq_true_eq, or_assoc]

theorem daa8_toNat (a cc : Byte) (v : Bool) : (daa8 a v cc).1.toNat = daaSum a cc % 256 := by
  rw [daa8_eq]
  exact BitVec.toNat_ofNat _ _

theorem getFlag_daa8 (a cc : Byte) (v : Bool) (fl : Flag) :
    getFlag (daa8 a v cc).2 fl =
      (resultFlags (some (getFlag cc .c || decide (255 < daaSum a cc))) (some v) none (daa8 a v cc).1 fl).getD
        (getFlag cc fl) := by
  have hcarry : (daaSum a cc).testBit 8 = decide (255 < daaSum a cc) := by
    have hlt := daaSum_lt a cc
    rw [Nat.testBit_eq_decide_div_mod_eq]
    exact decide_eq_decide.mpr (by omega)
  rw [daa8_eq, hcarry]
  cases fl <;> simp [getFlag_putFlag, getFlag_nz8, resultFlags]

theorem decimalAdjust_eq (s : State) :
    decimalAdjust s = s.withRegs
      { s.cpu with
        a := (daa8 s.cpu.a s.drawBit.1 s.cpu.cc).1
        cc := (daa8 s.cpu.a s.drawBit.1 s.cpu.cc).2 } (s.cyc + 2) (s.draws + 1) := rfl

/-- Settles O42: each instruction writes registers beside its cycles, with the values and flags of the lemmas above. -/
theorem registerArithmetic : Obligations.RegisterArithmetic := by
  intro s
  refine ⟨⟨_, congrArg Host.Outcome.next (addBToX_eq s), ?abx⟩, ⟨_, congrArg Host.Outcome.next (multiply_eq s), ?mul⟩,
    ⟨_, congrArg Host.Outcome.next (signExtendB_eq s), ?sex⟩, ⟨_, congrArg Host.Outcome.next (decimalAdjust_eq s), ?daa⟩⟩
  case abx => exact ⟨rfl, add_zext8_toNat _ _, rfl, rfl, withRegs_sameOutside _ _ _ _⟩
  case mul =>
    obtain ⟨hz, hc, hkept⟩ := mul8_flags s.cpu.a s.cpu.b s.cpu.cc
    have hproduct := (hiByte_loByte_toNat _).trans (mul8_toNat s.cpu.a s.cpu.b s.cpu.cc)
    exact ⟨rfl, hproduct, hz, hc.trans (loByte_getLsbD_seven _).symm, hkept, rfl, rfl, withRegs_sameOutside _ _ _ _⟩
  case sex =>
    have hd := signByte_joinBytes_toInt s.cpu.b
    obtain ⟨hn, hz, hkept⟩ := nz16_flags (joinBytes (signByte s.cpu.b) s.cpu.b) s.cpu.cc
    rw [hd] at hn hz
    exact ⟨rfl, hd, hn.trans BitVec.msb_eq_toInt.symm, hz.trans (decide_toInt_eq_zero _), hkept, rfl, rfl,
      withRegs_sameOutside _ _ _ _⟩
  case daa =>
    have hflag := getFlag_daa8 s.cpu.a s.cpu.cc s.drawBit.1
    exact ⟨rfl, ⟨daa8_toNat _ _ s.drawBit.1, hflag .c⟩, (hflag .n).trans BitVec.msb_eq_toInt.symm, hflag .z,
      keepsFlags_of_unwritten hflag (by simp [resultFlags]), rfl, rfl, withRegs_sameOutside _ _ _ _⟩

/-! ## The decimal law of DAA (45_misc.md R343 after 42_alu8.md R220) -/

/-- The decimal carry out of a digit sum. -/
def digitCarry (n : Nat) : Nat := if 9 < n then 1 else 0

theorem digitCarry_cases (n : Nat) : 9 < n ∧ digitCarry n = 1 ∨ n ≤ 9 ∧ digitCarry n = 0 := by
  unfold digitCarry
  split <;> omega

theorem ite_eq_mul_digitCarry (n k : Nat) : (if 9 < n then k else 0) = k * digitCarry n := by
  rw [digitCarry, mul_ite, Nat.mul_one, Nat.mul_zero]

section digits

/-! `lo` and `hi` are the two digit sums of a BCD addition and `r` is the byte that the addition leaves. -/

variable {lo hi r : Nat} (hlo : lo ≤ 19) (hr : r = (16 * hi + lo) % 256)
include hlo hr

/-- H, or a low digit above 9, says that the low digit sum carries in decimal. -/
theorem daaLow_eq : daaLow r (decide (15 < lo)) = 6 * digitCarry lo := by
  have hcarries : (decide (15 < lo) = true ∨ 9 < r % 16) ↔ 9 < lo := by
    rw [decide_eq_true_eq]
    omega
  rw [daaLow, if_congr hcarries rfl rfl, ite_eq_mul_digitCarry]

/-- C, or the digits of `r`, say that the high digit sum with the low digit's carry carries in decimal. -/
theorem daaHigh_eq (hhi : hi ≤ 18) :
    daaHigh r (decide (255 < 16 * hi + lo)) = 96 * digitCarry (hi + digitCarry lo) := by
  have hcarries : (decide (255 < 16 * hi + lo) = true ∨ 9 < r / 16 ∨ (8 < r / 16 ∧ 9 < r % 16)) ↔
      9 < hi + digitCarry lo := by
    rw [decide_eq_true_eq]
    obtain ⟨_, hk⟩ | ⟨_, hk⟩ := digitCarry_cases lo <;> rw [hk] <;> omega
  rw [daaHigh, if_congr hcarries rfl rfl, ite_eq_mul_digitCarry]

/-- The corrections take 10 out of each digit sum that carries, into the next digit and into C. -/
theorem corrected_digits (hhi : hi ≤ 18) :
    let k := digitCarry lo
    let k' := digitCarry (hi + k)
    let r' := (r + 6 * k + 96 * k') % 256
    r' % 16 + 10 * k = lo ∧ r' / 16 + 10 * k' = hi + k ∧ r' % 16 ≤ 9 ∧ r' / 16 ≤ 9 ∧
      (decide (255 < 16 * hi + lo) || decide (255 < r + 6 * k + 96 * k')).toNat = k' := by
  intro k k' r'
  have hk : 9 < lo ∧ k = 1 ∨ lo ≤ 9 ∧ k = 0 := digitCarry_cases lo
  have hk' : 9 < hi + k ∧ k' = 1 ∨ hi + k ≤ 9 ∧ k' = 0 := digitCarry_cases (hi + k)
  have hdigits : r' = 16 * (hi + k - 10 * k') + (lo - 10 * k) := by omega
  have hcarries : (255 < 16 * hi + lo ∨ 255 < r + 6 * k + 96 * k') ↔ 9 < hi + k := by omega
  have hbit : (decide (9 < hi + k)).toNat = k' := by
    obtain ⟨h, hone⟩ | ⟨h, hzero⟩ := hk'
    · rw [hone, decide_eq_true h, Bool.toNat_true]
    · rw [hzero, decide_eq_false (Nat.not_lt.mpr h), Bool.toNat_false]
  rw [← Bool.decide_or, decide_eq_decide.mpr hcarries]
  refine ⟨?_, ?_, ?_, ?_, hbit⟩ <;> omega

end digits

/-- Settles O28: the flags of add8 tell DAA which decimal digit sums carry, and it corrects those. -/
theorem decimalAdjustAfterAdd : Obligations.DecimalAdjustAfterAdd := by
  intro a m cc c v ha hm s r
  obtain ⟨halo, hahi⟩ := ha
  obtain ⟨hmlo, hmhi⟩ := hm
  have hc : c.toNat ≤ 1 := c.toNat_le
  let lo := a.toNat % 16 + m.toNat % 16 + c.toNat
  let hi := a.toNat / 16 + m.toNat / 16
  have hlo : lo ≤ 19 := by omega
  have hhi : hi ≤ 18 := by omega
  have hsum : a.toNat + m.toNat + c.toNat = 16 * hi + lo := by omega
  have hs : s.1.toNat = (16 * hi + lo) % 256 := hsum ▸ BitVec.toNat_ofNat _ _
  have hh : getFlag s.2 .h = decide (15 < lo) := getFlag_add8 a m cc c .h
  have hcarry : getFlag s.2 .c = decide (255 < 16 * hi + lo) := hsum ▸ getFlag_add8 a m cc c .c
  have hdaa : daaSum s.1 s.2 = s.1.toNat + 6 * digitCarry lo + 96 * digitCarry (hi + digitCarry lo) := by
    rw [daaSum, hh, hcarry, daaLow_eq hlo hs, daaHigh_eq hlo hs hhi]
  have hr : r.1.toNat = daaSum s.1 s.2 % 256 := daa8_toNat _ _ _
  have hrc : getFlag r.2 .c = (getFlag s.2 .c || decide (255 < daaSum s.1 s.2)) := getFlag_daa8 _ _ _ .c
  obtain ⟨hlow, hhigh, hlow9, hhigh9, hC⟩ := corrected_digits hlo hs hhi
  rw [← hdaa] at hlow hhigh hlow9 hhigh9 hC
  rw [hcarry] at hrc
  rw [validBcd, bcdValue, bcdValue, bcdValue, hrc, hC, hr]
  exact ⟨⟨hlow9, hhigh9⟩, by omega⟩

end Sys2Proof.Machine
end

section
/-! PROOFS. TFR and EXG between any two register codes, and the instructions that write CC alone or nothing (45_misc.md R344
to R350, 48_system.md R414, R416). -/

namespace Sys2Proof.Machine

/-! ## Register codes and the conversion between widths (45_misc.md R344, R345) -/

theorem codesOverlap_comm (c c' : RegCode) : codesOverlap c c' ↔ codesOverlap c' c :=
  or_congr eq_comm or_comm

theorem regConv_eq (v : Word) (source dest : RegCode) :
    regConv v source dest =
      if regCodeWide source = regCodeWide dest then v
      else if regCodeWide source then v &&& 0x00FF else 0xFF00 ||| v := by
  rw [regConv, zext8_loByte]

theorem regConv_self (v : Word) (c : RegCode) : regConv v c c = v := if_pos rfl

/-- What is converted for an 8-bit register fits it. -/
theorem regConv_narrow (s : State) (source : RegCode) {dest : RegCode} (hdest : regCodeWide dest = false) :
    regConv (s.regGet source) source dest &&& 0x00FF = regConv (s.regGet source) source dest := by
  rw [regConv_eq, hdest]
  cases hsource : regCodeWide source with
  | false => exact regGet_narrow hsource s
  | true =>
    show s.regGet source &&& 0x00FF &&& 0x00FF = s.regGet source &&& 0x00FF
    rw [BitVec.and_assoc, BitVec.and_self]

/-- A register written with a converted register holds all of what was written. -/
theorem regGet_regSet_regConv {dest : RegCode} (hdest : codeNamesRegister dest = true) (s u : State)
    (source : RegCode) :
    (s.regSet dest (regConv (u.regGet source) source dest)).regGet dest = regConv (u.regGet source) source dest := by
  cases hwide : regCodeWide dest with
  | true => exact regGet_regSet_wide hdest hwide s _
  | false => exact (regGet_regSet_narrow hdest hwide s _).trans (regConv_narrow u source hwide)

/-- Writing a register by its code keeps the rest of the machine, whatever registers were written before it. -/
theorem regSet_eq_withRegs {s u : State} {n d : Nat} (hu : u = s.withRegs u.cpu n d) (c : RegCode) (v : Word) :
    u.regSet c v = s.withRegs (u.regSet c v).cpu n d := by
  rw [regSet_withRegs u c v]
  generalize (u.regSet c v).cpu = cpu
  rw [hu]
  rfl

theorem effect_of_eq_withRegs {s t : State} {c : Cpu} {n d : Nat} (h : t = s.withRegs c n d) :
    t.cyc = n ∧ t.draws = d ∧ SameOutside s t := by
  subst h
  exact ⟨rfl, rfl, withRegs_sameOutside _ _ _ _⟩

/-! ## TFR (45_misc.md R347) -/

theorem transfer_eq (r1 r2 : RegCode) (s : State) :
    transfer r1 r2 s = s.withRegs (transfer r1 r2 s).cpu (s.cyc + 6) s.draws :=
  regSet_eq_withRegs (u := s.charge 6) rfl _ _

/-- The destination of TFR holds the converted source. -/
theorem transfer_dest {r2 : RegCode} (h : codeNamesRegister r2 = true) (r1 : RegCode) (s : State) :
    (transfer r1 r2 s).regGet r2 = regConv (s.regGet r1) r1 r2 :=
  (regGet_regSet_regConv h _ _ _).trans (by rw [charge_regGet])

/-- Settles O43: one write of the converted source, read back by its code. -/
theorem transferRegister : Obligations.TransferRegister := by
  intro r1 r2 s
  obtain ⟨hcyc, hdraws, houtside⟩ := effect_of_eq_withRegs (transfer_eq r1 r2 s)
  refine ⟨transfer r1 r2 s, rfl, hcyc, hdraws, houtside, ?discarded, ?sameWidth, ?narrowed, ?widened, fun _ => rfl,
    fun _ => rfl, ?others⟩
  case discarded =>
    intro hname
    rw [transfer, regSet_unnamed hname, State.charge_cpu]
  case sameWidth =>
    intro hname hwidth
    rw [transfer_dest hname, regConv_eq, if_pos hwidth]
  case narrowed =>
    intro hname hwide1 hwide2
    rw [transfer_dest hname, regConv_eq, hwide1, hwide2]
    rfl
  case widened =>
    intro hname hwide1 hwide2
    rw [transfer_dest hname, regConv_eq, hwide1, hwide2]
    rfl
  case others =>
    intro c hc
    exact (regGet_regSet_other hc _ _).trans (charge_regGet s 6 c)

/-! ## EXG (45_misc.md R346) -/

theorem exchange_eq (r1 r2 : RegCode) (s : State) :
    exchange r1 r2 s = s.withRegs (exchange r1 r2 s).cpu (s.cyc + 8) s.draws :=
  regSet_eq_withRegs (regSet_eq_withRegs (u := s.charge 8) rfl _ _) _ _

/-- The first register is written last, so it holds the converted second whatever storage they share. -/
theorem exchange_first {r1 : RegCode} (h : codeNamesRegister r1 = true) (r2 : RegCode) (s : State) :
    (exchange r1 r2 s).regGet r1 = regConv (s.regGet r2) r2 r1 :=
  (regGet_regSet_regConv h _ _ _).trans (by rw [charge_regGet])

theorem exchange_second {r1 r2 : RegCode} (hapart : ¬ codesOverlap r1 r2) (h : codeNamesRegister r2 = true)
    (s : State) : (exchange r1 r2 s).regGet r2 = regConv (s.regGet r1) r1 r2 := by
  rw [codesOverlap_comm] at hapart
  calc (exchange r1 r2 s).regGet r2
      = ((s.charge 8).regSet r2 (regConv ((s.charge 8).regGet r1) r1 r2)).regGet r2 := regGet_regSet_other hapart _ _
    _ = regConv ((s.charge 8).regGet r1) r1 r2 := regGet_regSet_regConv h _ _ _
    _ = regConv (s.regGet r1) r1 r2 := by rw [charge_regGet]

theorem exchange_other {c r1 r2 : RegCode} (h1 : ¬ codesOverlap c r1) (h2 : ¬ codesOverlap c r2) (s : State) :
    (exchange r1 r2 s).regGet c = s.regGet c :=
  calc (exchange r1 r2 s).regGet c
      = ((s.charge 8).regSet r2 _).regGet c := regGet_regSet_other h1 _ _
    _ = (s.charge 8).regGet c := regGet_regSet_other h2 _ _
    _ = s.regGet c := charge_regGet s 8 c

theorem exchange_self (c : RegCode) (s : State) : exchange c c s = s.charge 8 := by
  simp only [exchange, regConv_self, regSet_regGet]

theorem exchange_unnamed {r1 r2 : RegCode} (h1 : codeNamesRegister r1 = false) (h2 : codeNamesRegister r2 = false)
    (s : State) : exchange r1 r2 s = s.charge 8 := by
  rw [exchange, regSet_unnamed h1, regSet_unnamed h2]

/-! ### An accumulator with D, which shares its storage -/

theorem regConv_widen (b : Byte) {source dest : RegCode} (hs : regCodeWide source = false)
    (hd : regCodeWide dest = true) : regConv (zext8 b) source dest = joinBytes 0xFF b := by
  have hb : (zext8 b).toNat = b.toNat := BitVec.toNat_setWidth_of_le (by decide)
  rw [regConv, hs, hd]
  exact BitVec.eq_of_toNat_eq (by
    rw [joinBytes, BitVec.toNat_append, ← hb]
    exact BitVec.toNat_or _ _)

theorem regConv_narrow_d (s : State) {dest : RegCode} (hd : regCodeWide dest = false) :
    regConv s.d .d dest = zext8 s.cpu.b := by
  rw [regConv, hd, State.d, loByte_joinBytes]
  rfl

theorem setD_joinBytes (s : State) (h l : Byte) :
    s.setD (joinBytes h l) = { s with cpu := { s.cpu with a := h, b := l } } := by
  rw [State.setD, hiByte_joinBytes, loByte_joinBytes]

/-- EXG of the 8-bit register `r` with D: D is filled from `r`, then `r` takes B's old value. -/
theorem exchange_narrow_d {r : RegCode} {v : Byte} {s : State} (hr : regCodeWide r = false)
    (hv : s.regGet r = zext8 v) :
    exchange r .d s =
      State.regSet { s.charge 8 with cpu := { s.cpu with a := 0xFF, b := v } } r (zext8 s.cpu.b) := by
  have hd : s.regGet .d = s.d := rfl
  rw [exchange, charge_regGet, charge_regGet, hv, hd, regConv_widen v hr rfl, regConv_narrow_d s hr]
  exact congrArg (fun u => State.regSet u r _) (setD_joinBytes _ _ _)

/-- EXG of D with the 8-bit register `r`: `r` takes B's value, then D is filled from the old `r`. -/
theorem exchange_d_narrow {r : RegCode} {v : Byte} {s : State} (hr : regCodeWide r = false)
    (hv : s.regGet r = zext8 v) :
    (exchange .d r s).cpu =
      { ((s.charge 8).regSet r (zext8 s.cpu.b)).cpu with a := 0xFF, b := v } := by
  have hd : s.regGet .d = s.d := rfl
  rw [exchange, charge_regGet, charge_regGet, hv, hd, regConv_widen v hr rfl, regConv_narrow_d s hr]
  exact congrArg State.cpu (setD_joinBytes _ _ _)

/-- Settles O44: two writes of converted values, the one of r1 last; the overlaps with D are run out. -/
theorem exchangeRegisters : Obligations.ExchangeRegisters := by
  intro r1 r2 s
  obtain ⟨hcyc, hdraws, houtside⟩ := effect_of_eq_withRegs (exchange_eq r1 r2 s)
  refine ⟨exchange r1 r2 s, rfl, hcyc, hdraws, houtside, ?self, fun h hn => exchange_second h hn s,
    fun hn => exchange_first hn r2 s, ?aD, ?bD, ?dA, ?dB, fun v => regConv_eq v r1 r2, fun _ => rfl, fun _ => rfl,
    ?unnamed, fun _ h1 h2 => exchange_other h1 h2 s⟩
  case self =>
    rintro rfl
    rw [exchange_self, State.charge_cpu]
  case aD =>
    rintro rfl rfl
    rw [exchange_narrow_d rfl rfl, State.regSet, loByte_zext8]
    rfl
  case bD =>
    rintro rfl rfl
    rw [exchange_narrow_d rfl rfl, State.regSet, loByte_zext8]
    rfl
  case dA =>
    rintro rfl rfl
    rw [exchange_d_narrow rfl rfl]
    rfl
  case dB =>
    rintro rfl rfl
    rw [exchange_d_narrow rfl rfl]
    rfl
  case unnamed =>
    intro h1 h2
    rw [exchange_unnamed h1 h2, State.charge_cpu]

/-! ## The condition-code instructions (45_misc.md R348 to R350, 48_system.md R414, R416) -/

theorem andCc_eq (n : Nat) (ii : Byte) (s : State) :
    andCc n ii s = { s with cyc := s.cyc + n, cpu := { s.cpu with cc := s.cpu.cc &&& ii } } := rfl

theorem orCc_eq (n : Nat) (ii : Byte) (s : State) :
    orCc n ii s = { s with cyc := s.cyc + n, cpu := { s.cpu with cc := s.cpu.cc ||| ii } } := rfl

/-- Settles O45: ANDCC and CWAI are one write of CC with different cycles, ORCC its dual, NOP and SYNC cycles alone. -/
theorem conditionCodeInstructions : Obligations.ConditionCodeInstructions := by
  intro ii s
  exact ⟨congrArg Host.Outcome.next (andCc_eq 3 ii s), congrArg Host.Outcome.next (orCc_eq 3 ii s),
    congrArg Host.Outcome.next (andCc_eq 20 ii s), rfl, rfl⟩

end Sys2Proof.Machine
end

section
/-! PROOFS. PSH and PUL on either stack (46_stack.md R360 to R365): what a push leaves in the registers and in memory, what a
pull takes from memory, and that a pull takes back what a push with the same mask left. -/

namespace Sys2Proof.Machine

/-! ## The four instructions, one for each stack (46_stack.md R362 to R365) -/

/-- The push onto a stack. -/
def pshInstr : StackPtr → Byte → Instr
  | .s => .pshs
  | .u => .pshu

/-- The pull from a stack. -/
def pulInstr : StackPtr → Byte → Instr
  | .s => .puls
  | .u => .pulu

/-- A push reads neither counter, so its cycles can be charged after it. -/
theorem psh_charge (s : State) (k : StackPtr) (mask : Byte) (n : Nat) :
    (s.charge n).psh k mask = (s.psh k mask).charge n := by
  have hbytes : maskBytes (s.charge n) k mask pullOrder = maskBytes s k mask pullOrder := by cases k <;> rfl
  rw [psh_eq, psh_eq, hbytes, pushBytes_charge, charge_charge, charge_charge, Nat.add_comm]

theorem exec_pshInstr (k : StackPtr) (mask : Byte) (s : State) :
    exec (pshInstr k mask) s = .next ((s.psh k mask).charge 5) := by
  rw [← psh_charge]
  cases k <;> rfl

/-- The registers after a pull. -/
def pulledCpu (s : State) (mask : Byte) : StackPtr → Cpu
  | .s => {
      cc := pulledByte s .s mask .cc s.cpu.cc, a := pulledByte s .s mask .a s.cpu.a
      b := pulledByte s .s mask .b s.cpu.b, dp := pulledByte s .s mask .dp s.cpu.dp
      x := pulledWord s .s mask .x s.cpu.x, y := pulledWord s .s mask .y s.cpu.y
      u := pulledWord s .s mask .w s.cpu.u, pc := pulledWord s .s mask .pc s.cpu.pc
      s := s.cpu.s + BitVec.ofNat 16 (maskWidth mask pullOrder) }
  | .u => {
      cc := pulledByte s .u mask .cc s.cpu.cc, a := pulledByte s .u mask .a s.cpu.a
      b := pulledByte s .u mask .b s.cpu.b, dp := pulledByte s .u mask .dp s.cpu.dp
      x := pulledWord s .u mask .x s.cpu.x, y := pulledWord s .u mask .y s.cpu.y
      s := pulledWord s .u mask .w s.cpu.s, pc := pulledWord s .u mask .pc s.cpu.pc
      u := s.cpu.u + BitVec.ofNat 16 (maskWidth mask pullOrder) }

theorem exec_pulInstr (k : StackPtr) (mask : Byte) (s : State) :
    exec (pulInstr k mask) s =
      .next (s.withRegs (pulledCpu s mask k) (s.cyc + 5 + maskWidth mask pullOrder) s.draws) := by
  cases k with
  | s => exact congrArg Host.Outcome.next (pul_s_eq (s.charge 5) mask)
  | u => exact congrArg Host.Outcome.next (pul_u_eq (s.charge 5) mask)

/-! ## Pushes (46_stack.md R362, R364) -/

/-- Settles O46: both instructions are the one push of `psh_spec`, with 5 cycles more. -/
theorem pushRegisters : Obligations.PushRegisters := by
  intro mask s e he
  have hexec : exec (e.1 mask) s = .next ((s.psh e.2 mask).charge 5) := by
    rcases List.mem_pair.mp he with rfl | rfl
    · exact exec_pshInstr .s mask s
    · exact exec_pshInstr .u mask s
  obtain ⟨hcpu, hcyc, hdraws, htape, hlog, hhost, hframe, hplain⟩ := psh_spec s e.2 mask
  have hcharged : ((s.psh e.2 mask).charge 5).cyc = s.cyc + 5 + maskWidth mask pullOrder := by
    rw [State.charge_cyc, hcyc]
    omega
  have hhost5 : SameHost s ((s.psh e.2 mask).charge 5) :=
    ⟨hhost.keys, hhost.pen, hhost.irqPrev, hhost.running, hhost.sched, hhost.inputs, hhost.replies⟩
  exact ⟨_, hexec, hcpu, hcharged, hdraws, htape, hlog, hhost5, hframe, hplain⟩

/-! ## Pulls (46_stack.md R363, R365) -/

/-- Settles O47: a pull replaces the registers and the cycle counter, and nothing else. -/
theorem pullRegisters : Obligations.PullRegisters := by
  intro mask s
  exact ⟨⟨_, exec_pulInstr .s mask s, rfl, rfl, rfl, withRegs_sameOutside s _ _ _⟩,
    ⟨_, exec_pulInstr .u mask s, rfl, rfl, rfl, withRegs_sameOutside s _ _ _⟩⟩

/-! ## Where a push leaves each register (46_stack.md R361) -/

theorem maskBytes_append (s : State) (k : StackPtr) (mask : Byte) (rs rs' : List StackReg) :
    maskBytes s k mask (rs ++ rs') = maskBytes s k mask rs ++ maskBytes s k mask rs' := by
  induction rs with
  | nil => rfl
  | cons r rs ih => rw [List.cons_append, maskBytes, maskBytes, ih, List.append_assoc]

theorem maskBytes_length_eq_maskWidth (s : State) (k : StackPtr) (mask : Byte) (rs : List StackReg) :
    (maskBytes s k mask rs).length = maskWidth mask rs := by
  induction rs with
  | nil => rfl
  | cons r rs ih =>
    rw [maskBytes, maskWidth, List.length_append, ih, apply_ite List.length, stackRegBytes_length, List.length_nil]

theorem pullOrder_eq_pulledBefore_append (r : StackReg) : ∃ rest, pullOrder = pulledBefore r ++ r :: rest := by
  cases r <;> exact ⟨_, rfl⟩

/-- The bytes of a selected register stand in a push at the offset from which a pull reads the register. -/
theorem maskBytes_getElem? {s : State} {k : StackPtr} {mask : Byte} {r : StackReg} (hr : mask.getLsbD r.bit = true)
    {j : Nat} {v : Byte} (hv : (stackRegBytes s k r)[j]? = some v) :
    (maskBytes s k mask pullOrder)[maskWidth mask (pulledBefore r) + j]? = some v := by
  obtain ⟨rest, hrest⟩ := pullOrder_eq_pulledBefore_append r
  have hj : j < (stackRegBytes s k r).length := (List.getElem?_eq_some_iff.mp hv).1
  rw [hrest, maskBytes_append, maskBytes, if_pos hr, ← maskBytes_length_eq_maskWidth s k,
    List.getElem?_append_right (Nat.le_add_right _ _), Nat.add_sub_cancel_left, List.getElem?_append_left hj, hv]

/-! ## A pull after a push (46_stack.md R360, R361) -/

section roundTrip

/-! `s` is the state that pushed, `t` a state with the pushed bytes at its own stack pointer. -/

variable {s t : State} {k : StackPtr} {mask : Byte} (hmapper : t.mapper = s.mapper)
  (hbytes : HoldsBytes s t (t.sp k) (maskBytes s k mask pullOrder))

include hmapper hbytes

theorem memRead_pushed {r : StackReg} (hr : mask.getLsbD r.bit = true) {j : Nat} {v : Byte}
    (hv : (stackRegBytes s k r)[j]? = some v) :
    t.memRead (t.sp k + BitVec.ofNat 16 (maskWidth mask (pulledBefore r)) + BitVec.ofNat 16 j) = v := by
  rw [add_ofNat_ofNat, State.memRead, State.phys_congr hmapper]
  exact hbytes _ v (maskBytes_getElem? hr hv)

theorem pulledByte_pushed {r : StackReg} {v : Byte} (hv : stackRegBytes s k r = [v]) (old : Byte) :
    pulledByte t k mask r old = if mask.getLsbD r.bit then v else old := by
  refine if_ctx_congr Iff.rfl (fun hr => ?_) fun _ => rfl
  have hread := memRead_pushed hmapper hbytes hr (j := 0) (congrArg (·[0]?) hv)
  rwa [add_ofNat_zero] at hread

theorem pulledWord_pushed {r : StackReg} {v : Word} (hv : stackRegBytes s k r = [hiByte v, loByte v]) (old : Word) :
    pulledWord t k mask r old = if mask.getLsbD r.bit then v else old := by
  refine if_ctx_congr Iff.rfl (fun hr => ?_) fun _ => rfl
  have hhi := memRead_pushed hmapper hbytes hr (j := 0) (congrArg (·[0]?) hv)
  have hlo := memRead_pushed hmapper hbytes hr (j := 1) (congrArg (·[1]?) hv)
  rw [add_ofNat_zero] at hhi
  calc t.memRead16 (t.sp k + BitVec.ofNat 16 (maskWidth mask (pulledBefore r)))
      = joinBytes (hiByte v) (loByte v) := congrArg₂ joinBytes hhi hlo
    _ = v := joinBytes_hi_lo v

end roundTrip

/-- The registers after a pull that takes back what `pushed` pushed, where they were `c` before it. -/
def restoredCpu (pushed c : Cpu) (mask : Byte) : StackPtr → Cpu
  | .s => {
      cc := if mask.getLsbD 0 then pushed.cc else c.cc, a := if mask.getLsbD 1 then pushed.a else c.a
      b := if mask.getLsbD 2 then pushed.b else c.b, dp := if mask.getLsbD 3 then pushed.dp else c.dp
      x := if mask.getLsbD 4 then pushed.x else c.x, y := if mask.getLsbD 5 then pushed.y else c.y
      u := if mask.getLsbD 6 then pushed.u else c.u, pc := if mask.getLsbD 7 then pushed.pc else c.pc
      s := pushed.s }
  | .u => {
      cc := if mask.getLsbD 0 then pushed.cc else c.cc, a := if mask.getLsbD 1 then pushed.a else c.a
      b := if mask.getLsbD 2 then pushed.b else c.b, dp := if mask.getLsbD 3 then pushed.dp else c.dp
      x := if mask.getLsbD 4 then pushed.x else c.x, y := if mask.getLsbD 5 then pushed.y else c.y
      s := if mask.getLsbD 6 then pushed.s else c.s, pc := if mask.getLsbD 7 then pushed.pc else c.pc
      u := pushed.u }

/-- Every pulled register is the pushed one, and the stack pointer is where it was before the push. -/
theorem pulledCpu_pushed {s t : State} {k : StackPtr} {mask : Byte} (hmapper : t.mapper = s.mapper)
    (hbytes : HoldsBytes s t (t.sp k) (maskBytes s k mask pullOrder))
    (hsp : t.sp k + BitVec.ofNat 16 (maskWidth mask pullOrder) = s.sp k) :
    pulledCpu t mask k = restoredCpu s.cpu t.cpu mask k := by
  have hcc := pulledByte_pushed hmapper hbytes (r := .cc) rfl
  have ha := pulledByte_pushed hmapper hbytes (r := .a) rfl
  have hb := pulledByte_pushed hmapper hbytes (r := .b) rfl
  have hdp := pulledByte_pushed hmapper hbytes (r := .dp) rfl
  have hx := pulledWord_pushed hmapper hbytes (r := .x) rfl
  have hy := pulledWord_pushed hmapper hbytes (r := .y) rfl
  have hw := pulledWord_pushed hmapper hbytes (r := .w) rfl
  have hpc := pulledWord_pushed hmapper hbytes (r := .pc) rfl
  cases k with
  | s =>
    have hs : t.cpu.s + BitVec.ofNat 16 (maskWidth mask pullOrder) = s.cpu.s := hsp
    rw [pulledCpu, hcc, ha, hb, hdp, hx, hy, hw, hpc, hs]
    rfl
  | u =>
    have hu : t.cpu.u + BitVec.ofNat 16 (maskWidth mask pullOrder) = s.cpu.u := hsp
    rw [pulledCpu, hcc, ha, hb, hdp, hx, hy, hw, hpc, hu]
    rfl

/-- A push and then a pull with the same mask, with the registers `c` in between but for the stack pointer. -/
theorem pulInstr_after_pshInstr {s t u : State} {k : StackPtr} {mask : Byte} (c : Cpu)
    (hplain : s.plainRange (s.sp k - BitVec.ofNat 16 (maskWidth mask pullOrder)) (maskWidth mask pullOrder))
    (hpush : exec (pshInstr k mask) s = .next t)
    (hpull : exec (pulInstr k mask) (({ t with cpu := c } : State).setSp k (t.sp k)) = .next u) :
    u.cpu = restoredCpu s.cpu (({ t with cpu := c } : State).setSp k (t.sp k)).cpu mask k := by
  rw [exec_pshInstr] at hpush
  rw [exec_pulInstr] at hpull
  obtain rfl := Host.Outcome.next.inj hpush
  obtain rfl := Host.Outcome.next.inj hpull
  obtain ⟨hcpu, -, -, -, -, -, -, hstored⟩ := psh_spec s k mask
  obtain ⟨hbytes, hmapper, -, -⟩ := hstored hplain
  have hsp : ((s.psh k mask).charge 5).sp k = s.sp k - BitVec.ofNat 16 (maskWidth mask pullOrder) :=
    sp_of_cpu s _ k _ hcpu
  refine pulledCpu_pushed (by rw [setSp_mapper]; exact hmapper) (fun j v hv => ?_) ?_
  · rw [setSp_mem, setSp_sp, hsp]
    exact hbytes j v hv
  · rw [setSp_sp, hsp, BitVec.sub_add_cancel]

/-- Settles O48: the same round trip on either stack. -/
theorem pushPullRoundTrip : Obligations.PushPullRoundTrip := by
  intro mask s t u c
  exact ⟨pulInstr_after_pshInstr (k := .s) c, pulInstr_after_pshInstr (k := .u) c⟩

end Sys2Proof.Machine
end

section
/-! PROOFS. Branches, jumps and subroutine calls (47_control.md R370 to R409): one branch for the sixteen conditions, one call
for the three ways to name its target. -/

namespace Sys2Proof.Machine

/-! ## The branches by their condition (47_control.md R372) -/

/-- The short branch on a condition (47_control.md R373 to R388). -/
def shortBranchInstr : Cond → Byte → Instr
  | .always => .bra
  | .never => .brn
  | .hi => .bhi
  | .ls => .bls
  | .cc => .bcc
  | .cs => .bcs
  | .ne => .bne
  | .eq => .beq
  | .vc => .bvc
  | .vs => .bvs
  | .pl => .bpl
  | .mi => .bmi
  | .ge => .bge
  | .lt => .blt
  | .gt => .bgt
  | .le => .ble

/-- The long branch on a condition (47_control.md R390 to R405). -/
def longBranchInstr : Cond → Word → Instr
  | .always => .lbra
  | .never => .lbrn
  | .hi => .lbhi
  | .ls => .lbls
  | .cc => .lbcc
  | .cs => .lbcs
  | .ne => .lbne
  | .eq => .lbeq
  | .vc => .lbvc
  | .vs => .lbvs
  | .pl => .lbpl
  | .mi => .lbmi
  | .ge => .lbge
  | .lt => .lblt
  | .gt => .lbgt
  | .le => .lble

/-- The conditions of the page-2 branches, in the order of the opcode: all but `always`, whose long branch is on page 0. -/
def page2Conds : List Cond :=
  [.never, .hi, .ls, .cc, .cs, .ne, .eq, .vc, .vs, .pl, .mi, .ge, .lt, .gt, .le]

theorem exec_shortBranchInstr (c : Cond) (o : Byte) (s : State) :
    exec (shortBranchInstr c o) s = .next (shortBranch c o s) := by
  cases c <;> rfl

theorem exec_longBranchInstr {c : Cond} (hc : c ≠ .always) (o : Word) (s : State) :
    exec (longBranchInstr c o) s = .next (longBranch c o s) := by
  cases c with
  | always => contradiction
  | _ => rfl

/-- A short branch adds the signed value of its offset (47_control.md R370). -/
theorem shortBranch_eq (c : Cond) (o : Byte) (s : State) :
    shortBranch c o s = { s with
      cyc := s.cyc + 3
      cpu := { s.cpu with
        pc := if branchCond c s.cpu.cc then BitVec.ofInt 16 (s.cpu.pc.toInt + o.toInt) else s.cpu.pc } } := by
  rw [← add_sext8_eq_ofInt]
  exact branch_eq _ _ _

theorem longBranch_eq (c : Cond) (o : Word) (s : State) :
    longBranch c o s = { s with
      cyc := s.cyc + if branchCond c s.cpu.cc then 6 else 5
      cpu := { s.cpu with pc := if branchCond c s.cpu.cc then s.cpu.pc + o else s.cpu.pc } } :=
  branch_eq _ _ _

/-- Settles O49: the rows of both tables are the conditions, each with its branch and its truth value. -/
theorem branches : Obligations.Branches := by
  intro o8 o16 s c z v n
  refine ⟨fun e he => ?short, congrArg Host.Outcome.next (branch_eq true o16 (s.charge 5)), fun e he => ?long⟩
  case short =>
    change e ∈ (Cond.always :: page2Conds).map fun k => (shortBranchInstr k, branchCond k s.cpu.cc) at he
    obtain ⟨k, -, rfl⟩ := List.mem_map.mp he
    rw [exec_shortBranchInstr, shortBranch_eq]
  case long =>
    change e ∈ page2Conds.map fun k => (longBranchInstr k, branchCond k s.cpu.cc) at he
    obtain ⟨k, hk, rfl⟩ := List.mem_map.mp he
    have hnotAlways : k ≠ .always := ne_of_mem_of_not_mem hk (by decide)
    rw [exec_longBranchInstr hnotAlways, longBranch_eq]

/-! ## Calls (47_control.md R389, R406, R408) -/

theorem exec_bsr (o : Byte) (s : State) :
    exec (.bsr o) s =
      .next (callTo (BitVec.ofInt 16 (s.cpu.pc.toInt + o.toInt)) (s.withRegs s.cpu (s.cyc + 7) s.draws)) := by
  rw [← add_sext8_eq_ofInt]
  rfl

theorem exec_lbsr (o : Word) (s : State) :
    exec (.lbsr o) s = .next (callTo (s.cpu.pc + o) (s.withRegs s.cpu (s.cyc + 9) s.draws)) := rfl

/-- The call of JSR starts from the registers that the resolver leaves (40_addressing.md R165). -/
theorem exec_jsr (m : MemOp) (s : State) :
    exec (.jsr m) s = .next (callTo (resolve m s).1
      (s.withRegs (resolve m s).2.cpu (s.cyc + (memCycles 7 m + extraCycles m)) s.draws)) := by
  rw [Nat.add_comm (memCycles 7 m), ← Nat.add_assoc, ← jumpToSubroutine_eq]
  rfl

/-- Settles O50: each call is `callTo` from registers that the instruction has resolved, which hold the PC of `s`. -/
theorem subroutineCalls : Obligations.SubroutineCalls := by
  intro o8 o16 m s e he base
  obtain ⟨hexec, hpc⟩ : exec e.1 s = .next (callTo e.2.2.1 (s.withRegs e.2.1 (s.cyc + e.2.2.2) s.draws)) ∧
      e.2.1.pc = s.cpu.pc := by
    simp only [List.mem_cons, List.not_mem_nil, or_false] at he
    obtain rfl | rfl | rfl := he
    · exact ⟨exec_bsr o8 s, rfl⟩
    · exact ⟨exec_lbsr o16 s, rfl⟩
    · exact ⟨exec_jsr m s, resolve_pc m s⟩
  obtain ⟨hcpu, hcyc, hdraws, htape, hlog, hhost, hframe, hstored⟩ :=
    callTo_spec (s.withRegs e.2.1 (s.cyc + e.2.2.2) s.draws) e.2.2.1
  rw [withRegs_cpu, hpc] at hstored
  have hhostFrom : SameHost s _ := (withRegs_sameOutside s _ _ _).host.trans hhost
  exact ⟨_, hexec, hcpu, hcyc, hdraws, htape, hlog, hhostFrom, hframe, hstored⟩

/-! ## JMP and RTS (47_control.md R407, R409) -/

/-- Settles O51: both replace the registers and count their cycles, and do nothing else. -/
theorem jumpAndReturn : Obligations.JumpAndReturn := by
  refine ⟨fun m s => ?jmp, fun s => congrArg Host.Outcome.next (returnFromSubroutine_eq s)⟩
  case jmp =>
    rw [Nat.add_right_comm]
    exact congrArg Host.Outcome.next (jumpTo_eq m s)

end Sys2Proof.Machine
end

section
/-! PROOFS. Every step answers a next state: the fetch window is as long as any instruction, every instruction completes, and
an unassigned opcode is a logged no-op (30_encoding.md R120, 48_system.md R417 to R419, 60_exceptions.md R461). -/

namespace Sys2Proof

open Machine

/-! ## Three bytes hold any operand (30_encoding.md R120, R128) -/

/-- Two bytes after the post-byte are enough for every sub-mode that is not reserved (40_addressing.md R157, R158). -/
theorem decodeSubMode_isSome {k : BitVec 4} (hk : [0x7, 0xA, 0xE, 0xF].contains k = false) (b c : Byte)
    (rest : List Byte) : (decodeSubMode k.toNat (b :: c :: rest)).isSome = true := by
  have hassigned : k ∈ [0x0, 0x1, 0x2, 0x3, 0x4, 0x5, 0x6, 0x8, 0x9, 0xB, 0xC, 0xD] := by
    revert k
    decide
  have hread : [0x0, 0x1, 0x2, 0x3, 0x4, 0x5, 0x6, 0x8, 0x9, 0xB, 0xC, 0xD].Forall fun j : BitVec 4 =>
      (decodeSubMode j.toNat (b :: c :: rest)).isSome = true := by
    repeat' apply And.intro
    all_goals rfl
  exact List.forall_iff_forall_mem.mp hread k hassigned

/-- The four kinds of post-byte: the offset form, an unassigned one, extended indirect, and the mode form. -/
theorem decodeIndexed_isSome (pb b c : Byte) (rest : List Byte) :
    (decodeIndexed (pb :: b :: c :: rest)).isSome = true := by
  cases h7 : pb.getLsbD 7 with
  | false =>
    rw [decodeIndexed_offset h7]
    rfl
  | true =>
    cases hspecial : isUnassignedPostByte pb || pb == 0x9F with
    | true =>
      rcases Bool.or_eq_true_iff.mp hspecial with hu | hx
      · rw [decodeIndexed_unassigned hu]
        rfl
      · obtain rfl := beq_iff_eq.mp hx
        rfl
    | false =>
      rw [eq_postByte h7] at hspecial ⊢
      rw [decodeIndexed_postByte hspecial, Option.isSome_map]
      rw [postByte_special] at hspecial
      exact decodeSubMode_isSome (Bool.or_eq_false_iff.mp hspecial).1 b c rest

theorem decodeMemOp_isSome (mode : Mode) (a b c : Byte) (rest : List Byte) :
    (decodeMemOp mode (a :: b :: c :: rest)).isSome = true := by
  cases mode with
  | dir => rfl
  | ext => rfl
  | idx => exact Option.isSome_map.trans (decodeIndexed_isSome a b c rest)

theorem Row.decode_isSome (row : Row) (a b c : Byte) (rest : List Byte) :
    (row.decode (a :: b :: c :: rest)).isSome = true := by
  cases row with
  | src8 mode f | src16 mode f | mem mode f => exact Option.isSome_map.trans (decodeMemOp_isSome mode a b c rest)
  | lea f => exact Option.isSome_map.trans (decodeIndexed_isSome a b c rest)
  | inh i | imm8 f | imm16 f | byte f | word f | regs f => rfl

/-! ## Five bytes hold any instruction (30_encoding.md R120) -/

theorem finishRow_ne_truncated (n : Nat) (row : Row) (a b c : Byte) (rest : List Byte) :
    finishRow n row (a :: b :: c :: rest) ≠ .truncated := by
  obtain ⟨⟨i, k⟩, hp⟩ := Option.isSome_iff_exists.mp (row.decode_isSome a b c rest)
  unfold finishRow
  rw [hp]
  exact Decoded.noConfusion

theorem decodePrefixed_ne_truncated (pre : Byte) (page : Byte → Option Row) (op a b c : Byte) (rest : List Byte) :
    decodePrefixed pre page (op :: a :: b :: c :: rest) ≠ .truncated := by
  cases h : page op with
  | some row =>
    rw [decodePrefixed_assigned h]
    exact finishRow_ne_truncated 2 row a b c rest
  | none =>
    rw [decodePrefixed_unassigned h]
    exact Decoded.noConfusion

/-- By the first byte: a page byte, or an opcode of page 0 with a cell or without. -/
theorem decode_ne_truncated (op a b c d : Byte) (rest : List Byte) :
    decode (op :: a :: b :: c :: d :: rest) ≠ .truncated := by
  by_cases h2 : op = 0x10
  · rw [h2, decode_page2]
    exact decodePrefixed_ne_truncated _ _ a b c d rest
  · by_cases h3 : op = 0x11
    · rw [h3, decode_page3]
      exact decodePrefixed_ne_truncated _ _ a b c d rest
    · cases h : page0 op with
      | some row =>
        rw [decode_page0_assigned h]
        exact finishRow_ne_truncated 1 row a b c (d :: rest)
      | none =>
        rw [decode_page0_unassigned h2 h3 h]
        split <;> exact Decoded.noConfusion

theorem decode_fetchBytes_ne_truncated (s : State) : decode s.fetchBytes ≠ .truncated :=
  decode_ne_truncated _ _ _ _ _ []

/-! ## The step (48_system.md R417 to R419, 60_exceptions.md R461) -/

/-- Every instruction completes: PERIPH by its traps (49_periph_tape.md R444), every other one by the moves of `CpuReach`. -/
theorem exists_exec_eq_next (i : Instr) (s : State) : ∃ t, exec i s = .next t := by
  by_cases hi : i = .periph
  · subst hi
    exact ⟨sendToPeriph machineTraps cycPeriph s, rfl⟩
  · obtain ⟨_, t, _, ht, _⟩ := exec_reach i hi s
    exact ⟨t, ht⟩

theorem exists_stepInstr_eq_next (s : State) : ∃ t, stepInstr s = .next t := by
  cases hd : decode s.fetchBytes with
  | instr i n =>
    rw [stepInstr_instr hd]
    exact exists_exec_eq_next i _
  | unassigned op => exact ⟨_, stepInstr_unassigned hd⟩
  | truncated => exact absurd hd (decode_fetchBytes_ne_truncated s)

/-- Settles O7, by the three kinds of step: the top of an iteration, an instruction inside a burst, the end of a burst. -/
theorem stepAlwaysNext : Obligations.StepAlwaysNext := by
  intro s
  cases hs : s.sched with
  | iteration => exact ⟨_, step_iteration hs⟩
  | burst b =>
    rcases Nat.lt_or_ge s.cyc (burstBudget b) with hc | hc
    · rw [step_burst hs hc]
      exact exists_stepInstr_eq_next s
    · exact ⟨_, step_endBurst hs hc⟩

theorem cycIllegal_pos : 1 ≤ cycIllegal := Nat.succ_pos _

/-- Settles O6: the nop policy logs the opcode and charges its cycles, and the fetch moves PC. -/
theorem stepUnassignedOpcode : Obligations.StepUnassignedOpcode := by
  intro s b op hb hc hd
  refine ⟨cycIllegal_pos, ?_⟩
  calc step s = stepInstr s := step_burst hb hc
    _ = .next (((s.advancePc op.length).logEvent
          (.unassigned op s.cpu.pc (s.advancePc op.length).cpu)).charge cycIllegal) := stepInstr_unassigned hd

end Sys2Proof
end

section
/-! PROOFS. The software interrupts, RTI, and that RTI undoes an interrupt entry (48_system.md R410 to R415, 60_exceptions.md
R462, R463, R468). -/

namespace Sys2Proof.Machine

/-! ## Taking a software interrupt (48_system.md R411 to R413) -/

theorem exec_swi (s : State) : exec .swi s = .next ((s.charge 19).interruptEntry 0x50 0xFFFA) := rfl

theorem exec_swi2 (s : State) : exec .swi2 s = .next ((s.charge 20).interruptEntry 0x00 0xFFF4) := rfl

theorem exec_swi3 (s : State) : exec .swi3 s = .next ((s.charge 20).interruptEntry 0x00 0xFFF2) := rfl

/-- Settles O52: each of the three is the one interrupt entry of `interruptEntry_spec`, after its cycles. -/
theorem softwareInterrupts : Obligations.SoftwareInterrupts := by
  intro s e he base
  have hexec : exec e.1 s = .next ((s.charge e.2.2.2).interruptEntry e.2.1 e.2.2.1) := by
    simp only [List.mem_cons, List.not_mem_nil, or_false] at he
    obtain rfl | rfl | rfl := he
    · exact exec_swi s
    · exact exec_swi2 s
    · exact exec_swi3 s
  obtain ⟨hcpu, hcyc, hdraws, htape, hlog, hhost, hframe, hstored⟩ :=
    interruptEntry_spec (s.charge e.2.2.2) e.2.1 e.2.2.1
  have hhostFrom : SameHost s _ := (withRegs_sameOutside s s.cpu (s.cyc + e.2.2.2) s.draws).host.trans hhost
  exact ⟨_, hexec, hcpu, hcyc, hdraws, htape, hlog, hhostFrom, hframe, hstored⟩

/-! ## RTI (48_system.md R415) -/

/-- The byte of the stacked frame at an offset from S. -/
def State.frameByte (s : State) (k : Nat) : Byte := s.memRead (s.cpu.s + BitVec.ofNat 16 k)

/-- The registers that an entire frame at S holds, with S past it (48_system.md R410). -/
def State.entireFrame (s : State) : Cpu where
  cc := s.frameByte 0
  a := s.frameByte 1
  b := s.frameByte 2
  dp := s.frameByte 3
  x := s.frameByte 4 ++ s.frameByte 5
  y := s.frameByte 6 ++ s.frameByte 7
  u := s.frameByte 8 ++ s.frameByte 9
  pc := s.frameByte 10 ++ s.frameByte 11
  s := s.cpu.s + 12

theorem frameByte_zero (s : State) : s.frameByte 0 = s.memRead s.cpu.s := congrArg s.memRead (add_ofNat_zero _)

/-- A word of the frame is two bytes of it, high byte first. -/
theorem memRead16_frame (s : State) (k : Nat) :
    s.memRead16 (s.cpu.s + BitVec.ofNat 16 k) = s.frameByte k ++ s.frameByte (k + 1) := by
  rw [State.frameByte, State.frameByte, ← add_ofNat_ofNat]
  rfl

theorem exec_rti_entire {s : State} (h : (s.frameByte 0).getLsbD 7 = true) :
    exec .rti s = .next (s.withRegs s.entireFrame (s.cyc + 15) s.draws) := by
  have hreturn := returnFromInterrupt_entire (s := s.charge 6) (by rw [← frameByte_zero]; exact h)
  have hx := memRead16_frame s 4
  have hy := memRead16_frame s 6
  have hu := memRead16_frame s 8
  have hpc := memRead16_frame s 10
  rw [State.entireFrame, ← hx, ← hy, ← hu, ← hpc, frameByte_zero]
  exact congrArg Host.Outcome.next hreturn

theorem exec_rti_short {s : State} (h : (s.frameByte 0).getLsbD 7 = false) :
    exec .rti s = .next (s.withRegs
      { s.cpu with cc := s.frameByte 0, pc := s.frameByte 1 ++ s.frameByte 2, s := s.cpu.s + 3 } (s.cyc + 6) s.draws) := by
  have hreturn := returnFromInterrupt_short (s := s.charge 6) (by rw [← frameByte_zero]; exact h)
  rw [← memRead16_frame s 1, frameByte_zero]
  exact congrArg Host.Outcome.next hreturn

/-- Settles O53: the two frames of RTI, by E of the pulled CC. -/
theorem returnFromInterrupt : Obligations.ReturnFromInterrupt := fun _ => ⟨exec_rti_entire, exec_rti_short⟩

/-! ## RTI after an interrupt entry (60_exceptions.md R463, R468) -/

/-- The twelve bytes at S are the entire frame of the registers `c` with `cc` as the stacked CC. -/
def State.HoldsFrame (s : State) (c : Cpu) (cc : Byte) : Prop :=
  ∀ j v, (frameBytes c cc)[j]? = some v → s.frameByte j = v

/-- Pulling an entire frame gives back the registers that were pushed. -/
theorem State.HoldsFrame.entireFrame_eq {s : State} {c : Cpu} {cc : Byte} (h : s.HoldsFrame c cc) :
    s.entireFrame = { c with cc := cc, s := s.cpu.s + 12 } := by
  have hword {k : Nat} {w : Word} (hhi : (frameBytes c cc)[k]? = some (hiByte w))
      (hlo : (frameBytes c cc)[k + 1]? = some (loByte w)) : s.frameByte k ++ s.frameByte (k + 1) = w :=
    (congrArg₂ joinBytes (h k _ hhi) (h (k + 1) _ hlo)).trans (joinBytes_hi_lo w)
  rw [State.entireFrame, h 0 cc rfl, h 1 c.a rfl, h 2 c.b rfl, h 3 c.dp rfl, hword (k := 4) (w := c.x) rfl rfl,
    hword (k := 6) (w := c.y) rfl rfl, hword (k := 8) (w := c.u) rfl rfl, hword (k := 10) (w := c.pc) rfl rfl]

/-- After an entry to a stack in plain memory, a state with the same S and the same twelve bytes holds the frame. -/
theorem holdsFrame_of_interruptEntry {s h : State} {maskBits : Byte} {vector : Word}
    (hplain : s.plainRange (s.cpu.s - 12) 12) (hs : h.cpu.s = (s.interruptEntry maskBits vector).cpu.s)
    (hkept : ∀ a ∈ addrsFrom (s.cpu.s - 12) 12, h.memRead a = (s.interruptEntry maskBits vector).memRead a) :
    h.HoldsFrame s.cpu (s.cpu.cc ||| 0x80) := by
  obtain ⟨hcpu, -, -, -, -, -, -, hstored⟩ := interruptEntry_spec s maskBits vector
  obtain ⟨hbytes, hmapper, -, -⟩ := hstored hplain
  have hbase : h.cpu.s = s.cpu.s - 12 := hs.trans (congrArg Cpu.s hcpu)
  intro j v hv
  have hj : j < 12 := (List.getElem?_eq_some_iff.mp hv).1
  have hmem : s.cpu.s - 12 + BitVec.ofNat 16 j ∈ addrsFrom (s.cpu.s - 12) 12 :=
    List.mem_map_of_mem (List.mem_range.mpr hj)
  rw [State.frameByte, hbase, hkept _ hmem, State.memRead, State.phys_congr hmapper]
  exact hbytes j v hv

/-- Settles O54: the frame that the entry pushed has E set, so RTI pulls all of it. -/
theorem interruptReturnRoundTrip : Obligations.InterruptReturnRoundTrip := by
  intro s h t maskBits vector hplain hs hkept hrti
  have hframe := holdsFrame_of_interruptEntry hplain hs hkept
  have hentire : (h.frameByte 0).getLsbD 7 = true := by
    rw [hframe 0 _ rfl, BitVec.getLsbD_or]
    exact Bool.or_true _
  have hsp : h.cpu.s + 12 = s.cpu.s := by
    rw [hs, (interruptEntry_spec s maskBits vector).1]
    exact BitVec.sub_add_cancel _ _
  rw [exec_rti_entire hentire] at hrti
  obtain rfl := Host.Outcome.next.inj hrti
  rw [withRegs_cpu, hframe.entireFrame_eq, hsp]

end Sys2Proof.Machine
end

section
/-! PROOFS. The tape codec and PERIPH (49_periph_tape.md): the host's load and rewind, a tape byte bit by bit, and what the
instruction does at each of its trap addresses. -/

namespace Sys2Proof.Machine

/-! ## Load and rewind (49_periph_tape.md R432) -/

theorem loadFailure_of_fits {max : Nat} {bytes : List Byte} (h0 : 0 < bytes.length) (h : bytes.length ≤ max) :
    loadFailure max (some bytes) = none := (if_neg (by omega)).trans (if_neg (by omega))

theorem exists_loadFailure {max : Nat} {file : Option (List Byte)}
    (h : ∀ bytes, file = some bytes → bytes.length = 0 ∨ max < bytes.length) :
    ∃ cause, loadFailure max file = some cause := by
  cases file with
  | none => exact ⟨.unreadable, rfl⟩
  | some bytes =>
    by_cases hz : bytes.length = 0
    · exact ⟨.zeroLength, if_pos hz⟩
    · have hlong := (h bytes rfl).resolve_left hz
      exact ⟨.oversized, (if_neg hz).trans (if_pos hlong)⟩

theorem loadTape_accepted (s : State) {max : Nat} {file : Option (List Byte)} (h : loadFailure max file = none) :
    s.loadTape max file = (s.setTape { s.tape with tape := file, cursor := 0, tc := 0 }, .tapeLoaded) := by
  unfold State.loadTape
  rw [h]

theorem loadTape_rejected (s : State) {max : Nat} {file : Option (List Byte)} {cause : LoadFailure}
    (h : loadFailure max file = some cause) : s.loadTape max file = (s, .tapeRejected cause) := by
  unfold State.loadTape
  rw [h]

theorem hostEvent_openTape (s : State) (file : Option (List Byte)) :
    s.hostEvent (.openTape file) = (s.loadTape tapeMax file).1.reply (s.loadTape tapeMax file).2 := rfl

theorem hostEvent_rewindTape_loaded {s : State} (h : s.tape.tape.isSome = true) :
    s.hostEvent .rewindTape = { s with tape := { s.tape with cursor := 0, tc := 0 } } := if_pos h

theorem hostEvent_rewindTape_none {s : State} (h : s.tape.tape = none) : s.hostEvent .rewindTape = s :=
  if_neg (by rw [h]; exact Bool.false_ne_true)

/-- Settles O57: a load by what `loadFailure` answers, a rewind by whether a tape is there. -/
theorem tapeLoadAndRewind : Obligations.TapeLoadAndRewind := by
  intro s
  refine ⟨fun bytes h0 hmax => ?accepted, fun file hfile => ?rejected, hostEvent_rewindTape_loaded,
    hostEvent_rewindTape_none, ?idempotent⟩
  case accepted =>
    rw [hostEvent_openTape, loadTape_accepted s (loadFailure_of_fits h0 hmax)]
    rfl
  case rejected =>
    obtain ⟨cause, hcause⟩ := exists_loadFailure hfile
    refine ⟨cause, ?_⟩
    rw [hostEvent_openTape, loadTape_rejected s hcause]
    rfl
  case idempotent =>
    cases ht : s.tape.tape with
    | none => rw [hostEvent_rewindTape_none ht, hostEvent_rewindTape_none ht]
    | some bytes =>
      have hsome : s.tape.tape.isSome = true := by rw [ht]; rfl
      rw [hostEvent_rewindTape_loaded hsome]
      exact hostEvent_rewindTape_loaded hsome

/-! ## A tape byte, most significant bit first (49_periph_tape.md R434 to R436) -/

/-- `t` is `n` read-bit traps after `s`, of which the first took the byte `v` from the tape: the codec, the draws, and the
bit of `v` that the last trap delivered. -/
structure ReadsByte (s : State) (addr : Word) (v : Byte) (n : Nat) (t : State) : Prop where
  tape : t.tape = { s.tape with cursor := s.tape.cursor + 1, tb := v <<< n, tc := 8 - n, led := true }
  draws : t.draws = s.draws
  bit : t.memRead addr = if v.getLsbD (8 - n) then 0x00 else 0xFF

/-- The top bit of a byte shifted left is the next lower bit of the byte. -/
theorem getLsbD_seven_shiftLeft (v : Byte) {n : Nat} (h : n < 8) : (v <<< n).getLsbD 7 = v.getLsbD (7 - n) := by
  have hn : decide (7 < n) = false := decide_eq_false (by omega)
  rw [BitVec.getLsbD_shiftLeft, hn]
  rfl

theorem ReadsByte.first {s : State} {bytes : List Byte} {v : Byte} (h : s.tape.tc = 0)
    (ht : s.tape.tape = some bytes) (hv : bytes[s.tape.cursor]? = some v) (addr : Word) :
    ReadsByte s addr v 1 (s.tapeReadBit addr) where
  tape := by rw [tapeReadBit_loading h ht hv]
  draws := by rw [tapeReadBit_loading h ht hv]
  bit := by
    rw [tapeReadBit_loading h ht hv, ← tapeBitPattern_msb]
    exact (Memory.read_write _ _ _ _).trans (if_pos rfl)

theorem ReadsByte.next {s t : State} {addr : Word} {v : Byte} {n : Nat} (h : ReadsByte s addr v n t) (hn : n < 8) :
    ReadsByte s addr v (n + 1) (t.tapeReadBit addr) := by
  have htb : t.tape.tb = v <<< n := by rw [h.tape]
  have htc : t.tape.tc ≠ 0 := by
    rw [h.tape]
    show 8 - n ≠ 0
    omega
  have hbit : (t.tapeReadBit addr).memRead addr = tapeBitPattern t.tape.tb.msb := by
    rw [tapeReadBit_counting htc]
    exact (Memory.read_write _ _ _ _).trans (if_pos rfl)
  refine ⟨?_, ?_, ?_⟩
  · rw [tapeReadBit_counting htc, h.tape, BitVec.shiftLeft_add]
    rfl
  · rw [tapeReadBit_counting htc]
    exact h.draws
  · have hindex : 8 - (n + 1) = 7 - n := by omega
    rw [hbit, tapeBitPattern_msb, htb, getLsbD_seven_shiftLeft v hn, hindex]

/-- Settles O56: the first trap takes the byte, and each of the next seven shifts it. -/
theorem tapeByteMsbFirst : Obligations.TapeByteMsbFirst := by
  intro s addr bytes v ht hv htc after
  have hreads : ∀ k < 8, ReadsByte s addr v (k + 1) (after (k + 1)) := by
    intro k hk
    induction k with
    | zero => exact .first htc ht hv addr
    | succ k ih =>
      have hsucc : after (k + 1 + 1) = (after (k + 1)).tapeReadBit addr := Function.iterate_succ_apply' _ _ _
      rw [hsucc]
      exact (ih (by omega)).next hk
  have hlast : ReadsByte s addr v 8 (after 8) := hreads 7 (by decide)
  refine ⟨fun k hk => ?_, ?_, ?_, ?_, hlast.draws⟩
  · have hindex : 8 - (k + 1) = 7 - k := by omega
    rw [(hreads k hk).bit, hindex]
  · rw [hlast.tape]
  · rw [hlast.tape]
  · rw [hlast.tape]
    exact ht

/-! ## The handlers of PERIPH (49_periph_tape.md R434 to R441) -/

/-- The read-bit trap: with bits left, with a byte of the tape to load, and with a byte to draw. -/
theorem tapeReadBit_effect {s t : State} {a : Word} (e : t = s.tapeReadBit a) :
    (s.tape.tc ≠ 0 →
      t.tape = { s.tape with tb := s.tape.tb <<< 1, tc := s.tape.tc - 1, led := true } ∧ t.draws = s.draws ∧
      t.mem.read (s.phys a) = (if s.tape.tb.getLsbD 7 then 0x00 else 0xFF)) ∧
    (s.tape.tc = 0 → t.tape.tc = 7 ∧ t.tape.led = true ∧
      ∀ (bytes : List Byte) (v : Byte), s.tape.tape = some bytes → bytes[s.tape.cursor]? = some v →
        t.tape = { s.tape with cursor := s.tape.cursor + 1, tb := v <<< 1, tc := 7, led := true } ∧
        t.draws = s.draws ∧ t.mem.read (s.phys a) = (if v.getLsbD 7 then 0x00 else 0xFF)) ∧
    (s.tape.tc = 0 → (∀ bytes : List Byte, s.tape.tape = some bytes → bytes.length ≤ s.tape.cursor) →
      t.draws = s.draws + 1 ∧
      ∃ d : Byte, t.tape = { s.tape with tb := d <<< 1, tc := 7, led := true } ∧
        t.mem.read (s.phys a) = (if d.getLsbD 7 then 0x00 else 0xFF)) ∧
    KeepsMemoryOutside [s.phys a] s t ∧ t.log = s.log := by
  have hstored : ∀ v : Byte,
      (s.mem.write (s.phys a) (tapeBitPattern v.msb)).read (s.phys a) = if v.getLsbD 7 then 0x00 else 0xFF :=
    fun v => by rw [Memory.read_write, if_pos rfl, tapeBitPattern_msb]
  subst e
  refine ⟨fun htc => ?counting,
    fun htc => ⟨tapeReadBit_loading_tc htc a, tapeReadBit_led s a, fun bytes v ht hv => ?loading⟩,
    fun htc hend => ?drawing, fun k hk => ?frame, ?log⟩
  case counting =>
    rw [tapeReadBit_counting htc]
    exact ⟨rfl, rfl, hstored _⟩
  case loading =>
    rw [tapeReadBit_loading htc ht hv]
    exact ⟨rfl, rfl, hstored v⟩
  case drawing =>
    rw [tapeReadBit_drawing htc hend]
    exact ⟨rfl, s.drawByte.1, rfl, hstored _⟩
  case frame =>
    rw [tapeReadBit_eq]
    exact (Memory.read_write _ _ _ _).trans (if_neg (by simpa using hk))
  case log => rw [tapeReadBit_eq]

/-- The write-byte trap writes two fields of the codec and leaves the tape, its cursor and its bits alone. -/
theorem tapeWriteByte_codec (s : State) :
    ∃ (out : Option (List Byte)) (failed : Bool),
      s.tapeWriteByte.tape = { s.tape with out := out, outFailed := failed } := by
  cases hf : s.tape.outFailed with
  | true =>
    rw [tapeWriteByte_failed hf]
    exact ⟨s.tape.out, s.tape.outFailed, rfl⟩
  | false =>
    cases ho : s.tape.out with
    | some bytes =>
      rw [tapeWriteByte_open hf ho]
      exact ⟨_, s.tape.outFailed, rfl⟩
    | none =>
      rw [tapeWriteByte_create hf ho]
      split
      · exact ⟨_, s.tape.outFailed, rfl⟩
      · exact ⟨s.tape.out, _, rfl⟩

/-- The write-byte trap: after a failed creation, with an open output, and with none yet. -/
theorem tapeWriteByte_effect {s t : State} (e : t = s.tapeWriteByte) :
    t.mem = s.mem ∧ t.tape.tape = s.tape.tape ∧ t.tape.cursor = s.tape.cursor ∧ t.tape.tc = s.tape.tc ∧
    (s.tape.outFailed = true → t.tape = s.tape ∧ t.log = s.log) ∧
    (s.tape.outFailed = false → ∀ bytes : List Byte, s.tape.out = some bytes →
      t.tape = { s.tape with out := some (bytes ++ [s.cpu.a]) } ∧ t.log = s.log) ∧
    (s.tape.outFailed = false → s.tape.out = none →
      (t.tape = { s.tape with out := some [s.cpu.a] } ∧ t.log = s.log) ∨
      (t.tape = { s.tape with outFailed := true } ∧ t.log = s.log ++ [.outputCreateFailed])) := by
  subst e
  obtain ⟨out, failed, hcodec⟩ := tapeWriteByte_codec s
  refine ⟨by rw [tapeWriteByte_eq], by rw [hcodec], by rw [hcodec], by rw [hcodec], fun hf => ?failed,
    fun hf bytes ho => ?written, fun hf ho => ?created⟩
  case failed =>
    rw [tapeWriteByte_failed hf]
    exact ⟨rfl, rfl⟩
  case written =>
    rw [tapeWriteByte_open hf ho]
    exact ⟨rfl, rfl⟩
  case created =>
    rw [tapeWriteByte_create hf ho]
    split
    · exact .inl ⟨rfl, rfl⟩
    · exact .inr ⟨rfl, rfl⟩

/-- The motor trap: the masked bits of one byte are cleared (49_periph_tape.md R440). -/
theorem motorReady_effect {s t : State} {offset : Word} {mask : Byte} (e : t = s.motorReady offset mask) :
    t.mem.read (s.phys (s.cpu.s + offset)) = s.memRead (s.cpu.s + offset) &&& ~~~mask ∧
    KeepsMemoryOutside [s.phys (s.cpu.s + offset)] s t ∧ t.tape = s.tape ∧ t.log = s.log := by
  subst e
  refine ⟨(memSet_read _ _ _ _).trans (if_pos rfl), fun k hk => ?_, rfl, rfl⟩
  exact (memSet_read _ _ _ _).trans (if_neg (by simpa using hk))

/-! ### A run of bytes stored with MemSet (20_memory.md R67) -/

/-- Two addresses less than a page apart reach two bytes, whatever the mapper. -/
theorem phys_add_ofNat_ne (s : State) (a : Word) {i j : Nat} (hij : i < j) (hj : j < 4096) :
    s.phys (a + BitVec.ofNat 16 i) ≠ s.phys (a + BitVec.ofNat 16 j) := by
  have hsub : a + BitVec.ofNat 16 i = a + BitVec.ofNat 16 j - BitVec.ofNat 16 (j - i) := by
    have hsum : BitVec.ofNat 16 j = BitVec.ofNat 16 i + BitVec.ofNat 16 (j - i) := by
      rw [← BitVec.ofNat_add]
      congr 1
      omega
    rw [hsum, ← BitVec.add_assoc, BitVec.add_sub_cancel]
  rw [hsub]
  exact phys_sub_ne s _ (j - i) (by omega) (by omega)

/-- Storing bytes writes memory and nothing else. -/
theorem storeBytesAt_eq (bytes : List Byte) (a : Word) (s : State) :
    storeBytesAt a bytes s = { s with mem := (storeBytesAt a bytes s).mem } := by
  induction bytes generalizing a s with
  | nil => rfl
  | cons v rest ih =>
    unfold storeBytesAt
    rw [ih]
    rfl

theorem add_one_add_ofNat (a : Word) (i : Nat) : a + 1 + BitVec.ofNat 16 i = a + BitVec.ofNat 16 (i + 1) := by
  rw [Nat.add_comm i 1]
  exact add_ofNat_ofNat a 1 i

theorem storeBytesAt_read_other (bytes : List Byte) (a : Word) (s : State) {k : Nat}
    (h : ∀ i < bytes.length, k ≠ s.phys (a + BitVec.ofNat 16 i)) :
    (storeBytesAt a bytes s).mem.read k = s.mem.read k := by
  induction bytes generalizing a s with
  | nil => rfl
  | cons v rest ih =>
    have hhead : k ≠ s.phys a := by
      have := h 0 (Nat.succ_pos _)
      rwa [add_ofNat_zero] at this
    unfold storeBytesAt
    refine (ih (a + 1) (s.memSet a v) fun i hi => ?_).trans ((memSet_read s a v k).trans (if_neg hhead))
    rw [add_one_add_ofNat]
    exact h (i + 1) (Nat.succ_lt_succ hi)

theorem storeBytesAt_read_byte (bytes : List Byte) (a : Word) (s : State) (hl : bytes.length ≤ 4096) {i : Nat} {v : Byte}
    (h : bytes[i]? = some v) : (storeBytesAt a bytes s).mem.read (s.phys (a + BitVec.ofNat 16 i)) = v := by
  induction bytes generalizing a s i with
  | nil => simp at h
  | cons b rest ih =>
    rw [List.length_cons] at hl
    unfold storeBytesAt
    cases i with
    | zero =>
      have hb : b = v := by simpa using h
      have hother : ∀ i < rest.length, s.phys a ≠ (s.memSet a b).phys (a + 1 + BitVec.ofNat 16 i) := fun i hi => by
        have hne := phys_add_ofNat_ne s a (Nat.succ_pos i) (by omega : i + 1 < 4096)
        rwa [add_ofNat_zero, ← add_one_add_ofNat] at hne
      rw [add_ofNat_zero, storeBytesAt_read_other rest (a + 1) _ hother, memSet_read, if_pos rfl, hb]
    | succ i =>
      rw [← add_one_add_ofNat]
      exact ih (a + 1) (s.memSet a b) (by omega) (by simpa using h)

/-- The bytes that the light-pen trap stores (49_periph_tape.md R441). -/
def LightPen.bytes (p : LightPen) : List Byte := [hiByte p.x, loByte p.x, hiByte p.y, loByte p.y]

theorem lightPenStatus_eq_storeBytesAt (s : State) (offset : Word) :
    s.lightPenStatus offset = storeBytesAt (s.cpu.s + offset) s.pen.bytes s := by
  have htwo : ∀ w : Word, w + 1 + 1 = w + 2 := fun w => add_ofNat_ofNat w 1 1
  have hthree : ∀ w : Word, w + 2 + 1 = w + 3 := fun w => add_ofNat_ofNat w 2 1
  unfold LightPen.bytes
  simp only [storeBytesAt, htwo, hthree]
  rfl

/-- The light-pen trap: four bytes stored, and nothing else (49_periph_tape.md R441). -/
theorem lightPenStatus_effect {s t : State} {offset : Word} (e : t = s.lightPenStatus offset) :
    HoldsBytes s t (s.cpu.s + offset) s.pen.bytes ∧
    KeepsMemoryOutside ((addrsFrom (s.cpu.s + offset) 4).map s.phys) s t ∧ t.tape = s.tape ∧ t.log = s.log := by
  rw [lightPenStatus_eq_storeBytesAt] at e
  subst e
  refine ⟨fun j v hv => storeBytesAt_read_byte _ _ s (by simp [LightPen.bytes]) hv,
    fun k hk => storeBytesAt_read_other _ _ s fun i hi hki => hk ?_, ?_, ?_⟩
  · exact List.mem_map.mpr ⟨_, List.mem_map_of_mem (List.mem_range.mpr hi), hki.symm⟩
  · rw [storeBytesAt_eq]
  · rw [storeBytesAt_eq]

/-! ## The instruction (49_periph_tape.md R430, R431) -/

theorem cycPeriph_pos : 1 ≤ cycPeriph := Nat.succ_pos _

/-- At every address PERIPH charges its cycles and leaves registers, flags, mapper, dirty lines, PIA and sound alone. -/
theorem sendToPeriph_eq (p : Traps) (n : Nat) (s : State) :
    sendToPeriph p n s = { s with
      cyc := s.cyc + n
      mem := (sendToPeriph p n s).mem
      tape := (sendToPeriph p n s).tape
      draws := (sendToPeriph p n s).draws
      log := (sendToPeriph p n s).log } := periph_eq (s.charge n) p (s.cpu.pc - 1)

/-- Settles O55: one equation for what no trap touches, and the effect of the handler that the address selects. -/
theorem peripheralTraps : Obligations.PeripheralTraps := by
  intro s
  have heq := sendToPeriph_eq machineTraps cycPeriph s
  refine ⟨sendToPeriph machineTraps cycPeriph s, rfl, cycPeriph_pos, by rw [heq], by rw [heq], by rw [heq], by rw [heq],
    by rw [heq], by rw [heq], sendToPeriph_sameHost _ _ s, ?_⟩
  by_cases hread : s.cpu.pc - 1 = trapReadBit
  · rw [if_pos hread]
    exact tapeReadBit_effect (s := s.charge cycPeriph) (if_pos hread)
  rw [if_neg hread]
  by_cases hwrite : s.cpu.pc - 1 = trapWriteByte
  · rw [if_pos hwrite]
    exact tapeWriteByte_effect (s := s.charge cycPeriph) ((if_neg hread).trans (if_pos hwrite))
  rw [if_neg hwrite]
  by_cases hmotor : s.cpu.pc - 1 = trapMotor
  · rw [if_pos hmotor]
    exact motorReady_effect (s := s.charge cycPeriph) ((if_neg hread).trans ((if_neg hwrite).trans (if_pos hmotor)))
  rw [if_neg hmotor]
  by_cases hpen : s.cpu.pc - 1 = trapLightPen
  · rw [if_pos hpen]
    exact lightPenStatus_effect (s := s.charge cycPeriph)
      ((if_neg hread).trans ((if_neg hwrite).trans ((if_neg hmotor).trans (if_pos hpen))))
  · rw [if_neg hpen]
    exact (if_neg hread).trans ((if_neg hwrite).trans ((if_neg hmotor).trans (if_neg hpen)))

end Sys2Proof.Machine
end

section
/-! PROOFS. The scheduler (60_exceptions.md R464 to R477): every burst ends, what follows each of them, the IRQ point with
its gate and entry, and the top of an iteration. -/

namespace Sys2Proof.Machine

/-! ## The end of a burst other than the bottom border (60_exceptions.md R470, R471, R475) -/

/-- Clearing the IRQ flag of CRB (60_exceptions.md R472). -/
theorem putBit_irqFlag_false (v : Byte) : putBit v irqFlagBit false = v &&& 0x7F := rfl

/-- Setting the IRQ flag of CRB (60_exceptions.md R472). -/
theorem putBit_irqFlag_true (v : Byte) : putBit v irqFlagBit true = v ||| 0x80 := rfl

/-- A byte stored with MemSet reads back, and every other one is as before (20_memory.md R67). -/
theorem memSet_stores (s : State) (a : Word) (v : Byte) :
    (s.memSet a v).mem.read (s.phys a) = v ∧ KeepsMemoryOutside [s.phys a] s (s.memSet a v) :=
  ⟨(memSet_read s a v _).trans (if_pos rfl), fun k hk => (memSet_read s a v k).trans (if_neg (by simpa using hk))⟩

/-- Writing the IRQ flag changes no byte of memory but the shadow byte of CRB. -/
theorem setIrqFlag_keepsOutside (s : State) (flag : Bool) :
    KeepsMemoryOutside [s.phys crbAddr] s (s.setIrqFlag flag) :=
  (memSet_stores s crbAddr (putBit s.pia.crb irqFlagBit flag)).2

/-- The end of a burst that stores the video-timing byte and goes on with the next burst. -/
theorem storeSignal_effect {s t : State} {b b' : Burst} {v : Byte}
    (e : t = ((s.subtractBudget b).memSet vsigAddr v).enterBurst b') :
    t.cpu = s.cpu ∧ t.cyc = s.cyc - burstBudget b ∧ t.sched = .burst b' ∧ t.mem.read (s.phys vsigAddr) = v ∧
      KeepsMemoryOutside [s.phys vsigAddr] s t ∧ t.irqPrev = s.irqPrev ∧ t.pia = s.pia := by
  obtain ⟨hstored, hkept⟩ := memSet_stores (s.subtractBudget b) vsigAddr v
  subst e
  exact ⟨rfl, rfl, rfl, hstored, hkept, rfl, rfl⟩

/-- The end of a burst that clears the IRQ flag and ends the iteration. -/
theorem clearIrqFlag_effect {s t : State} {b : Burst}
    (e : t = { (s.subtractBudget b).setIrqFlag false with sched := .iteration }) :
    t.cpu = s.cpu ∧ t.cyc = s.cyc - burstBudget b ∧ t.sched = .iteration ∧
      t.pia = { s.pia with crb := s.pia.crb &&& 0x7F } ∧ t.mem.read (s.phys crbAddr) = s.pia.crb &&& 0x7F ∧
      KeepsMemoryOutside [s.phys crbAddr] s t ∧ t.irqPrev = s.irqPrev := by
  have hstored := setIrqFlag_shadow (s.subtractBudget b) false
  have hkept := setIrqFlag_keepsOutside (s.subtractBudget b) false
  subst e
  exact ⟨rfl, rfl, rfl, rfl, hstored, hkept, rfl⟩

theorem endBurst_of_top {b : Burst} (h : b = .top ∨ b = .topAfterIrq) (s : State) :
    s.endBurst b = ((s.subtractBudget b).memSet vsigAddr vsigMask).enterBurst .window := by
  rcases h with rfl | rfl
  · exact endBurst_top s
  · exact endBurst_topAfterIrq s

/-- Settles O12: the end of each burst is one stored byte, a new place in the field, and the budget subtracted. -/
theorem burstBoundaries : Obligations.BurstBoundaries := by
  refine ⟨⟨rfl, rfl⟩, fun s b hb hs hc => ⟨_, step_endBurst hs hc, ?top⟩,
    fun s hs hc => ⟨_, step_endBurst hs hc, ?window⟩,
    fun s hs hc => ⟨_, step_endBurst hs hc, ?irqWindow⟩⟩
  case top => exact storeSignal_effect (endBurst_of_top hb s)
  case window => exact storeSignal_effect (b := .window) (endBurst_window s)
  case irqWindow => exact clearIrqFlag_effect (b := .irqWindow) (endBurst_irqWindow s)

/-! ## Every burst ends (60_exceptions.md R475) -/

/-- Every instruction costs at least one cycle: PERIPH by D53, every other one by its base cycles. -/
theorem exec_cyc_lt {i : Instr} {s t : State} (h : exec i s = .next t) : s.cyc < t.cyc := by
  by_cases hi : i = .periph
  · subst hi
    obtain rfl := Host.Outcome.next.inj h
    have hcyc : (sendToPeriph machineTraps cycPeriph s).cyc = s.cyc + cycPeriph := by rw [sendToPeriph_eq]
    have hpos := cycPeriph_pos
    omega
  · obtain ⟨n, u, hn, hu, hreach⟩ := exec_reach i hi s
    obtain rfl : u = t := Host.Outcome.next.inj (hu.symm.trans h)
    have hle := hreach.cyc_le
    rw [State.charge_cyc] at hle
    omega

/-- An instruction inside a burst stays in it and uses up at least one of its cycles. -/
theorem stepInstr_progress {s t : State} (h : stepInstr s = .next t) : t.sched = s.sched ∧ s.cyc < t.cyc := by
  cases hd : decode s.fetchBytes with
  | instr i n =>
    rw [stepInstr_instr hd] at h
    exact ⟨(exec_sameHost h).sched, exec_cyc_lt (s := s.advancePc n) h⟩
  | unassigned op =>
    rw [stepInstr_unassigned hd] at h
    obtain rfl := Host.Outcome.next.inj h
    exact ⟨rfl, Nat.lt_add_of_pos_right cycIllegal_pos⟩
  | truncated => exact absurd hd (decode_fetchBytes_ne_truncated s)

theorem run_succ {M : Host.Core} {s u : M.State} (h : M.step s = .next u) (n : Nat) : M.run (n + 1) s = M.run n u := by
  simp only [Host.Core.run, h]

/-- Settles O11, by induction on a bound of the cycles that the burst has left. -/
theorem burstTerminates : Obligations.BurstTerminates := by
  intro s b hs
  generalize hm : burstBudget b - s.cyc = m
  induction m using Nat.strong_induction_on generalizing s with
  | _ m ih =>
    rcases Nat.lt_or_ge s.cyc (burstBudget b) with hc | hc
    · obtain ⟨u, hu⟩ := exists_stepInstr_eq_next s
      obtain ⟨hsched, hcyc⟩ := stepInstr_progress hu
      obtain ⟨n, t, hn, hrun, ht, hend⟩ := ih (burstBudget b - u.cyc) (by omega) u (hsched.trans hs) rfl
      exact ⟨n + 1, t, by omega, (run_succ (M := core) ((step_burst hs hc).trans hu) n).trans hrun, ht, hend⟩
    · exact ⟨0, s, Nat.zero_le m, rfl, hs, hc⟩

/-! ## The IRQ gate and the IRQ point (60_exceptions.md R464, R465, R472) -/

/-- Settles O14: the gate reads I and no other flag. -/
theorem irqGate : Obligations.IrqGate := fun _ => ⟨irqGate_masked, irqGate_open⟩

/-- The state at the gate after the burst `b`: its budget subtracted, `irq_prev` and the IRQ flag set. -/
def State.atIrqGate (s : State) (b : Burst) : State := ({ s.subtractBudget b with irqPrev := true }).setIrqFlag true

theorem step_irqPoint_disabled {s : State} (hs : s.sched = .burst .bottom) (hc : 2800 ≤ s.cyc)
    (he : s.pia.crb.getLsbD 0 = false) : step s = .next { s with cyc := s.cyc - 2800, sched := .iteration } := by
  have hpoint : (s.subtractBudget .bottom).irqPoint = { s.subtractBudget .bottom with sched := .iteration } :=
    irqPoint_disabled he
  rw [step_endBurst hs hc, endBurst_bottom, hpoint, State.subtractBudget, burstBudget_bottom]

theorem step_irqPoint_enabled {s : State} (hs : s.sched = .burst .bottom) (hc : 2800 ≤ s.cyc)
    (he : s.pia.crb.getLsbD 0 = true) : step s = .next ((s.atIrqGate .bottom).irqGate.enterBurst .irqWindow) := by
  have hpoint : (s.subtractBudget .bottom).irqPoint = (s.atIrqGate .bottom).irqGate.enterBurst .irqWindow :=
    irqPoint_enabled he
  rw [step_endBurst hs hc, endBurst_bottom, hpoint]

theorem atIrqGate_shadow (s : State) (b : Burst) : (s.atIrqGate b).mem.read (s.phys crbAddr) = s.pia.crb ||| 0x80 :=
  setIrqFlag_shadow { s.subtractBudget b with irqPrev := true } true

theorem atIrqGate_keepsOutside (s : State) (b : Burst) : KeepsMemoryOutside [s.phys crbAddr] s (s.atIrqGate b) :=
  setIrqFlag_keepsOutside { s.subtractBudget b with irqPrev := true } true

/-- The IRQ entry sets E and I (60_exceptions.md R464). -/
theorem or_entire_or_maskI (cc : Byte) : cc ||| 0x80 ||| maskI = cc ||| 0x90 := BitVec.or_assoc cc 0x80 maskI

/-- Everything an IRQ entry does (60_exceptions.md R464). -/
theorem irqEntry_spec (s : State) :
    s.irqEntry.cpu = { s.cpu with
      s := s.cpu.s - 12, cc := s.cpu.cc ||| 0x90, pc := s.irqEntry.memRead16 irqVector } ∧
    s.irqEntry.cyc = s.cyc + irqCycles ∧
    KeepsMemoryOutside ((addrsFrom (s.cpu.s - 12) 12).map s.phys) s s.irqEntry ∧
    (s.plainRange (s.cpu.s - 12) 12 →
      HoldsBytes s s.irqEntry (s.cpu.s - 12) (frameBytes s.cpu (s.cpu.cc ||| 0x80)) ∧ s.irqEntry.pia = s.pia) := by
  obtain ⟨hcpu, hcyc, -, -, -, -, hkept, hstored⟩ := interruptEntry_spec s maskI irqVector
  rw [or_entire_or_maskI] at hcpu
  rw [irqEntry_eq]
  generalize s.interruptEntry maskI irqVector = t at *
  refine ⟨hcpu, congrArg (· + irqCycles) hcyc, hkept, fun hp => ?_⟩
  obtain ⟨hbytes, -, hpia, -⟩ := hstored hp
  exact ⟨hbytes, hpia⟩

/-- The IRQ point with I = 1: the flag alone (60_exceptions.md R465, R472). -/
theorem irqGate_masked_effect {s t : State} {b : Burst} (hi : getFlag s.cpu.cc .i = true)
    (e : t = (s.atIrqGate b).irqGate.enterBurst .irqWindow) :
    t.cpu = s.cpu ∧ t.cyc = s.cyc - burstBudget b ∧ t.pia = { s.pia with crb := s.pia.crb ||| 0x80 } ∧
      t.mem.read (s.phys crbAddr) = s.pia.crb ||| 0x80 ∧ KeepsMemoryOutside [s.phys crbAddr] s t := by
  have hgate : (s.atIrqGate b).irqGate = s.atIrqGate b := irqGate_masked hi
  rw [hgate] at e
  subst e
  exact ⟨rfl, rfl, rfl, atIrqGate_shadow s b, atIrqGate_keepsOutside s b⟩

/-- The IRQ point with I = 0: the entry from the state at the gate, whose registers and mapper are those of `s` and whose
memory differs from that of `s` in the shadow byte of CRB (60_exceptions.md R464, R472). -/
theorem irqGate_open_effect {s t : State} {b : Burst} (hi : getFlag s.cpu.cc .i = false)
    (e : t = (s.atIrqGate b).irqGate.enterBurst .irqWindow) :
    t.cpu = { s.cpu with s := s.cpu.s - 12, cc := s.cpu.cc ||| 0x90, pc := t.memRead16 irqVector } ∧
    t.cyc = s.cyc - burstBudget b + irqCycles ∧
    (s.plainRange (s.cpu.s - 12) 12 →
      t.pia = { s.pia with crb := s.pia.crb ||| 0x80 } ∧
      (mapperOk s.mapper → t.mem.read (s.phys crbAddr) = s.pia.crb ||| 0x80) ∧
      HoldsBytes s t (s.cpu.s - 12) (frameBytes s.cpu (s.cpu.cc ||| 0x80)) ∧
      KeepsMemoryOutside (s.phys crbAddr :: (addrsFrom (s.cpu.s - 12) 12).map s.phys) s t) := by
  have hgate : (s.atIrqGate b).irqGate = (s.atIrqGate b).irqEntry := irqGate_open hi
  have hplain (hp : s.plainRange (s.cpu.s - 12) 12) : (s.atIrqGate b).plainRange (s.cpu.s - 12) 12 :=
    plainRange_congr (s := s) rfl hp
  have hshadow (hp : s.plainRange (s.cpu.s - 12) 12) (hm : mapperOk s.mapper) :
      (s.atIrqGate b).irqEntry.mem.read (s.phys crbAddr) = s.pia.crb ||| 0x80 :=
    (irqEntry_shadow (hplain hp) hm (a := crbAddr) rfl).trans (atIrqGate_shadow s b)
  obtain ⟨hcpu, hcyc, hkept, hstored⟩ := irqEntry_spec (s.atIrqGate b)
  rw [hgate] at e
  generalize (s.atIrqGate b).irqEntry = u at *
  subst e
  refine ⟨hcpu, hcyc, fun hp => ?_⟩
  obtain ⟨hbytes, hpia⟩ := hstored (hplain hp)
  refine ⟨hpia, hshadow hp, hbytes, fun k hk => ?_⟩
  obtain ⟨hcrb, hstack⟩ := not_or.mp (mt List.mem_cons.mpr hk)
  exact (hkept k hstack).trans (atIrqGate_keepsOutside s b k (by simpa using hcrb))

/-- Settles O13: by CRB[0], and with it set by I. -/
theorem irqPoint : Obligations.IrqPoint := fun _ hs hc =>
  ⟨step_irqPoint_disabled hs hc, fun he => ⟨_, step_irqPoint_enabled hs hc he, rfl, (irqGate_sameHost _).irqPrev,
    fun hi => irqGate_masked_effect (b := .bottom) hi rfl, fun hi => irqGate_open_effect (b := .bottom) hi rfl⟩⟩

/-! ## The top of an iteration (60_exceptions.md R470, R471, R476, R477) -/

theorem drainEvents_eq_foldl {s : State} {events : List HostEvent} {later : List (List HostEvent)}
    (h : s.inputs = events :: later) : s.drainEvents = events.foldl State.hostEvent { s with inputs := later } :=
  (drainEvents_some h).trans (hostEvents_eq_foldl events _)

/-- Reading a dirty line clears its flag and no other (20_memory.md R85). -/
theorem hostEvent_readDirty_get (s : State) (line other : Fin 200) :
    (s.hostEvent (.readDirty line)).dirty.get other = (s.dirty.get other && !decide (other = line)) := by
  have hread : (s.hostEvent (.readDirty line)).dirty.get other = if other = line then false else s.dirty.get other :=
    readDirty_get s line other
  rw [hread]
  by_cases h : other = line
  · rw [if_pos h, decide_eq_true h, Bool.not_true, Bool.and_false]
  · rw [if_neg h, decide_eq_false h, Bool.not_false, Bool.and_true]

/-- Settles O15: the waiting events in their order, what each of the scheduler's, the pen's and the reading events does, and
the start of the field by `running` and `irq_prev`. -/
theorem iterationTop : Obligations.IterationTop := by
  refine ⟨fun _ => drainEvents_none, fun _ _ _ => drainEvents_eq_foldl,
    fun s _ _ _ line => ⟨rfl, rfl, rfl, rfl, rfl, hostEvent_readDirty_get s line⟩,
    fun s hs => ⟨fun hr => ?stopped, fun hr hi => ?afterIrq, fun hr hi => ?top⟩⟩
  case stopped => rw [step_iteration hs, iterationTop_stopped hr]
  case afterIrq =>
    rw [step_iteration hs, iterationTop_running hr, beginField_afterIrq hi]
    rfl
  case top =>
    rw [step_iteration hs, iterationTop_running hr, beginField_top hi]
    rfl

end Sys2Proof.Machine
end

section
/-! PROOFS. The resets (70_reset_and_hazards.md R500 to R507): the state after power-on, the invariant that it satisfies, and
what a soft and a hard reset change and keep. -/

namespace Sys2Proof.Machine

/-! ## The state after reset (70_reset_and_hazards.md R500 to R502, R507) -/

/-- The blank memory of `State.reset` reads 0 everywhere. -/
theorem reset_read (k : Nat) : State.reset.mem.read k = 0x00 := rfl

theorem reset_memRead16 (a : Word) : State.reset.memRead16 a = 0x0000 :=
  congrArg₂ joinBytes (reset_read _) (reset_read _)

theorem reset_dirty_get (line : Fin 200) : State.reset.dirty.get line = false := by
  rw [Vector.get_eq_getElem]
  exact Vector.getElem_replicate _

theorem reset_keys_get (key : Fin 256) : State.reset.keys.get key = false := by
  rw [Vector.get_eq_getElem]
  exact Vector.getElem_replicate _

/-- Settles O10, field by field. -/
theorem resetValues : Obligations.ResetValues :=
  ⟨rfl, rfl, rfl, (reset_memRead16 0xFFFE).symm, rfl, fun k _ => reset_read k, rfl, reset_dirty_get, reset_keys_get, rfl,
    rfl, rfl, rfl, rfl, rfl, rfl, rfl, rfl⟩

/-! ## The invariant after reset and after power-on (70_reset_and_hazards.md R503, R507) -/

/-- A codec with no tape, no output and no bits left, whatever its shift byte. -/
theorem tapeOk_empty (tb : Byte) : tapeOk { State.reset.tape with tb := tb } :=
  ⟨Nat.zero_le 8, Nat.le_refl 0, fun _ => rfl⟩

theorem reset_inv : Inv State.reset where
  memory := reset_wf
  mapper := initMapper_ok
  sound := .inl rfl
  tape := tapeOk_empty 0x00
  sched := schedOk_iteration rfl

/-- The memory reset writes memory, the mapper, the dirty lines, the keys, the sound latch and the PIA, and nothing else. -/
theorem memReset_eq (s : State) (rom : List Byte) (ps : List (Word × Byte)) :
    s.memReset rom ps = { s with
      mem := (s.memReset rom ps).mem
      mapper := initMapper
      dirty := Vector.replicate 200 false
      keys := Vector.replicate 256 false
      snd := 0x00
      pia := { ora := 0x00, orb := 0x00, ddra := 0x00, ddrb := 0x00, cra := 0x00, crb := 0x00 } } :=
  applyPatches_eq ps (s.memReset rom [])

/-- The machine after the memory reset of power-on satisfies the invariant. -/
theorem createdState_memReset_inv (w : PowerOnDraws) {rom : List Byte} (h : rom.length = romImageBytes)
    (ps : List (Word × Byte)) : Inv ((createdState w).memReset rom ps) := by
  have hwf := memReset_wf (createdState w) h ps
  rw [memReset_eq] at hwf ⊢
  exact ⟨hwf, initMapper_ok, .inl rfl, tapeOk_empty w.tb, schedOk_iteration rfl⟩

/-- The CPU reset changes registers alone, which the invariant does not read (70_reset_and_hazards.md R500). -/
theorem cpuReset_inv {s : State} (h : Inv s) : Inv s.cpuReset := by
  rw [cpuReset_eq]
  exact ⟨h.memory, h.mapper, h.sound, h.tape, h.sched⟩

/-- The CPU reset with the two bytes of the RESET vector (70_reset_and_hazards.md R500, 60_exceptions.md R462). -/
theorem cpuReset_eq_vector (s : State) :
    s.cpuReset = { s with
      cpu := { s.cpu with pc := s.memRead 0xFFFE ++ s.memRead 0xFFFF, dp := 0x00, s := 0x8000, cc := 0x00 } } :=
  cpuReset_eq s

/-- Settles O9: power-on is the memory reset of the machine as created, and then the CPU reset. -/
theorem resetInv : Obligations.ResetInv := by
  refine ⟨reset_inv, fun rom patches w hrom htraps => ⟨_, powerOn_next hrom htraps w,
    cpuReset_inv (createdState_memReset_inv w hrom patches), ?_⟩⟩
  have hcreated := memReset_eq (createdState w) rom patches
  generalize (createdState w).memReset rom patches = s at *
  have hcpu : s.cpu = (createdState w).cpu := by rw [hcreated]
  have hcyc : s.cyc = 0 := by rw [hcreated]; rfl
  have hirq : s.irqPrev = false := by rw [hcreated]; rfl
  rw [cpuReset_eq_vector]
  refine ⟨hcyc, hirq, ?_⟩
  rw [hcpu]
  rfl

/-! ## Soft and hard reset (70_reset_and_hazards.md R504 to R506) -/

/-- After a hard reset a byte reads 0 if an address of the range reaches it and as before otherwise. -/
theorem hardReset_read (s : State) (range : List Word) (k : Nat) :
    (s.hardReset range).mem.read k = if k ∈ range.map s.phys then 0x00 else s.mem.read k := by
  unfold State.hardReset
  rw [cpuReset_eq]
  exact zeroRange_read range s k

theorem hardReset_mapper (s : State) (range : List Word) : (s.hardReset range).mapper = s.mapper := by
  unfold State.hardReset
  rw [cpuReset_eq, zeroRange_eq]

/-- A hard reset changes memory and the registers of the CPU reset, and nothing else. -/
theorem hardReset_eq (s : State) (range : List Word) :
    s.hardReset range = { s with
      mem := (s.hardReset range).mem
      cpu := { s.cpu with
        pc := (s.hardReset range).memRead 0xFFFE ++ (s.hardReset range).memRead 0xFFFF
        dp := 0x00, s := 0x8000, cc := 0x00 } } := by
  obtain ⟨m, hzero⟩ : ∃ m, zeroRange range s = { s with mem := m } := ⟨_, zeroRange_eq range s⟩
  unfold State.hardReset
  rw [hzero, cpuReset_eq_vector]
  rfl

/-- With a legal mapper, P_HARD_RESET_RANGE reaches no byte of the ROM pages (10_state.md R36). -/
theorem phys_hardResetRange_lt {s : State} (hm : mapperOk s.mapper) {a : Word} (ha : a ∈ hardResetRange) :
    s.phys a < 14 * 4096 := by
  have hram := (mem_hardResetRange ha).1
  refine phys_lt_of_not_rom ?_
  rw [mapperOk_isRom hm]
  exact decide_eq_false (by omega)

/-- With a legal mapper, a hard reset keeps a byte that no address of its range names. -/
theorem hardReset_memRead_other {s : State} (hm : mapperOk s.mapper) {range : List Word} {a : Word} (ha : a ∉ range) :
    (s.hardReset range).memRead a = s.memRead a := by
  unfold State.memRead
  rw [State.phys_congr (hardReset_mapper s range), hardReset_read, if_neg]
  intro hmem
  obtain ⟨b, hb, e⟩ := List.mem_map.mp hmem
  exact ha (mapperOk_phys_injective hm e ▸ hb)

/-- No PIA shadow byte is in P_HARD_RESET_RANGE (10_state.md R36). -/
theorem piaAddr_notMem_hardResetRange {a : Word} (ha : a ∈ ([0xA7C0, 0xA7C1, 0xA7C2, 0xA7C3] : List Word)) :
    a ∉ hardResetRange := by
  have hpia : oraAddr.toNat ≤ a.toNat ∧ a.toNat ≤ crbAddr.toNat := by
    simp only [List.mem_cons, List.not_mem_nil, or_false] at ha
    obtain rfl | rfl | rfl | rfl := ha <;> decide
  exact fun hmem => (mem_hardResetRange hmem).2 hpia

/-- Settles O58: both resets end with the CPU reset, and the hard one first zeroes its range. -/
theorem cpuResets : Obligations.CpuResets := by
  refine fun s => ⟨cpuReset_eq_vector s, rfl, fun hm => ⟨fun k hk => ?rom, fun a ha => ?pia⟩,
    fun range => ⟨fun a ha => ?zeroed, fun k hk => ?kept, hardReset_eq s range⟩⟩
  case rom =>
    refine (hardReset_read s hardResetRange k).trans (if_neg fun hmem => ?_)
    obtain ⟨a, ha, rfl⟩ := List.mem_map.mp hmem
    exact Nat.not_le.mpr (phys_hardResetRange_lt hm ha) hk
  case pia => exact hardReset_memRead_other hm (piaAddr_notMem_hardResetRange ha)
  case zeroed =>
    unfold State.memRead
    rw [State.phys_congr (hardReset_mapper s range), hardReset_read, if_pos (List.mem_map_of_mem ha)]
  case kept => rw [hardReset_read, if_neg hk]

end Sys2Proof.Machine
end
